-- ==== Sys2Proof/Word.lean ====
section
/-! DEFINITION. The word and byte types of the command interface. -/

namespace Sys2Proof

/-- A command word or a response word: a 32-bit value, no byte string (R80, R101, R106). -/
abbrev Word := BitVec 32

/-- One byte of a payload or of a buffer (R44, R80). -/
abbrev Byte := BitVec 8

/-- The 23-bit operand field of a command word (R102). -/
abbrev Imm := BitVec 23

end Sys2Proof
end

