-- ==== Sys2Proof/Syntax.lean ====
section
/-! DEFINITION. The commands: one constructor of `Instr` per row of spec/opcode_table.json. -/

namespace Sys2Proof

/-- A channel: `tx` moves host to device, `rx` device to host (R10, R33). -/
inductive Channel where
  | tx
  | rx
deriving DecidableEq, Repr, Inhabited

/-- The transfer direction of a channel (R33). -/
inductive Direction where
  | toDevice
  | fromDevice
deriving DecidableEq, Repr

/-- A decoded command word, its fields as R102 to R104 read them. -/
inductive Instr where
  /-- `RING_INIT`: initialize(capacity, direction), R130. -/
  | ringInit (ch : Channel) (n : Imm)
  /-- `RING_TEARDOWN`: teardown(), R137. -/
  | ringTeardown (ch : Channel)
  /-- `RING_NEXT`: next(index), R139. -/
  | ringNext (ch : Channel) (i : Imm)
  /-- `RING_ISCOMPLETE`: isComplete(index), R140. -/
  | ringIsComplete (ch : Channel) (i : Imm)
  /-- `RING_LENGTH`: length(index), R141. -/
  | ringLength (ch : Channel) (i : Imm)
  /-- `RX_DRAIN`: drain(budget), R161. -/
  | rxDrain (budget : Imm)
  /-- `RX_IRQ`: the receive interrupt handler, R166. -/
  | rxIrq
  /-- `RX_POLL`: the budgeted poll, R167. -/
  | rxPoll
  /-- `TX_SEND`: send(buffer, length), R191; the payload is the command's, not the word's (R105). -/
  | txSend (len : Imm)
  /-- `TX_IRQ`: the transmit interrupt handler, R198. -/
  | txIrq
  /-- `DEV_BRINGUP`: bring-up, R222. -/
  | devBringup
  /-- `DEV_SHUTDOWN`: shutdown, R227. -/
  | devShutdown
  /-- `PORT_READ_STATUS`: readStatus(), R251. -/
  | portReadStatus (ch : Channel)
  /-- `PORT_READ_CONTROL`: readControl(), R252. -/
  | portReadControl (ch : Channel)
  /-- `PORT_START`: start(), R253. -/
  | portStart (ch : Channel)
  /-- `PORT_STOP`: stop(), R254. -/
  | portStop (ch : Channel)
  /-- `PORT_RESET`: reset(), R255. -/
  | portReset (ch : Channel)
  /-- `PORT_IRQ_ENABLE`: enableCompletionInterrupts(), R256. -/
  | portIrqEnable (ch : Channel)
  /-- `PORT_IRQ_DISABLE`: disableCompletionInterrupts(), R257. -/
  | portIrqDisable (ch : Channel)
  /-- `PORT_IRQ_ACK`: acknowledgeInterrupt(), R258. -/
  | portIrqAck (ch : Channel)
  /-- `PORT_SET_CURDESC`: setCurrentDescriptorAddress(addr), the operand a descriptor index, R259. -/
  | portSetCurdesc (ch : Channel) (i : Imm)
  /-- `PORT_SET_TAILDESC`: setTailDescriptorAddress(addr), the operand a descriptor index, R260. -/
  | portSetTaildesc (ch : Channel) (i : Imm)
  /-- `PORT_CFG_COALESCE`: configureDelayAndThreshold(delay, threshold), R261. -/
  | portCfgCoalesce (ch : Channel) (delay : BitVec 15) (threshold : BitVec 8)
deriving DecidableEq, Repr

end Sys2Proof
end

