-- ==== Sys2Proof/Config.lean ====
section
/-! DEFINITION. The parameters of R5 as plain data, the constraints R6 puts on them, the test configuration T
of 95_test_vectors, the vocabulary of a schedule, and the free values. -/

namespace Sys2Proof

/-- The implementation parameters of R5, every one a field that no rule writes (R66). -/
structure Config where
  /-- `N_TX`, capacity of the TO_DEVICE ring. -/
  nTx : Nat
  /-- `N_RX`, capacity of the FROM_DEVICE ring. -/
  nRx : Nat
  /-- `BUF_SIZE`, bytes in each descriptor's buffer. -/
  bufSize : Nat
  /-- `MAX_FRAME`, the greatest length `send` accepts. -/
  maxFrame : Nat
  /-- `BUDGET`, the budget of each scheduled drain. -/
  budget : Nat
  /-- `ADDR_W`, width of a device address in bits. -/
  addrW : Nat
  /-- `ERR_W`, width of a descriptor's error bits. -/
  errW : Nat
  /-- `addrOf_TX` as a table: entry `i` is the device address of descriptor `i`. -/
  addrTx : List Nat
  /-- `addrOf_RX` as a table. -/
  addrRx : List Nat
  /-- `COAL_THRESH_RESET`. -/
  coalThreshReset : Nat
  /-- `COAL_DELAY_RESET`. -/
  coalDelayReset : Nat
  /-- `QUIESCE_POLLS`. -/
  quiescePolls : Nat
  /-- `DEVICE_MAY_FAIL`. -/
  deviceMayFail : Bool
  /-- `NUM_CALLERS`. -/
  numCallers : Nat
deriving DecidableEq, Repr

/-- The constraints of R5; a configuration that breaks one is ill-formed (R6). -/
def Config.wf (c : Config) : Bool :=
  decide (3 ≤ c.nTx) && (decide (2 ≤ c.nRx)
  && (decide (1 ≤ c.bufSize) && (decide (c.bufSize < 2 ^ 23)
  && (decide (1 ≤ c.maxFrame) && (decide (c.maxFrame ≤ c.bufSize)
  && (decide (1 ≤ c.budget) && (decide (c.budget < 2 ^ 23)
  && (decide (1 ≤ c.addrW)
  && (decide (c.addrTx.length = c.nTx) && (decide (c.addrTx.Nodup)
  && (c.addrTx.all (fun a => decide (a < 2 ^ c.addrW))
  && (decide (c.addrRx.length = c.nRx) && (decide (c.addrRx.Nodup)
  && (c.addrRx.all (fun a => decide (a < 2 ^ c.addrW))
  && (decide (1 ≤ c.coalThreshReset) && (decide (1 ≤ c.quiescePolls)
  && decide (1 ≤ c.numCallers)))))))))))))))))

/-- Configuration T of 95_test_vectors section 0; "test values chosen for this file", no claim about the real
system. `ADDR_W`, `ERR_W` and the address tables are "any" there. DESIGN CHOICE, unsafe (log 1). -/
def Config.t : Config where
  nTx := 4
  nRx := 8
  bufSize := 2048
  maxFrame := 1024
  budget := 2
  addrW := 32
  errW := 2
  addrTx := [0x1000, 0x1040, 0x1080, 0x10C0]
  addrRx := [0x2000, 0x2040, 0x2080, 0x20C0, 0x2100, 0x2140, 0x2180, 0x21C0]
  coalThreshReset := 1
  coalDelayReset := 0
  quiescePolls := 2
  deviceMayFail := false
  numCallers := 1

/-- Which agent steps next, and how (R7, R11; log 3, log 4). A choice whose step is not enabled changes nothing. -/
inductive Choice where
  /-- `CALLER[k]` runs its next command from its first atomic step to its end (or to a wait), no other agent's
  step in between. -/
  | command (k : Nat)
  /-- `CALLER[k]` fetches its next command and takes its first atomic step only. -/
  | start (k : Nat)
  /-- The operation in flight of `CALLER[k]` takes its next atomic step. -/
  | advance (k : Nat)
  /-- `IRQ_ch` enters its handler (R316) and runs it to its end, no other agent's step in between. -/
  | handle (ch : Channel)
  /-- `IRQ_ch` takes its entry step only (R316). -/
  | enter (ch : Channel)
  /-- The handler of `IRQ_ch` takes its next atomic step. -/
  | advanceIrq (ch : Channel)
  /-- `DEFER` starts a poll (R110) and runs it to its end (or to a wait). -/
  | poll
  /-- `DEFER` starts a poll, nothing more. -/
  | startPoll
  /-- The poll in flight takes its next atomic step. -/
  | advancePoll
  /-- `ENG_TX` completes the head of its window (R281). -/
  | txComplete
  /-- The environment delivers a frame and `ENG_RX` completes the head of its window (R282). -/
  | rxComplete
  /-- Delay expiry of the engine of `ch` (R285). -/
  | delay (ch : Channel)
  /-- The engine of `ch` halts (R286). -/
  | halt (ch : Channel)
  /-- The engine of `ch` fails (R287). -/
  | fail (ch : Channel)
  /-- The word in the trace slot runs alone (log 11). -/
  | trace
deriving DecidableEq, Repr, Inhabited

/-- Free value: the order of the agents' steps once the schedule in State is used up (93 I21; log 3). -/
opaque Config.freeChoice : Nat → Choice

/-- Free value: an `allocate` draw, `none` a failure, `some a` a buffer at device address `a` (R86; log 5). -/
opaque Config.freeAlloc : Nat → Option Nat

/-- Free value: a `startOk` draw (R253; log 5). -/
opaque Config.freeStartOk : Nat → Bool

/-- Free value: an `rxFrame` draw (R282; log 5). -/
opaque Config.freeFrame : Nat → List Byte

/-- Free value: an `errBits` draw (R283; log 5). -/
opaque Config.freeErrBits : Nat → Nat

/-- Free value: the status length of an errored transmit completion (R281, 93 I20; log 5). -/
opaque Config.freeTxLen : Nat → Nat

end Sys2Proof
end

