-- ==== Sys2Proof/WellFormed.lean ====
section
/-! DEFINITION. The operand checks of R112 that need the configuration or the payload: with them a decoded
command is well-formed in its place. -/

namespace Sys2Proof

/-- Capacity of the ring of a channel, `N_ch` (R5, R38). -/
def Config.cap (c : Config) : Channel → Nat
  | .tx => c.nTx
  | .rx => c.nRx

/-- R112, second and third bullet: the index of a ring query is below `N_ch`, and the payload of a `TX_SEND`
has at least its length. Every other command is well-formed as decoded; a `TX_SEND` length above `MAX_FRAME`
is well-formed. -/
def Instr.wellFormed (c : Config) (payloadLen : Nat) : Instr → Bool
  | .ringNext ch i => decide (i.toNat < c.cap ch)
  | .ringIsComplete ch i => decide (i.toNat < c.cap ch)
  | .ringLength ch i => decide (i.toNat < c.cap ch)
  | .txSend len => decide (len.toNat ≤ payloadLen)
  | .ringInit _ _ => true
  | .ringTeardown _ => true
  | .rxDrain _ => true
  | .rxIrq => true
  | .rxPoll => true
  | .txIrq => true
  | .devBringup => true
  | .devShutdown => true
  | .portReadStatus _ => true
  | .portReadControl _ => true
  | .portStart _ => true
  | .portStop _ => true
  | .portReset _ => true
  | .portIrqEnable _ => true
  | .portIrqDisable _ => true
  | .portIrqAck _ => true
  | .portSetCurdesc _ _ => true
  | .portSetTaildesc _ _ => true
  | .portCfgCoalesce _ _ _ => true

end Sys2Proof
end

