-- ==== Sys2Proof/Decode.lean ====
section
/-! DEFINITION. Decoding of a command word (R102 to R104, R108, R111, R112, R114), the class of a command
(R109), and the encoder from the same table. -/

namespace Sys2Proof

/-- The opcode `w[31:24]` (R102). -/
def opField (w : Word) : BitVec 8 := w.extractLsb' 24 8

/-- The channel select bit `w[23]` (R102). -/
def chanBit (w : Word) : BitVec 1 := w.extractLsb' 23 1

/-- The operand `w[22:0]`, zero-extended when it is read (R102, R103). -/
def immField (w : Word) : Imm := w.extractLsb' 0 23

/-- The channel a select bit names: `0` TX, `1` RX (R102). -/
def channelOf (b : BitVec 1) : Channel := if b = 1#1 then .rx else .tx

/-- The select bit of a channel (R102). -/
def channelBit : Channel → BitVec 1
  | .tx => 0#1
  | .rx => 1#1

/-- What a word decodes to: exactly one of three things (R114). -/
inductive Decoded where
  | command (i : Instr)
  | reservedOpcode
  | malformedCommand
deriving DecidableEq, Repr

/-- A command whose reserved fields must be zero: malformed if they are not (R112). -/
def requireZero (zero : Bool) (i : Instr) : Decoded :=
  if zero then .command i else .malformedCommand

/-- Decode a command word (R114). Total: a word outside the opcode map is `ReservedOpcode` (R111), a word of the
map with a non-zero reserved field `MalformedCommand` (R112). -/
def decode (w : Word) : Decoded :=
  let op := opField w
  let ch := channelOf (chanBit w)
  let imm := immField w
  let immZero : Bool := imm == 0
  let chanZero : Bool := chanBit w == 0
  if op = 0x01#8 then .command (.ringInit ch imm)
  else if op = 0x02#8 then requireZero immZero (.ringTeardown ch)
  else if op = 0x03#8 then .command (.ringNext ch imm)
  else if op = 0x04#8 then .command (.ringIsComplete ch imm)
  else if op = 0x05#8 then .command (.ringLength ch imm)
  else if op = 0x10#8 then requireZero chanZero (.rxDrain imm)
  else if op = 0x11#8 then requireZero (chanZero && immZero) .rxIrq
  else if op = 0x12#8 then requireZero (chanZero && immZero) .rxPoll
  else if op = 0x20#8 then requireZero chanZero (.txSend imm)
  else if op = 0x21#8 then requireZero (chanZero && immZero) .txIrq
  else if op = 0x30#8 then requireZero (chanZero && immZero) .devBringup
  else if op = 0x31#8 then requireZero (chanZero && immZero) .devShutdown
  else if op = 0x40#8 then requireZero immZero (.portReadStatus ch)
  else if op = 0x41#8 then requireZero immZero (.portReadControl ch)
  else if op = 0x42#8 then requireZero immZero (.portStart ch)
  else if op = 0x43#8 then requireZero immZero (.portStop ch)
  else if op = 0x44#8 then requireZero immZero (.portReset ch)
  else if op = 0x45#8 then requireZero immZero (.portIrqEnable ch)
  else if op = 0x46#8 then requireZero immZero (.portIrqDisable ch)
  else if op = 0x47#8 then requireZero immZero (.portIrqAck ch)
  else if op = 0x48#8 then .command (.portSetCurdesc ch imm)
  else if op = 0x49#8 then .command (.portSetTaildesc ch imm)
  else if op = 0x4A#8 then .command (.portCfgCoalesce ch (imm.extractLsb' 8 15) (imm.extractLsb' 0 8))
  else .reservedOpcode

/-- The decoder on the bits of an opcode-table row: the word is 32 bits, bit 0 the least significant, and bits
at or above `nbits` are zero. -/
def decodeTableWord (nbits w : Nat) : Option Instr :=
  match decode (BitVec.ofNat 32 (w % 2 ^ nbits)) with
  | .command i => some i
  | .reservedOpcode => none
  | .malformedCommand => none

/-- `{op, c, imm}` (R102, R116). -/
def assemble (op : BitVec 8) (c : BitVec 1) (imm : Imm) : Word := op ++ c ++ imm

/-- The command word of a command, from the opcode map (R102, R103, R108). -/
def encode : Instr → Word
  | .ringInit ch n => assemble 0x01#8 (channelBit ch) n
  | .ringTeardown ch => assemble 0x02#8 (channelBit ch) 0
  | .ringNext ch i => assemble 0x03#8 (channelBit ch) i
  | .ringIsComplete ch i => assemble 0x04#8 (channelBit ch) i
  | .ringLength ch i => assemble 0x05#8 (channelBit ch) i
  | .rxDrain b => assemble 0x10#8 0 b
  | .rxIrq => assemble 0x11#8 0 0
  | .rxPoll => assemble 0x12#8 0 0
  | .txSend l => assemble 0x20#8 0 l
  | .txIrq => assemble 0x21#8 0 0
  | .devBringup => assemble 0x30#8 0 0
  | .devShutdown => assemble 0x31#8 0 0
  | .portReadStatus ch => assemble 0x40#8 (channelBit ch) 0
  | .portReadControl ch => assemble 0x41#8 (channelBit ch) 0
  | .portStart ch => assemble 0x42#8 (channelBit ch) 0
  | .portStop ch => assemble 0x43#8 (channelBit ch) 0
  | .portReset ch => assemble 0x44#8 (channelBit ch) 0
  | .portIrqEnable ch => assemble 0x45#8 (channelBit ch) 0
  | .portIrqDisable ch => assemble 0x46#8 (channelBit ch) 0
  | .portIrqAck ch => assemble 0x47#8 (channelBit ch) 0
  | .portSetCurdesc ch i => assemble 0x48#8 (channelBit ch) i
  | .portSetTaildesc ch i => assemble 0x49#8 (channelBit ch) i
  | .portCfgCoalesce ch d t => assemble 0x4A#8 (channelBit ch) (d ++ t)

/-- The class of a command: who may issue it (R109). -/
inductive CommandClass where
  | caller
  | irqRxOnly
  | irqTxOnly
  | deferOnly
  | internal
deriving DecidableEq, Repr

/-- The class column of the opcode map (R108). -/
def Instr.commandClass : Instr → CommandClass
  | .ringInit _ _ => .internal
  | .ringTeardown _ => .internal
  | .ringNext _ _ => .caller
  | .ringIsComplete _ _ => .caller
  | .ringLength _ _ => .caller
  | .rxDrain _ => .caller
  | .rxIrq => .irqRxOnly
  | .rxPoll => .deferOnly
  | .txSend _ => .caller
  | .txIrq => .irqTxOnly
  | .devBringup => .caller
  | .devShutdown => .caller
  | .portReadStatus _ => .internal
  | .portReadControl _ => .internal
  | .portStart _ => .internal
  | .portStop _ => .internal
  | .portReset _ => .internal
  | .portIrqEnable _ => .internal
  | .portIrqDisable _ => .internal
  | .portIrqAck _ => .internal
  | .portSetCurdesc _ _ => .internal
  | .portSetTaildesc _ _ => .internal
  | .portCfgCoalesce _ _ _ => .internal

/-- The spelling `tx|rx` of a channel in the assembler (R116). -/
def channelAsm : Channel → String
  | .tx => "tx"
  | .rx => "rx"

/-- The assembler line of a command (R116); a `TX_SEND` line also names its frame, which is not the word's. -/
def Instr.asm : Instr → String
  | .ringInit ch n => "ring.init " ++ channelAsm ch ++ ", " ++ toString n.toNat
  | .ringTeardown ch => "ring.teardown " ++ channelAsm ch
  | .ringNext ch i => "ring.next " ++ channelAsm ch ++ ", " ++ toString i.toNat
  | .ringIsComplete ch i => "ring.iscomplete " ++ channelAsm ch ++ ", " ++ toString i.toNat
  | .ringLength ch i => "ring.length " ++ channelAsm ch ++ ", " ++ toString i.toNat
  | .rxDrain b => "rx.drain " ++ toString b.toNat
  | .rxIrq => "rx.irq"
  | .rxPoll => "rx.poll"
  | .txSend l => "tx.send " ++ toString l.toNat
  | .txIrq => "tx.irq"
  | .devBringup => "dev.bringup"
  | .devShutdown => "dev.shutdown"
  | .portReadStatus ch => "port.status " ++ channelAsm ch
  | .portReadControl ch => "port.control " ++ channelAsm ch
  | .portStart ch => "port.start " ++ channelAsm ch
  | .portStop ch => "port.stop " ++ channelAsm ch
  | .portReset ch => "port.reset " ++ channelAsm ch
  | .portIrqEnable ch => "port.irqen " ++ channelAsm ch
  | .portIrqDisable ch => "port.irqdis " ++ channelAsm ch
  | .portIrqAck ch => "port.ack " ++ channelAsm ch
  | .portSetCurdesc ch i => "port.setcur " ++ channelAsm ch ++ ", " ++ toString i.toNat
  | .portSetTaildesc ch i => "port.settail " ++ channelAsm ch ++ ", " ++ toString i.toNat
  | .portCfgCoalesce ch d t =>
    "port.coalesce " ++ channelAsm ch ++ ", " ++ toString d.toNat ++ ", " ++ toString t.toNat

end Sys2Proof
end

