-- ==== Sys2Proof/Machine/State.lean ====
section
/-! DEFINITION. The state of the machine (R30), the reasons a step can stop, and the state after reset (R350). -/

namespace Sys2Proof.Machine

/-- The lifecycle of the Device (R31, R220). -/
inductive Life where
  | uninitialized
  | ready
  | running
  | stopped
deriving DecidableEq, Repr

/-- The agents that step (R7), and the model's own `trace`, in whose name an internal operation runs alone
(log 11). -/
inductive Agent where
  | caller (k : Nat)
  | irqTx
  | irqRx
  | defer
  | engTx
  | engRx
  | trace
deriving DecidableEq, Repr

/-- A channel's lock (R34). -/
inductive Lock where
  | free
  | held (a : Agent)
deriving DecidableEq, Repr

/-- The ownership tag of a descriptor (R41). -/
inductive Own where
  | free
  | posted
  | completed
deriving DecidableEq, Repr

/-- The control flags of a descriptor (R42). -/
structure Ctrl where
  len : Nat
  sop : Bool
  eop : Bool
deriving DecidableEq, Repr

/-- The status flags of a descriptor (R43). -/
structure Status where
  cmplt : Bool
  err : Nat
  len : Nat
deriving DecidableEq, Repr

/-- The bytes of one buffer that have been written, by offset (R44): offsets strictly rising. An offset that is
not listed is `unwritten` and has no value (R77, R86). -/
abbrev Memory := List Host.Cell

/-- A descriptor's buffer (R44). -/
structure Buffer where
  handle : Nat
  devAddr : Nat
  bytes : Memory
deriving DecidableEq, Repr

/-- A descriptor (R40); its link to the next slot is `next(i)` and is not stored. -/
structure Desc where
  own : Own
  ctrl : Ctrl
  st : Status
  buf : Buffer
deriving DecidableEq, Repr

/-- A ring (R38): `cap` is `N`, `desc` the array `D[0 .. N-1]`. -/
structure Ring where
  cap : Nat
  curr : Nat
  tail : Nat
  backing : Nat
  desc : List Desc
deriving DecidableEq, Repr

/-- A channel record (R32); the direction is the constant `channelDir`, the mode and schedule flag of the RX
channel are `State.rxMode` and `State.rxSched`. -/
structure Chan where
  ring : Option Ring
  lock : Lock
  /-- `irqToken`: true is `registered`, false is `none` (R37). -/
  irqToken : Bool
deriving DecidableEq, Repr

/-- The mode flag of the RX channel (R35). -/
inductive RxMode where
  | interrupting
  | polling
deriving DecidableEq, Repr

/-- A device engine: the CONTROL fields (R50), the STATUS fields (R51), the position fields (R52) and the hidden
counter (R53). -/
structure Engine where
  runStop : Bool
  irqEn : Bool
  coalThresh : Nat
  coalDelay : Nat
  halted : Bool
  iocPend : Bool
  dlyPend : Bool
  errHalt : Bool
  hwCur : Nat
  hwTail : Nat
  tailValid : Bool
  coalCount : Nat
deriving DecidableEq, Repr

/-- Where a drain stands between its atomic steps (R161). -/
inductive DrainPos where
  | acquire
  | checkLife
  | loop (work : Nat)
  | writeTail (work : Nat)
  | finish (work : Nat)
deriving DecidableEq, Repr

/-- Where a send stands between its atomic steps (R191); `t` is the descriptor armed. -/
inductive SendPos where
  | acquire
  | checkLife
  | reclaim
  | post
  | writeTail (t : Nat)
  | finish
deriving DecidableEq, Repr

/-- Where a bring-up stands (R222 lines 2 to 14, R223); the Booleans are the locals `s.running` and `ok[TX]`. -/
inductive BringupPos where
  | initTx
  | initRx
  | ready
  | tokenTx
  | tokenRx
  | curTx
  | curRx
  | enable (ch : Channel)
  | startEng (ch : Channel)
  | status (ch : Channel) (okTx : Bool)
  | control (ch : Channel) (okTx running : Bool)
  | rollDisable (ch : Channel)
  | rollStop (ch : Channel)
  | rollback
  | run
  | writeTail
  | finish
deriving DecidableEq, Repr

/-- Where a shutdown stands (R227 lines 2 to 7); `polls` is how many status reads are left (R228), the Booleans
are the locals `h[TX]` and `h[RX]`. -/
inductive ShutdownPos where
  | lock (ch : Channel)
  | unlock (ch : Channel)
  | disable (ch : Channel)
  | stop (ch : Channel)
  | quiesce (ch : Channel) (polls : Nat) (hTx : Bool)
  | tokens (hTx hRx : Bool)
  | teardown (hTx hRx : Bool)
  | finish
deriving DecidableEq, Repr

/-- The operation of a caller: idle, or in flight with its locals and its position (R56). -/
inductive CallerOp where
  | idle
  | drain (budget : Nat) (pos : DrainPos)
  | send (len : Nat) (payload : List Byte) (pos : SendPos)
  | bringup (pos : BringupPos)
  | shutdown (pos : ShutdownPos)
deriving DecidableEq, Repr

/-- One command of a stream: its word, and the payload operand of a `TX_SEND` (R101, R105). -/
structure Command where
  word : Word
  payload : List Byte
deriving DecidableEq, Repr

/-- A call-context agent (R56) with its command stream (R101; a parameter of the step relation, log 2). -/
structure Caller where
  stream : List Command
  pc : Nat
  op : CallerOp
  resp : List Word
  wait : Bool
deriving DecidableEq, Repr

/-- The position of `IRQ_TX` in its handler (R57, R198). -/
inductive TxIrqOp where
  | idle
  | ack
  | ret
deriving DecidableEq, Repr

/-- The position of `IRQ_RX` in its handler (R57, R166). -/
inductive RxIrqOp where
  | idle
  | readStatus
  | notHandled
  | ack
  | disable
  | schedule
deriving DecidableEq, Repr

/-- The position of `DEFER` in its poll (R58, R167). -/
inductive PollOp where
  | idle
  | drain (pos : DrainPos)
  | enable (work : Nat)
  | ret (work : Nat)
deriving DecidableEq, Repr

/-- `IRQ_TX` with its response list (R57, R317). -/
structure TxIrqAgent where
  op : TxIrqOp
  resp : List Word
deriving DecidableEq, Repr

/-- `IRQ_RX` with its response list (R57, R317). -/
structure RxIrqAgent where
  op : RxIrqOp
  resp : List Word
deriving DecidableEq, Repr

/-- `DEFER` with its response list (R58, R167). -/
structure PollAgent where
  op : PollOp
  resp : List Word
deriving DecidableEq, Repr

/-- A teardown record (R59, R228). -/
inductive TdRecord where
  | leaked (ch : Channel)
  | freed (ch : Channel)
deriving DecidableEq, Repr

/-- The fault reasons of R318. A fault is recorded in `State.faults` and stops its agent; the machine goes on, so
it is a next state. Safe: no rule gives the faulting step an effect. The last two are the model's own (log 13). -/
inductive FaultReason where
  /-- A software access that breaks the ownership table (R76). -/
  | ownershipViolation (ch : Channel) (i : Nat)
  /-- A buffer read that meets an unwritten byte (R77). -/
  | unwrittenRead (ch : Channel) (i : Nat)
  /-- An allocation made with a lock held (R90). -/
  | blockingUnderLock (a : Agent)
  /-- `initialize` of a channel that has a ring (R136). -/
  | ringExists (ch : Channel)
  /-- `teardown` while the engine may still touch the ring (R138). -/
  | teardownWhileActive (ch : Channel)
  /-- An engine at a descriptor that is not `POSTED`, or with no ring (R288). -/
  | descriptorNotPosted (ch : Channel) (i : Nat)
  /-- `ENG_TX` at a descriptor of length zero (R288). -/
  | zeroLengthTx (i : Nat)
  /-- A current-descriptor write on an engine that is not halted (R259). -/
  | curDescWhileRunning (ch : Channel)
  /-- A port address that names no descriptor (R250); `none`: the operand index is outside the domain of
  `addrOf_ch`, so there is no address to record (log 7). -/
  | badDescriptorAddress (ch : Channel) (a : Option Nat)
  /-- A coalescing threshold of 0 (R261). -/
  | badThreshold (ch : Channel)
  /-- MODEL'S OWN: an operation meets no ring, or a ring with no descriptor `i`. Safe (log 13). -/
  | noDescriptor (ch : Channel) (i : Nat)
  /-- MODEL'S OWN: a copy of more bytes than descriptor `i`'s buffer has. Safe (log 13). -/
  | beyondBuffer (ch : Channel) (i : Nat)
deriving DecidableEq, Repr

/-- The refusal reasons of R319. A refusal is recorded in `State.refused` and stops its agent: a next state. -/
inductive RefusalMark where
  /-- A capacity operand that is not the configuration's `N_ch` (R6, R130, R136; log 12). -/
  | illFormedConfig
  | reservedOpcode (k pc : Nat)
  | malformedCommand (k pc : Nat)
  | notIssuable (k pc : Nat)
  | lifecycleState (k pc : Nat)
deriving DecidableEq, Repr

/-- What the last internal operation that ran alone returned (log 11). -/
inductive Ret where
  /-- Nothing returned. -/
  | nothing
  /-- A response word (R106), of `initialize` or `teardown`. -/
  | word (r : Word)
  /-- The value of `readStatus` (R251). -/
  | status (running iocPend dlyPend errHalt : Bool)
  /-- The value of `readControl` (R252). -/
  | control (runStop irqEn : Bool) (coalThresh coalDelay : Nat)
deriving DecidableEq, Repr

/-- The environment's answers still to be given (R329), in order; a list that is used up gives way to a free value
(log 5). -/
structure Draws where
  /-- `allocate`: `none` a failure, `some a` success at device address `a` (R86). -/
  alloc : List (Option Nat)
  /-- `startOk` (R253). -/
  startOk : List Bool
  /-- `rxFrame`, the frame's bytes (R282). -/
  frame : List (List Byte)
  /-- `errBits` (R283). -/
  errBits : List Nat
  /-- The status length of an errored transmit (R281). -/
  txLen : List Nat
deriving DecidableEq, Repr

/-- The state (R30): first the spec's own fields, then what the spec makes an argument of the step relation (log 1,
log 2, log 3, log 5), then the model's own (log 4, log 6, log 9, log 11). -/
structure State where
  /-- R31 -/
  life : Life
  /-- R31 -/
  lcBusy : Bool
  /-- `C[TX]` (R32) -/
  chanTx : Chan
  /-- `C[RX]` (R32) -/
  chanRx : Chan
  /-- `C[RX].mode` (R35) -/
  rxMode : RxMode
  /-- `C[RX].sched` (R36) -/
  rxSched : Bool
  /-- `E[TX]` (R50 to R53) -/
  engTx : Engine
  /-- `E[RX]` (R50 to R53) -/
  engRx : Engine
  /-- `CALLER[k]` (R56) -/
  callers : List Caller
  /-- R57 -/
  irqTx : TxIrqAgent
  /-- R57 -/
  irqRx : RxIrqAgent
  /-- R58 -/
  defer : PollAgent
  /-- R59 -/
  wireLog : List (List Byte)
  /-- R59, R163: the bytes and the length delivered. -/
  sinkLog : List (List Byte × Nat)
  /-- R59, R86: the live handles, no repeats. -/
  allocated : List Nat
  /-- R59, R228 -/
  tdLog : List TdRecord
  /-- R60, R318: no repeats, in the order recorded. -/
  faults : List FaultReason
  /-- R60, R319: the mark is "not empty". -/
  refused : List RefusalMark
  /-- The parameters of R5; no step writes it (log 1). -/
  cfg : Config
  /-- The choices still to be taken of which agent steps (log 3). -/
  schedule : List Choice
  /-- Counter the free choice is applied to (log 3). -/
  ticks : Nat
  /-- The environment's answers still to be given (log 5). -/
  draws : Draws
  /-- Counter the free draws are applied to (log 5). -/
  drawn : Nat
  /-- The agents with no further step (R10, R319; log 9). -/
  stopped : List Agent
  /-- The number of the next handle (log 6). -/
  nextHandle : Nat
  /-- The caller whose command runs (log 4). -/
  active : Nat
  /-- A command word to be run alone (log 11). -/
  trace : Option Word
  /-- What the last internal operation run alone returned (log 11). -/
  ret : Ret
deriving DecidableEq, Repr

/-- Why the whole machine stops. -/
inductive Fault where
  /-- Raised by `step` alone, on a value of `State` that is no state of the machine: the number of callers is not
  `NUM_CALLERS`, or a ring or an engine has an index or a capacity outside R38, R39, R52. Safe: no run reaches
  such a value (log 13). -/
  | illFormedState
deriving DecidableEq, Repr

/-- Why the model gives a step no meaning. -/
inductive Refusal where
  /-- Raised by `exec` alone, for an instruction that has no meaning yet. Safe. -/
  | notModelled (mnemonic : String)
  /-- Raised by `step`: the configuration breaks a constraint of R5, and "a model refuses it" (R6, R319). Safe. -/
  | illFormedConfig
  /-- Raised by `step`: the word in the trace slot decodes to no command that may run there (log 11). Safe. -/
  | traceWord
deriving DecidableEq, Repr

/-- The reset values of an engine (R352). -/
def engineReset (c : Config) : Engine where
  runStop := false
  irqEn := false
  coalThresh := c.coalThreshReset
  coalDelay := c.coalDelayReset
  halted := true
  iocPend := false
  dlyPend := false
  errHalt := false
  hwCur := 0
  hwTail := 0
  tailValid := false
  coalCount := 0

/-- A channel record at reset (R350). -/
def chanReset : Chan where
  ring := none
  lock := .free
  irqToken := false

/-- A caller at reset (R353), with its command stream. -/
def callerReset (stream : List Command) : Caller where
  stream := stream
  pc := 0
  op := .idle
  resp := []
  wait := false

/-- No answer of the environment is fixed in advance (log 5). -/
def Draws.none : Draws where
  alloc := []
  startOk := []
  frame := []
  errBits := []
  txLen := []

/-- The reset state (R350) under a configuration, command streams (one per caller; a caller without one has the
empty stream), a schedule and the environment's answers. -/
def State.resetWith (c : Config) (streams : List (List Command)) (schedule : List Choice) (draws : Draws) :
    State where
  life := .uninitialized
  lcBusy := false
  chanTx := chanReset
  chanRx := chanReset
  rxMode := .interrupting
  rxSched := false
  engTx := engineReset c
  engRx := engineReset c
  callers := (List.range c.numCallers).map fun k => callerReset (streams.getD k [])
  irqTx := { op := .idle, resp := [] }
  irqRx := { op := .idle, resp := [] }
  defer := { op := .idle, resp := [] }
  wireLog := []
  sinkLog := []
  allocated := []
  tdLog := []
  faults := []
  refused := []
  cfg := c
  schedule := schedule
  ticks := 0
  draws := draws
  drawn := 0
  stopped := []
  nextHandle := 0
  active := 0
  trace := none
  ret := .nothing

/-- The machine after reset: configuration T, no program, nothing scheduled, no answer fixed (log 1, log 2,
log 3, log 5). -/
def State.reset : State := State.resetWith Config.t [] [] Draws.none

end Sys2Proof.Machine
end

