-- ==== Sys2Proof/Machine/Operands.lean ====
section
/-! DEFINITION. Operand forms: index arithmetic modulo the capacity (R12, R142), the index and address operands
(R71, R103, R250), the payload operand (R105), the admission of a command word (R111 to R114, R312). -/

namespace Sys2Proof.Machine

/-- `next_N(i) = (i + 1) mod N` (R12, R139, R142). -/
def next (n i : Nat) : Nat := (i + 1) % n

/-- `dist_N(a, b) = (b - a) mod N` (R12). -/
def dist (n a b : Nat) : Nat := (b + (n - a % n)) % n

/-- `prev(i) = (i - 1) mod N` (R9, R47). -/
def prev (n i : Nat) : Nat := (i + (n - 1)) % n

/-- The direction of a channel, a constant (R33). -/
def channelDir : Channel → Direction
  | .tx => .toDevice
  | .rx => .fromDevice

/-- The address table of a channel, `addrOf_ch` (R5, R71). -/
def addrTable (c : Config) : Channel → List Nat
  | .tx => c.addrTx
  | .rx => c.addrRx

/-- `addrOf_ch(i)`; none outside its domain `[0, N_ch)` (R71; log 7). -/
def addrOf (c : Config) (ch : Channel) (i : Nat) : Option Nat := (addrTable c ch)[i]?

/-- `addrOf_ch^-1(a)`; none outside the image of `addrOf_ch` (R250). -/
def indexOf (c : Config) (ch : Channel) (a : Nat) : Option Nat := (addrTable c ch).idxOf? a

/-- The address operand of a port operation, converted to an index (R250): a fault where it names no
descriptor. -/
def addrOperand (c : Config) (ch : Channel) (addr : Option Nat) : Except FaultReason Nat :=
  match addr with
  | none => .error (.badDescriptorAddress ch none)
  | some a =>
    match indexOf c ch a with
    | none => .error (.badDescriptorAddress ch (some a))
    | some i => .ok i

/-- What becomes of a command word at a caller's `pc`, in the order of R312. -/
inductive Admission where
  | run (i : Instr)
  | reservedOpcode
  | malformedCommand
  | notIssuable
deriving DecidableEq, Repr

/-- Admission of a caller's command: reserved opcode (R111), malformed word or operand (R112), class (R113). -/
def admission (c : Config) (cmd : Command) : Admission :=
  match decode cmd.word with
  | .reservedOpcode => .reservedOpcode
  | .malformedCommand => .malformedCommand
  | .command i =>
    if i.wellFormed c cmd.payload.length then
      if i.commandClass = .caller then .run i else .notIssuable
    else .malformedCommand

end Sys2Proof.Machine
end

