-- ==== Sys2Proof/Machine/Flags.lean ====
section
/-! DEFINITION. What is computed from the flags and fields of a channel and its engine (R65): the engine window
(R61), the interrupt line (R315), the result codes (R107), and the views `readStatus` and `readControl` give. -/

namespace Sys2Proof.Machine

/-- The channel record `C[ch]`. -/
def State.chan (s : State) : Channel → Chan
  | .tx => s.chanTx
  | .rx => s.chanRx

/-- The engine `E[ch]`. -/
def State.eng (s : State) : Channel → Engine
  | .tx => s.engTx
  | .rx => s.engRx

/-- The window is empty (R61): no tail write yet, or `hwCur = next(hwTail)`. -/
def windowEmpty (n : Nat) (e : Engine) : Bool :=
  !e.tailValid || e.hwCur == next n e.hwTail

/-- The window of an engine (R61), its head first. -/
def windowOf (n : Nat) (e : Engine) : List Nat :=
  if windowEmpty n e then []
  else (List.range (dist n e.hwCur e.hwTail + 1)).map fun j => (e.hwCur + j) % n

/-- `window(ch)` (R61). -/
def State.window (s : State) (ch : Channel) : List Nat := windowOf (s.cfg.cap ch) (s.eng ch)

/-- The interrupt line of a channel, a level (R315). -/
def State.line (s : State) (ch : Channel) : Bool :=
  (s.eng ch).irqEn && ((s.eng ch).iocPend || (s.eng ch).dlyPend)

/-- The result codes (R107). -/
inductive Code where
  | ok
  | allocationError
  | deviceStartError
  | ringFull
  | invalidLength
  | channelNotReady
  | notHandled
deriving DecidableEq, Repr

/-- The number of a result code (R107). -/
def codeBits : Code → BitVec 4
  | .ok => 0
  | .allocationError => 1
  | .deviceStartError => 2
  | .ringFull => 3
  | .invalidLength => 4
  | .channelNotReady => 5
  | .notHandled => 6

/-- The response word `{code, 0000, value}` (R106). -/
def respWord (c : Code) (v : Nat) : Word := codeBits c ++ 0#4 ++ BitVec.ofNat 24 v

/-- A Boolean as the value of a response (R140). -/
def flagValue (b : Bool) : Nat := if b then 1 else 0

/-- What `readStatus` returns (R251). -/
structure StatusView where
  running : Bool
  iocPend : Bool
  dlyPend : Bool
  errHalt : Bool
deriving DecidableEq, Repr

/-- What `readControl` returns (R252). -/
structure ControlView where
  runStop : Bool
  irqEn : Bool
  coalThresh : Nat
  coalDelay : Nat
deriving DecidableEq, Repr

/-- "Status cleared" (R43). -/
def clearedStatus : Status where
  cmplt := false
  err := 0
  len := 0

/-- Outstanding descriptors of a TO_DEVICE ring (R49). -/
def Ring.outstandingTx (r : Ring) : Nat := dist r.cap r.curr r.tail

end Sys2Proof.Machine
end

