-- ==== Sys2Proof/Machine/Ops.lean ====
section
/-! DEFINITION. The shared operations over the state: updates, faults and refusals (R318, R319), responses (R106,
R64), interrupt entry and return (R316, R317), locks (R88), the environment's draws (R329), the allocator (R86) and
buffer memory (R77, R78). -/

namespace Sys2Proof.Machine

/-! ## Updates of one part of the state -/

/-- Write the channel record `C[ch]`. -/
def State.setChan (s : State) (ch : Channel) (c : Chan) : State :=
  match ch with
  | .tx => { s with chanTx := c }
  | .rx => { s with chanRx := c }

/-- Write the engine `E[ch]`. -/
def State.setEng (s : State) (ch : Channel) (e : Engine) : State :=
  match ch with
  | .tx => { s with engTx := e }
  | .rx => { s with engRx := e }

/-- The ring of a channel. -/
def State.ring (s : State) (ch : Channel) : Option Ring := (s.chan ch).ring

/-- `C[ch].ring <- r`. -/
def State.setRing (s : State) (ch : Channel) (r : Option Ring) : State :=
  s.setChan ch { s.chan ch with ring := r }

/-- `C[ch].irqToken <- t` (R37). -/
def State.setToken (s : State) (ch : Channel) (t : Bool) : State :=
  s.setChan ch { s.chan ch with irqToken := t }

/-- `C[ch].lock <- l` (R34). -/
def State.setLock (s : State) (ch : Channel) (l : Lock) : State :=
  s.setChan ch { s.chan ch with lock := l }

/-- `CALLER[k]`; an agent that does not exist reads as one with an empty stream. -/
def State.caller (s : State) (k : Nat) : Caller := s.callers.getD k (callerReset [])

/-- Write `CALLER[k]`; nothing happens where there is none. -/
def State.setCaller (s : State) (k : Nat) (c : Caller) : State :=
  { s with callers := s.callers.set k c }

/-- The lock an operation is about to acquire (R88). -/
def acquiring : CallerOp → Option Channel
  | .idle => none
  | .drain _ .acquire => some .rx
  | .drain _ .checkLife => none
  | .drain _ (.loop _) => none
  | .drain _ (.writeTail _) => none
  | .drain _ (.finish _) => none
  | .send _ _ .acquire => some .tx
  | .send _ _ .checkLife => none
  | .send _ _ .reclaim => none
  | .send _ _ .post => none
  | .send _ _ (.writeTail _) => none
  | .send _ _ .finish => none
  | .bringup _ => none
  | .shutdown (.lock ch) => some ch
  | .shutdown (.unlock _) => none
  | .shutdown (.disable _) => none
  | .shutdown (.stop _) => none
  | .shutdown (.quiesce _ _ _) => none
  | .shutdown (.tokens _ _) => none
  | .shutdown (.teardown _ _) => none
  | .shutdown .finish => none

/-- `op[k] <- op`; `CALLER[k]` waits exactly while it stands at an acquire (R56, R88; log 17). -/
def State.setOp (s : State) (k : Nat) (op : CallerOp) : State :=
  s.setCaller k { s.caller k with op := op, wait := (acquiring op).isSome }

/-- Write descriptor `i` of a ring. -/
def Ring.setDesc (r : Ring) (i : Nat) (d : Desc) : Ring := { r with desc := r.desc.set i d }

/-- Put an element into a set held as a list without repeats. -/
def addNew {α : Type} [DecidableEq α] (x : α) (l : List α) : List α := if x ∈ l then l else l ++ [x]

/-! ## Faults, refusals, responses -/

/-- `fault f` by agent `a`: the reason is recorded, and the agent has no further step (R10, R318). This is how
every fault is taken; the spec has no trap, no vector and no saved state (R313). -/
def State.raiseFault (s : State) (a : Agent) (f : FaultReason) : State :=
  { s with faults := addNew f s.faults, stopped := addNew a s.stopped }

/-- `refuse m` of agent `a`: the mark is set, and the agent has no further step (R319). -/
def State.refuse (s : State) (a : Agent) (m : RefusalMark) : State :=
  { s with refused := addNew m s.refused, stopped := addNew a s.stopped }

/-- Agent `a` has no further step (R10, R319). -/
def State.isStopped (s : State) (a : Agent) : Bool := decide (a ∈ s.stopped)

/-- A caller's operation returns: the response word is appended, `pc` advances by 1, the operation is over (R64,
R106, R313). -/
def State.respond (s : State) (k : Nat) (c : Code) (v : Nat) : State :=
  s.setCaller k
    { s.caller k with
      pc := (s.caller k).pc + 1, op := .idle, resp := (s.caller k).resp ++ [respWord c v], wait := false }

/-- A poll returns (R167). -/
def State.pollRespond (s : State) (c : Code) (v : Nat) : State :=
  { s with defer := { op := .idle, resp := s.defer.resp ++ [respWord c v] } }

/-- Interrupt entry (R316): `IRQ_ch.op` goes to the start of the channel's handler; nothing is saved, and nothing
else changes. -/
def State.irqEntry (s : State) (ch : Channel) : State :=
  match ch with
  | .tx => { s with irqTx := { s.irqTx with op := .ack } }
  | .rx => { s with irqRx := { s.irqRx with op := .readStatus } }

/-- Interrupt return (R317): the response goes to the interrupt agent's list, `IRQ_ch.op <- idle`, nothing is
restored. -/
def State.irqReturn (s : State) (ch : Channel) (c : Code) (v : Nat) : State :=
  match ch with
  | .tx => { s with irqTx := { op := .idle, resp := s.irqTx.resp ++ [respWord c v] } }
  | .rx => { s with irqRx := { op := .idle, resp := s.irqRx.resp ++ [respWord c v] } }

/-- How an atomic step of an operation ends: the operation goes on at a position, waits on for a lock, returns a
result, or its agent has faulted or was refused. -/
inductive Progress (π : Type) where
  | goto (p : π) (s : State)
  | wait (s : State)
  | done (c : Code) (v : Nat) (s : State)
  | stop (s : State)

/-- Go on with a state, or take the fault in the name of `a`. -/
def orFault {π : Type} (a : Agent) (s : State) (r : Except FaultReason State) (k : State → Progress π) :
    Progress π :=
  match r with
  | .ok s' => k s'
  | .error f => .stop (s.raiseFault a f)

/-! ## Locks -/

/-- `acquire(C[ch].lock)` (R88): enabled only when the lock is free; while it is held the agent waits, and nothing
changes. -/
def acquireLock {π : Type} (a : Agent) (ch : Channel) (s : State) (p : π) : Progress π :=
  match (s.chan ch).lock with
  | .free => .goto p (s.setLock ch (.held a))
  | .held _ => .wait s

/-- `release(C[ch].lock)` (R88). -/
def State.release (s : State) (ch : Channel) : State := s.setLock ch .free

/-- Agent `a` holds a channel lock (R90). -/
def State.holdsLock (s : State) (a : Agent) : Bool :=
  decide (s.chanTx.lock = .held a) || decide (s.chanRx.lock = .held a)

/-! ## Draws of the environment -/

/-- An `allocate` draw (R86). -/
def State.drawAlloc (s : State) : Option Nat × State :=
  match s.draws.alloc with
  | d :: ds => (d, { s with draws := { s.draws with alloc := ds } })
  | [] => (Config.freeAlloc s.drawn, { s with drawn := s.drawn + 1 })

/-- A `startOk` draw (R253). -/
def State.drawStartOk (s : State) : Bool × State :=
  match s.draws.startOk with
  | d :: ds => (d, { s with draws := { s.draws with startOk := ds } })
  | [] => (Config.freeStartOk s.drawn, { s with drawn := s.drawn + 1 })

/-- An `rxFrame` draw of at most `max` bytes (R282; log 8). -/
def State.drawFrame (s : State) (max : Nat) : List Byte × State :=
  match s.draws.frame with
  | d :: ds => (d.take max, { s with draws := { s.draws with frame := ds } })
  | [] => ((Config.freeFrame s.drawn).take max, { s with drawn := s.drawn + 1 })

/-- The error bits of a completion (R283): 0 unless the device may fail, else an `ERR_W`-bit draw (log 8). -/
def State.drawErrBits (s : State) : Nat × State :=
  if s.cfg.deviceMayFail then
    match s.draws.errBits with
    | d :: ds => (d % 2 ^ s.cfg.errW, { s with draws := { s.draws with errBits := ds } })
    | [] => (Config.freeErrBits s.drawn % 2 ^ s.cfg.errW, { s with drawn := s.drawn + 1 })
  else (0, s)

/-- The status length of an errored transmit, in `[0, max]` (R281; log 8). -/
def State.drawTxLen (s : State) (max : Nat) : Nat × State :=
  match s.draws.txLen with
  | d :: ds => (min d max, { s with draws := { s.draws with txLen := ds } })
  | [] => (min (Config.freeTxLen s.drawn) max, { s with drawn := s.drawn + 1 })

/-! ## Allocator -/

/-- Two buffers of `size` bytes at these device addresses do not overlap (R72). -/
def apart (size a b : Nat) : Bool := decide (a + size ≤ b) || decide (b + size ≤ a)

/-- The device addresses of the buffers of a ring (R44). -/
def ringAddrs : Option Ring → List Nat
  | none => []
  | some r => r.desc.map fun d => d.buf.devAddr

/-- The device addresses of all live buffers. -/
def State.bufAddrs (s : State) : List Nat := ringAddrs s.chanTx.ring ++ ringAddrs s.chanRx.ring

/-- `allocate(size)` (R86): a failure, or a fresh handle with an `ADDR_W`-bit device address; a success adds the
handle to `allocated` (log 6). `fits` is what the environment must keep to (R329); an answer that does not is brought
into its range as a failure (log 8). -/
def State.allocate (s : State) (fits : Nat → Bool) : Option (Nat × Nat) × State :=
  match s.drawAlloc with
  | (none, s') => (none, s')
  | (some a, s') =>
    if fits (a % 2 ^ s'.cfg.addrW) then
      (some (s'.nextHandle, a % 2 ^ s'.cfg.addrW),
        { s' with allocated := s'.allocated ++ [s'.nextHandle], nextHandle := s'.nextHandle + 1 })
    else (none, s')

/-- A ring's backing memory: its descriptors have the addresses `addrOf_ch`, so no answer is ruled out (R71; log 7). -/
def State.allocateBacking (s : State) : Option (Nat × Nat) × State := s.allocate fun _ => true

/-- `allocate(BUF_SIZE)`: the buffer overlaps none that is live, nor one of the addresses `taken` (R72, R329). -/
def State.allocateBuffer (s : State) (taken : List Nat) : Option (Nat × Nat) × State :=
  s.allocate fun a => (s.bufAddrs ++ taken).all (apart s.cfg.bufSize a)

/-- `free(hostHandle)` (R86). -/
def State.freeHandle (s : State) (h : Nat) : State :=
  { s with allocated := s.allocated.filter fun x => decide (x ≠ h) }

/-- Free the buffers of a list, in order. -/
def State.freeBuffers (s : State) (bs : List Buffer) : State :=
  bs.foldl (fun t b => t.freeHandle b.handle) s

/-! ## Buffer memory -/

/-- The byte at an offset, none where it is `unwritten` (R44, R77). -/
def Memory.read : Memory → Nat → Option Byte
  | [], _ => none
  | (a, b) :: m, i => if i = a then some b else Memory.read m i

/-- Write one byte; the offsets stay strictly rising (R78). -/
def Memory.write : Memory → Nat → Byte → Memory
  | [], i, v => [(i, v)]
  | (a, b) :: m, i, v =>
    if i < a then (i, v) :: (a, b) :: m
    else if i = a then (i, v) :: m
    else (a, b) :: Memory.write m i v

/-- `n` bytes from offset `a`, none if one of them is `unwritten` (R77). -/
def Memory.readFrom (m : Memory) : Nat → Nat → Option (List Byte)
  | 0, _ => some []
  | n + 1, a =>
    match Memory.read m a, Memory.readFrom m n (a + 1) with
    | some b, some bs => some (b :: bs)
    | _, _ => none

/-- Write a list of bytes from offset `a` (R78). -/
def Memory.writeFrom (m : Memory) : Nat → List Byte → Memory
  | _, [] => m
  | a, b :: bs => Memory.writeFrom (Memory.write m a b) (a + 1) bs

/-- The canonical form: offsets strictly rising and inside the buffer. An unlisted offset has no value, so no
entry can equal what it reads as. -/
abbrev Memory.wf (size : Nat) (m : Memory) : Prop :=
  m.Pairwise (fun x y => x.1 < y.1) ∧ ∀ x ∈ m, x.1 < size

/-- `MemRead(ch, i, n)` of a descriptor's buffer (R77). -/
def memRead (size : Nat) (ch : Channel) (i n : Nat) (b : Buffer) : Except FaultReason (List Byte) :=
  if size < n then .error (.beyondBuffer ch i)
  else
    match Memory.readFrom b.bytes n 0 with
    | some v => .ok v
    | none => .error (.unwrittenRead ch i)

/-- `MemWrite(ch, i, n, v)` with `n` the length of `v` (R78). -/
def memWrite (size : Nat) (ch : Channel) (i : Nat) (v : List Byte) (b : Buffer) : Except FaultReason Buffer :=
  if size < v.length then .error (.beyondBuffer ch i)
  else .ok { b with bytes := Memory.writeFrom b.bytes 0 v }

/-- Software may touch a descriptor's `ctrl`, `st` and buffer only while it is not `POSTED` (R74, R76). -/
def softwareMay (ch : Channel) (i : Nat) (d : Desc) : Except FaultReason Unit :=
  if d.own = .posted then .error (.ownershipViolation ch i) else .ok ()

end Sys2Proof.Machine
end

