-- ==== Sys2Proof/Machine/PortOps.lean ====
section
/-! DEFINITION. The eleven operations of the device control port (R250 to R261), each one atomic step on the engine
of one channel. The meanings of the PORT commands and every flow of the block call these. -/

namespace Sys2Proof.Machine

/-- `readStatus()` (R251). -/
def portReadStatus (ch : Channel) (s : State) : StatusView where
  running := !(s.eng ch).halted
  iocPend := (s.eng ch).iocPend
  dlyPend := (s.eng ch).dlyPend
  errHalt := (s.eng ch).errHalt

/-- `readControl()` (R252). -/
def portReadControl (ch : Channel) (s : State) : ControlView where
  runStop := (s.eng ch).runStop
  irqEn := (s.eng ch).irqEn
  coalThresh := (s.eng ch).coalThresh
  coalDelay := (s.eng ch).coalDelay

/-- `start()` (R253): the draw is made only for an engine that is halted and has not failed. -/
def portStart (ch : Channel) (s : State) : State :=
  if (s.eng ch).halted && !(s.eng ch).errHalt then
    s.drawStartOk.2.setEng ch { s.eng ch with runStop := true, halted := !s.drawStartOk.1 }
  else s.setEng ch { s.eng ch with runStop := true }

/-- `stop()` (R254). -/
def portStop (ch : Channel) (s : State) : State :=
  s.setEng ch { s.eng ch with runStop := false }

/-- `reset()` (R255, R352). -/
def portReset (ch : Channel) (s : State) : State :=
  s.setEng ch (engineReset s.cfg)

/-- `enableCompletionInterrupts()` (R256). -/
def portIrqEnable (ch : Channel) (s : State) : State :=
  s.setEng ch { s.eng ch with irqEn := true }

/-- `disableCompletionInterrupts()` (R257). -/
def portIrqDisable (ch : Channel) (s : State) : State :=
  s.setEng ch { s.eng ch with irqEn := false }

/-- `acknowledgeInterrupt()` (R258). -/
def portIrqAck (ch : Channel) (s : State) : State :=
  s.setEng ch { s.eng ch with iocPend := false, dlyPend := false }

/-- `setCurrentDescriptorAddress(addr)` (R259). -/
def portSetCurdesc (ch : Channel) (addr : Option Nat) (s : State) : Except FaultReason State :=
  if (s.eng ch).halted then
    match addrOperand s.cfg ch addr with
    | .ok i => .ok (s.setEng ch { s.eng ch with hwCur := i, tailValid := false })
    | .error f => .error f
  else .error (.curDescWhileRunning ch)

/-- `setTailDescriptorAddress(addr)` (R260). -/
def portSetTaildesc (ch : Channel) (addr : Option Nat) (s : State) : Except FaultReason State :=
  match addrOperand s.cfg ch addr with
  | .ok i => .ok (s.setEng ch { s.eng ch with hwTail := i, tailValid := true })
  | .error f => .error f

/-- `configureDelayAndThreshold(delay, threshold)` (R261). -/
def portCfgCoalesce (ch : Channel) (delay threshold : Nat) (s : State) : Except FaultReason State :=
  if threshold = 0 then .error (.badThreshold ch)
  else .ok (s.setEng ch { s.eng ch with coalDelay := delay, coalThresh := threshold })

end Sys2Proof.Machine
end

