-- ==== Sys2Proof/Machine/RingOps.lean ====
section
/-! DEFINITION. The ring primitives as the block's flows run them: initialize (R130 to R136), teardown (R137,
R138), the status queries (R140, R141), and the arming of a descriptor (R134, R194). -/

namespace Sys2Proof.Machine

/-- A descriptor of a new TO_DEVICE ring: `FREE`, `ctrl` zero, `st` cleared (R130, R132). -/
def freshDesc (b : Buffer) : Desc where
  own := .free
  ctrl := { len := 0, sop := false, eop := false }
  st := clearedStatus
  buf := b

/-- `ArmRx` (R134). -/
def armRx (bufSize : Nat) (d : Desc) : Desc :=
  { d with own := .posted, ctrl := { len := bufSize, sop := false, eop := false }, st := clearedStatus }

/-- `ArmTx` (R194); the tag is written with the copy (R195). -/
def armTx (len : Nat) (d : Desc) : Desc :=
  { d with ctrl := { len := len, sop := true, eop := true }, st := clearedStatus }

/-- The buffers of a ring, allocated in order; on a failure the ones allocated so far are freed, and no later draw
is made (R130, R131). -/
def allocBuffers : Nat → List Buffer → State → Option (List Buffer) × State
  | 0, acc, s => (some acc, s)
  | n + 1, acc, s =>
    match s.allocateBuffer (acc.map Buffer.devAddr) with
    | (none, s') => (none, s'.freeBuffers acc)
    | (some (h, a), s') => allocBuffers n (acc ++ [{ handle := h, devAddr := a, bytes := [] }]) s'

/-- The ring `initialize` makes (R130, R132, R133). -/
def newRing (c : Config) (ch : Channel) (n backing : Nat) (bufs : List Buffer) : Ring :=
  match channelDir ch with
  | .fromDevice =>
    { cap := n, curr := 0, tail := n - 2, backing := backing,
      desc := bufs.map fun b => armRx c.bufSize (freshDesc b) }
  | .toDevice =>
    { cap := n, curr := 0, tail := 0, backing := backing, desc := bufs.map freshDesc }

/-- How `initialize` ends. -/
inductive InitResult where
  | ok (s : State)
  | allocationError (s : State)
  | fault (f : FaultReason)

/-- `initialize(capacity, direction)` (R130), one atomic step, by agent `a`. -/
def ringInitialize (a : Agent) (ch : Channel) (n : Nat) (s : State) : InitResult :=
  if (s.ring ch).isSome then .fault (.ringExists ch)
  else if s.holdsLock a then .fault (.blockingUnderLock a)
  else
    match s.allocateBacking with
    | (none, s1) => .allocationError s1
    | (some (hb, _), s1) =>
      match allocBuffers n [] s1 with
      | (none, s2) => .allocationError (s2.freeHandle hb)
      | (some bufs, s2) => .ok (s2.setRing ch (some (newRing s.cfg ch n hb bufs)))

/-- `teardown()` (R137), one atomic step, with its precondition (R138). -/
def teardownRing (ch : Channel) (s : State) : Except FaultReason State :=
  match s.ring ch with
  | none => .ok s
  | some r =>
    if (s.eng ch).halted || windowEmpty r.cap (s.eng ch) then
      .ok (((s.freeBuffers (r.desc.map Desc.buf)).freeHandle r.backing).setRing ch none)
    else .error (.teardownWhileActive ch)

/-- A status query of one descriptor by a caller (R140, R141): one atomic step, no lock (R97). -/
def queryStatus (k : Nat) (ch : Channel) (i : Nat) (value : Status → Nat) (s : State) : State :=
  match s.ring ch with
  | none => s.respond k .channelNotReady 0
  | some r =>
    match r.desc[i]? with
    | none => s.raiseFault (.caller k) (.noDescriptor ch i)
    | some d => s.respond k .ok (value d.st)

end Sys2Proof.Machine
end

