-- ==== Sys2Proof/Machine/LifecycleOps.lean ====
section
/-! DEFINITION. The atomic steps of bring-up (R222 to R225) and shutdown (R227, R228). -/

namespace Sys2Proof.Machine

/-- A port operation of bring-up on the current-descriptor register, with `curr` of the channel's ring (R222 lines
7 and 8). -/
def bringupSetCur (a : Agent) (ch : Channel) (p : BringupPos) (s : State) : Progress BringupPos :=
  match s.ring ch with
  | none => .stop (s.raiseFault a (.noDescriptor ch 0))
  | some r => orFault a s (portSetCurdesc ch (addrOf s.cfg ch r.curr) s) fun s' => .goto p s'

/-- Tear down the TX ring, then the RX ring (R223). -/
def teardownBoth (s : State) : Except (FaultReason × State) State :=
  match teardownRing .tx s with
  | .error f => .error (f, s)
  | .ok s1 =>
    match teardownRing .rx s1 with
    | .error f => .error (f, s1)
    | .ok s2 => .ok s2

/-- The end of `Rollback()`, after its port operations (R223), and the result it raises. -/
def bringupRollback (a : Agent) (s : State) : Progress BringupPos :=
  match teardownBoth ((s.setToken .tx false).setToken .rx false) with
  | .error (f, s') => .stop (s'.raiseFault a f)
  | .ok s' => .done .deviceStartError 0 { s' with life := .uninitialized, lcBusy := false }

/-- Allocation of the RX ring; on a failure the TX ring is torn down (R222 line 3, R224). -/
def bringupInitRx (a : Agent) (s : State) : Progress BringupPos :=
  match ringInitialize a .rx s.cfg.nRx s with
  | .ok s' => .goto .ready s'
  | .fault f => .stop (s.raiseFault a f)
  | .allocationError s' =>
    match teardownRing .tx s' with
    | .error f => .stop (s'.raiseFault a f)
    | .ok s'' => .done .allocationError 0 { s'' with lcBusy := false }

/-- One atomic step of `BringUp()` by agent `a`, after its line 1 (R222). -/
def bringupStep (a : Agent) (pos : BringupPos) (s : State) : Progress BringupPos :=
  match pos with
  | .initTx =>
    match ringInitialize a .tx s.cfg.nTx s with
    | .ok s' => .goto .initRx s'
    | .allocationError s' => .done .allocationError 0 { s' with lcBusy := false }
    | .fault f => .stop (s.raiseFault a f)
  | .initRx => bringupInitRx a s
  | .ready => .goto .tokenTx { s with life := .ready }
  | .tokenTx => .goto .tokenRx (s.setToken .tx true)
  | .tokenRx => .goto .curTx (s.setToken .rx true)
  | .curTx => bringupSetCur a .tx .curRx s
  | .curRx => bringupSetCur a .rx (.enable .tx) s
  | .enable ch => .goto (.startEng ch) (portIrqEnable ch s)
  | .startEng .tx => .goto (.enable .rx) (portStart .tx s)
  | .startEng .rx => .goto (.status .tx false) (portStart .rx s)
  | .status ch okTx => .goto (.control ch okTx (portReadStatus ch s).running) s
  | .control .tx _ running => .goto (.status .rx (running && (portReadControl .tx s).irqEn)) s
  | .control .rx okTx running =>
    if okTx && (running && (portReadControl .rx s).irqEn) then .goto .run s else .goto (.rollDisable .tx) s
  | .rollDisable ch => .goto (.rollStop ch) (portIrqDisable ch s)
  | .rollStop .tx => .goto (.rollDisable .rx) (portStop .tx s)
  | .rollStop .rx => .goto .rollback (portStop .rx s)
  | .rollback => bringupRollback a s
  | .run => .goto .writeTail { s with rxMode := .interrupting, rxSched := false, life := .running }
  | .writeTail =>
    match s.ring .rx with
    | none => .stop (s.raiseFault a (.noDescriptor .rx 0))
    | some r => orFault a s (portSetTaildesc .rx (addrOf s.cfg .rx r.tail) s) fun s' => .goto .finish s'
  | .finish => .done .ok 0 { s with lcBusy := false }

/-- One channel of shutdown line 6: free the ring and log `freed`, or log `leaked` (R227, R228). -/
def shutdownFree (ch : Channel) (halted : Bool) (s : State) : Except FaultReason State :=
  if halted then
    match teardownRing ch s with
    | .error f => .error f
    | .ok s' => .ok { s' with tdLog := s'.tdLog ++ [.freed ch] }
  else .ok { s with tdLog := s.tdLog ++ [.leaked ch] }

/-- Shutdown line 6 (R227). -/
def shutdownTeardown (a : Agent) (hTx hRx : Bool) (s : State) : Progress ShutdownPos :=
  orFault a s (shutdownFree .tx hTx s) fun s1 =>
    orFault a s1 (shutdownFree .rx hRx s1) fun s2 => .goto .finish s2

/-- Where shutdown goes once `Quiesce(ch)` has answered `h` (R227 line 4). -/
def afterQuiesce (c : Config) (ch : Channel) (hTx h : Bool) : ShutdownPos :=
  match ch with
  | .tx => .quiesce .rx c.quiescePolls h
  | .rx => .tokens hTx h

/-- One status read of `Quiesce(ch)` with `polls` reads left (R228). -/
def quiesceStep (ch : Channel) (polls : Nat) (hTx : Bool) (s : State) : Progress ShutdownPos :=
  if !(portReadStatus ch s).running then .goto (afterQuiesce s.cfg ch hTx true) s
  else if polls ≤ 1 then .goto (afterQuiesce s.cfg ch hTx false) s
  else .goto (.quiesce ch (polls - 1) hTx) s

/-- One atomic step of `Shutdown()` by agent `a`, after its line 1 (R227). -/
def shutdownStep (a : Agent) (pos : ShutdownPos) (s : State) : Progress ShutdownPos :=
  match pos with
  | .lock ch => acquireLock a ch s (.unlock ch)
  | .unlock .tx => .goto (.lock .rx) (s.release .tx)
  | .unlock .rx => .goto (.disable .tx) (s.release .rx)
  | .disable ch => .goto (.stop ch) (portIrqDisable ch s)
  | .stop .tx => .goto (.disable .rx) (portStop .tx s)
  | .stop .rx => .goto (.quiesce .tx s.cfg.quiescePolls false) (portStop .rx s)
  | .quiesce ch polls hTx => quiesceStep ch polls hTx s
  | .tokens hTx hRx => .goto (.teardown hTx hRx) ((s.setToken .tx false).setToken .rx false)
  | .teardown hTx hRx => shutdownTeardown a hTx hRx s
  | .finish => .done .ok 0 { s with lcBusy := false }

end Sys2Proof.Machine
end

