-- ==== Sys2Proof/Machine/RxOps.lean ====
section
/-! DEFINITION. The atomic steps of the receive path: the drain (R161 to R165), the interrupt handler (R166) and
the poll (R167). -/

namespace Sys2Proof.Machine

/-- `deliver(bytes, L)` to the Frame Delivery Sink (R163). -/
def State.deliver (s : State) (bytes : List Byte) (len : Nat) : State :=
  { s with sinkLog := s.sinkLog ++ [(bytes, len)] }

/-- `DrainOne(c)` (R162) on the ring `r` whose descriptor at `curr` is `d`. -/
def drainOne (r : Ring) (d : Desc) (s : State) : Except FaultReason State :=
  match softwareMay .rx r.curr d with
  | .error f => .error f
  | .ok _ =>
    match memRead s.cfg.bufSize .rx r.curr d.st.len d.buf with
    | .error f => .error f
    | .ok bytes =>
      .ok ((s.deliver bytes d.st.len).setRing .rx (some
        { r.setDesc r.curr (armRx s.cfg.bufSize d) with curr := next r.cap r.curr, tail := next r.cap r.tail }))

/-- The loop of a drain (R161): one iteration, or its exit. -/
def drainLoop (a : Agent) (budget work : Nat) (s : State) : Progress DrainPos :=
  if budget ≤ work then .goto (.writeTail work) s
  else
    match s.ring .rx with
    | none => .stop (s.raiseFault a (.noDescriptor .rx 0))
    | some r =>
      match r.desc[r.curr]? with
      | none => .stop (s.raiseFault a (.noDescriptor .rx r.curr))
      | some d =>
        if d.st.cmplt then orFault a s (drainOne r d s) fun s' => .goto (.loop (work + 1)) s'
        else .goto (.writeTail work) s

/-- The drain's tail-register write with the `tail` the loop left (R164). -/
def drainWriteTail (a : Agent) (work : Nat) (s : State) : Progress DrainPos :=
  match s.ring .rx with
  | none => .stop (s.raiseFault a (.noDescriptor .rx 0))
  | some r => orFault a s (portSetTaildesc .rx (addrOf s.cfg .rx r.tail) s) fun s' => .goto (.finish work) s'

/-- One atomic step of `Drain(budget)` by agent `a` (R161). -/
def drainStep (a : Agent) (budget : Nat) (pos : DrainPos) (s : State) : Progress DrainPos :=
  match pos with
  | .acquire => acquireLock a .rx s .checkLife
  | .checkLife =>
    if s.life = .running then .goto (.loop 0) s else .done .channelNotReady 0 (s.release .rx)
  | .loop work => drainLoop a budget work s
  | .writeTail work => drainWriteTail a work s
  | .finish work => .done .ok work (s.release .rx)

/-- Move the RX handler to a position. -/
def State.setRxIrqOp (s : State) (op : RxIrqOp) : State := { s with irqRx := { s.irqRx with op := op } }

/-- One atomic step of the receive interrupt handler (R166). -/
def rxIrqStep (s : State) : State :=
  match s.irqRx.op with
  | .idle => s
  | .readStatus =>
    if (portReadStatus .rx s).iocPend || (portReadStatus .rx s).dlyPend then s.setRxIrqOp .ack
    else s.setRxIrqOp .notHandled
  | .notHandled => s.irqReturn .rx .notHandled 0
  | .ack => (portIrqAck .rx s).setRxIrqOp .disable
  | .disable => (portIrqDisable .rx s).setRxIrqOp .schedule
  | .schedule => { s with rxMode := .polling, rxSched := true }.irqReturn .rx .ok 0

/-- Move the poll to a position. -/
def State.setPollOp (s : State) (op : PollOp) : State := { s with defer := { s.defer with op := op } }

/-- What the poll does with its drain's result, in the step in which the drain returns (R167, R11; log 14). -/
def pollAfterDrain (c : Code) (work : Nat) (s : State) : State :=
  if c = .channelNotReady then { s with rxSched := false }.pollRespond .channelNotReady 0
  else if work = s.cfg.budget then s.pollRespond .ok work
  else { s with rxSched := false, rxMode := .interrupting }.setPollOp (.enable work)

/-- One atomic step of the poll (R167). -/
def pollStep (s : State) : State :=
  match s.defer.op with
  | .idle => s
  | .drain pos =>
    match drainStep .defer s.cfg.budget pos s with
    | .goto p s' => s'.setPollOp (.drain p)
    | .wait s' => s'
    | .done c work s' => pollAfterDrain c work s'
    | .stop s' => s'
  | .enable work => (portIrqEnable .rx s).setPollOp (.ret work)
  | .ret work => s.pollRespond .ok work

end Sys2Proof.Machine
end

