-- ==== Sys2Proof/Machine/TxOps.lean ====
section
/-! DEFINITION. The atomic steps of the transmit path: send (R191 to R197) with its reclaim (R192), and the
interrupt handler (R198). -/

namespace Sys2Proof.Machine

/-- One iteration of `Reclaim()` on a ring whose descriptor at `curr` is `d` (R192): the descriptor freed and `curr`
advanced, or none where the walk stops. -/
def reclaimOne (r : Ring) (d : Desc) : Option Ring :=
  if d.st.cmplt && next r.cap r.curr != r.tail then
    some { r.setDesc r.curr { d with own := .free } with curr := next r.cap r.curr }
  else none

/-- The reclaim of a send, one iteration (R192). -/
def sendReclaim (a : Agent) (s : State) : Progress SendPos :=
  match s.ring .tx with
  | none => .stop (s.raiseFault a (.noDescriptor .tx 0))
  | some r =>
    match r.desc[r.curr]? with
    | none => .stop (s.raiseFault a (.noDescriptor .tx r.curr))
    | some d =>
      match reclaimOne r d with
      | some r' => .goto .reclaim (s.setRing .tx (some r'))
      | none => .goto .post s

/-- Arm and copy (R194, R195) on descriptor `t`: the descriptor posted. -/
def postDesc (bufSize t len : Nat) (payload : List Byte) (d : Desc) : Except FaultReason Desc :=
  match softwareMay .tx t d with
  | .error f => .error f
  | .ok _ =>
    match memWrite bufSize .tx t (payload.take len) d.buf with
    | .error f => .error f
    | .ok b => .ok { armTx len d with own := .posted, buf := b }

/-- Admission, arm, copy and cursor advance, one atomic step (R193 to R196). -/
def sendPost (a : Agent) (len : Nat) (payload : List Byte) (s : State) : Progress SendPos :=
  match s.ring .tx with
  | none => .stop (s.raiseFault a (.noDescriptor .tx 0))
  | some r =>
    if next r.cap r.tail = r.curr then .done .ringFull 0 (s.release .tx)
    else
      match r.desc[r.tail]? with
      | none => .stop (s.raiseFault a (.noDescriptor .tx r.tail))
      | some d =>
        match postDesc s.cfg.bufSize r.tail len payload d with
        | .error f => .stop (s.raiseFault a f)
        | .ok d' =>
          .goto (.writeTail r.tail)
            (s.setRing .tx (some { r.setDesc r.tail d' with tail := next r.cap r.tail }))

/-- One atomic step of `Send(P, L)` by agent `a`, after its length check (R191). -/
def sendStep (a : Agent) (len : Nat) (payload : List Byte) (pos : SendPos) (s : State) : Progress SendPos :=
  match pos with
  | .acquire => acquireLock a .tx s .checkLife
  | .checkLife =>
    if s.life = .running then .goto .reclaim s else .done .channelNotReady 0 (s.release .tx)
  | .reclaim => sendReclaim a s
  | .post => sendPost a len payload s
  | .writeTail t => orFault a s (portSetTaildesc .tx (addrOf s.cfg .tx t) s) fun s' => .goto .finish s'
  | .finish => .done .ok len (s.release .tx)

/-- Move the TX handler to a position. -/
def State.setTxIrqOp (s : State) (op : TxIrqOp) : State := { s with irqTx := { s.irqTx with op := op } }

/-- One atomic step of the transmit interrupt handler (R198). -/
def txIrqStep (s : State) : State :=
  match s.irqTx.op with
  | .idle => s
  | .ack => (portIrqAck .tx s).setTxIrqOp .ret
  | .ret => s.irqReturn .tx .ok 0

end Sys2Proof.Machine
end

