-- ==== Sys2Proof/Machine/Agents.lean ====
section
/-! DEFINITION. The software agents: when each may step, one atomic step of each, and a whole operation of one agent
with no other agent's step in between (R7, R11, R56 to R58, R88, R316; log 3, log 4). -/

namespace Sys2Proof.Machine

/-- The lock of a channel is held by some agent. -/
def State.lockHeld (s : State) (ch : Channel) : Bool := decide ((s.chan ch).lock ≠ .free)

/-- `CALLER[k]` is at an acquire whose lock is held: it waits (R88). -/
def State.callerBlocked (s : State) (k : Nat) : Bool :=
  match acquiring (s.caller k).op with
  | none => false
  | some ch => s.lockHeld ch

/-- `CALLER[k]` exists, is idle and has not been stopped (R110). -/
def State.callerReady (s : State) (k : Nat) : Bool :=
  decide (k < s.callers.length) && decide ((s.caller k).op = .idle) && !s.isStopped (.caller k)

/-- The operation in flight of `CALLER[k]` has an atomic step to take: it is not stopped, and it is not at an acquire
whose lock is held (R88). -/
def State.callerCanAdvance (s : State) (k : Nat) : Bool :=
  decide (k < s.callers.length) && decide ((s.caller k).op ≠ .idle) && !s.isStopped (.caller k)
    && !s.callerBlocked k

/-- Write back how an atomic step of `CALLER[k]`'s operation ended. -/
def settleCaller {π : Type} (k : Nat) (inFlight : π → CallerOp) (p : Progress π) : State :=
  match p with
  | .goto q s => s.setOp k (inFlight q)
  | .wait s => s
  | .done c v s => s.respond k c v
  | .stop s => s

/-- One atomic step of the operation in flight of `CALLER[k]` (R11, R56). -/
def callerStep (k : Nat) (s : State) : State :=
  match (s.caller k).op with
  | .idle => s
  | .drain budget pos => settleCaller k (.drain budget) (drainStep (.caller k) budget pos s)
  | .send len payload pos => settleCaller k (.send len payload) (sendStep (.caller k) len payload pos s)
  | .bringup pos => settleCaller k .bringup (bringupStep (.caller k) pos s)
  | .shutdown pos => settleCaller k .shutdown (shutdownStep (.caller k) pos s)

/-- `IRQ_ch` is idle. -/
def State.irqIdle (s : State) : Channel → Bool
  | .tx => decide (s.irqTx.op = .idle)
  | .rx => decide (s.irqRx.op = .idle)

/-- The agent of a channel's interrupt line (R7). -/
def irqAgent : Channel → Agent
  | .tx => .irqTx
  | .rx => .irqRx

/-- The entry step of `IRQ_ch` is enabled (R316). -/
def State.entryEnabled (s : State) (ch : Channel) : Bool :=
  s.line ch && (s.chan ch).irqToken && s.irqIdle ch && !s.isStopped (irqAgent ch)

/-- The handler of `IRQ_ch` has an atomic step to take. -/
def State.irqCanAdvance (s : State) (ch : Channel) : Bool :=
  !s.irqIdle ch && !s.isStopped (irqAgent ch)

/-- One atomic step of the handler of `IRQ_ch` (R57). -/
def irqStep (ch : Channel) (s : State) : State :=
  match ch with
  | .tx => txIrqStep s
  | .rx => rxIrqStep s

/-- `DEFER` may start a poll (R110, R323). -/
def State.pollEnabled (s : State) : Bool :=
  s.rxSched && decide (s.defer.op = .idle) && !s.isStopped .defer

/-- The poll in flight has an atomic step to take: it is not at an acquire whose lock is held (R88). -/
def State.pollCanAdvance (s : State) : Bool :=
  decide (s.defer.op ≠ .idle) && !s.isStopped .defer
    && !(decide (s.defer.op = .drain .acquire) && s.lockHeld .rx)

/-- `DEFER` starts a poll (R110, R167). -/
def startPoll (s : State) : State := s.setPollOp (.drain .acquire)

/-- Take steps while they are enabled, at most as many as the fuel. -/
def runWhile (enabled : State → Bool) (stp : State → State) : Nat → State → State
  | 0, s => s
  | n + 1, s => if enabled s then runWhile enabled stp n (stp s) else s

/-- Fuel for a whole operation: more atomic steps than any operation takes with nobody's step in between (a drain
or a reclaim visits each descriptor once, `Quiesce` reads `QUIESCE_POLLS` times per engine). -/
def opFuel (c : Config) : Nat := c.nTx + c.nRx + 2 * c.quiescePolls + 40

/-- `CALLER[k]`'s operation in flight runs to its end, or until it waits for a lock (log 4). -/
def runCaller (k : Nat) (s : State) : State :=
  runWhile (fun t => t.callerCanAdvance k) (callerStep k) (opFuel s.cfg) s

/-- The handler of `IRQ_ch` runs to its end (log 4). -/
def runIrq (ch : Channel) (s : State) : State :=
  runWhile (fun t => t.irqCanAdvance ch) (irqStep ch) (opFuel s.cfg) s

/-- The poll runs to its end, or until it waits for the lock (log 4). -/
def runPoll (s : State) : State :=
  runWhile State.pollCanAdvance pollStep (opFuel s.cfg) s

/-! ## The first atomic step of each command that stays in flight -/

/-- The payload operand of the command at `pc[k]` (R105). -/
def State.payload (s : State) (k : Nat) : List Byte :=
  match (s.caller k).stream[(s.caller k).pc]? with
  | some cmd => cmd.payload
  | none => []

/-- `RX_DRAIN` begins: its next atomic step is the acquire (R161). -/
def startDrain (k budget : Nat) (s : State) : State := s.setOp k (.drain budget .acquire)

/-- `TX_SEND` begins: the length check, before the lock (R191). -/
def startSend (k len : Nat) (s : State) : State :=
  if s.cfg.maxFrame < len then s.respond k .invalidLength 0
  else s.setOp k (.send len (s.payload k) .acquire)

/-- `DEV_BRINGUP` begins: line 1 (R222, R230). -/
def startBringup (k : Nat) (s : State) : State :=
  if s.lcBusy || decide (s.life ≠ .uninitialized) then
    s.refuse (.caller k) (.lifecycleState k (s.caller k).pc)
  else { s with lcBusy := true }.setOp k (.bringup .initTx)

/-- `DEV_SHUTDOWN` begins: line 1 (R227, R230). -/
def startShutdown (k : Nat) (s : State) : State :=
  if s.lcBusy || decide (s.life ≠ .running) then
    s.refuse (.caller k) (.lifecycleState k (s.caller k).pc)
  else { s with lcBusy := true, life := .stopped }.setOp k (.shutdown (.lock .tx))

end Sys2Proof.Machine
end

