-- ==== Sys2Proof/Machine/Lifecycle.lean ====
section
/-! DEFINITION. The meanings of the lifecycle commands (log 4). Their atomic steps are in LifecycleOps.lean. -/

namespace Sys2Proof.Machine

/-- `DEV_BRINGUP` by the active caller (R221 to R225, R230). -/
def execDevBringup (s : State) : Host.Outcome State Fault Refusal :=
  .next (runCaller s.active (startBringup s.active s))

/-- `DEV_SHUTDOWN` by the active caller (R226 to R230). -/
def execDevShutdown (s : State) : Host.Outcome State Fault Refusal :=
  .next (runCaller s.active (startShutdown s.active s))

end Sys2Proof.Machine
end

