-- ==== Sys2Proof/Machine/Port.lean ====
section
/-! DEFINITION. The meanings of the PORT commands, each one port operation run alone; `ret` takes what a read
returns (log 11). -/

namespace Sys2Proof.Machine

/-- A port operation that may fault, run alone. -/
def portAlone (s : State) (r : Except FaultReason State) : State :=
  match r with
  | .ok s' => s'
  | .error f => s.raiseFault .trace f

/-- What `readStatus` returned, as the value of an operation run alone. -/
def statusRet (v : StatusView) : Ret := .status v.running v.iocPend v.dlyPend v.errHalt

/-- What `readControl` returned, as the value of an operation run alone. -/
def controlRet (v : ControlView) : Ret := .control v.runStop v.irqEn v.coalThresh v.coalDelay

/-- `PORT_READ_STATUS` (R251). -/
def execPortReadStatus (ch : Channel) (s : State) : Host.Outcome State Fault Refusal :=
  .next { s with ret := statusRet (portReadStatus ch s) }

/-- `PORT_READ_CONTROL` (R252). -/
def execPortReadControl (ch : Channel) (s : State) : Host.Outcome State Fault Refusal :=
  .next { s with ret := controlRet (portReadControl ch s) }

/-- `PORT_START` (R253). -/
def execPortStart (ch : Channel) (s : State) : Host.Outcome State Fault Refusal :=
  .next (portStart ch s)

/-- `PORT_STOP` (R254). -/
def execPortStop (ch : Channel) (s : State) : Host.Outcome State Fault Refusal :=
  .next (portStop ch s)

/-- `PORT_RESET` (R255). -/
def execPortReset (ch : Channel) (s : State) : Host.Outcome State Fault Refusal :=
  .next (portReset ch s)

/-- `PORT_IRQ_ENABLE` (R256). -/
def execPortIrqEnable (ch : Channel) (s : State) : Host.Outcome State Fault Refusal :=
  .next (portIrqEnable ch s)

/-- `PORT_IRQ_DISABLE` (R257). -/
def execPortIrqDisable (ch : Channel) (s : State) : Host.Outcome State Fault Refusal :=
  .next (portIrqDisable ch s)

/-- `PORT_IRQ_ACK` (R258). -/
def execPortIrqAck (ch : Channel) (s : State) : Host.Outcome State Fault Refusal :=
  .next (portIrqAck ch s)

/-- `PORT_SET_CURDESC` (R103, R259): "the port sends `addrOf_ch(i)`". -/
def execPortSetCurdesc (ch : Channel) (i : Imm) (s : State) : Host.Outcome State Fault Refusal :=
  .next (portAlone s (portSetCurdesc ch (addrOf s.cfg ch i.toNat) s))

/-- `PORT_SET_TAILDESC` (R103, R260). -/
def execPortSetTaildesc (ch : Channel) (i : Imm) (s : State) : Host.Outcome State Fault Refusal :=
  .next (portAlone s (portSetTaildesc ch (addrOf s.cfg ch i.toNat) s))

/-- `PORT_CFG_COALESCE` (R261). -/
def execPortCfgCoalesce (ch : Channel) (delay : BitVec 15) (threshold : BitVec 8) (s : State) :
    Host.Outcome State Fault Refusal :=
  .next (portAlone s (portCfgCoalesce ch delay.toNat threshold.toNat s))

end Sys2Proof.Machine
end

