-- ==== Sys2Proof/Machine/Ring.lean ====
section
/-! DEFINITION. The meanings of the RING commands. The caller commands run in the name of the active caller; the
internal ones run alone, and `ret` takes what they return (log 11). -/

namespace Sys2Proof.Machine

/-- `RING_INIT` (R130 to R136). The capacity operand is `N_ch`; another one is refused as the configuration it asks
for would be (R6, R38, R136; log 12). -/
def execRingInit (ch : Channel) (n : Imm) (s : State) : Host.Outcome State Fault Refusal :=
  .next (
    if n.toNat = s.cfg.cap ch then
      match ringInitialize .trace ch n.toNat s with
      | .ok s' => { s' with ret := .word (respWord .ok 0) }
      | .allocationError s' => { s' with ret := .word (respWord .allocationError 0) }
      | .fault f => s.raiseFault .trace f
    else s.refuse .trace .illFormedConfig)

/-- `RING_TEARDOWN` (R137, R138). -/
def execRingTeardown (ch : Channel) (s : State) : Host.Outcome State Fault Refusal :=
  .next (
    match teardownRing ch s with
    | .ok s' => { s' with ret := .word (respWord .ok 0) }
    | .error f => s.raiseFault .trace f)

/-- `RING_NEXT` (R139): reads no state and needs no ring. -/
def execRingNext (ch : Channel) (i : Imm) (s : State) : Host.Outcome State Fault Refusal :=
  .next (s.respond s.active .ok (next (s.cfg.cap ch) i.toNat))

/-- `RING_ISCOMPLETE` (R140). -/
def execRingIsComplete (ch : Channel) (i : Imm) (s : State) : Host.Outcome State Fault Refusal :=
  .next (queryStatus s.active ch i.toNat (fun st => flagValue st.cmplt) s)

/-- `RING_LENGTH` (R141). -/
def execRingLength (ch : Channel) (i : Imm) (s : State) : Host.Outcome State Fault Refusal :=
  .next (queryStatus s.active ch i.toNat (fun st => st.len) s)

end Sys2Proof.Machine
end

