-- ==== Sys2Proof/Machine/Rx.lean ====
section
/-! DEFINITION. The meanings of the receive commands: the whole operation of its agent, no other agent's step in
between (log 4). Its atomic steps are in RxOps.lean. -/

namespace Sys2Proof.Machine

/-- `RX_DRAIN` by the active caller (R160 to R165). -/
def execRxDrain (budget : Imm) (s : State) : Host.Outcome State Fault Refusal :=
  .next (runCaller s.active (startDrain s.active budget.toNat s))

/-- `RX_IRQ` by `IRQ_RX` (R166), from its entry step on; the entry's condition is R316's. -/
def execRxIrq (s : State) : Host.Outcome State Fault Refusal :=
  .next (runIrq .rx (s.irqEntry .rx))

/-- `RX_POLL` by `DEFER` (R167). -/
def execRxPoll (s : State) : Host.Outcome State Fault Refusal :=
  .next (runPoll (startPoll s))

end Sys2Proof.Machine
end

