-- ==== Sys2Proof/Machine/Tx.lean ====
section
/-! DEFINITION. The meanings of the transmit commands (log 4). Their atomic steps are in TxOps.lean. -/

namespace Sys2Proof.Machine

/-- `TX_SEND` by the active caller, with the payload of its command (R190 to R197). -/
def execTxSend (len : Imm) (s : State) : Host.Outcome State Fault Refusal :=
  .next (runCaller s.active (startSend s.active len.toNat s))

/-- `TX_IRQ` by `IRQ_TX` (R198), from its entry step on; the entry's condition is R316's. -/
def execTxIrq (s : State) : Host.Outcome State Fault Refusal :=
  .next (runIrq .tx (s.irqEntry .tx))

end Sys2Proof.Machine
end

