-- ==== Sys2Proof/Machine/Dispatch.lean ====
section
/-! DEFINITION. One arm per instruction. -/

namespace Sys2Proof.Machine

def exec (i : Instr) (s : State) : Host.Outcome State Fault Refusal :=
  match i with
  | .ringInit ch n => Sys2Proof.Machine.execRingInit ch n s
  | .ringTeardown ch => Sys2Proof.Machine.execRingTeardown ch s
  | .ringNext ch idx => Sys2Proof.Machine.execRingNext ch idx s
  | .ringIsComplete ch idx => Sys2Proof.Machine.execRingIsComplete ch idx s
  | .ringLength ch idx => Sys2Proof.Machine.execRingLength ch idx s
  | .rxDrain budget => Sys2Proof.Machine.execRxDrain budget s
  | .rxIrq => Sys2Proof.Machine.execRxIrq s
  | .rxPoll => Sys2Proof.Machine.execRxPoll s
  | .txSend len => Sys2Proof.Machine.execTxSend len s
  | .txIrq => Sys2Proof.Machine.execTxIrq s
  | .devBringup => Sys2Proof.Machine.execDevBringup s
  | .devShutdown => Sys2Proof.Machine.execDevShutdown s
  | .portReadStatus ch => Sys2Proof.Machine.execPortReadStatus ch s
  | .portReadControl ch => Sys2Proof.Machine.execPortReadControl ch s
  | .portStart ch => Sys2Proof.Machine.execPortStart ch s
  | .portStop ch => Sys2Proof.Machine.execPortStop ch s
  | .portReset ch => Sys2Proof.Machine.execPortReset ch s
  | .portIrqEnable ch => Sys2Proof.Machine.execPortIrqEnable ch s
  | .portIrqDisable ch => Sys2Proof.Machine.execPortIrqDisable ch s
  | .portIrqAck ch => Sys2Proof.Machine.execPortIrqAck ch s
  | .portSetCurdesc ch idx => Sys2Proof.Machine.execPortSetCurdesc ch idx s
  | .portSetTaildesc ch idx => Sys2Proof.Machine.execPortSetTaildesc ch idx s
  | .portCfgCoalesce ch delay threshold => Sys2Proof.Machine.execPortCfgCoalesce ch delay threshold s

end Sys2Proof.Machine
end

