-- ==== Sys2Proof/Machine/Engine.lean ====
section
/-! DEFINITION. The steps of the device engines (R280 to R291): no commands, taken whenever they are enabled. -/

namespace Sys2Proof.Machine

/-- The agent of a channel's engine (R7). -/
def engineAgent : Channel → Agent
  | .tx => .engTx
  | .rx => .engRx

/-- The engine runs: it has not halted, and its agent has not faulted (R280, R10). -/
def State.engRunning (s : State) (ch : Channel) : Bool :=
  !(s.eng ch).halted && !s.isStopped (engineAgent ch)

/-- A completion step is enabled (R280); a receive completion also waits on a frame, which the choice of the step
stands for (R282). -/
def State.completeEnabled (s : State) (ch : Channel) : Bool :=
  s.engRunning ch && !windowEmpty (s.cfg.cap ch) (s.eng ch)

/-- Delay expiry is enabled (R280, R285). -/
def State.delayEnabled (s : State) (ch : Channel) : Bool :=
  s.engRunning ch && decide ((s.eng ch).coalDelay ≠ 0) && decide (0 < (s.eng ch).coalCount)

/-- The halt step is enabled (R280, R286). -/
def State.haltEnabled (s : State) (ch : Channel) : Bool := s.engRunning ch && !(s.eng ch).runStop

/-- The fail step is enabled (R280, R287). -/
def State.failEnabled (s : State) (ch : Channel) : Bool := s.engRunning ch && s.cfg.deviceMayFail

/-- `Coalesce(ch)` on an engine (R284). -/
def coalesce (e : Engine) : Engine :=
  if e.coalThresh ≤ e.coalCount + 1 then { e with coalCount := 0, iocPend := true }
  else { e with coalCount := e.coalCount + 1 }

/-- The engine after it completed the descriptor at `hwCur`: the position advanced, the completion counted (R281,
R282, R284). -/
def advanceEngine (n : Nat) (e : Engine) : Engine := coalesce { e with hwCur := next n e.hwCur }

/-- `Check(ch, i)` (R288) on what the engine finds at `hwCur`. -/
def engineCheck (ch : Channel) (s : State) : Except FaultReason (Ring × Desc) :=
  match s.ring ch with
  | none => .error (.descriptorNotPosted ch (s.eng ch).hwCur)
  | some r =>
    match r.desc[(s.eng ch).hwCur]? with
    | none => .error (.descriptorNotPosted ch (s.eng ch).hwCur)
    | some d =>
      if d.own ≠ .posted then .error (.descriptorNotPosted ch (s.eng ch).hwCur)
      else if ch = .tx ∧ d.ctrl.len = 0 then .error (.zeroLengthTx (s.eng ch).hwCur)
      else .ok (r, d)

/-- The completion written back: descriptor `d` at `hwCur` with status and tag, engine advanced (R281, R282). -/
def writeCompletion (ch : Channel) (r : Ring) (d : Desc) (st : Status) (s : State) : State :=
  (s.setRing ch (some (r.setDesc (s.eng ch).hwCur { d with own := .completed, st := st }))).setEng ch
    (advanceEngine (s.cfg.cap ch) (s.eng ch))

/-- The end of a transmit completion with error bits `e` for the frame read (R281): with no error the frame is on
the wire, else the status length is a draw. -/
def finishTx (r : Ring) (d : Desc) (frame : List Byte) (e : Nat) (s : State) : State :=
  if e = 0 then
    writeCompletion .tx r d { cmplt := true, err := 0, len := d.ctrl.len }
      { s with wireLog := s.wireLog ++ [frame] }
  else
    writeCompletion .tx r d { cmplt := true, err := e, len := (s.drawTxLen d.ctrl.len).1 }
      (s.drawTxLen d.ctrl.len).2

/-- Transmit completion (R281). -/
def txCompleteStep (s : State) : State :=
  match engineCheck .tx s with
  | .error f => s.raiseFault .engTx f
  | .ok (r, d) =>
    match memRead s.cfg.bufSize .tx (s.eng .tx).hwCur d.ctrl.len d.buf with
    | .error f => s.raiseFault .engTx f
    | .ok frame => finishTx r d frame s.drawErrBits.1 s.drawErrBits.2

/-- The end of a receive completion (R282): the frame written, then status and tag. -/
def finishRx (r : Ring) (d : Desc) (frame : List Byte) (e : Nat) (s : State) : State :=
  match memWrite s.cfg.bufSize .rx (s.eng .rx).hwCur frame d.buf with
  | .error f => s.raiseFault .engRx f
  | .ok b => writeCompletion .rx r { d with buf := b } { cmplt := true, err := e, len := frame.length } s

/-- Receive completion (R282). -/
def rxCompleteStep (s : State) : State :=
  match engineCheck .rx s with
  | .error f => s.raiseFault .engRx f
  | .ok (r, d) =>
    finishRx r d (s.drawFrame d.ctrl.len).1 (s.drawFrame d.ctrl.len).2.drawErrBits.1
      (s.drawFrame d.ctrl.len).2.drawErrBits.2

/-- Delay expiry (R285). -/
def delayStep (ch : Channel) (s : State) : State :=
  s.setEng ch { s.eng ch with dlyPend := true, coalCount := 0 }

/-- Halt (R286). -/
def haltStep (ch : Channel) (s : State) : State := s.setEng ch { s.eng ch with halted := true }

/-- Fail (R287). -/
def failStep (ch : Channel) (s : State) : State :=
  s.setEng ch { s.eng ch with halted := true, errHalt := true }

end Sys2Proof.Machine
end

