-- ==== Sys2Proof/Machine/Schedule.lean ====
section
/-! DEFINITION. One step of the machine: the choice of which agent steps (R7, R11, R83; log 3), when that step is
enabled, and its effect; fetching a command (R101, R110) and the trace slot (log 11). -/

namespace Sys2Proof.Machine

/-- A ring has its capacity, its descriptors and its cursors as R38 and R39 say. -/
def ringShape (n : Nat) (r : Ring) : Bool :=
  decide (r.cap = n) && decide (r.desc.length = n) && decide (r.curr < n) && decide (r.tail < n)

/-- A channel without a ring, or with one of the right shape. -/
def chanShape (n : Nat) (c : Chan) : Bool :=
  match c.ring with
  | none => true
  | some r => ringShape n r

/-- The position registers of an engine are indices (R52). -/
def engineShape (n : Nat) (e : Engine) : Bool := decide (e.hwCur < n) && decide (e.hwTail < n)

/-- A value of `State` that is a state of the machine: one caller for each `k` (R7, R326), rings and engines with
indices in range (R38, R39, R52). -/
def State.shape (s : State) : Bool :=
  decide (s.callers.length = s.cfg.numCallers)
  && chanShape s.cfg.nTx s.chanTx && chanShape s.cfg.nRx s.chanRx
  && engineShape s.cfg.nTx s.engTx && engineShape s.cfg.nRx s.engRx

/-- The command at `pc[k]`, none at the end of the stream (R64, R101). -/
def State.fetch (s : State) (k : Nat) : Option Command := (s.caller k).stream[(s.caller k).pc]?

/-- The trace slot holds a word whose agent can run it, or a word that may not stand there (log 11). -/
def State.traceEnabled (s : State) : Bool :=
  match s.trace with
  | none => false
  | some w =>
    match decode w with
    | .reservedOpcode => true
    | .malformedCommand => true
    | .command i =>
      match i.commandClass with
      | .caller => true
      | .internal => !s.isStopped .trace
      | .irqRxOnly => s.irqIdle .rx && !s.isStopped .irqRx
      | .irqTxOnly => s.irqIdle .tx && !s.isStopped .irqTx
      | .deferOnly => decide (s.defer.op = .idle) && !s.isStopped .defer

/-- The step of a choice is enabled (R110, R280, R316). -/
def State.enabled (s : State) : Choice → Bool
  | .command k => s.callerReady k && (s.fetch k).isSome
  | .start k => s.callerReady k && (s.fetch k).isSome
  | .advance k => s.callerCanAdvance k
  | .handle ch => s.entryEnabled ch
  | .enter ch => s.entryEnabled ch
  | .advanceIrq ch => s.irqCanAdvance ch
  | .poll => s.pollEnabled
  | .startPoll => s.pollEnabled
  | .advancePoll => s.pollCanAdvance
  | .txComplete => s.completeEnabled .tx
  | .rxComplete => s.completeEnabled .rx
  | .delay ch => s.delayEnabled ch
  | .halt ch => s.haltEnabled ch
  | .fail ch => s.failEnabled ch
  | .trace => s.traceEnabled

/-- The first atomic step of a caller's command, by the active caller: a query is one atomic step and is done (R139
to R141), the others stay in flight. -/
def startInstr (i : Instr) (s : State) : Host.Outcome State Fault Refusal :=
  match i with
  | .ringNext ch idx => exec (.ringNext ch idx) s
  | .ringIsComplete ch idx => exec (.ringIsComplete ch idx) s
  | .ringLength ch idx => exec (.ringLength ch idx) s
  | .rxDrain budget => .next (startDrain s.active budget.toNat s)
  | .txSend len => .next (startSend s.active len.toNat s)
  | .devBringup => .next (startBringup s.active s)
  | .devShutdown => .next (startShutdown s.active s)
  | .ringInit ch n => exec (.ringInit ch n) s
  | .ringTeardown ch => exec (.ringTeardown ch) s
  | .rxIrq => exec .rxIrq s
  | .rxPoll => exec .rxPoll s
  | .txIrq => exec .txIrq s
  | .portReadStatus ch => exec (.portReadStatus ch) s
  | .portReadControl ch => exec (.portReadControl ch) s
  | .portStart ch => exec (.portStart ch) s
  | .portStop ch => exec (.portStop ch) s
  | .portReset ch => exec (.portReset ch) s
  | .portIrqEnable ch => exec (.portIrqEnable ch) s
  | .portIrqDisable ch => exec (.portIrqDisable ch) s
  | .portIrqAck ch => exec (.portIrqAck ch) s
  | .portSetCurdesc ch idx => exec (.portSetCurdesc ch idx) s
  | .portSetTaildesc ch idx => exec (.portSetTaildesc ch idx) s
  | .portCfgCoalesce ch d t => exec (.portCfgCoalesce ch d t) s

/-- `CALLER[k]` runs the command at its `pc` by `run`, or is refused (R110 to R113, R312, R319). -/
def issue (k : Nat) (run : Instr → State → Host.Outcome State Fault Refusal) (s : State) :
    Host.Outcome State Fault Refusal :=
  match s.fetch k with
  | none => .next s
  | some cmd =>
    match admission s.cfg cmd with
    | .run i => run i { s with active := k }
    | .reservedOpcode => .next (s.refuse (.caller k) (.reservedOpcode k (s.caller k).pc))
    | .malformedCommand => .next (s.refuse (.caller k) (.malformedCommand k (s.caller k).pc))
    | .notIssuable => .next (s.refuse (.caller k) (.notIssuable k (s.caller k).pc))

/-- The word in the trace slot runs alone, and the slot is emptied; a caller's command and a word that is no command
may not stand there (log 11). -/
def runTrace (s : State) : Host.Outcome State Fault Refusal :=
  match s.trace with
  | none => .next s
  | some w =>
    match decode w with
    | .reservedOpcode => .refused .traceWord
    | .malformedCommand => .refused .traceWord
    | .command i =>
      if i.commandClass = .caller then .refused .traceWord else exec i { s with trace := none }

/-- The effect of a choice whose step is enabled. -/
def takeChoice (c : Choice) (s : State) : Host.Outcome State Fault Refusal :=
  match c with
  | .command k => issue k exec s
  | .start k => issue k startInstr s
  | .advance k => .next (callerStep k s)
  | .handle .tx => exec .txIrq s
  | .handle .rx => exec .rxIrq s
  | .enter ch => .next (s.irqEntry ch)
  | .advanceIrq ch => .next (irqStep ch s)
  | .poll => exec .rxPoll s
  | .startPoll => .next (startPoll s)
  | .advancePoll => .next (pollStep s)
  | .txComplete => .next (txCompleteStep s)
  | .rxComplete => .next (rxCompleteStep s)
  | .delay ch => .next (delayStep ch s)
  | .halt ch => .next (haltStep ch s)
  | .fail ch => .next (failStep ch s)
  | .trace => runTrace s

/-- A choice: its step if it is enabled, else nothing changes (log 3). -/
def act (c : Choice) (s : State) : Host.Outcome State Fault Refusal :=
  if s.enabled c then takeChoice c s else .next s

/-- The choice the next step takes: the schedule's next, or a free one (log 3). -/
def State.nextChoice (s : State) : Choice :=
  match s.schedule with
  | c :: _ => c
  | [] => Config.freeChoice s.ticks

/-- The state with that choice used up. -/
def State.popChoice (s : State) : State :=
  match s.schedule with
  | _ :: cs => { s with schedule := cs }
  | [] => { s with ticks := s.ticks + 1 }

/-- One step: refused on an ill-formed configuration (R6), a fault on a value that is no state of the machine
(log 13), else the next choice. -/
def stepOnce (s : State) : Host.Outcome State Fault Refusal :=
  if s.cfg.wf then
    if s.shape then act s.nextChoice s.popChoice else .fault .illFormedState
  else .refused .illFormedConfig

/-! ## Placing a word where the next step fetches -/

/-- The payload operand of a word placed by the host: `L` zero bytes for a `TX_SEND` (R105). -/
def zeroPayload : Decoded → List Byte
  | .command (.txSend len) => List.replicate len.toNat 0
  | _ => []

/-- `CALLER[0]` made ready to run `cmd` next: the command stands at its `pc`, nothing in flight. -/
def callerWith (cmd : Command) (c : Caller) : Caller :=
  { c with
    stream := c.stream.take c.pc ++ cmd :: c.stream.drop (c.pc + 1)
    pc := (c.stream.take c.pc).length
    op := .idle
    wait := false }

/-- Place a command in `CALLER[0]`'s stream and schedule its run. -/
def placeCommand (cmd : Command) (s : State) : State :=
  { s with
    callers :=
      match s.callers with
      | [] => [callerWith cmd (callerReset [])]
      | c :: cs => callerWith cmd c :: cs
    stopped := s.stopped.filter fun a => decide (a ≠ .caller 0)
    schedule := .command 0 :: s.schedule }

/-- Place a word in the trace slot, its agent idle, and schedule its run (log 11). -/
def placeTrace (w : Word) (a : Agent) (s : State) : State :=
  { s with
    trace := some w
    irqTx := if a = .irqTx then { s.irqTx with op := .idle } else s.irqTx
    irqRx := if a = .irqRx then { s.irqRx with op := .idle } else s.irqRx
    defer := if a = .defer then { s.defer with op := .idle } else s.defer
    stopped := s.stopped.filter fun b => decide (b ≠ a)
    schedule := .trace :: s.schedule }

/-- Place a word so that the next step runs it: a caller's command, and a word that is no command, at the `pc` of
`CALLER[0]`; an internal or agent-only command in the trace slot (log 2, log 11). -/
def placeWord (w : Word) (s : State) : State :=
  match decode w with
  | .command i =>
    match i.commandClass with
    | .caller => placeCommand { word := w, payload := zeroPayload (.command i) } s
    | .internal => placeTrace w .trace s
    | .irqRxOnly => placeTrace w .irqRx s
    | .irqTxOnly => placeTrace w .irqTx s
    | .deferOnly => placeTrace w .defer s
  | .reservedOpcode => placeCommand { word := w, payload := [] } s
  | .malformedCommand => placeCommand { word := w, payload := [] } s

end Sys2Proof.Machine
end

