-- ==== Sys2Proof/Safety.lean ====
section
/-! DEFINITION. What counts as a safe run, in the terms claims use: the observation and its premises (R8, R318, R319),
the invariants of the state (R45 to R48, R62, R88, R106, R322), settled states (R366), runs and fairness (R88, R289,
R327). -/

namespace Sys2Proof.Machine

/-! ## Observation -/

/-- The observation of a run, taken at a settled state (R366): the five things of R8 and, as decision D44 has it, the
teardown log (log 20). -/
structure Observation where
  wireLog : List (List Byte)
  sinkLog : List (List Byte × Nat)
  tdLog : List TdRecord
  callerResponses : List (List Word)
  irqTxResponses : List Word
  irqRxResponses : List Word
  deferResponses : List Word
  faults : List FaultReason
  allocated : List Nat
deriving DecidableEq, Repr

/-- What is observable of a state (R8, D44; log 20). -/
def State.observation (s : State) : Observation where
  wireLog := s.wireLog
  sinkLog := s.sinkLog
  tdLog := s.tdLog
  callerResponses := s.callers.map Caller.resp
  irqTxResponses := s.irqTx.resp
  irqRxResponses := s.irqRx.resp
  deferResponses := s.defer.resp
  faults := s.faults
  allocated := s.allocated

/-- No fault recorded and no refusal: a state otherwise refutes every observation (R318, R319). -/
def State.clean (s : State) : Bool := s.faults.isEmpty && s.refused.isEmpty

/-- A caller has no command left, or has been stopped (R366). -/
def State.callerSettled (s : State) (k : Nat) : Bool :=
  s.isStopped (.caller k)
  || (decide ((s.caller k).pc = (s.caller k).stream.length) && decide ((s.caller k).op = .idle))

/-- A settled state (R366): nothing is enabled but a receive completion and a fail step. -/
def State.settled (s : State) : Bool :=
  (List.range s.callers.length).all s.callerSettled
  && s.irqIdle .tx && !s.entryEnabled .tx && s.irqIdle .rx && !s.entryEnabled .rx
  && decide (s.defer.op = .idle) && !s.rxSched
  && !s.completeEnabled .tx
  && !s.delayEnabled .tx && !s.delayEnabled .rx && !s.haltEnabled .tx && !s.haltEnabled .rx

/-! ## Invariants -/

/-- The descriptors of a channel; none without a ring. -/
def State.descs (s : State) (ch : Channel) : List Desc :=
  match s.ring ch with
  | none => []
  | some r => r.desc

/-- Every buffer is in canonical form (R44; Memory.wf). -/
def State.memoryCanonical (s : State) : Prop :=
  ∀ ch, ∀ d ∈ s.descs ch, Memory.wf s.cfg.bufSize d.buf.bytes

/-- The tag and the completion bit of a descriptor agree (R45). -/
def Desc.tagAgrees (d : Desc) : Prop :=
  (d.own = .completed → d.st.cmplt = true) ∧ (d.own = .posted → d.st.cmplt = false)

/-- R45 for every descriptor. -/
def State.tagsAgree (s : State) : Prop := ∀ ch, ∀ d ∈ s.descs ch, d.tagAgrees

/-- `tail == (curr - 2) mod N` on a FROM_DEVICE ring (R48(a)). -/
def State.rxTailTrails (s : State) : Prop :=
  ∀ r, s.ring .rx = some r → next r.cap (next r.cap r.tail) = r.curr

/-- Every descriptor of the receive ring is `POSTED` or `COMPLETED` (R48(b)). -/
def State.rxNeverFree (s : State) : Prop := ∀ d ∈ s.descs .rx, d.own ≠ .free

/-- A descriptor as `initialize` leaves it on a TO_DEVICE ring, nothing sent through it yet (R132, R135). -/
def Desc.unused (d : Desc) : Prop :=
  d.own = .free ∧ d.ctrl = { len := 0, sop := false, eop := false } ∧ d.st = { cmplt := false, err := 0, len := 0 }
  ∧ d.buf.bytes = []

/-- The transmit ring: the descriptors from `curr` up to but not including `tail` are `POSTED` or `COMPLETED` and every
other one is `FREE` (R46(b)); `curr` is `tail` only in a ring no send has used (R47). -/
def State.txRingOrdered (s : State) : Prop :=
  ∀ r, s.ring .tx = some r →
    (∀ i d, r.desc[i]? = some d → (d.own = .free ↔ dist r.cap r.curr r.tail ≤ dist r.cap r.curr i))
    ∧ (r.curr = r.tail → ∀ d ∈ r.desc, d.unused)

/-- No two live buffers overlap, on whichever ring (R72, R329). -/
def State.buffersApart (s : State) : Prop := s.bufAddrs.Pairwise fun a b => apart s.cfg.bufSize a b = true

/-- `wait[k]` is true exactly while `CALLER[k]` stands at an acquire (R56, R88; log 17). -/
def State.waitsAtAcquire (s : State) : Prop := ∀ c ∈ s.callers, c.wait = (acquiring c.op).isSome

/-- The lock an operation of a caller holds at its position (R161, R191, R227). -/
def holdsAt : CallerOp → Option Channel
  | .drain _ .checkLife => some .rx
  | .drain _ (.loop _) => some .rx
  | .drain _ (.writeTail _) => some .rx
  | .drain _ (.finish _) => some .rx
  | .send _ _ .checkLife => some .tx
  | .send _ _ .reclaim => some .tx
  | .send _ _ .post => some .tx
  | .send _ _ (.writeTail _) => some .tx
  | .send _ _ .finish => some .tx
  | .shutdown (.unlock ch) => some ch
  | _ => none

/-- The poll is at a position between its drain's acquire and release. -/
def pollHolds : PollOp → Bool
  | .drain .acquire => false
  | .drain _ => true
  | _ => false

/-- Agent `a` is at a position at which its operation holds the lock of `ch`. -/
def State.atHolding (s : State) (a : Agent) (ch : Channel) : Prop :=
  match a with
  | .caller k => k < s.callers.length ∧ holdsAt (s.caller k).op = some ch
  | .defer => ch = .rx ∧ pollHolds s.defer.op = true
  | .irqTx => False
  | .irqRx => False
  | .engTx => False
  | .engRx => False
  | .trace => False

/-- A lock is held by an agent exactly when that agent's operation is between its acquire and its release (R88, R89);
so at most one agent is in a channel's critical section, and no interrupt or engine agent ever is (R322). -/
def State.lockDiscipline (s : State) : Prop :=
  ∀ ch a, (s.chan ch).lock = .held a ↔ s.atHolding a ch

/-- The live handles are distinct and older than the next one (R86). -/
def State.handlesFresh (s : State) : Prop :=
  s.allocated.Nodup ∧ ∀ h ∈ s.allocated, h < s.nextHandle

/-- A response word with a code of R107 and the reserved bits zero (R106, R107). -/
def wordLegal (w : Word) : Prop := w.extractLsb' 24 4 = 0 ∧ (w.extractLsb' 28 4).toNat ≤ 6

/-- Every response of every agent is legal (R106, R107). -/
def State.responsesLegal (s : State) : Prop :=
  (∀ c ∈ s.callers, ∀ w ∈ c.resp, wordLegal w) ∧ (∀ w ∈ s.irqTx.resp, wordLegal w)
  ∧ (∀ w ∈ s.irqRx.resp, wordLegal w) ∧ ∀ w ∈ s.defer.resp, wordLegal w

/-- `pc[k]` has advanced by 1 for each response (R64). -/
def State.pcCountsResponses (s : State) : Prop := ∀ c ∈ s.callers, c.pc = c.resp.length

/-- What `life` is while a caller's operation stands at a position of a lifecycle command (R222, R227). -/
def lifeAt : CallerOp → Option Life
  | .bringup .initTx => some .uninitialized
  | .bringup .initRx => some .uninitialized
  | .bringup .ready => some .uninitialized
  | .bringup .writeTail => some .running
  | .bringup .finish => some .running
  | .bringup _ => some .ready
  | .shutdown _ => some .stopped
  | _ => none

/-- `CALLER[k]` is inside a lifecycle command. -/
def State.inLifecycle (s : State) (k : Nat) : Prop := k < s.callers.length ∧ (lifeAt (s.caller k).op).isSome = true

/-- `lcBusy` is true exactly while a lifecycle command is in progress, at most one is, `life` has the value its
position says, and `READY` exists only inside a bring-up (R31, R220, R222, R227, R230). -/
def State.lifecycleDiscipline (s : State) : Prop :=
  (s.lcBusy = true ↔ ∃ k, s.inLifecycle k)
  ∧ (∀ k k', s.inLifecycle k → s.inLifecycle k' → k = k')
  ∧ (∀ k l, s.inLifecycle k → lifeAt (s.caller k).op = some l → s.life = l)
  ∧ (s.life = .ready → s.lcBusy = true)

/-- The table of R220: where one event takes `life`. -/
def lifeEdge : Life → Life → Bool
  | .uninitialized, .ready => true
  | .ready, .running => true
  | .ready, .uninitialized => true
  | .running, .stopped => true
  | _, _ => false

/-! ## What the statements speak of -/

/-- The words of a command have the opcode `op`, and it is of class `k` (R102, R108, R109). -/
def spelledAs (i : Instr) (op : Nat) (k : CommandClass) : Prop :=
  (encode i).toNat / 2 ^ 24 = op ∧ i.commandClass = k

/-- The handles a ring holds: its backing memory and its buffers (R137). -/
def Ring.handles (r : Ring) : List Nat := r.backing :: r.desc.map (fun d => d.buf.handle)

/-- The handles of the ring of a channel; none without a ring. -/
def State.ringHandles (s : State) (ch : Channel) : List Nat :=
  match s.ring ch with
  | none => []
  | some r => r.handles

/-- Byte `off` of the buffer of descriptor `i`, none where it is `unwritten` or does not exist (R44, R77). -/
def State.byteAt (s : State) (ch : Channel) (i off : Nat) : Option Byte :=
  match s.ring ch with
  | none => none
  | some r =>
    match r.desc[i]? with
    | none => none
    | some d => d.buf.bytes.read off

/-- The slot `j` places on from `curr` (R12, R142). -/
def Ring.slot (r : Ring) (j : Nat) : Nat := (r.curr + j) % r.cap

/-- The descriptor `j` places on from `curr` has its completion bit set (R43). -/
def Ring.completeAt (r : Ring) (j : Nat) : Prop := ∃ d, r.desc[r.slot j]? = some d ∧ d.st.cmplt = true

/-- The descriptor `j` places on from `curr` is complete and software's, and its buffer holds the frame `f` (R162). -/
def Ring.frameAt (size : Nat) (r : Ring) (j : Nat) (f : List Byte) : Prop :=
  ∃ d, r.desc[r.slot j]? = some d ∧ d.st.cmplt = true ∧ d.own ≠ .posted ∧ d.st.len ≤ size
    ∧ d.buf.bytes.readFrom d.st.len 0 = some f

/-- The first `w` descriptors from `curr` re-armed, `curr` and `tail` advanced by `w` (R134, R162). -/
def Ring.rearmed (bufSize w : Nat) (r : Ring) : Ring where
  cap := r.cap
  curr := (r.curr + w) % r.cap
  tail := (r.tail + w) % r.cap
  backing := r.backing
  desc := r.desc.mapIdx fun i d =>
    if dist r.cap r.curr i < w then
      { d with own := .posted, ctrl := { len := bufSize, sop := false, eop := false },
               st := { cmplt := false, err := 0, len := 0 } }
    else d

/-- The first `m` descriptors from `curr` freed, `curr` advanced by `m` (R192). -/
def Ring.reclaimed (m : Nat) (r : Ring) : Ring where
  cap := r.cap
  curr := (r.curr + m) % r.cap
  tail := r.tail
  backing := r.backing
  desc := r.desc.mapIdx fun i d => if dist r.cap r.curr i < m then { d with own := .free } else d

/-- The reclaim of a send frees exactly `m` descriptors (R192). -/
def Ring.reclaims (r : Ring) (m : Nat) : Prop :=
  (∀ j, j < m → r.completeAt j ∧ r.slot (j + 1) ≠ r.tail) ∧ (r.completeAt m → r.slot (m + 1) = r.tail)

/-- The descriptor `d` at `tail` armed for `bytes` and posted, `tail` advanced (R194 to R196). -/
def Ring.posted (d : Desc) (bytes : List Byte) (r : Ring) : Ring where
  cap := r.cap
  curr := r.curr
  tail := (r.tail + 1) % r.cap
  backing := r.backing
  desc := r.desc.set r.tail
    { own := .posted
      ctrl := { len := bytes.length, sop := true, eop := true }
      st := { cmplt := false, err := 0, len := 0 }
      buf := { d.buf with bytes := d.buf.bytes.writeFrom 0 bytes } }

/-- The ring `initialize` makes from the handles from `h` on and the buffers' device addresses `addrs` (R130, R132,
R133). -/
def initRing (c : Config) (ch : Channel) (h : Nat) (addrs : List Nat) : Ring where
  cap := c.cap ch
  curr := 0
  tail :=
    match ch with
    | .tx => 0
    | .rx => c.cap ch - 2
  backing := h
  desc := addrs.mapIdx fun i a =>
    { own :=
        match ch with
        | .tx => .free
        | .rx => .posted
      ctrl :=
        match ch with
        | .tx => { len := 0, sop := false, eop := false }
        | .rx => { len := c.bufSize, sop := false, eop := false }
      st := { cmplt := false, err := 0, len := 0 }
      buf := { handle := h + 1 + i, devAddr := a % 2 ^ c.addrW, bytes := [] } }

/-- Buffer addresses the environment may answer one after the other, those in `taken` being live: none overlaps a live
buffer or an earlier one (R72, R329). -/
def answersApart (c : Config) : List Nat → List Nat → Bool
  | _, [] => true
  | taken, a :: as =>
    taken.all (apart c.bufSize (a % 2 ^ c.addrW)) && answersApart c (taken ++ [a % 2 ^ c.addrW]) as

/-- Of the answers to the allocations of a bring-up, those for buffers: neither the first one nor the one after the
transmit ring's is for a buffer (R130, R222). -/
def bufferAnswers (c : Config) (got : List Nat) : List Nat := (got.eraseIdx (c.nTx + 1)).tail

/-- The agent whose step a choice is (R7). -/
def choiceAgent : Choice → Agent
  | .command k => .caller k
  | .start k => .caller k
  | .advance k => .caller k
  | .handle ch => irqAgent ch
  | .enter ch => irqAgent ch
  | .advanceIrq ch => irqAgent ch
  | .poll => .defer
  | .startPoll => .defer
  | .advancePoll => .defer
  | .txComplete => .engTx
  | .rxComplete => .engRx
  | .delay ch => engineAgent ch
  | .halt ch => engineAgent ch
  | .fail ch => engineAgent ch
  | .trace => .trace

/-- The choices of a list, one after the other. -/
def runChoices : List Choice → State → Option State
  | [], s => some s
  | c :: cs, s =>
    match act c s with
    | .next t => runChoices cs t
    | .fault _ => none
    | .refused _ => none

/-! ## Runs and fairness -/

/-- An infinite run: each state the next of the one before it. -/
def IsRun (x : Nat → State) : Prop := ∀ n, step (x n) = .next (x (n + 1))

/-- Weakly fair (R327) for a step that any choice of a list takes: once it stays enabled it is eventually taken. -/
def WeaklyFair (cs : List Choice) (x : Nat → State) : Prop :=
  ∀ n, (∀ m, n ≤ m → ∃ c ∈ cs, (x m).enabled c = true) →
    ∃ m, n ≤ m ∧ (x m).enabled (x m).nextChoice = true ∧ (x m).nextChoice ∈ cs

/-- Strongly fair for a step (R327): enabled infinitely often, it is eventually taken. -/
def StronglyFair (enabled : State → Prop) (c : Choice) (x : Nat → State) : Prop :=
  (∀ n, ∃ m, n ≤ m ∧ enabled (x m)) → ∀ n, ∃ m, n ≤ m ∧ enabled (x m) ∧ (x m).nextChoice = c

/-- `CALLER[k]` stands at an acquire whose lock is free (R88). -/
def State.canAcquire (s : State) (k : Nat) : Prop :=
  s.callerCanAdvance k = true ∧ ∃ ch, acquiring (s.caller k).op = some ch ∧ s.lockHeld ch = false

/-- `DEFER` stands at its drain's acquire, and the lock is free (R88). -/
def State.deferCanAcquire (s : State) : Prop :=
  s.pollCanAdvance = true ∧ s.defer.op = .drain .acquire

/-- The fairness a run is assumed to have (R88, R289, R327): the callers, the handlers, the poll, transmit completion,
delay expiry and halt weakly, lock acquisition strongly; receive completion and fail not at all. -/
def Fair (x : Nat → State) : Prop :=
  (∀ k, WeaklyFair [.start k, .command k] x) ∧ (∀ k, WeaklyFair [.advance k] x)
  ∧ (∀ ch, WeaklyFair [.enter ch, .handle ch] x) ∧ (∀ ch, WeaklyFair [.advanceIrq ch] x)
  ∧ WeaklyFair [.startPoll, .poll] x ∧ WeaklyFair [.advancePoll] x
  ∧ WeaklyFair [.txComplete] x ∧ (∀ ch, WeaklyFair [.delay ch] x) ∧ (∀ ch, WeaklyFair [.halt ch] x)
  ∧ (∀ k, StronglyFair (fun s => s.canAcquire k) (.advance k) x)
  ∧ StronglyFair State.deferCanAcquire .advancePoll x

end Sys2Proof.Machine
end

