-- ==== Sys2Proof/Certificates/Slice0/Obligations.lean ====
section
/-! DEFINITION. The statements for the provers. Those that rest on a choice of the model name its log entry. -/

open Sys2Proof Sys2Proof.Machine

/-! ## Encoding -/

/-- The encodings written out in 30_encoding section 6 and in R108, R261 decode to what they stand for. -/
def Obligations.SpecWordsDecode : Prop :=
  decode 0x03800007#32 = .command (.ringNext .rx 7)
  ∧ decode 0x04000000#32 = .command (.ringIsComplete .tx 0)
  ∧ decode 0x10000002#32 = .command (.rxDrain 2)
  ∧ decode 0x20000040#32 = .command (.txSend 64)
  ∧ decode 0x30000000#32 = .command .devBringup
  ∧ decode 0x31000000#32 = .command .devShutdown
  ∧ decode 0x49800006#32 = .command (.portSetTaildesc .rx 6)
  ∧ decode 0x4A000301#32 = .command (.portCfgCoalesce .tx 3 1)
  ∧ decode 0x4A000A04#32 = .command (.portCfgCoalesce .tx 10 4)
  ∧ decode 0x00000000#32 = .reservedOpcode
  ∧ decode 0x11800000#32 = .malformedCommand

/-- Decoding the word of any command, with every value of every operand, gives the command back (R102 to R104,
R108). -/
def Obligations.DecodeEncodeAllCommands : Prop :=
  ∀ i : Instr, decode (encode i) = .command i ∧ decodeTableWord 32 (encode i).toNat = some i

/-- A command has one word only: what decodes to it is its encoding (R102, R112, R114). -/
def Obligations.EncodeDecodeOneWordPerCommand : Prop :=
  ∀ (w : Word) (i : Instr), decode w = .command i → encode i = w

/-- The words that spell no command: the reserved opcodes are exactly those R111 lists, and a word of another opcode is
malformed, whatever the configuration, exactly if a field R103 or R104 calls reserved is not zero (R112). -/
def Obligations.RefusedWords : Prop :=
  ∀ w : Word,
    (decode w = .reservedOpcode ↔
      (w >>> 24).toNat = 0x00
      ∨ (0x06 ≤ (w >>> 24).toNat ∧ (w >>> 24).toNat ≤ 0x0F)
      ∨ (0x13 ≤ (w >>> 24).toNat ∧ (w >>> 24).toNat ≤ 0x1F)
      ∨ (0x22 ≤ (w >>> 24).toNat ∧ (w >>> 24).toNat ≤ 0x2F)
      ∨ (0x32 ≤ (w >>> 24).toNat ∧ (w >>> 24).toNat ≤ 0x3F)
      ∨ 0x4B ≤ (w >>> 24).toNat)
    ∧ (decode w = .malformedCommand ↔
      ((w >>> 24).toNat ∈ [0x02, 0x11, 0x12, 0x21, 0x30, 0x31, 0x40, 0x41, 0x42, 0x43, 0x44, 0x45, 0x46, 0x47]
        ∧ w.toNat % 2 ^ 23 ≠ 0)
      ∨ ((w >>> 24).toNat ∈ [0x10, 0x11, 0x12, 0x20, 0x21, 0x30, 0x31] ∧ w.getLsbD 23 = true))

/-! ## The step -/

/-- A step in which `CALLER[k]` runs its next command is the meaning of the command decoded at its `pc` (R101, R110,
R114), in the state whose schedule has moved on and whose active caller is `k` (the model's choice: log 3, log 4). -/
def Obligations.StepRunsFetchedCommand : Prop :=
  ∀ (s : State) (k : Nat) (cs : List Choice) (cmd : Command) (i : Instr),
    s.cfg.wf = true → s.shape = true → s.schedule = .command k :: cs → s.callerReady k = true →
    (s.caller k).stream[(s.caller k).pc]? = some cmd → decode cmd.word = .command i →
    i.wellFormed s.cfg cmd.payload.length = true → i.commandClass = .caller →
    step s = exec i { s with schedule := cs, active := k }

/-- A step in which an interrupt agent runs its handler, or `DEFER` its poll, is the meaning of its one fixed command
(R110, R316), the whole operation in one step, where the entry of R316 alone writes only the agent's position (the
model's choice: log 3, log 4); a step in which a word of the trace slot runs alone, an internal or an agent-only one, is
the meaning of the word decoded (the model's choice: log 3, log 4, log 11). -/
def Obligations.StepRunsAgentCommand : Prop :=
  ∀ (s : State) (cs : List Choice), s.cfg.wf = true → s.shape = true →
    (s.schedule = .handle .rx :: cs → s.entryEnabled .rx = true → step s = exec .rxIrq { s with schedule := cs })
    ∧ (s.schedule = .handle .tx :: cs → s.entryEnabled .tx = true → step s = exec .txIrq { s with schedule := cs })
    ∧ (s.schedule = .poll :: cs → s.pollEnabled = true → step s = exec .rxPoll { s with schedule := cs })
    ∧ ∀ (w : Word) (i : Instr), s.schedule = .trace :: cs → s.trace = some w → decode w = .command i →
        i.commandClass ≠ .caller → s.traceEnabled = true →
        step s = exec i { s with schedule := cs, trace := none }

/-- A word that is no command, a malformed operand and a command no caller may issue are refused in the order of R312:
the mark is set, the caller has no further step, and nothing else changes (R111, R112, R113, R319). -/
def Obligations.StepRefusesBadCommand : Prop :=
  ∀ (s : State) (k : Nat) (cs : List Choice) (cmd : Command),
    s.cfg.wf = true → s.shape = true → s.schedule = .command k :: cs ∨ s.schedule = .start k :: cs →
    s.callerReady k = true → (s.caller k).stream[(s.caller k).pc]? = some cmd →
    (decode cmd.word = .reservedOpcode →
      step s = .next { s with
        schedule := cs
        refused := addNew (.reservedOpcode k (s.caller k).pc) s.refused
        stopped := addNew (.caller k) s.stopped })
    ∧ (decode cmd.word = .malformedCommand →
      step s = .next { s with
        schedule := cs
        refused := addNew (.malformedCommand k (s.caller k).pc) s.refused
        stopped := addNew (.caller k) s.stopped })
    ∧ ∀ i, decode cmd.word = .command i →
      (i.wellFormed s.cfg cmd.payload.length = false →
        step s = .next { s with
          schedule := cs
          refused := addNew (.malformedCommand k (s.caller k).pc) s.refused
          stopped := addNew (.caller k) s.stopped })
      ∧ (i.wellFormed s.cfg cmd.payload.length = true → i.commandClass ≠ .caller →
        step s = .next { s with
          schedule := cs
          refused := addNew (.notIssuable k (s.caller k).pc) s.refused
          stopped := addNew (.caller k) s.stopped })

/-- A configuration that breaks a constraint of R5 is refused (R6). -/
def Obligations.StepRefusesIllFormedConfig : Prop :=
  ∀ s : State,
    (s.cfg.nTx < 3 ∨ s.cfg.nRx < 2 ∨ s.cfg.bufSize = 0 ∨ 2 ^ 23 ≤ s.cfg.bufSize ∨ s.cfg.maxFrame = 0
      ∨ s.cfg.bufSize < s.cfg.maxFrame ∨ s.cfg.budget = 0 ∨ 2 ^ 23 ≤ s.cfg.budget ∨ s.cfg.addrW = 0
      ∨ s.cfg.coalThreshReset = 0 ∨ s.cfg.quiescePolls = 0 ∨ s.cfg.numCallers = 0
      ∨ s.cfg.addrTx.length ≠ s.cfg.nTx ∨ ¬ s.cfg.addrTx.Nodup ∨ (∃ a ∈ s.cfg.addrTx, 2 ^ s.cfg.addrW ≤ a)
      ∨ s.cfg.addrRx.length ≠ s.cfg.nRx ∨ ¬ s.cfg.addrRx.Nodup ∨ (∃ a ∈ s.cfg.addrRx, 2 ^ s.cfg.addrW ≤ a)) →
    step s = .refused .illFormedConfig

/-- A whole operation run without interruption is one of the orders the rules allow: its first atomic step followed by
the agent's own next ones (R11, R82, R83). It backs the model's choice of log 4. It does not say that the operation has
come to its end: the statements about each command do. -/
def Obligations.WholeOperationIsAtomicSteps : Prop :=
  ∀ (s t : State),
    (∀ k, act (.command k) s = .next t →
      ∃ n, runChoices (.start k :: List.replicate n (.advance k)) s = some t)
    ∧ (∀ ch, act (.handle ch) s = .next t →
      ∃ n, runChoices (.enter ch :: List.replicate n (.advanceIrq ch)) s = some t)
    ∧ (act .poll s = .next t → ∃ n, runChoices (.startPoll :: List.replicate n .advancePoll) s = some t)

/-- What a response writes: the word `{code, 0000, value}` is appended, `pc[k]` advances by 1, the operation is over,
and nothing else changes (R64, R106, R313). -/
def Obligations.ResponseAdvancesPc : Prop :=
  ∀ (s : State) (k : Nat) (c : Caller) (code : Code) (v : Nat), s.callers[k]? = some c →
    s.respond k code v = { s with
      callers := s.callers.set k { c with
        pc := c.pc + 1
        op := .idle
        resp := c.resp ++ [codeBits code ++ 0#4 ++ BitVec.ofNat 24 v]
        wait := false } }
    ∧ (v < 2 ^ 24 → (respWord code v).toNat = (codeBits code).toNat * 2 ^ 28 + v)

/-- A fault is recorded, its agent has no further step, and nothing else changes (R10, R318). -/
def Obligations.FaultStopsAgent : Prop :=
  ∀ (s : State) (a : Agent) (f : FaultReason),
    s.raiseFault a f = { s with
      faults := if f ∈ s.faults then s.faults else s.faults ++ [f]
      stopped := if a ∈ s.stopped then s.stopped else s.stopped ++ [a] }
    ∧ ∀ c : Choice, c ≠ .trace → choiceAgent c = a → (s.raiseFault a f).enabled c = false

/-! ## Reset -/

/-- The reset state under every configuration, every value of the table of R350 with those of R352 for the engines and
of R353 for the agents; reset touches neither the configuration nor the streams. The schedule, the draws and the command
streams are arguments (log 2, log 3, log 5). -/
def Obligations.ResetValues : Prop :=
  ∀ (c : Config) (streams : List (List Command)) (sch : List Choice) (dr : Draws),
    let s := State.resetWith c streams sch dr
    s.life = .uninitialized ∧ s.lcBusy = false
    ∧ channelDir .tx = .toDevice ∧ channelDir .rx = .fromDevice
    ∧ (∀ ch, s.ring ch = none ∧ (s.chan ch).lock = .free ∧ (s.chan ch).irqToken = false)
    ∧ s.rxMode = .interrupting ∧ s.rxSched = false
    ∧ (∀ ch, (s.eng ch).runStop = false ∧ (s.eng ch).irqEn = false ∧ (s.eng ch).coalThresh = c.coalThreshReset
        ∧ (s.eng ch).coalDelay = c.coalDelayReset ∧ (s.eng ch).halted = true ∧ (s.eng ch).iocPend = false
        ∧ (s.eng ch).dlyPend = false ∧ (s.eng ch).errHalt = false ∧ (s.eng ch).hwCur = 0 ∧ (s.eng ch).hwTail = 0
        ∧ (s.eng ch).tailValid = false ∧ (s.eng ch).coalCount = 0)
    ∧ s.callers.length = c.numCallers
    ∧ (∀ x ∈ s.callers, x.pc = 0 ∧ x.op = .idle ∧ x.resp = [] ∧ x.wait = false)
    ∧ s.irqTx = { op := .idle, resp := [] } ∧ s.irqRx = { op := .idle, resp := [] }
    ∧ s.defer = { op := .idle, resp := [] }
    ∧ s.wireLog = [] ∧ s.sinkLog = [] ∧ s.tdLog = [] ∧ s.allocated = [] ∧ s.faults = [] ∧ s.refused = []
    ∧ s.cfg = c ∧ s.callers.map Caller.stream = (List.range c.numCallers).map (fun k => streams.getD k [])

/-- The reset state satisfies every invariant stated below, under every configuration R5 allows. -/
def Obligations.ResetMeetsInvariants : Prop :=
  ∀ (c : Config) (streams : List (List Command)) (sch : List Choice) (dr : Draws), c.wf = true →
    let s := State.resetWith c streams sch dr
    s.shape = true ∧ s.memoryCanonical ∧ s.tagsAgree ∧ s.rxTailTrails ∧ s.lockDiscipline ∧ s.lifecycleDiscipline
    ∧ s.handlesFresh ∧ s.responsesLegal ∧ s.pcCountsResponses ∧ s.rxNeverFree ∧ s.txRingOrdered ∧ s.buffersApart
    ∧ s.waitsAtAcquire

/-- The only steps enabled at reset are the callers' first commands (R353). -/
def Obligations.ResetEnablesOnlyCallers : Prop :=
  ∀ (c : Config) (streams : List (List Command)) (sch : List Choice) (dr : Draws) (ch : Choice),
    (State.resetWith c streams sch dr).enabled ch = true →
    ∃ k, k < c.numCallers ∧ (ch = .command k ∨ ch = .start k)

/-! ## Ring primitives -/

/-- `RING_INIT` with every allocation succeeding, the buffers answered overlapping none that is live (R72, R329): the
ring of R132 or R133 on fresh handles, `N + 1` of them, and nothing else but what the draws use up (R130). The model's
choice are the numbers of the handles (log 6), that an address is brought into its range (log 8), and that what it
returns is latched (log 11). -/
def Obligations.RingInitAllocates : Prop :=
  ∀ (s : State) (ch : Channel) (n : Imm) (b : Nat) (addrs : List Nat) (rest : List (Option Nat)),
    n.toNat = s.cfg.cap ch → s.ring ch = none → s.holdsLock .trace = false →
    addrs.length = s.cfg.cap ch → answersApart s.cfg s.bufAddrs addrs = true →
    s.draws.alloc = some b :: (addrs.map some ++ rest) →
    exec (.ringInit ch n) s = .next (State.setRing { s with
      draws := { s.draws with alloc := rest }
      allocated := s.allocated ++ List.range' s.nextHandle (s.cfg.cap ch + 1)
      nextHandle := s.nextHandle + (s.cfg.cap ch + 1)
      ret := .word 0x00000000#32 } ch (some (initRing s.cfg ch s.nextHandle addrs)))

/-- `RING_INIT` that makes no ring. A failing allocation, of the backing memory or of any buffer: everything allocated
so far is freed, there is no ring, the result is `ALLOCATION_ERROR`, and `allocated` is as before (R131, R136). The
model's choice: an answer that overlaps a live buffer is a failure (log 8), the number the next handle takes has moved
on (log 6), and the result is latched, the fault and the mark those of the agent `trace` (log 11). A channel that has a
ring: the fault `RingExists` and nothing else (R136). A capacity that is not `N_ch` sets the refused mark
`IllFormedConfig` (the model's choice: log 12). -/
def Obligations.RingInitFails : Prop :=
  ∀ (s : State) (ch : Channel) (n : Imm),
    (∀ (got : List Nat) (x : Option Nat) (rest : List (Option Nat)),
      n.toNat = s.cfg.cap ch → s.ring ch = none → s.holdsLock .trace = false → s.handlesFresh →
      got.length ≤ s.cfg.cap ch → answersApart s.cfg s.bufAddrs got.tail = true →
      s.draws.alloc = got.map some ++ x :: rest →
      x = none ∨ (got ≠ [] ∧ ∃ a, x = some a ∧ answersApart s.cfg s.bufAddrs (got.tail ++ [a]) = false) →
      exec (.ringInit ch n) s = .next { s with
        draws := { s.draws with alloc := rest }
        nextHandle := s.nextHandle + got.length
        ret := .word 0x10000000#32 })
    ∧ (n.toNat = s.cfg.cap ch → (s.ring ch).isSome = true →
      exec (.ringInit ch n) s = .next (s.raiseFault .trace (.ringExists ch)))
    ∧ (n.toNat ≠ s.cfg.cap ch → exec (.ringInit ch n) s = .next (s.refuse .trace .illFormedConfig))

/-- `RING_TEARDOWN` in every state: without a ring nothing happens; a ring whose engine has halted or has an empty
window is freed with all its handles; else the fault `TeardownWhileActive` (R137, R138). The result is latched and the
fault is that of the agent `trace` (the model's choice: log 11). -/
def Obligations.RingTeardownFrees : Prop :=
  ∀ (s : State) (ch : Channel),
    (s.ring ch = none → exec (.ringTeardown ch) s = .next { s with ret := .word 0x00000000#32 })
    ∧ ∀ r, s.ring ch = some r →
      ((s.eng ch).halted = true ∨ (s.eng ch).tailValid = false ∨ (s.eng ch).hwCur = ((s.eng ch).hwTail + 1) % r.cap →
        exec (.ringTeardown ch) s = .next (State.setRing { s with
          allocated := s.allocated.filter (fun h => decide (h ∉ r.handles))
          ret := .word 0x00000000#32 } ch none))
      ∧ ((s.eng ch).halted = false → (s.eng ch).tailValid = true →
          (s.eng ch).hwCur ≠ ((s.eng ch).hwTail + 1) % r.cap →
        exec (.ringTeardown ch) s = .next (s.raiseFault .trace (.teardownWhileActive ch)))

/-- `RING_NEXT`, a caller's opcode 0x03, answers `OK` and `(i + 1) mod N_ch`, the wrap included, in every state, and
changes nothing else; an index that is not below `N_ch` is malformed (R139). -/
def Obligations.RingNextWraps : Prop :=
  ∀ (s : State) (ch : Channel) (i : Imm), s.cfg.wf = true →
    spelledAs (.ringNext ch i) 0x03 .caller
    ∧ (∀ n, Instr.wellFormed s.cfg n (.ringNext ch i) = decide (i.toNat < s.cfg.cap ch))
    ∧ (i.toNat < s.cfg.cap ch →
      exec (.ringNext ch i) s
        = .next (s.respond s.active .ok (if i.toNat = s.cfg.cap ch - 1 then 0 else i.toNat + 1)))

/-- `RING_ISCOMPLETE` and `RING_LENGTH` answer the descriptor's field, or `CHANNEL_NOT_READY` without a ring; they
take no lock and change nothing else (R97, R140, R141). -/
def Obligations.RingQueriesRead : Prop :=
  ∀ (s : State) (ch : Channel) (i : Imm),
    (s.ring ch = none →
      exec (.ringIsComplete ch i) s = .next (s.respond s.active .channelNotReady 0)
      ∧ exec (.ringLength ch i) s = .next (s.respond s.active .channelNotReady 0))
    ∧ ∀ r d, s.ring ch = some r → r.desc[i.toNat]? = some d →
      exec (.ringIsComplete ch i) s = .next (s.respond s.active .ok (if d.st.cmplt = true then 1 else 0))
      ∧ exec (.ringLength ch i) s = .next (s.respond s.active .ok d.st.len)

/-! ## Buffer memory -/

/-- The copies. A write puts its bytes from 0 on and no other, and the buffer keeps its handle and address (R78). A
read of `n` bytes answers them in order if every one is written, and is the fault `UnwrittenRead` if one is not; a
read of no byte answers none (R77). -/
def Obligations.BufferCopies : Prop :=
  ∀ (size : Nat) (ch : Channel) (i : Nat) (b : Buffer),
    (∀ v : List Byte, v.length ≤ size →
      ∃ b', memWrite size ch i v b = .ok b' ∧ b'.handle = b.handle ∧ b'.devAddr = b.devAddr
        ∧ ∀ j, b'.bytes.read j = if j < v.length then v[j]? else b.bytes.read j)
    ∧ ∀ n, n ≤ size →
      (∀ v : List Byte, v.length = n → (∀ j, j < n → b.bytes.read j = v[j]?) → memRead size ch i n b = .ok v)
      ∧ ((∃ j, j < n ∧ b.bytes.read j = none) → memRead size ch i n b = .error (.unwrittenRead ch i))

/-! ## Port operations -/

/-- `PORT_READ_STATUS` and `PORT_READ_CONTROL` return the fields named and have no side effect (R251, R252). Where the
value goes is the model's choice (log 11). -/
def Obligations.PortReads : Prop :=
  ∀ (s : State) (ch : Channel),
    exec (.portReadStatus ch) s = .next { s with
      ret := .status (!(s.eng ch).halted) (s.eng ch).iocPend (s.eng ch).dlyPend (s.eng ch).errHalt }
    ∧ exec (.portReadControl ch) s = .next { s with
      ret := .control (s.eng ch).runStop (s.eng ch).irqEn (s.eng ch).coalThresh (s.eng ch).coalDelay }

/-- `PORT_START`: `runStop` is set; only an engine that is halted and has not failed draws `startOk`, and then runs
exactly if the draw is true (R253). -/
def Obligations.PortStartDraws : Prop :=
  ∀ (s : State) (ch : Channel),
    ((s.eng ch).halted = false ∨ (s.eng ch).errHalt = true →
      exec (.portStart ch) s
        = .next (State.setEng s ch { s.eng ch with runStop := true }))
    ∧ ∀ (b : Bool) (rest : List Bool), (s.eng ch).halted = true → (s.eng ch).errHalt = false →
      s.draws.startOk = b :: rest →
      exec (.portStart ch) s = .next (State.setEng
        { s with draws := { s.draws with startOk := rest } } ch
        { s.eng ch with runStop := true, halted := !b })

/-- `PORT_STOP`, `PORT_IRQ_ENABLE`, `PORT_IRQ_DISABLE` and `PORT_IRQ_ACK`, spelled by the internal opcodes 0x43, 0x45,
0x46 and 0x47, write the fields named and no other, whatever the engine does; the line of R315 follows (R254, R256,
R257, R258). -/
def Obligations.PortControlWrites : Prop :=
  ∀ (s : State) (ch : Channel),
    spelledAs (.portStop ch) 0x43 .internal ∧ spelledAs (.portIrqEnable ch) 0x45 .internal
    ∧ spelledAs (.portIrqDisable ch) 0x46 .internal ∧ spelledAs (.portIrqAck ch) 0x47 .internal
    ∧ exec (.portStop ch) s = .next (State.setEng s ch { s.eng ch with runStop := false })
    ∧ exec (.portIrqEnable ch) s = .next (State.setEng s ch { s.eng ch with irqEn := true })
    ∧ exec (.portIrqDisable ch) s = .next (State.setEng s ch { s.eng ch with irqEn := false })
    ∧ exec (.portIrqAck ch) s = .next (State.setEng s ch
        { s.eng ch with iocPend := false, dlyPend := false })
    ∧ (portIrqEnable ch s).line ch = ((s.eng ch).iocPend || (s.eng ch).dlyPend)
    ∧ (portIrqDisable ch s).line ch = false
    ∧ (portIrqAck ch s).line ch = false

/-- `PORT_RESET`, the internal opcode 0x44, sets every field of the engine to its reset value (R255, R352). -/
def Obligations.PortResetValues : Prop :=
  ∀ (s : State) (ch : Channel), spelledAs (.portReset ch) 0x44 .internal ∧
    exec (.portReset ch) s = .next (State.setEng s ch
      { runStop := false, irqEn := false, coalThresh := s.cfg.coalThreshReset, coalDelay := s.cfg.coalDelayReset,
        halted := true, iocPend := false, dlyPend := false, errHalt := false, hwCur := 0, hwTail := 0,
        tailValid := false, coalCount := 0 })

/-- `PORT_SET_CURDESC`: on a halted engine the position is written and the window is empty; on a running one it is the
fault `CurDescWhileRunning` (R250, R259). An index outside `[0, N_ch)` has no address, and is the fault
`BadDescriptorAddress` (the model's choice: log 7). -/
def Obligations.PortSetCurdesc : Prop :=
  ∀ (s : State) (ch : Channel) (i : Imm), s.cfg.wf = true →
    ((s.eng ch).halted = true → i.toNat < s.cfg.cap ch →
      exec (.portSetCurdesc ch i) s = .next (State.setEng s ch
        { s.eng ch with hwCur := i.toNat, tailValid := false }))
    ∧ ((s.eng ch).halted = true → s.cfg.cap ch ≤ i.toNat →
      exec (.portSetCurdesc ch i) s = .next (s.raiseFault .trace (.badDescriptorAddress ch none)))
    ∧ ((s.eng ch).halted = false →
      exec (.portSetCurdesc ch i) s = .next (s.raiseFault .trace (.curDescWhileRunning ch)))

/-- `PORT_SET_TAILDESC`: the tail register is written, on a running engine as on a halted one; the window then reaches
from `hwCur` to the index, both included, unless it is empty (R61, R250, R260). An index outside `[0, N_ch)` is the
fault `BadDescriptorAddress` (the model's choice: log 7). -/
def Obligations.PortSetTaildesc : Prop :=
  ∀ (s : State) (ch : Channel) (i : Imm), s.cfg.wf = true →
    (i.toNat < s.cfg.cap ch →
      exec (.portSetTaildesc ch i) s = .next (State.setEng s ch
        { s.eng ch with hwTail := i.toNat, tailValid := true }))
    ∧ (i.toNat < s.cfg.cap ch → (s.eng ch).hwCur < s.cfg.cap ch →
      ∀ j, j ∈ State.window (s.setEng ch { s.eng ch with hwTail := i.toNat, tailValid := true }) ch ↔
        (s.eng ch).hwCur ≠ (i.toNat + 1) % s.cfg.cap ch ∧ j < s.cfg.cap ch
        ∧ dist (s.cfg.cap ch) (s.eng ch).hwCur j ≤ dist (s.cfg.cap ch) (s.eng ch).hwCur i.toNat)
    ∧ (s.cfg.cap ch ≤ i.toNat →
      exec (.portSetTaildesc ch i) s = .next (s.raiseFault .trace (.badDescriptorAddress ch none)))

/-- `PORT_CFG_COALESCE` writes delay and threshold; a threshold of 0 is the fault `BadThreshold` (R261). -/
def Obligations.PortCfgCoalesce : Prop :=
  ∀ (s : State) (ch : Channel) (d : BitVec 15) (t : BitVec 8),
    (t ≠ 0 → exec (.portCfgCoalesce ch d t) s = .next (State.setEng s ch
      { s.eng ch with coalDelay := d.toNat, coalThresh := t.toNat }))
    ∧ (t = 0 → exec (.portCfgCoalesce ch d t) s = .next (s.raiseFault .trace (.badThreshold ch)))

/-! ## Receive -/

/-- `RX_DRAIN` with the lock free and the device running delivers the `w` completed descriptors from `curr`, in order,
up to its budget, re-arms them, advances both cursors, writes the tail register and answers `OK, w`; nothing else
changes (R161 to R164). `w` is where the loop stops: the budget, a descriptor not complete, or the whole ring (which
R169 rules out for reachable states). The operation runs uninterrupted (log 4). -/
def Obligations.RxDrainDelivers : Prop :=
  ∀ (s : State) (budget : Imm) (r : Ring) (w : Nat) (frames : List (List Byte)),
    s.cfg.wf = true → s.shape = true → s.callerReady s.active = true → s.life = .running → s.chanRx.lock = .free →
    s.chanRx.ring = some r → w ≤ budget.toNat → w ≤ r.cap → frames.length = w →
    (∀ j f, frames[j]? = some f → r.frameAt s.cfg.bufSize j f) →
    w = budget.toNat ∨ w = r.cap ∨ ¬ r.completeAt w →
    exec (.rxDrain budget) s = .next (State.respond { s with
      chanRx := { s.chanRx with ring := some (r.rearmed s.cfg.bufSize w) }
      engRx := { s.engRx with hwTail := (r.tail + w) % r.cap, tailValid := true }
      sinkLog := s.sinkLog ++ frames.map (fun f => (f, f.length)) } s.active .ok w)

/-- `RX_DRAIN` outside `RUNNING` answers `CHANNEL_NOT_READY` and changes nothing else, the lock free again; with the
lock held it waits at its acquire (R88, R161, R231, R311). The operation runs uninterrupted (log 4). -/
def Obligations.RxDrainNotReadyOrWaits : Prop :=
  ∀ (s : State) (budget : Imm), s.callerReady s.active = true →
    (s.life ≠ .running → s.chanRx.lock = .free →
      exec (.rxDrain budget) s = .next (s.respond s.active .channelNotReady 0))
    ∧ ∀ a c, s.chanRx.lock = .held a → s.callers[s.active]? = some c →
      exec (.rxDrain budget) s = .next { s with
        callers := s.callers.set s.active { c with op := .drain budget.toNat .acquire, wait := true } }

/-- `RX_IRQ`: with a pending bit set it acknowledges, disables receive interrupts, schedules the poll and answers
`OK`; with none it answers `NOT_HANDLED` and changes nothing else (R166, R317). The operation runs uninterrupted (log
4). -/
def Obligations.RxIrqSchedulesPoll : Prop :=
  ∀ s : State, s.isStopped .irqRx = false →
    (s.engRx.iocPend = true ∨ s.engRx.dlyPend = true →
      exec .rxIrq s = .next { s with
        engRx := { s.engRx with iocPend := false, dlyPend := false, irqEn := false }
        rxMode := .polling
        rxSched := true
        irqRx := { op := .idle, resp := s.irqRx.resp ++ [0x00000000#32] } })
    ∧ (s.engRx.iocPend = false → s.engRx.dlyPend = false →
      exec .rxIrq s = .next { s with irqRx := { op := .idle, resp := s.irqRx.resp ++ [0x60000000#32] } })

/-- `RX_POLL` drains up to `BUDGET` descriptors as `RX_DRAIN` does; with the budget used up the poll stays scheduled
and interrupts stay as they are, else the schedule flag is cleared, the mode goes back and receive interrupts are
enabled (R167). The operation runs uninterrupted (log 4). -/
def Obligations.RxPollDrains : Prop :=
  ∀ (s : State) (r : Ring) (w : Nat) (frames : List (List Byte)),
    s.cfg.wf = true → s.shape = true → s.isStopped .defer = false → s.life = .running → s.chanRx.lock = .free →
    s.chanRx.ring = some r → w ≤ s.cfg.budget → w ≤ r.cap → frames.length = w →
    (∀ j f, frames[j]? = some f → r.frameAt s.cfg.bufSize j f) →
    w = s.cfg.budget ∨ w = r.cap ∨ ¬ r.completeAt w →
    exec .rxPoll s = .next { s with
      chanRx := { s.chanRx with ring := some (r.rearmed s.cfg.bufSize w) }
      engRx := { s.engRx with
        hwTail := (r.tail + w) % r.cap
        tailValid := true
        irqEn := if w = s.cfg.budget then s.engRx.irqEn else true }
      sinkLog := s.sinkLog ++ frames.map (fun f => (f, f.length))
      rxSched := if w = s.cfg.budget then s.rxSched else false
      rxMode := if w = s.cfg.budget then s.rxMode else .interrupting
      defer := { op := .idle, resp := s.defer.resp ++ [BitVec.ofNat 32 w] } }

/-- `RX_POLL` outside `RUNNING` clears the schedule flag, leaves interrupts as they are and answers
`CHANNEL_NOT_READY`; with the lock held it waits (R88, R167). The operation runs uninterrupted (log 4). -/
def Obligations.RxPollNotReadyOrWaits : Prop :=
  ∀ s : State, s.isStopped .defer = false →
    (s.life ≠ .running → s.chanRx.lock = .free →
      exec .rxPoll s = .next { s with
        rxSched := false
        defer := { op := .idle, resp := s.defer.resp ++ [0x50000000#32] } })
    ∧ ∀ a, s.chanRx.lock = .held a →
      exec .rxPoll s = .next { s with defer := { s.defer with op := .drain .acquire } }

/-! ## Transmit -/

/-- `TX_SEND` of a legal length with the lock free, the device running and a slot free after reclaim: the reclaimed
descriptors are freed, the descriptor at `tail` is armed, filled with the first `L` bytes of the payload and posted,
`tail` advances, the tail register names that descriptor, and the answer is `OK, L`; nothing else changes (R191 to
R197). The operation runs uninterrupted (log 4). -/
def Obligations.TxSendQueues : Prop :=
  ∀ (s : State) (len : Imm) (r : Ring) (m : Nat) (d : Desc),
    s.cfg.wf = true → s.shape = true → s.callerReady s.active = true → s.life = .running → s.chanTx.lock = .free →
    s.chanTx.ring = some r → len.toNat ≤ s.cfg.maxFrame → len.toNat ≤ (s.payload s.active).length →
    m < r.cap → r.reclaims m → (r.tail + 1) % r.cap ≠ (r.reclaimed m).curr →
    (r.reclaimed m).desc[r.tail]? = some d → d.own ≠ .posted →
    exec (.txSend len) s = .next (State.respond { s with
      chanTx := { s.chanTx with ring := some ((r.reclaimed m).posted d ((s.payload s.active).take len.toNat)) }
      engTx := { s.engTx with hwTail := r.tail, tailValid := true } } s.active .ok len.toNat)

/-- `TX_SEND` with the ring full after reclaim answers `RING_FULL` and writes no descriptor, cursor or register but
what the reclaim did; on a ring as R46 describes it the reclaim did nothing (R193, R199, R311). The operation runs
uninterrupted (log 4). -/
def Obligations.TxSendRingFull : Prop :=
  ∀ (s : State) (len : Imm) (r : Ring) (m : Nat),
    s.cfg.wf = true → s.shape = true → s.callerReady s.active = true → s.life = .running → s.chanTx.lock = .free →
    s.chanTx.ring = some r → len.toNat ≤ s.cfg.maxFrame → m < r.cap → r.reclaims m →
    (r.tail + 1) % r.cap = (r.reclaimed m).curr →
    exec (.txSend len) s = .next (State.respond { s with
      chanTx := { s.chanTx with ring := some (r.reclaimed m) } } s.active .ringFull 0)
    ∧ (r.curr ≠ r.tail → m = 0)

/-- The other errors of `TX_SEND` change nothing but the response: `INVALID_LENGTH` first, whatever the lock and
`life`; then `CHANNEL_NOT_READY`; with the lock held it waits at its acquire (R88, R191, R231, R311, R312). The
operation runs uninterrupted (log 4). -/
def Obligations.TxSendErrors : Prop :=
  ∀ (s : State) (len : Imm), s.callerReady s.active = true →
    (s.cfg.maxFrame < len.toNat → exec (.txSend len) s = .next (s.respond s.active .invalidLength 0))
    ∧ (len.toNat ≤ s.cfg.maxFrame → s.life ≠ .running → s.chanTx.lock = .free →
      exec (.txSend len) s = .next (s.respond s.active .channelNotReady 0))
    ∧ ∀ a c, len.toNat ≤ s.cfg.maxFrame → s.chanTx.lock = .held a → s.callers[s.active]? = some c →
      exec (.txSend len) s = .next { s with
        callers := s.callers.set s.active
          { c with op := .send len.toNat (s.payload s.active) .acquire, wait := true } }

/-- `TX_IRQ` clears both pending bits of the transmit engine, answers `OK`, and changes nothing else (R198, R317). The
operation runs uninterrupted (log 4). -/
def Obligations.TxIrqAcknowledges : Prop :=
  ∀ s : State, s.isStopped .irqTx = false →
    exec .txIrq s = .next { s with
      engTx := { s.engTx with iocPend := false, dlyPend := false }
      irqTx := { op := .idle, resp := s.irqTx.resp ++ [0x00000000#32] } }

/-! ## Lifecycle -/

/-- `DEV_BRINGUP` with every draw succeeding: both rings made, both handlers registered, both engines programmed,
enabled and started, `RUNNING`, the receive tail register written, `OK` (R222, R225). The buffers answered do not
overlap (R72, R329). The model's choice: the operation runs uninterrupted (log 4), the numbers of the handles (log 6),
and that an address is brought into its range (log 8). -/
def Obligations.BringupSucceeds : Prop :=
  ∀ (s : State) (bTx bRx : Nat) (aTx aRx : List Nat) (allocs : List (Option Nat)) (starts : List Bool),
    s.cfg.wf = true → s.shape = true → s.callerReady s.active = true → s.lcBusy = false → s.life = .uninitialized →
    s.chanTx.ring = none → s.chanRx.ring = none → s.holdsLock (.caller s.active) = false →
    s.engTx.halted = true → s.engTx.errHalt = false → s.engRx.halted = true → s.engRx.errHalt = false →
    aTx.length = s.cfg.nTx → aRx.length = s.cfg.nRx → answersApart s.cfg [] (aTx ++ aRx) = true →
    s.draws.alloc = some bTx :: (aTx.map some ++ some bRx :: (aRx.map some ++ allocs)) →
    s.draws.startOk = true :: true :: starts →
    exec .devBringup s = .next (State.respond { s with
      life := .running
      chanTx := { s.chanTx with ring := some (initRing s.cfg .tx s.nextHandle aTx), irqToken := true }
      chanRx := { s.chanRx with
        ring := some (initRing s.cfg .rx (s.nextHandle + (s.cfg.nTx + 1)) aRx), irqToken := true }
      rxMode := .interrupting
      rxSched := false
      engTx := { s.engTx with runStop := true, irqEn := true, halted := false, hwCur := 0, tailValid := false }
      engRx := { s.engRx with
        runStop := true, irqEn := true, halted := false, hwCur := 0, hwTail := s.cfg.nRx - 2, tailValid := true }
      allocated := s.allocated ++ List.range' s.nextHandle (s.cfg.nTx + 1 + (s.cfg.nRx + 1))
      nextHandle := s.nextHandle + (s.cfg.nTx + 1 + (s.cfg.nRx + 1))
      draws := { s.draws with alloc := allocs, startOk := starts } } s.active .ok 0)

/-- `DEV_BRINGUP` with any allocation failing: everything is freed, `life` stays `UNINITIALIZED`, no register and no
token is written, and the answer is `ALLOCATION_ERROR` (R222, R224). The model's choice: the operation runs
uninterrupted (log 4), the number the next handle takes has moved on (log 6), and an answer that overlaps a live buffer
is a failure (log 8). -/
def Obligations.BringupAllocationError : Prop :=
  ∀ (s : State) (got : List Nat) (x : Option Nat) (rest : List (Option Nat)),
    s.cfg.wf = true → s.shape = true → s.callerReady s.active = true → s.lcBusy = false → s.life = .uninitialized →
    s.chanTx.ring = none → s.chanRx.ring = none → s.holdsLock (.caller s.active) = false →
    s.engTx.halted = true → s.handlesFresh →
    got.length < s.cfg.nTx + 1 + (s.cfg.nRx + 1) → answersApart s.cfg [] (bufferAnswers s.cfg got) = true →
    s.draws.alloc = got.map some ++ x :: rest →
    x = none ∨ (got.length ≠ 0 ∧ got.length ≠ s.cfg.nTx + 1 ∧
      ∃ a, x = some a ∧ answersApart s.cfg [] (bufferAnswers s.cfg got ++ [a]) = false) →
    exec .devBringup s = .next (State.respond { s with
      draws := { s.draws with alloc := rest }
      nextHandle := s.nextHandle + got.length } s.active .allocationError 0)

/-- `DEV_BRINGUP` with an engine that does not start: rolled back, both rings and tokens `none`, `allocated` as before,
`UNINITIALIZED`, `DEVICE_START_ERROR` (R222, R223). The model's choice: the operation runs uninterrupted, so an engine
that did start has been told to stop and has not halted yet, as R359 says it may not have (log 4), and the number the
next handle takes has moved on (log 6). The buffers answered do not overlap (R72, R329). -/
def Obligations.BringupStartError : Prop :=
  ∀ (s : State) (bTx bRx : Nat) (aTx aRx : List Nat) (allocs : List (Option Nat)) (starts : List Bool)
    (okTx okRx : Bool),
    s.cfg.wf = true → s.shape = true → s.callerReady s.active = true → s.lcBusy = false → s.life = .uninitialized →
    s.chanTx.ring = none → s.chanRx.ring = none → s.holdsLock (.caller s.active) = false →
    s.engTx.halted = true → s.engTx.errHalt = false → s.engRx.halted = true → s.engRx.errHalt = false →
    s.handlesFresh → aTx.length = s.cfg.nTx → aRx.length = s.cfg.nRx → answersApart s.cfg [] (aTx ++ aRx) = true →
    s.draws.alloc = some bTx :: (aTx.map some ++ some bRx :: (aRx.map some ++ allocs)) →
    s.draws.startOk = okTx :: okRx :: starts → okTx = false ∨ okRx = false →
    exec .devBringup s = .next (State.respond { s with
      chanTx := { s.chanTx with irqToken := false }
      chanRx := { s.chanRx with irqToken := false }
      engTx := { s.engTx with runStop := false, irqEn := false, halted := !okTx, hwCur := 0, tailValid := false }
      engRx := { s.engRx with runStop := false, irqEn := false, halted := !okRx, hwCur := 0, tailValid := false }
      nextHandle := s.nextHandle + (s.cfg.nTx + 1 + (s.cfg.nRx + 1))
      draws := { s.draws with alloc := allocs, startOk := starts } } s.active .deviceStartError 0)

/-- A bring-up retried while an engine, the transmit or the receive one, has not halted is the fault
`CurDescWhileRunning` of the first such engine; the caller is stopped inside its bring-up, the rings and the tokens made
(R222, R259, R318, R359). The model's choice: the operation runs uninterrupted, so the engine does not halt first
(log 4), the numbers of the handles (log 6), and that an address is brought into its range (log 8). -/
def Obligations.BringupRetryFaults : Prop :=
  ∀ (s : State) (aTx aRx : List Nat) (bTx bRx : Nat) (allocs : List (Option Nat)),
    s.cfg.wf = true → s.shape = true → s.callerReady s.active = true → s.lcBusy = false → s.life = .uninitialized →
    s.chanTx.ring = none → s.chanRx.ring = none → s.holdsLock (.caller s.active) = false →
    s.engTx.halted = false ∨ s.engRx.halted = false → aTx.length = s.cfg.nTx → aRx.length = s.cfg.nRx →
    answersApart s.cfg [] (aTx ++ aRx) = true →
    s.draws.alloc = some bTx :: (aTx.map some ++ some bRx :: (aRx.map some ++ allocs)) →
    exec .devBringup s = .next (State.raiseFault { s with
      life := .ready
      lcBusy := true
      chanTx := { s.chanTx with ring := some (initRing s.cfg .tx s.nextHandle aTx), irqToken := true }
      chanRx := { s.chanRx with
        ring := some (initRing s.cfg .rx (s.nextHandle + (s.cfg.nTx + 1)) aRx), irqToken := true }
      engTx := if s.engTx.halted = true then { s.engTx with hwCur := 0, tailValid := false } else s.engTx
      callers := s.callers.set s.active { s.caller s.active with
        op := .bringup (if s.engTx.halted = true then .curRx else .curTx), wait := false }
      allocated := s.allocated ++ List.range' s.nextHandle (s.cfg.nTx + 1 + (s.cfg.nRx + 1))
      nextHandle := s.nextHandle + (s.cfg.nTx + 1 + (s.cfg.nRx + 1))
      draws := { s.draws with alloc := allocs } } (.caller s.active)
      (.curDescWhileRunning (if s.engTx.halted = true then .rx else .tx)))

/-- A lifecycle command in a state that does not admit it is refused, and writes nothing but the mark and that its
caller has no further step (R230, R319). -/
def Obligations.LifecycleRefused : Prop :=
  ∀ s : State, s.callerReady s.active = true →
    (s.lcBusy = true ∨ s.life ≠ .uninitialized → exec .devBringup s = .next { s with
      refused := addNew (.lifecycleState s.active (s.caller s.active).pc) s.refused
      stopped := addNew (.caller s.active) s.stopped })
    ∧ (s.lcBusy = true ∨ s.life ≠ .running → exec .devShutdown s = .next { s with
      refused := addNew (.lifecycleState s.active (s.caller s.active).pc) s.refused
      stopped := addNew (.caller s.active) s.stopped })

/-- `DEV_SHUTDOWN` with both locks free: each engine is disabled and told to stop, the ring of one that has halted is
freed and logged `freed`, the ring of one that has not is kept and logged `leaked`, both handlers are unregistered,
`STOPPED`, `OK` (R227, R228, R360). The operation runs uninterrupted (log 4). -/
def Obligations.ShutdownFreesHalted : Prop :=
  ∀ s : State, s.callerReady s.active = true → s.lcBusy = false → s.life = .running →
    s.chanTx.lock = .free → s.chanRx.lock = .free →
    exec .devShutdown s = .next (State.respond { s with
      life := .stopped
      chanTx := { s.chanTx with ring := if s.engTx.halted = true then none else s.chanTx.ring, irqToken := false }
      chanRx := { s.chanRx with ring := if s.engRx.halted = true then none else s.chanRx.ring, irqToken := false }
      engTx := { s.engTx with irqEn := false, runStop := false }
      engRx := { s.engRx with irqEn := false, runStop := false }
      allocated := s.allocated.filter (fun h => decide (
        ¬ (s.engTx.halted = true ∧ h ∈ s.ringHandles .tx) ∧ ¬ (s.engRx.halted = true ∧ h ∈ s.ringHandles .rx)))
      tdLog := s.tdLog ++ [if s.engTx.halted = true then .freed .tx else .leaked .tx,
        if s.engRx.halted = true then .freed .rx else .leaked .rx] } s.active .ok 0)

/-! ## Engines and interrupts -/

/-- Transmit completion. Without an error the frame of the descriptor at `hwCur` goes on the wire and the descriptor is
completed with its length; with error bits the frame is not on the wire, and the status length is a draw of at most
the length. The position advances and the completion is counted; nothing else changes (R281, R283, R284). A draw is
brought into its range (the model's choice: log 8). -/
def Obligations.TxCompletion : Prop :=
  ∀ (s : State) (cs : List Choice) (r : Ring) (d : Desc) (frame : List Byte),
    s.cfg.wf = true → s.shape = true → s.schedule = .txComplete :: cs → s.completeEnabled .tx = true →
    s.chanTx.ring = some r → r.desc[s.engTx.hwCur]? = some d → d.own = .posted →
    d.ctrl.len ≠ 0 → d.ctrl.len ≤ s.cfg.bufSize → d.buf.bytes.readFrom d.ctrl.len 0 = some frame →
    let after := fun (dr : Draws) (wire : List (List Byte)) (st : Status) => ({ s with
      schedule := cs
      draws := dr
      wireLog := wire
      chanTx := { s.chanTx with
        ring := some { r with desc := r.desc.set s.engTx.hwCur { d with own := .completed, st := st } } }
      engTx := { s.engTx with
        hwCur := (s.engTx.hwCur + 1) % s.cfg.nTx
        iocPend := s.engTx.iocPend || decide (s.engTx.coalThresh ≤ s.engTx.coalCount + 1)
        coalCount := if s.engTx.coalThresh ≤ s.engTx.coalCount + 1 then 0 else s.engTx.coalCount + 1 } } : State)
    (s.cfg.deviceMayFail = false →
      step s = .next (after s.draws (s.wireLog ++ [frame]) { cmplt := true, err := 0, len := d.ctrl.len }))
    ∧ (∀ e es, s.cfg.deviceMayFail = true → s.draws.errBits = e :: es → e % 2 ^ s.cfg.errW = 0 →
      step s = .next (after { s.draws with errBits := es } (s.wireLog ++ [frame])
        { cmplt := true, err := 0, len := d.ctrl.len }))
    ∧ ∀ e es n ns, s.cfg.deviceMayFail = true → s.draws.errBits = e :: es → s.draws.txLen = n :: ns →
      e % 2 ^ s.cfg.errW ≠ 0 →
      step s = .next (after { s.draws with errBits := es, txLen := ns } s.wireLog
        { cmplt := true, err := e % 2 ^ s.cfg.errW, len := min n d.ctrl.len })

/-- Receive completion: the delivered frame is written into the buffer of the descriptor at `hwCur`, which is completed
with the frame's length and the error bits, zero unless the device may fail; the position advances and the completion
is counted; nothing else changes (R282, R283, R284). A draw of error bits is brought into its range (the model's choice:
log 8). -/
def Obligations.RxCompletion : Prop :=
  ∀ (s : State) (cs : List Choice) (r : Ring) (d : Desc) (f : List Byte) (fs : List (List Byte)),
    s.cfg.wf = true → s.shape = true → s.schedule = .rxComplete :: cs → s.completeEnabled .rx = true →
    s.draws.frame = f :: fs → s.chanRx.ring = some r →
    r.desc[s.engRx.hwCur]? = some d → d.own = .posted → f.length ≤ d.ctrl.len → d.ctrl.len ≤ s.cfg.bufSize →
    let after := fun (dr : Draws) (err : Nat) => ({ s with
      schedule := cs
      draws := dr
      chanRx := { s.chanRx with
        ring := some { r with desc := r.desc.set s.engRx.hwCur { d with
          own := .completed
          st := { cmplt := true, err := err, len := f.length }
          buf := { d.buf with bytes := d.buf.bytes.writeFrom 0 f } } } }
      engRx := { s.engRx with
        hwCur := (s.engRx.hwCur + 1) % s.cfg.nRx
        iocPend := s.engRx.iocPend || decide (s.engRx.coalThresh ≤ s.engRx.coalCount + 1)
        coalCount := if s.engRx.coalThresh ≤ s.engRx.coalCount + 1 then 0 else s.engRx.coalCount + 1 } } : State)
    (s.cfg.deviceMayFail = false → step s = .next (after { s.draws with frame := fs } 0))
    ∧ ∀ e es, s.cfg.deviceMayFail = true → s.draws.errBits = e :: es →
      step s = .next (after { s.draws with frame := fs, errBits := es } (e % 2 ^ s.cfg.errW))

/-- The engine's check: no ring, or a descriptor that is not `POSTED`, is `DescriptorNotPosted`; a transmit descriptor
of length zero is `ZeroLengthTx`; the engine has no further step and nothing else changes (R288, R318). -/
def Obligations.EngineChecks : Prop :=
  ∀ (s : State) (cs : List Choice), s.cfg.wf = true → s.shape = true →
    (s.schedule = .txComplete :: cs → s.completeEnabled .tx = true →
      (s.chanTx.ring = none ∨ (∃ r d, s.chanTx.ring = some r ∧ r.desc[s.engTx.hwCur]? = some d ∧ d.own ≠ .posted) →
        step s = .next (State.raiseFault { s with schedule := cs } .engTx (.descriptorNotPosted .tx s.engTx.hwCur)))
      ∧ ∀ r d, s.chanTx.ring = some r → r.desc[s.engTx.hwCur]? = some d → d.own = .posted → d.ctrl.len = 0 →
        step s = .next (State.raiseFault { s with schedule := cs } .engTx (.zeroLengthTx s.engTx.hwCur)))
    ∧ (s.schedule = .rxComplete :: cs → s.completeEnabled .rx = true →
      s.chanRx.ring = none ∨ (∃ r d, s.chanRx.ring = some r ∧ r.desc[s.engRx.hwCur]? = some d ∧ d.own ≠ .posted) →
        step s = .next (State.raiseFault { s with schedule := cs } .engRx (.descriptorNotPosted .rx s.engRx.hwCur)))

/-- Delay expiry, halt and fail: each exactly when R280 enables it, with the fields R285, R286 and R287 write and no
other; else nothing changes. -/
def Obligations.EngineTimerHaltFail : Prop :=
  ∀ (s : State) (ch : Channel) (cs : List Choice), s.cfg.wf = true → s.shape = true →
    s.isStopped (engineAgent ch) = false →
    (s.schedule = .delay ch :: cs →
      step s = .next (if (s.eng ch).halted = false ∧ (s.eng ch).coalDelay ≠ 0 ∧ 0 < (s.eng ch).coalCount
        then State.setEng { s with schedule := cs } ch { s.eng ch with dlyPend := true, coalCount := 0 }
        else { s with schedule := cs }))
    ∧ (s.schedule = .halt ch :: cs →
      step s = .next (if (s.eng ch).halted = false ∧ (s.eng ch).runStop = false
        then State.setEng { s with schedule := cs } ch { s.eng ch with halted := true }
        else { s with schedule := cs }))
    ∧ (s.schedule = .fail ch :: cs →
      step s = .next (if (s.eng ch).halted = false ∧ s.cfg.deviceMayFail = true
        then State.setEng { s with schedule := cs } ch { s.eng ch with halted := true, errHalt := true }
        else { s with schedule := cs }))

/-- An engine that has halted takes no step (R280). -/
def Obligations.HaltedEngineTakesNoStep : Prop :=
  ∀ (s : State) (ch : Channel) (c : Choice) (cs : List Choice), s.cfg.wf = true → s.shape = true →
    (s.eng ch).halted = true → s.schedule = c :: cs → choiceAgent c = engineAgent ch →
    step s = .next { s with schedule := cs }

/-- Interrupt entry: possible exactly when the line is asserted, the handler is registered and the agent idle; it
changes nothing but the agent's position, and saves nothing (R315, R316). -/
def Obligations.InterruptEntry : Prop :=
  ∀ (s : State) (ch : Channel) (cs : List Choice), s.cfg.wf = true → s.shape = true →
    s.isStopped (irqAgent ch) = false → s.schedule = .enter ch :: cs →
    step s = .next (
      if (s.eng ch).irqEn = true ∧ ((s.eng ch).iocPend = true ∨ (s.eng ch).dlyPend = true)
        ∧ (s.chan ch).irqToken = true ∧ s.irqIdle ch = true
      then
        match ch with
        | .tx => { s with schedule := cs, irqTx := { s.irqTx with op := .ack } }
        | .rx => { s with schedule := cs, irqRx := { s.irqRx with op := .readStatus } }
      else { s with schedule := cs })

/-- A handler takes no lock, writes no ring, and touches only its own engine and agent and, for the receive one, the
mode and the schedule flag; it ends in at most four steps (R321, R322). -/
def Obligations.HandlerFrame : Prop :=
  ∀ s : State,
    (∃ e, irqStep .tx s = { s with engTx := e, irqTx := (irqStep .tx s).irqTx })
    ∧ (∃ e, irqStep .rx s = { s with
        engRx := e
        rxMode := (irqStep .rx s).rxMode
        rxSched := (irqStep .rx s).rxSched
        irqRx := (irqStep .rx s).irqRx })
    ∧ ∀ ch, ((irqStep ch)^[4] s).irqIdle ch = true

/-- What an engine step touches: its own engine, the descriptor at `hwCur` and its buffer, and for the transmit engine
the wire log; beside them only the draws it uses and its fault (R290). -/
def Obligations.EngineFrame : Prop :=
  ∀ (s t : State) (c : Choice) (ch : Channel), choiceAgent c = engineAgent ch → act c s = .next t →
    (∃ r e, t = { State.setEng (s.setRing ch r) ch e with
      wireLog := t.wireLog, faults := t.faults, stopped := t.stopped, draws := t.draws, drawn := t.drawn })
    ∧ (ch = .rx → t.wireLog = s.wireLog)
    ∧ ((s.ring ch = none ∧ t.ring ch = none) ∨ ∃ r r', s.ring ch = some r ∧ t.ring ch = some r'
        ∧ r'.cap = r.cap ∧ r'.curr = r.curr ∧ r'.tail = r.tail ∧ r'.backing = r.backing
        ∧ ∀ i, i ≠ (s.eng ch).hwCur → r'.desc[i]? = r.desc[i]?)

/-! ## Frames over bytes -/

/-- Which bytes of buffers a command can change, `RING_INIT`, `RING_TEARDOWN`, `DEV_BRINGUP` and `DEV_SHUTDOWN` apart:
none but those of the descriptor at `tail` that a `TX_SEND` fills, at offsets below its length. Of those four, which make
and free whole rings, it says nothing (R78, R135, R162, R195). -/
def Obligations.MemoryFrame : Prop :=
  ∀ (i : Instr) (s t : State), exec i s = .next t →
    match i with
    | .ringInit _ _ | .ringTeardown _ | .devBringup | .devShutdown => True
    | .txSend len => ∀ ch j off,
        ¬ (ch = .tx ∧ (∃ r, s.ring .tx = some r ∧ j = r.tail) ∧ off < len.toNat) →
        t.byteAt ch j off = s.byteAt ch j off
    | _ => ∀ ch j off, t.byteAt ch j off = s.byteAt ch j off

/-! ## Invariants every step keeps -/

/-- Every cursor, every engine position and every ring keeps its bounds: all advance modulo the capacity (R38, R39,
R52, R142). -/
def Obligations.ShapeKept : Prop :=
  ∀ s t : State, s.shape = true → step s = .next t → t.shape = true ∧ t.cfg = s.cfg

/-- Every buffer stays in canonical form: offsets strictly rising and below `BUF_SIZE` (R44). The form is the model's
choice (log 16). -/
def Obligations.MemoryCanonicalKept : Prop :=
  ∀ s t : State, s.memoryCanonical → step s = .next t → t.memoryCanonical

/-- The rings' invariants. The tag and the completion bit of every descriptor agree (R45). On the receive ring `tail`
stays two slots behind `curr` and no descriptor is `FREE` (R48(a), R48(b)). On the transmit ring exactly the descriptors
from `curr` up to `tail` are not `FREE`, and `curr` is `tail` only while no send has used the ring (R46(b), R47). -/
def Obligations.RingInvariantsKept : Prop :=
  ∀ s t : State, step s = .next t →
    (s.tagsAgree → t.tagsAgree) ∧ (s.rxTailTrails → t.rxTailTrails) ∧ (s.rxNeverFree → t.rxNeverFree)
    ∧ (s.txRingOrdered → t.txRingOrdered)

/-- Mutual exclusion: a lock is held by an agent exactly while its operation is between acquire and release (R88, R89);
no interrupt agent and no engine ever holds one (R322). A caller at an acquire has `wait[k]` true, and no step while the
lock is held (R56, R88); that it is true while the lock is free as well is the model's reading (log 17). -/
def Obligations.LockDisciplineKept : Prop :=
  ∀ s t : State, step s = .next t →
    (s.lockDiscipline → t.lockDiscipline) ∧ (s.waitsAtAcquire → t.waitsAtAcquire)
    ∧ ∀ k c, s.callerBlocked k = true → choiceAgent c = .caller k → s.enabled c = false

/-- `lcBusy` stays true exactly while one lifecycle command is in progress, and `life` as its position says; `life`
moves only along the table of R220, and `STOPPED` is final (R31, R220). A whole bring-up run as one step goes along two
edges (the model's choice: log 4). -/
def Obligations.LifecycleKept : Prop :=
  ∀ s t : State, s.lifecycleDiscipline → step s = .next t →
    t.lifecycleDiscipline
    ∧ (t.life = s.life ∨ lifeEdge s.life t.life = true
      ∨ (s.life = .uninitialized ∧ t.life = .running ∧ ∃ k, s.nextChoice = .command k))
    ∧ (s.life = .stopped → t.life = .stopped)

/-- Every response has a code of R107 and zero in the reserved bits, and `pc[k]` counts the responses (R64, R106,
R107). -/
def Obligations.ResponsesKept : Prop :=
  ∀ s t : State, s.responsesLegal → s.pcCountsResponses → step s = .next t →
    t.responsesLegal ∧ t.pcCountsResponses

/-- The logs, the fault set and the refused mark only grow, a stopped agent stays stopped, and no step writes the
configuration or a stream (R59, R60, R66). -/
def Obligations.LogsOnlyGrow : Prop :=
  ∀ s t : State, step s = .next t →
    s.wireLog <+: t.wireLog ∧ s.sinkLog <+: t.sinkLog ∧ s.tdLog <+: t.tdLog
    ∧ s.faults <+: t.faults ∧ s.refused <+: t.refused ∧ s.stopped <+: t.stopped
    ∧ t.cfg = s.cfg ∧ t.callers.map Caller.stream = s.callers.map Caller.stream

/-- The allocator's answers stay fresh: no handle is live twice (R86), and no two live buffers overlap (R72, R329).
That every live handle is below the number the next one takes is the model's own counter (log 6); an answer that
overlaps a live buffer is a failure (the model's choice: log 8). -/
def Obligations.HandlesAndBuffersKept : Prop :=
  ∀ s t : State, step s = .next t → (s.handlesFresh → t.handlesFresh) ∧ (s.buffersApart → t.buffersApart)

/-! ## The end of a run -/

/-- In a settled state with nothing placed in the trace slot, no step is enabled but those that wait on the environment:
a receive completion and a fail (R366). -/
def Obligations.SettledWaitsOnEnvironment : Prop :=
  ∀ (s : State) (c : Choice), s.settled = true → s.trace = none → s.enabled c = true →
    c = .rxComplete ∨ c = .fail .tx ∨ c = .fail .rx
end

