-- ==== Sys2Proof/Laws/Memory.lean ====
section
/-! SUPPORT. Buffer memory: reading after a write, and the canonical form every memory operation keeps. -/

namespace Sys2Proof.Machine

theorem Memory.read_write_same (m : Memory) (i : Nat) (v : Byte) : (m.write i v).read i = some v := by
  induction m with
  | nil => simp [Memory.write, Memory.read]
  | cons x m ih =>
    obtain ⟨a, b⟩ := x
    simp only [Memory.write]
    split
    · simp [Memory.read]
    · split
      · simp [Memory.read]
      · simp_all [Memory.read]

theorem Memory.read_write_ne (m : Memory) (i j : Nat) (v : Byte) (h : j ≠ i) :
    (m.write i v).read j = m.read j := by
  induction m with
  | nil => simp [Memory.write, Memory.read, h]
  | cons x m ih =>
    obtain ⟨a, b⟩ := x
    simp only [Memory.write]
    split
    · simp [Memory.read, h]
    · split
      · subst i; simp [Memory.read, h]
      · simp [Memory.read, ih]

theorem Memory.mem_write {m : Memory} {i : Nat} {v : Byte} {x : Host.Cell} (h : x ∈ m.write i v) :
    x = (i, v) ∨ x ∈ m := by
  induction m with
  | nil => simpa [Memory.write] using h
  | cons y m ih =>
    obtain ⟨a, b⟩ := y
    simp only [Memory.write] at h
    split at h
    · simpa using h
    · split at h
      · simp only [List.mem_cons] at h ⊢; tauto
      · simp only [List.mem_cons] at h ⊢
        rcases h with h | h
        · exact .inr (.inl h)
        · rcases ih h with h | h
          · exact .inl h
          · exact .inr (.inr h)

theorem Memory.write_wf {size : Nat} {m : Memory} {i : Nat} {v : Byte} (hm : Memory.wf size m) (hi : i < size) :
    Memory.wf size (m.write i v) := by
  refine ⟨?_, fun x hx => ?_⟩
  · replace hm := hm.1
    induction m with
    | nil => simp [Memory.write]
    | cons y m ih =>
      obtain ⟨a, b⟩ := y
      rw [List.pairwise_cons] at hm
      simp only [Memory.write]
      split
      · rename_i hlt
        refine List.pairwise_cons.2 ⟨fun x hx => ?_, List.pairwise_cons.2 hm⟩
        rcases List.mem_cons.1 hx with rfl | hx
        · exact hlt
        · exact lt_trans hlt (hm.1 x hx)
      · split
        · subst i; exact List.pairwise_cons.2 ⟨hm.1, hm.2⟩
        · refine List.pairwise_cons.2 ⟨fun x hx => ?_, ih hm.2⟩
          rcases Memory.mem_write hx with rfl | hx
          · simp only; omega
          · exact hm.1 x hx
  · rcases Memory.mem_write hx with rfl | hx
    · exact hi
    · exact hm.2 x hx

theorem Memory.wf_nil (size : Nat) : Memory.wf size [] := by simp [Memory.wf]

/-- A list write keeps the canonical form (R78). -/
theorem Memory.writeFrom_wf {size : Nat} (bs : List Byte) {m : Memory} {a : Nat} (hm : Memory.wf size m)
    (ha : a + bs.length ≤ size) : Memory.wf size (m.writeFrom a bs) := by
  induction bs generalizing m a with
  | nil => exact hm
  | cons b bs ih =>
    simp only [List.length_cons] at ha
    exact ih (Memory.write_wf hm (by omega)) (by omega)

/-- What a list write leaves in the buffer (R78): its bytes, and every other offset as it was. -/
theorem Memory.read_writeFrom (bs : List Byte) (m : Memory) (a i : Nat) :
    (m.writeFrom a bs).read i =
      if a ≤ i ∧ i < a + bs.length then bs[i - a]? else m.read i := by
  induction bs generalizing m a with
  | nil =>
    have : ¬(a ≤ i ∧ i < a + ([] : List Byte).length) := by simp
    simp only [Memory.writeFrom]; rw [if_neg this]
  | cons b bs ih =>
    simp only [Memory.writeFrom, ih, List.length_cons]
    rcases Nat.lt_trichotomy i a with h | h | h
    · rw [if_neg (by omega), if_neg (by omega), Memory.read_write_ne _ _ _ _ (by omega)]
    · subst h
      rw [if_neg (by omega), if_pos (by omega), Memory.read_write_same]; simp
    · obtain ⟨k, rfl⟩ : ∃ k, i = a + 1 + k := ⟨i - (a + 1), by omega⟩
      by_cases hk : k < bs.length
      · rw [if_pos (by omega), if_pos (by omega)]
        have h1 : a + 1 + k - (a + 1) = k := by omega
        have h2 : a + 1 + k - a = k + 1 := by omega
        simp [h1, h2]
      · rw [if_neg (by omega), if_neg (by omega), Memory.read_write_ne _ _ _ _ (by omega)]

theorem Memory.readFrom_length {m : Memory} {n a : Nat} {bs : List Byte} (h : m.readFrom n a = some bs) :
    bs.length = n := by
  induction n generalizing a bs with
  | zero => simp only [Memory.readFrom, Option.some.injEq] at h; simp [← h]
  | succ n ih =>
    simp only [Memory.readFrom] at h
    split at h
    · rename_i h1
      simp only [Option.some.injEq] at h
      simp [← h, ih h1]
    · cases h

/-- Reading `n` bytes gives a list exactly when each of them reads as its entry (R77). -/
theorem Memory.readFrom_eq_some {m : Memory} {n a : Nat} {bs : List Byte} :
    m.readFrom n a = some bs ↔ bs.length = n ∧ ∀ i < n, m.read (a + i) = bs[i]? := by
  induction n generalizing a bs with
  | zero =>
    simp only [Memory.readFrom, Option.some.injEq, Nat.not_lt_zero, false_implies, implies_true, and_true]
    exact ⟨fun h => by simp [← h], fun h => (List.length_eq_zero_iff.1 h).symm⟩
  | succ n ih =>
    constructor
    · intro h
      refine ⟨Memory.readFrom_length h, fun i hi => ?_⟩
      simp only [Memory.readFrom] at h
      split at h
      · rename_i b bs' hb hbs
        simp only [Option.some.injEq] at h
        subst h
        cases i with
        | zero => simpa using hb
        | succ i =>
          have := (ih.1 hbs).2 i (by omega)
          simpa [Nat.add_assoc, Nat.add_comm 1 i] using this
      · cases h
    · rintro ⟨hl, h⟩
      cases bs with
      | nil => simp at hl
      | cons b bs =>
        have h0 : m.read a = some b := by simpa using h 0 (by omega)
        have h1 : m.readFrom n (a + 1) = some bs := by
          refine ih.2 ⟨by simpa using hl, fun i hi => ?_⟩
          have := h (i + 1) (by omega)
          simpa [Nat.add_assoc, Nat.add_comm 1 i] using this
        simp [Memory.readFrom, h0, h1]

/-- Reading back what was just written gives it. -/
theorem Memory.readFrom_writeFrom (m : Memory) (bs : List Byte) (a : Nat) :
    (m.writeFrom a bs).readFrom bs.length a = some bs := by
  refine Memory.readFrom_eq_some.2 ⟨rfl, fun i hi => ?_⟩
  rw [Memory.read_writeFrom, if_pos (by omega)]
  simp

/-- A memory write keeps the canonical form of the buffer and everything of it but its bytes. -/
theorem memWrite_ok {size : Nat} {ch : Channel} {i : Nat} {v : List Byte} {b b' : Buffer}
    (h : memWrite size ch i v b = .ok b') :
    v.length ≤ size ∧ b' = { b with bytes := b.bytes.writeFrom 0 v }
    ∧ (Memory.wf size b.bytes → Memory.wf size b'.bytes) := by
  simp only [memWrite] at h
  split at h
  · cases h
  · cases h
    exact ⟨by omega, rfl, fun hm => Memory.writeFrom_wf v hm (by omega)⟩

/-- A memory read that answers: the bytes are the buffer's, as many as asked for (R77). -/
theorem memRead_ok {size : Nat} {ch : Channel} {i n : Nat} {b : Buffer} {v : List Byte} :
    memRead size ch i n b = .ok v ↔ n ≤ size ∧ b.bytes.readFrom n 0 = some v := by
  simp only [memRead]
  split
  · simp only [reduceCtorEq, false_iff, not_and]; omega
  · rename_i h
    cases hr : b.bytes.readFrom n 0 with
    | none => simp
    | some w => simp only [Except.ok.injEq, Option.some.injEq]; constructor
                · exact fun e => ⟨by omega, e⟩
                · exact fun e => e.2

end Sys2Proof.Machine
end

