-- ==== Sys2Proof/Laws/Operands.lean ====
section
/-! SUPPORT. Index arithmetic (R12, R142), the address tables (R71, R250), and the constraints of R5 one by one. -/

namespace Sys2Proof.Machine

theorem next_lt {n : Nat} (hn : 0 < n) (i : Nat) : next n i < n := Nat.mod_lt _ hn

theorem dist_lt {n : Nat} (hn : 0 < n) (a b : Nat) : dist n a b < n := Nat.mod_lt _ hn

/-- Advancing a slot `j` places on (R142). -/
theorem next_add_mod (n a j : Nat) : next n ((a + j) % n) = (a + (j + 1)) % n := by
  rw [next, Nat.mod_add_mod, Nat.add_assoc]

theorem next_of_lt {n i : Nat} (h : i + 1 < n) : next n i = i + 1 := Nat.mod_eq_of_lt h

theorem next_wrap {n : Nat} (hn : 0 < n) : next n (n - 1) = 0 := by
  simp [next, Nat.sub_add_cancel hn]

/-- Two slots less than one turn away from `a` are the same only if their distances are. -/
theorem slot_inj {n a i j : Nat} (hi : i < n) (hj : j < n) (h : (a + i) % n = (a + j) % n) : i = j := by
  have h' : i % n = j % n := by
    have := Nat.ModEq.add_left_cancel' a (show a + i ≡ a + j [MOD n] from h)
    exact this
  rwa [Nat.mod_eq_of_lt hi, Nat.mod_eq_of_lt hj] at h'

/-- The constraints of R5, one by one. -/
structure ConfigFacts (c : Config) : Prop where
  nTx : 3 ≤ c.nTx
  nRx : 2 ≤ c.nRx
  bufSize_pos : 1 ≤ c.bufSize
  bufSize_lt : c.bufSize < 2 ^ 23
  maxFrame_pos : 1 ≤ c.maxFrame
  maxFrame_le : c.maxFrame ≤ c.bufSize
  budget_pos : 1 ≤ c.budget
  budget_lt : c.budget < 2 ^ 23
  addr_length : ∀ ch, (addrTable c ch).length = c.cap ch
  addr_nodup : ∀ ch, (addrTable c ch).Nodup
  addr_lt : ∀ ch, ∀ a ∈ addrTable c ch, a < 2 ^ c.addrW
  coalThresh_pos : 1 ≤ c.coalThreshReset
  quiescePolls_pos : 1 ≤ c.quiescePolls
  numCallers_pos : 1 ≤ c.numCallers

theorem Config.facts {c : Config} (h : c.wf = true) : ConfigFacts c := by
  simp only [Config.wf, Bool.and_eq_true, decide_eq_true_eq, List.all_eq_true] at h
  obtain ⟨h1, h2, h3, h4, h5, h6, h7, h8, -, h10, h11, h12, h13, h14, h15, h16, h17, h18⟩ := h
  exact ⟨h1, h2, h3, h4, h5, h6, h7, h8, by intro ch; cases ch <;> assumption, by intro ch; cases ch <;> assumption,
    by intro ch; cases ch <;> assumption, h16, h17, h18⟩

theorem ConfigFacts.cap_ge_two {c : Config} (h : ConfigFacts c) (ch : Channel) : 2 ≤ c.cap ch := by
  have := h.nTx; have := h.nRx
  cases ch <;> simp only [Config.cap] <;> omega

theorem idxOf?_some {l : List Nat} {a i : Nat} (h : l.idxOf? a = some i) : ∃ hi : i < l.length, l[i] = a := by
  simp only [List.idxOf?, List.findIdx?_eq_some_iff_getElem] at h
  obtain ⟨h1, h2, -⟩ := h
  exact ⟨h1, by simpa using h2⟩

theorem idxOf?_getElem {l : List Nat} (hn : l.Nodup) {i : Nat} (h : i < l.length) : l.idxOf? l[i] = some i := by
  simp only [List.idxOf?, List.findIdx?_eq_some_iff_getElem]
  refine ⟨h, by simp, fun j hj he => ?_⟩
  have := hn.getElem_inj_iff.mp (show l[j] = l[i] by simpa using he)
  omega

/-- The port finds the descriptor whose address it is sent (R250). -/
theorem indexOf_addrOf {c : Config} (h : ConfigFacts c) {ch : Channel} {i : Nat} (hi : i < c.cap ch) :
    ∃ a, addrOf c ch i = some a ∧ indexOf c ch a = some i := by
  have hl : i < (addrTable c ch).length := by rw [h.addr_length]; exact hi
  exact ⟨(addrTable c ch)[i], List.getElem?_eq_getElem hl, idxOf?_getElem (h.addr_nodup ch) hl⟩

theorem addrOf_none {c : Config} (h : ConfigFacts c) {ch : Channel} {i : Nat} (hi : c.cap ch ≤ i) :
    addrOf c ch i = none :=
  List.getElem?_eq_none (by rw [h.addr_length]; exact hi)

/-- An address operand the block sends is converted back to its index (R250). -/
theorem addrOperand_addrOf {c : Config} (h : ConfigFacts c) {ch : Channel} {i : Nat} (hi : i < c.cap ch) :
    addrOperand c ch (addrOf c ch i) = .ok i := by
  obtain ⟨a, ha, hb⟩ := indexOf_addrOf h hi
  simp [addrOperand, ha, hb]

/-- An address operand that is converted names a descriptor (R250). -/
theorem addrOperand_lt {c : Config} (h : ConfigFacts c) {ch : Channel} {addr : Option Nat} {i : Nat}
    (hi : addrOperand c ch addr = .ok i) : i < c.cap ch := by
  cases addr with
  | none => simp [addrOperand] at hi
  | some a =>
    simp only [addrOperand] at hi
    split at hi
    · cases hi
    · rename_i j hj
      cases hi
      rw [← h.addr_length ch]
      exact (idxOf?_some hj).1

end Sys2Proof.Machine
end

