-- ==== Sys2Proof/Laws/State.lean ====
section
/-! SUPPORT. What each update of the state leaves unchanged, one lemma per field per update, and what the accessors
read after it. -/

namespace Sys2Proof.Machine

/-! ## Fields an update leaves unchanged -/

section
variable (s : State) (ch : Channel) (c : Chan)
@[simp] theorem setChan_life : (s.setChan ch c).life = s.life := by cases ch <;> rfl
@[simp] theorem setChan_lcBusy : (s.setChan ch c).lcBusy = s.lcBusy := by cases ch <;> rfl
@[simp] theorem setChan_rxMode : (s.setChan ch c).rxMode = s.rxMode := by cases ch <;> rfl
@[simp] theorem setChan_rxSched : (s.setChan ch c).rxSched = s.rxSched := by cases ch <;> rfl
@[simp] theorem setChan_engTx : (s.setChan ch c).engTx = s.engTx := by cases ch <;> rfl
@[simp] theorem setChan_engRx : (s.setChan ch c).engRx = s.engRx := by cases ch <;> rfl
@[simp] theorem setChan_callers : (s.setChan ch c).callers = s.callers := by cases ch <;> rfl
@[simp] theorem setChan_irqTx : (s.setChan ch c).irqTx = s.irqTx := by cases ch <;> rfl
@[simp] theorem setChan_irqRx : (s.setChan ch c).irqRx = s.irqRx := by cases ch <;> rfl
@[simp] theorem setChan_defer : (s.setChan ch c).defer = s.defer := by cases ch <;> rfl
@[simp] theorem setChan_wireLog : (s.setChan ch c).wireLog = s.wireLog := by cases ch <;> rfl
@[simp] theorem setChan_sinkLog : (s.setChan ch c).sinkLog = s.sinkLog := by cases ch <;> rfl
@[simp] theorem setChan_allocated : (s.setChan ch c).allocated = s.allocated := by cases ch <;> rfl
@[simp] theorem setChan_tdLog : (s.setChan ch c).tdLog = s.tdLog := by cases ch <;> rfl
@[simp] theorem setChan_faults : (s.setChan ch c).faults = s.faults := by cases ch <;> rfl
@[simp] theorem setChan_refused : (s.setChan ch c).refused = s.refused := by cases ch <;> rfl
@[simp] theorem setChan_cfg : (s.setChan ch c).cfg = s.cfg := by cases ch <;> rfl
@[simp] theorem setChan_schedule : (s.setChan ch c).schedule = s.schedule := by cases ch <;> rfl
@[simp] theorem setChan_ticks : (s.setChan ch c).ticks = s.ticks := by cases ch <;> rfl
@[simp] theorem setChan_draws : (s.setChan ch c).draws = s.draws := by cases ch <;> rfl
@[simp] theorem setChan_drawn : (s.setChan ch c).drawn = s.drawn := by cases ch <;> rfl
@[simp] theorem setChan_stopped : (s.setChan ch c).stopped = s.stopped := by cases ch <;> rfl
@[simp] theorem setChan_nextHandle : (s.setChan ch c).nextHandle = s.nextHandle := by cases ch <;> rfl
@[simp] theorem setChan_active : (s.setChan ch c).active = s.active := by cases ch <;> rfl
@[simp] theorem setChan_trace : (s.setChan ch c).trace = s.trace := by cases ch <;> rfl
@[simp] theorem setChan_ret : (s.setChan ch c).ret = s.ret := by cases ch <;> rfl
end

section
variable (s : State) (ch : Channel) (e : Engine)
@[simp] theorem setEng_life : (s.setEng ch e).life = s.life := by cases ch <;> rfl
@[simp] theorem setEng_lcBusy : (s.setEng ch e).lcBusy = s.lcBusy := by cases ch <;> rfl
@[simp] theorem setEng_chanTx : (s.setEng ch e).chanTx = s.chanTx := by cases ch <;> rfl
@[simp] theorem setEng_chanRx : (s.setEng ch e).chanRx = s.chanRx := by cases ch <;> rfl
@[simp] theorem setEng_rxMode : (s.setEng ch e).rxMode = s.rxMode := by cases ch <;> rfl
@[simp] theorem setEng_rxSched : (s.setEng ch e).rxSched = s.rxSched := by cases ch <;> rfl
@[simp] theorem setEng_callers : (s.setEng ch e).callers = s.callers := by cases ch <;> rfl
@[simp] theorem setEng_irqTx : (s.setEng ch e).irqTx = s.irqTx := by cases ch <;> rfl
@[simp] theorem setEng_irqRx : (s.setEng ch e).irqRx = s.irqRx := by cases ch <;> rfl
@[simp] theorem setEng_defer : (s.setEng ch e).defer = s.defer := by cases ch <;> rfl
@[simp] theorem setEng_wireLog : (s.setEng ch e).wireLog = s.wireLog := by cases ch <;> rfl
@[simp] theorem setEng_sinkLog : (s.setEng ch e).sinkLog = s.sinkLog := by cases ch <;> rfl
@[simp] theorem setEng_allocated : (s.setEng ch e).allocated = s.allocated := by cases ch <;> rfl
@[simp] theorem setEng_tdLog : (s.setEng ch e).tdLog = s.tdLog := by cases ch <;> rfl
@[simp] theorem setEng_faults : (s.setEng ch e).faults = s.faults := by cases ch <;> rfl
@[simp] theorem setEng_refused : (s.setEng ch e).refused = s.refused := by cases ch <;> rfl
@[simp] theorem setEng_cfg : (s.setEng ch e).cfg = s.cfg := by cases ch <;> rfl
@[simp] theorem setEng_schedule : (s.setEng ch e).schedule = s.schedule := by cases ch <;> rfl
@[simp] theorem setEng_ticks : (s.setEng ch e).ticks = s.ticks := by cases ch <;> rfl
@[simp] theorem setEng_draws : (s.setEng ch e).draws = s.draws := by cases ch <;> rfl
@[simp] theorem setEng_drawn : (s.setEng ch e).drawn = s.drawn := by cases ch <;> rfl
@[simp] theorem setEng_stopped : (s.setEng ch e).stopped = s.stopped := by cases ch <;> rfl
@[simp] theorem setEng_nextHandle : (s.setEng ch e).nextHandle = s.nextHandle := by cases ch <;> rfl
@[simp] theorem setEng_active : (s.setEng ch e).active = s.active := by cases ch <;> rfl
@[simp] theorem setEng_trace : (s.setEng ch e).trace = s.trace := by cases ch <;> rfl
@[simp] theorem setEng_ret : (s.setEng ch e).ret = s.ret := by cases ch <;> rfl
end

section
variable (s : State) (ch : Channel) (r : Option Ring)
@[simp] theorem setRing_life : (s.setRing ch r).life = s.life := by cases ch <;> rfl
@[simp] theorem setRing_lcBusy : (s.setRing ch r).lcBusy = s.lcBusy := by cases ch <;> rfl
@[simp] theorem setRing_rxMode : (s.setRing ch r).rxMode = s.rxMode := by cases ch <;> rfl
@[simp] theorem setRing_rxSched : (s.setRing ch r).rxSched = s.rxSched := by cases ch <;> rfl
@[simp] theorem setRing_engTx : (s.setRing ch r).engTx = s.engTx := by cases ch <;> rfl
@[simp] theorem setRing_engRx : (s.setRing ch r).engRx = s.engRx := by cases ch <;> rfl
@[simp] theorem setRing_callers : (s.setRing ch r).callers = s.callers := by cases ch <;> rfl
@[simp] theorem setRing_irqTx : (s.setRing ch r).irqTx = s.irqTx := by cases ch <;> rfl
@[simp] theorem setRing_irqRx : (s.setRing ch r).irqRx = s.irqRx := by cases ch <;> rfl
@[simp] theorem setRing_defer : (s.setRing ch r).defer = s.defer := by cases ch <;> rfl
@[simp] theorem setRing_wireLog : (s.setRing ch r).wireLog = s.wireLog := by cases ch <;> rfl
@[simp] theorem setRing_sinkLog : (s.setRing ch r).sinkLog = s.sinkLog := by cases ch <;> rfl
@[simp] theorem setRing_allocated : (s.setRing ch r).allocated = s.allocated := by cases ch <;> rfl
@[simp] theorem setRing_tdLog : (s.setRing ch r).tdLog = s.tdLog := by cases ch <;> rfl
@[simp] theorem setRing_faults : (s.setRing ch r).faults = s.faults := by cases ch <;> rfl
@[simp] theorem setRing_refused : (s.setRing ch r).refused = s.refused := by cases ch <;> rfl
@[simp] theorem setRing_cfg : (s.setRing ch r).cfg = s.cfg := by cases ch <;> rfl
@[simp] theorem setRing_schedule : (s.setRing ch r).schedule = s.schedule := by cases ch <;> rfl
@[simp] theorem setRing_ticks : (s.setRing ch r).ticks = s.ticks := by cases ch <;> rfl
@[simp] theorem setRing_draws : (s.setRing ch r).draws = s.draws := by cases ch <;> rfl
@[simp] theorem setRing_drawn : (s.setRing ch r).drawn = s.drawn := by cases ch <;> rfl
@[simp] theorem setRing_stopped : (s.setRing ch r).stopped = s.stopped := by cases ch <;> rfl
@[simp] theorem setRing_nextHandle : (s.setRing ch r).nextHandle = s.nextHandle := by cases ch <;> rfl
@[simp] theorem setRing_active : (s.setRing ch r).active = s.active := by cases ch <;> rfl
@[simp] theorem setRing_trace : (s.setRing ch r).trace = s.trace := by cases ch <;> rfl
@[simp] theorem setRing_ret : (s.setRing ch r).ret = s.ret := by cases ch <;> rfl
end

section
variable (s : State) (ch : Channel) (b : Bool)
@[simp] theorem setToken_life : (s.setToken ch b).life = s.life := by cases ch <;> rfl
@[simp] theorem setToken_lcBusy : (s.setToken ch b).lcBusy = s.lcBusy := by cases ch <;> rfl
@[simp] theorem setToken_rxMode : (s.setToken ch b).rxMode = s.rxMode := by cases ch <;> rfl
@[simp] theorem setToken_rxSched : (s.setToken ch b).rxSched = s.rxSched := by cases ch <;> rfl
@[simp] theorem setToken_engTx : (s.setToken ch b).engTx = s.engTx := by cases ch <;> rfl
@[simp] theorem setToken_engRx : (s.setToken ch b).engRx = s.engRx := by cases ch <;> rfl
@[simp] theorem setToken_callers : (s.setToken ch b).callers = s.callers := by cases ch <;> rfl
@[simp] theorem setToken_irqTx : (s.setToken ch b).irqTx = s.irqTx := by cases ch <;> rfl
@[simp] theorem setToken_irqRx : (s.setToken ch b).irqRx = s.irqRx := by cases ch <;> rfl
@[simp] theorem setToken_defer : (s.setToken ch b).defer = s.defer := by cases ch <;> rfl
@[simp] theorem setToken_wireLog : (s.setToken ch b).wireLog = s.wireLog := by cases ch <;> rfl
@[simp] theorem setToken_sinkLog : (s.setToken ch b).sinkLog = s.sinkLog := by cases ch <;> rfl
@[simp] theorem setToken_allocated : (s.setToken ch b).allocated = s.allocated := by cases ch <;> rfl
@[simp] theorem setToken_tdLog : (s.setToken ch b).tdLog = s.tdLog := by cases ch <;> rfl
@[simp] theorem setToken_faults : (s.setToken ch b).faults = s.faults := by cases ch <;> rfl
@[simp] theorem setToken_refused : (s.setToken ch b).refused = s.refused := by cases ch <;> rfl
@[simp] theorem setToken_cfg : (s.setToken ch b).cfg = s.cfg := by cases ch <;> rfl
@[simp] theorem setToken_schedule : (s.setToken ch b).schedule = s.schedule := by cases ch <;> rfl
@[simp] theorem setToken_ticks : (s.setToken ch b).ticks = s.ticks := by cases ch <;> rfl
@[simp] theorem setToken_draws : (s.setToken ch b).draws = s.draws := by cases ch <;> rfl
@[simp] theorem setToken_drawn : (s.setToken ch b).drawn = s.drawn := by cases ch <;> rfl
@[simp] theorem setToken_stopped : (s.setToken ch b).stopped = s.stopped := by cases ch <;> rfl
@[simp] theorem setToken_nextHandle : (s.setToken ch b).nextHandle = s.nextHandle := by cases ch <;> rfl
@[simp] theorem setToken_active : (s.setToken ch b).active = s.active := by cases ch <;> rfl
@[simp] theorem setToken_trace : (s.setToken ch b).trace = s.trace := by cases ch <;> rfl
@[simp] theorem setToken_ret : (s.setToken ch b).ret = s.ret := by cases ch <;> rfl
end

section
variable (s : State) (ch : Channel) (l : Lock)
@[simp] theorem setLock_life : (s.setLock ch l).life = s.life := by cases ch <;> rfl
@[simp] theorem setLock_lcBusy : (s.setLock ch l).lcBusy = s.lcBusy := by cases ch <;> rfl
@[simp] theorem setLock_rxMode : (s.setLock ch l).rxMode = s.rxMode := by cases ch <;> rfl
@[simp] theorem setLock_rxSched : (s.setLock ch l).rxSched = s.rxSched := by cases ch <;> rfl
@[simp] theorem setLock_engTx : (s.setLock ch l).engTx = s.engTx := by cases ch <;> rfl
@[simp] theorem setLock_engRx : (s.setLock ch l).engRx = s.engRx := by cases ch <;> rfl
@[simp] theorem setLock_callers : (s.setLock ch l).callers = s.callers := by cases ch <;> rfl
@[simp] theorem setLock_irqTx : (s.setLock ch l).irqTx = s.irqTx := by cases ch <;> rfl
@[simp] theorem setLock_irqRx : (s.setLock ch l).irqRx = s.irqRx := by cases ch <;> rfl
@[simp] theorem setLock_defer : (s.setLock ch l).defer = s.defer := by cases ch <;> rfl
@[simp] theorem setLock_wireLog : (s.setLock ch l).wireLog = s.wireLog := by cases ch <;> rfl
@[simp] theorem setLock_sinkLog : (s.setLock ch l).sinkLog = s.sinkLog := by cases ch <;> rfl
@[simp] theorem setLock_allocated : (s.setLock ch l).allocated = s.allocated := by cases ch <;> rfl
@[simp] theorem setLock_tdLog : (s.setLock ch l).tdLog = s.tdLog := by cases ch <;> rfl
@[simp] theorem setLock_faults : (s.setLock ch l).faults = s.faults := by cases ch <;> rfl
@[simp] theorem setLock_refused : (s.setLock ch l).refused = s.refused := by cases ch <;> rfl
@[simp] theorem setLock_cfg : (s.setLock ch l).cfg = s.cfg := by cases ch <;> rfl
@[simp] theorem setLock_schedule : (s.setLock ch l).schedule = s.schedule := by cases ch <;> rfl
@[simp] theorem setLock_ticks : (s.setLock ch l).ticks = s.ticks := by cases ch <;> rfl
@[simp] theorem setLock_draws : (s.setLock ch l).draws = s.draws := by cases ch <;> rfl
@[simp] theorem setLock_drawn : (s.setLock ch l).drawn = s.drawn := by cases ch <;> rfl
@[simp] theorem setLock_stopped : (s.setLock ch l).stopped = s.stopped := by cases ch <;> rfl
@[simp] theorem setLock_nextHandle : (s.setLock ch l).nextHandle = s.nextHandle := by cases ch <;> rfl
@[simp] theorem setLock_active : (s.setLock ch l).active = s.active := by cases ch <;> rfl
@[simp] theorem setLock_trace : (s.setLock ch l).trace = s.trace := by cases ch <;> rfl
@[simp] theorem setLock_ret : (s.setLock ch l).ret = s.ret := by cases ch <;> rfl
end

section
variable (s : State) (ch : Channel)
@[simp] theorem release_life : (s.release ch).life = s.life := by cases ch <;> rfl
@[simp] theorem release_lcBusy : (s.release ch).lcBusy = s.lcBusy := by cases ch <;> rfl
@[simp] theorem release_rxMode : (s.release ch).rxMode = s.rxMode := by cases ch <;> rfl
@[simp] theorem release_rxSched : (s.release ch).rxSched = s.rxSched := by cases ch <;> rfl
@[simp] theorem release_engTx : (s.release ch).engTx = s.engTx := by cases ch <;> rfl
@[simp] theorem release_engRx : (s.release ch).engRx = s.engRx := by cases ch <;> rfl
@[simp] theorem release_callers : (s.release ch).callers = s.callers := by cases ch <;> rfl
@[simp] theorem release_irqTx : (s.release ch).irqTx = s.irqTx := by cases ch <;> rfl
@[simp] theorem release_irqRx : (s.release ch).irqRx = s.irqRx := by cases ch <;> rfl
@[simp] theorem release_defer : (s.release ch).defer = s.defer := by cases ch <;> rfl
@[simp] theorem release_wireLog : (s.release ch).wireLog = s.wireLog := by cases ch <;> rfl
@[simp] theorem release_sinkLog : (s.release ch).sinkLog = s.sinkLog := by cases ch <;> rfl
@[simp] theorem release_allocated : (s.release ch).allocated = s.allocated := by cases ch <;> rfl
@[simp] theorem release_tdLog : (s.release ch).tdLog = s.tdLog := by cases ch <;> rfl
@[simp] theorem release_faults : (s.release ch).faults = s.faults := by cases ch <;> rfl
@[simp] theorem release_refused : (s.release ch).refused = s.refused := by cases ch <;> rfl
@[simp] theorem release_cfg : (s.release ch).cfg = s.cfg := by cases ch <;> rfl
@[simp] theorem release_schedule : (s.release ch).schedule = s.schedule := by cases ch <;> rfl
@[simp] theorem release_ticks : (s.release ch).ticks = s.ticks := by cases ch <;> rfl
@[simp] theorem release_draws : (s.release ch).draws = s.draws := by cases ch <;> rfl
@[simp] theorem release_drawn : (s.release ch).drawn = s.drawn := by cases ch <;> rfl
@[simp] theorem release_stopped : (s.release ch).stopped = s.stopped := by cases ch <;> rfl
@[simp] theorem release_nextHandle : (s.release ch).nextHandle = s.nextHandle := by cases ch <;> rfl
@[simp] theorem release_active : (s.release ch).active = s.active := by cases ch <;> rfl
@[simp] theorem release_trace : (s.release ch).trace = s.trace := by cases ch <;> rfl
@[simp] theorem release_ret : (s.release ch).ret = s.ret := by cases ch <;> rfl
end

section
variable (s : State) (k : Nat) (c : Caller)
@[simp] theorem setCaller_life : (s.setCaller k c).life = s.life := rfl
@[simp] theorem setCaller_lcBusy : (s.setCaller k c).lcBusy = s.lcBusy := rfl
@[simp] theorem setCaller_chanTx : (s.setCaller k c).chanTx = s.chanTx := rfl
@[simp] theorem setCaller_chanRx : (s.setCaller k c).chanRx = s.chanRx := rfl
@[simp] theorem setCaller_rxMode : (s.setCaller k c).rxMode = s.rxMode := rfl
@[simp] theorem setCaller_rxSched : (s.setCaller k c).rxSched = s.rxSched := rfl
@[simp] theorem setCaller_engTx : (s.setCaller k c).engTx = s.engTx := rfl
@[simp] theorem setCaller_engRx : (s.setCaller k c).engRx = s.engRx := rfl
@[simp] theorem setCaller_irqTx : (s.setCaller k c).irqTx = s.irqTx := rfl
@[simp] theorem setCaller_irqRx : (s.setCaller k c).irqRx = s.irqRx := rfl
@[simp] theorem setCaller_defer : (s.setCaller k c).defer = s.defer := rfl
@[simp] theorem setCaller_wireLog : (s.setCaller k c).wireLog = s.wireLog := rfl
@[simp] theorem setCaller_sinkLog : (s.setCaller k c).sinkLog = s.sinkLog := rfl
@[simp] theorem setCaller_allocated : (s.setCaller k c).allocated = s.allocated := rfl
@[simp] theorem setCaller_tdLog : (s.setCaller k c).tdLog = s.tdLog := rfl
@[simp] theorem setCaller_faults : (s.setCaller k c).faults = s.faults := rfl
@[simp] theorem setCaller_refused : (s.setCaller k c).refused = s.refused := rfl
@[simp] theorem setCaller_cfg : (s.setCaller k c).cfg = s.cfg := rfl
@[simp] theorem setCaller_schedule : (s.setCaller k c).schedule = s.schedule := rfl
@[simp] theorem setCaller_ticks : (s.setCaller k c).ticks = s.ticks := rfl
@[simp] theorem setCaller_draws : (s.setCaller k c).draws = s.draws := rfl
@[simp] theorem setCaller_drawn : (s.setCaller k c).drawn = s.drawn := rfl
@[simp] theorem setCaller_stopped : (s.setCaller k c).stopped = s.stopped := rfl
@[simp] theorem setCaller_nextHandle : (s.setCaller k c).nextHandle = s.nextHandle := rfl
@[simp] theorem setCaller_active : (s.setCaller k c).active = s.active := rfl
@[simp] theorem setCaller_trace : (s.setCaller k c).trace = s.trace := rfl
@[simp] theorem setCaller_ret : (s.setCaller k c).ret = s.ret := rfl
end

section
variable (s : State) (k : Nat) (op : CallerOp)
@[simp] theorem setOp_life : (s.setOp k op).life = s.life := rfl
@[simp] theorem setOp_lcBusy : (s.setOp k op).lcBusy = s.lcBusy := rfl
@[simp] theorem setOp_chanTx : (s.setOp k op).chanTx = s.chanTx := rfl
@[simp] theorem setOp_chanRx : (s.setOp k op).chanRx = s.chanRx := rfl
@[simp] theorem setOp_rxMode : (s.setOp k op).rxMode = s.rxMode := rfl
@[simp] theorem setOp_rxSched : (s.setOp k op).rxSched = s.rxSched := rfl
@[simp] theorem setOp_engTx : (s.setOp k op).engTx = s.engTx := rfl
@[simp] theorem setOp_engRx : (s.setOp k op).engRx = s.engRx := rfl
@[simp] theorem setOp_irqTx : (s.setOp k op).irqTx = s.irqTx := rfl
@[simp] theorem setOp_irqRx : (s.setOp k op).irqRx = s.irqRx := rfl
@[simp] theorem setOp_defer : (s.setOp k op).defer = s.defer := rfl
@[simp] theorem setOp_wireLog : (s.setOp k op).wireLog = s.wireLog := rfl
@[simp] theorem setOp_sinkLog : (s.setOp k op).sinkLog = s.sinkLog := rfl
@[simp] theorem setOp_allocated : (s.setOp k op).allocated = s.allocated := rfl
@[simp] theorem setOp_tdLog : (s.setOp k op).tdLog = s.tdLog := rfl
@[simp] theorem setOp_faults : (s.setOp k op).faults = s.faults := rfl
@[simp] theorem setOp_refused : (s.setOp k op).refused = s.refused := rfl
@[simp] theorem setOp_cfg : (s.setOp k op).cfg = s.cfg := rfl
@[simp] theorem setOp_schedule : (s.setOp k op).schedule = s.schedule := rfl
@[simp] theorem setOp_ticks : (s.setOp k op).ticks = s.ticks := rfl
@[simp] theorem setOp_draws : (s.setOp k op).draws = s.draws := rfl
@[simp] theorem setOp_drawn : (s.setOp k op).drawn = s.drawn := rfl
@[simp] theorem setOp_stopped : (s.setOp k op).stopped = s.stopped := rfl
@[simp] theorem setOp_nextHandle : (s.setOp k op).nextHandle = s.nextHandle := rfl
@[simp] theorem setOp_active : (s.setOp k op).active = s.active := rfl
@[simp] theorem setOp_trace : (s.setOp k op).trace = s.trace := rfl
@[simp] theorem setOp_ret : (s.setOp k op).ret = s.ret := rfl
end

section
variable (s : State) (k : Nat) (c : Code) (v : Nat)
@[simp] theorem respond_life : (s.respond k c v).life = s.life := rfl
@[simp] theorem respond_lcBusy : (s.respond k c v).lcBusy = s.lcBusy := rfl
@[simp] theorem respond_chanTx : (s.respond k c v).chanTx = s.chanTx := rfl
@[simp] theorem respond_chanRx : (s.respond k c v).chanRx = s.chanRx := rfl
@[simp] theorem respond_rxMode : (s.respond k c v).rxMode = s.rxMode := rfl
@[simp] theorem respond_rxSched : (s.respond k c v).rxSched = s.rxSched := rfl
@[simp] theorem respond_engTx : (s.respond k c v).engTx = s.engTx := rfl
@[simp] theorem respond_engRx : (s.respond k c v).engRx = s.engRx := rfl
@[simp] theorem respond_irqTx : (s.respond k c v).irqTx = s.irqTx := rfl
@[simp] theorem respond_irqRx : (s.respond k c v).irqRx = s.irqRx := rfl
@[simp] theorem respond_defer : (s.respond k c v).defer = s.defer := rfl
@[simp] theorem respond_wireLog : (s.respond k c v).wireLog = s.wireLog := rfl
@[simp] theorem respond_sinkLog : (s.respond k c v).sinkLog = s.sinkLog := rfl
@[simp] theorem respond_allocated : (s.respond k c v).allocated = s.allocated := rfl
@[simp] theorem respond_tdLog : (s.respond k c v).tdLog = s.tdLog := rfl
@[simp] theorem respond_faults : (s.respond k c v).faults = s.faults := rfl
@[simp] theorem respond_refused : (s.respond k c v).refused = s.refused := rfl
@[simp] theorem respond_cfg : (s.respond k c v).cfg = s.cfg := rfl
@[simp] theorem respond_schedule : (s.respond k c v).schedule = s.schedule := rfl
@[simp] theorem respond_ticks : (s.respond k c v).ticks = s.ticks := rfl
@[simp] theorem respond_draws : (s.respond k c v).draws = s.draws := rfl
@[simp] theorem respond_drawn : (s.respond k c v).drawn = s.drawn := rfl
@[simp] theorem respond_stopped : (s.respond k c v).stopped = s.stopped := rfl
@[simp] theorem respond_nextHandle : (s.respond k c v).nextHandle = s.nextHandle := rfl
@[simp] theorem respond_active : (s.respond k c v).active = s.active := rfl
@[simp] theorem respond_trace : (s.respond k c v).trace = s.trace := rfl
@[simp] theorem respond_ret : (s.respond k c v).ret = s.ret := rfl
end

section
variable (s : State) (c : Code) (v : Nat)
@[simp] theorem pollRespond_life : (s.pollRespond c v).life = s.life := rfl
@[simp] theorem pollRespond_lcBusy : (s.pollRespond c v).lcBusy = s.lcBusy := rfl
@[simp] theorem pollRespond_chanTx : (s.pollRespond c v).chanTx = s.chanTx := rfl
@[simp] theorem pollRespond_chanRx : (s.pollRespond c v).chanRx = s.chanRx := rfl
@[simp] theorem pollRespond_rxMode : (s.pollRespond c v).rxMode = s.rxMode := rfl
@[simp] theorem pollRespond_rxSched : (s.pollRespond c v).rxSched = s.rxSched := rfl
@[simp] theorem pollRespond_engTx : (s.pollRespond c v).engTx = s.engTx := rfl
@[simp] theorem pollRespond_engRx : (s.pollRespond c v).engRx = s.engRx := rfl
@[simp] theorem pollRespond_callers : (s.pollRespond c v).callers = s.callers := rfl
@[simp] theorem pollRespond_irqTx : (s.pollRespond c v).irqTx = s.irqTx := rfl
@[simp] theorem pollRespond_irqRx : (s.pollRespond c v).irqRx = s.irqRx := rfl
@[simp] theorem pollRespond_wireLog : (s.pollRespond c v).wireLog = s.wireLog := rfl
@[simp] theorem pollRespond_sinkLog : (s.pollRespond c v).sinkLog = s.sinkLog := rfl
@[simp] theorem pollRespond_allocated : (s.pollRespond c v).allocated = s.allocated := rfl
@[simp] theorem pollRespond_tdLog : (s.pollRespond c v).tdLog = s.tdLog := rfl
@[simp] theorem pollRespond_faults : (s.pollRespond c v).faults = s.faults := rfl
@[simp] theorem pollRespond_refused : (s.pollRespond c v).refused = s.refused := rfl
@[simp] theorem pollRespond_cfg : (s.pollRespond c v).cfg = s.cfg := rfl
@[simp] theorem pollRespond_schedule : (s.pollRespond c v).schedule = s.schedule := rfl
@[simp] theorem pollRespond_ticks : (s.pollRespond c v).ticks = s.ticks := rfl
@[simp] theorem pollRespond_draws : (s.pollRespond c v).draws = s.draws := rfl
@[simp] theorem pollRespond_drawn : (s.pollRespond c v).drawn = s.drawn := rfl
@[simp] theorem pollRespond_stopped : (s.pollRespond c v).stopped = s.stopped := rfl
@[simp] theorem pollRespond_nextHandle : (s.pollRespond c v).nextHandle = s.nextHandle := rfl
@[simp] theorem pollRespond_active : (s.pollRespond c v).active = s.active := rfl
@[simp] theorem pollRespond_trace : (s.pollRespond c v).trace = s.trace := rfl
@[simp] theorem pollRespond_ret : (s.pollRespond c v).ret = s.ret := rfl
end

section
variable (s : State) (ch : Channel)
@[simp] theorem irqEntry_life : (s.irqEntry ch).life = s.life := by cases ch <;> rfl
@[simp] theorem irqEntry_lcBusy : (s.irqEntry ch).lcBusy = s.lcBusy := by cases ch <;> rfl
@[simp] theorem irqEntry_chanTx : (s.irqEntry ch).chanTx = s.chanTx := by cases ch <;> rfl
@[simp] theorem irqEntry_chanRx : (s.irqEntry ch).chanRx = s.chanRx := by cases ch <;> rfl
@[simp] theorem irqEntry_rxMode : (s.irqEntry ch).rxMode = s.rxMode := by cases ch <;> rfl
@[simp] theorem irqEntry_rxSched : (s.irqEntry ch).rxSched = s.rxSched := by cases ch <;> rfl
@[simp] theorem irqEntry_engTx : (s.irqEntry ch).engTx = s.engTx := by cases ch <;> rfl
@[simp] theorem irqEntry_engRx : (s.irqEntry ch).engRx = s.engRx := by cases ch <;> rfl
@[simp] theorem irqEntry_callers : (s.irqEntry ch).callers = s.callers := by cases ch <;> rfl
@[simp] theorem irqEntry_defer : (s.irqEntry ch).defer = s.defer := by cases ch <;> rfl
@[simp] theorem irqEntry_wireLog : (s.irqEntry ch).wireLog = s.wireLog := by cases ch <;> rfl
@[simp] theorem irqEntry_sinkLog : (s.irqEntry ch).sinkLog = s.sinkLog := by cases ch <;> rfl
@[simp] theorem irqEntry_allocated : (s.irqEntry ch).allocated = s.allocated := by cases ch <;> rfl
@[simp] theorem irqEntry_tdLog : (s.irqEntry ch).tdLog = s.tdLog := by cases ch <;> rfl
@[simp] theorem irqEntry_faults : (s.irqEntry ch).faults = s.faults := by cases ch <;> rfl
@[simp] theorem irqEntry_refused : (s.irqEntry ch).refused = s.refused := by cases ch <;> rfl
@[simp] theorem irqEntry_cfg : (s.irqEntry ch).cfg = s.cfg := by cases ch <;> rfl
@[simp] theorem irqEntry_schedule : (s.irqEntry ch).schedule = s.schedule := by cases ch <;> rfl
@[simp] theorem irqEntry_ticks : (s.irqEntry ch).ticks = s.ticks := by cases ch <;> rfl
@[simp] theorem irqEntry_draws : (s.irqEntry ch).draws = s.draws := by cases ch <;> rfl
@[simp] theorem irqEntry_drawn : (s.irqEntry ch).drawn = s.drawn := by cases ch <;> rfl
@[simp] theorem irqEntry_stopped : (s.irqEntry ch).stopped = s.stopped := by cases ch <;> rfl
@[simp] theorem irqEntry_nextHandle : (s.irqEntry ch).nextHandle = s.nextHandle := by cases ch <;> rfl
@[simp] theorem irqEntry_active : (s.irqEntry ch).active = s.active := by cases ch <;> rfl
@[simp] theorem irqEntry_trace : (s.irqEntry ch).trace = s.trace := by cases ch <;> rfl
@[simp] theorem irqEntry_ret : (s.irqEntry ch).ret = s.ret := by cases ch <;> rfl
end

section
variable (s : State) (ch : Channel) (c : Code) (v : Nat)
@[simp] theorem irqReturn_life : (s.irqReturn ch c v).life = s.life := by cases ch <;> rfl
@[simp] theorem irqReturn_lcBusy : (s.irqReturn ch c v).lcBusy = s.lcBusy := by cases ch <;> rfl
@[simp] theorem irqReturn_chanTx : (s.irqReturn ch c v).chanTx = s.chanTx := by cases ch <;> rfl
@[simp] theorem irqReturn_chanRx : (s.irqReturn ch c v).chanRx = s.chanRx := by cases ch <;> rfl
@[simp] theorem irqReturn_rxMode : (s.irqReturn ch c v).rxMode = s.rxMode := by cases ch <;> rfl
@[simp] theorem irqReturn_rxSched : (s.irqReturn ch c v).rxSched = s.rxSched := by cases ch <;> rfl
@[simp] theorem irqReturn_engTx : (s.irqReturn ch c v).engTx = s.engTx := by cases ch <;> rfl
@[simp] theorem irqReturn_engRx : (s.irqReturn ch c v).engRx = s.engRx := by cases ch <;> rfl
@[simp] theorem irqReturn_callers : (s.irqReturn ch c v).callers = s.callers := by cases ch <;> rfl
@[simp] theorem irqReturn_defer : (s.irqReturn ch c v).defer = s.defer := by cases ch <;> rfl
@[simp] theorem irqReturn_wireLog : (s.irqReturn ch c v).wireLog = s.wireLog := by cases ch <;> rfl
@[simp] theorem irqReturn_sinkLog : (s.irqReturn ch c v).sinkLog = s.sinkLog := by cases ch <;> rfl
@[simp] theorem irqReturn_allocated : (s.irqReturn ch c v).allocated = s.allocated := by cases ch <;> rfl
@[simp] theorem irqReturn_tdLog : (s.irqReturn ch c v).tdLog = s.tdLog := by cases ch <;> rfl
@[simp] theorem irqReturn_faults : (s.irqReturn ch c v).faults = s.faults := by cases ch <;> rfl
@[simp] theorem irqReturn_refused : (s.irqReturn ch c v).refused = s.refused := by cases ch <;> rfl
@[simp] theorem irqReturn_cfg : (s.irqReturn ch c v).cfg = s.cfg := by cases ch <;> rfl
@[simp] theorem irqReturn_schedule : (s.irqReturn ch c v).schedule = s.schedule := by cases ch <;> rfl
@[simp] theorem irqReturn_ticks : (s.irqReturn ch c v).ticks = s.ticks := by cases ch <;> rfl
@[simp] theorem irqReturn_draws : (s.irqReturn ch c v).draws = s.draws := by cases ch <;> rfl
@[simp] theorem irqReturn_drawn : (s.irqReturn ch c v).drawn = s.drawn := by cases ch <;> rfl
@[simp] theorem irqReturn_stopped : (s.irqReturn ch c v).stopped = s.stopped := by cases ch <;> rfl
@[simp] theorem irqReturn_nextHandle : (s.irqReturn ch c v).nextHandle = s.nextHandle := by cases ch <;> rfl
@[simp] theorem irqReturn_active : (s.irqReturn ch c v).active = s.active := by cases ch <;> rfl
@[simp] theorem irqReturn_trace : (s.irqReturn ch c v).trace = s.trace := by cases ch <;> rfl
@[simp] theorem irqReturn_ret : (s.irqReturn ch c v).ret = s.ret := by cases ch <;> rfl
end

section
variable (s : State) (a : Agent) (f : FaultReason)
@[simp] theorem raiseFault_life : (s.raiseFault a f).life = s.life := rfl
@[simp] theorem raiseFault_lcBusy : (s.raiseFault a f).lcBusy = s.lcBusy := rfl
@[simp] theorem raiseFault_chanTx : (s.raiseFault a f).chanTx = s.chanTx := rfl
@[simp] theorem raiseFault_chanRx : (s.raiseFault a f).chanRx = s.chanRx := rfl
@[simp] theorem raiseFault_rxMode : (s.raiseFault a f).rxMode = s.rxMode := rfl
@[simp] theorem raiseFault_rxSched : (s.raiseFault a f).rxSched = s.rxSched := rfl
@[simp] theorem raiseFault_engTx : (s.raiseFault a f).engTx = s.engTx := rfl
@[simp] theorem raiseFault_engRx : (s.raiseFault a f).engRx = s.engRx := rfl
@[simp] theorem raiseFault_callers : (s.raiseFault a f).callers = s.callers := rfl
@[simp] theorem raiseFault_irqTx : (s.raiseFault a f).irqTx = s.irqTx := rfl
@[simp] theorem raiseFault_irqRx : (s.raiseFault a f).irqRx = s.irqRx := rfl
@[simp] theorem raiseFault_defer : (s.raiseFault a f).defer = s.defer := rfl
@[simp] theorem raiseFault_wireLog : (s.raiseFault a f).wireLog = s.wireLog := rfl
@[simp] theorem raiseFault_sinkLog : (s.raiseFault a f).sinkLog = s.sinkLog := rfl
@[simp] theorem raiseFault_allocated : (s.raiseFault a f).allocated = s.allocated := rfl
@[simp] theorem raiseFault_tdLog : (s.raiseFault a f).tdLog = s.tdLog := rfl
@[simp] theorem raiseFault_refused : (s.raiseFault a f).refused = s.refused := rfl
@[simp] theorem raiseFault_cfg : (s.raiseFault a f).cfg = s.cfg := rfl
@[simp] theorem raiseFault_schedule : (s.raiseFault a f).schedule = s.schedule := rfl
@[simp] theorem raiseFault_ticks : (s.raiseFault a f).ticks = s.ticks := rfl
@[simp] theorem raiseFault_draws : (s.raiseFault a f).draws = s.draws := rfl
@[simp] theorem raiseFault_drawn : (s.raiseFault a f).drawn = s.drawn := rfl
@[simp] theorem raiseFault_nextHandle : (s.raiseFault a f).nextHandle = s.nextHandle := rfl
@[simp] theorem raiseFault_active : (s.raiseFault a f).active = s.active := rfl
@[simp] theorem raiseFault_trace : (s.raiseFault a f).trace = s.trace := rfl
@[simp] theorem raiseFault_ret : (s.raiseFault a f).ret = s.ret := rfl
end

section
variable (s : State) (a : Agent) (m : RefusalMark)
@[simp] theorem refuse_life : (s.refuse a m).life = s.life := rfl
@[simp] theorem refuse_lcBusy : (s.refuse a m).lcBusy = s.lcBusy := rfl
@[simp] theorem refuse_chanTx : (s.refuse a m).chanTx = s.chanTx := rfl
@[simp] theorem refuse_chanRx : (s.refuse a m).chanRx = s.chanRx := rfl
@[simp] theorem refuse_rxMode : (s.refuse a m).rxMode = s.rxMode := rfl
@[simp] theorem refuse_rxSched : (s.refuse a m).rxSched = s.rxSched := rfl
@[simp] theorem refuse_engTx : (s.refuse a m).engTx = s.engTx := rfl
@[simp] theorem refuse_engRx : (s.refuse a m).engRx = s.engRx := rfl
@[simp] theorem refuse_callers : (s.refuse a m).callers = s.callers := rfl
@[simp] theorem refuse_irqTx : (s.refuse a m).irqTx = s.irqTx := rfl
@[simp] theorem refuse_irqRx : (s.refuse a m).irqRx = s.irqRx := rfl
@[simp] theorem refuse_defer : (s.refuse a m).defer = s.defer := rfl
@[simp] theorem refuse_wireLog : (s.refuse a m).wireLog = s.wireLog := rfl
@[simp] theorem refuse_sinkLog : (s.refuse a m).sinkLog = s.sinkLog := rfl
@[simp] theorem refuse_allocated : (s.refuse a m).allocated = s.allocated := rfl
@[simp] theorem refuse_tdLog : (s.refuse a m).tdLog = s.tdLog := rfl
@[simp] theorem refuse_faults : (s.refuse a m).faults = s.faults := rfl
@[simp] theorem refuse_cfg : (s.refuse a m).cfg = s.cfg := rfl
@[simp] theorem refuse_schedule : (s.refuse a m).schedule = s.schedule := rfl
@[simp] theorem refuse_ticks : (s.refuse a m).ticks = s.ticks := rfl
@[simp] theorem refuse_draws : (s.refuse a m).draws = s.draws := rfl
@[simp] theorem refuse_drawn : (s.refuse a m).drawn = s.drawn := rfl
@[simp] theorem refuse_nextHandle : (s.refuse a m).nextHandle = s.nextHandle := rfl
@[simp] theorem refuse_active : (s.refuse a m).active = s.active := rfl
@[simp] theorem refuse_trace : (s.refuse a m).trace = s.trace := rfl
@[simp] theorem refuse_ret : (s.refuse a m).ret = s.ret := rfl
end

section
variable (s : State) (h : Nat)
@[simp] theorem freeHandle_life : (s.freeHandle h).life = s.life := rfl
@[simp] theorem freeHandle_lcBusy : (s.freeHandle h).lcBusy = s.lcBusy := rfl
@[simp] theorem freeHandle_chanTx : (s.freeHandle h).chanTx = s.chanTx := rfl
@[simp] theorem freeHandle_chanRx : (s.freeHandle h).chanRx = s.chanRx := rfl
@[simp] theorem freeHandle_rxMode : (s.freeHandle h).rxMode = s.rxMode := rfl
@[simp] theorem freeHandle_rxSched : (s.freeHandle h).rxSched = s.rxSched := rfl
@[simp] theorem freeHandle_engTx : (s.freeHandle h).engTx = s.engTx := rfl
@[simp] theorem freeHandle_engRx : (s.freeHandle h).engRx = s.engRx := rfl
@[simp] theorem freeHandle_callers : (s.freeHandle h).callers = s.callers := rfl
@[simp] theorem freeHandle_irqTx : (s.freeHandle h).irqTx = s.irqTx := rfl
@[simp] theorem freeHandle_irqRx : (s.freeHandle h).irqRx = s.irqRx := rfl
@[simp] theorem freeHandle_defer : (s.freeHandle h).defer = s.defer := rfl
@[simp] theorem freeHandle_wireLog : (s.freeHandle h).wireLog = s.wireLog := rfl
@[simp] theorem freeHandle_sinkLog : (s.freeHandle h).sinkLog = s.sinkLog := rfl
@[simp] theorem freeHandle_tdLog : (s.freeHandle h).tdLog = s.tdLog := rfl
@[simp] theorem freeHandle_faults : (s.freeHandle h).faults = s.faults := rfl
@[simp] theorem freeHandle_refused : (s.freeHandle h).refused = s.refused := rfl
@[simp] theorem freeHandle_cfg : (s.freeHandle h).cfg = s.cfg := rfl
@[simp] theorem freeHandle_schedule : (s.freeHandle h).schedule = s.schedule := rfl
@[simp] theorem freeHandle_ticks : (s.freeHandle h).ticks = s.ticks := rfl
@[simp] theorem freeHandle_draws : (s.freeHandle h).draws = s.draws := rfl
@[simp] theorem freeHandle_drawn : (s.freeHandle h).drawn = s.drawn := rfl
@[simp] theorem freeHandle_stopped : (s.freeHandle h).stopped = s.stopped := rfl
@[simp] theorem freeHandle_nextHandle : (s.freeHandle h).nextHandle = s.nextHandle := rfl
@[simp] theorem freeHandle_active : (s.freeHandle h).active = s.active := rfl
@[simp] theorem freeHandle_trace : (s.freeHandle h).trace = s.trace := rfl
@[simp] theorem freeHandle_ret : (s.freeHandle h).ret = s.ret := rfl
end

section
variable (s : State) (bs : List Byte) (n : Nat)
@[simp] theorem deliver_life : (s.deliver bs n).life = s.life := rfl
@[simp] theorem deliver_lcBusy : (s.deliver bs n).lcBusy = s.lcBusy := rfl
@[simp] theorem deliver_chanTx : (s.deliver bs n).chanTx = s.chanTx := rfl
@[simp] theorem deliver_chanRx : (s.deliver bs n).chanRx = s.chanRx := rfl
@[simp] theorem deliver_rxMode : (s.deliver bs n).rxMode = s.rxMode := rfl
@[simp] theorem deliver_rxSched : (s.deliver bs n).rxSched = s.rxSched := rfl
@[simp] theorem deliver_engTx : (s.deliver bs n).engTx = s.engTx := rfl
@[simp] theorem deliver_engRx : (s.deliver bs n).engRx = s.engRx := rfl
@[simp] theorem deliver_callers : (s.deliver bs n).callers = s.callers := rfl
@[simp] theorem deliver_irqTx : (s.deliver bs n).irqTx = s.irqTx := rfl
@[simp] theorem deliver_irqRx : (s.deliver bs n).irqRx = s.irqRx := rfl
@[simp] theorem deliver_defer : (s.deliver bs n).defer = s.defer := rfl
@[simp] theorem deliver_wireLog : (s.deliver bs n).wireLog = s.wireLog := rfl
@[simp] theorem deliver_allocated : (s.deliver bs n).allocated = s.allocated := rfl
@[simp] theorem deliver_tdLog : (s.deliver bs n).tdLog = s.tdLog := rfl
@[simp] theorem deliver_faults : (s.deliver bs n).faults = s.faults := rfl
@[simp] theorem deliver_refused : (s.deliver bs n).refused = s.refused := rfl
@[simp] theorem deliver_cfg : (s.deliver bs n).cfg = s.cfg := rfl
@[simp] theorem deliver_schedule : (s.deliver bs n).schedule = s.schedule := rfl
@[simp] theorem deliver_ticks : (s.deliver bs n).ticks = s.ticks := rfl
@[simp] theorem deliver_draws : (s.deliver bs n).draws = s.draws := rfl
@[simp] theorem deliver_drawn : (s.deliver bs n).drawn = s.drawn := rfl
@[simp] theorem deliver_stopped : (s.deliver bs n).stopped = s.stopped := rfl
@[simp] theorem deliver_nextHandle : (s.deliver bs n).nextHandle = s.nextHandle := rfl
@[simp] theorem deliver_active : (s.deliver bs n).active = s.active := rfl
@[simp] theorem deliver_trace : (s.deliver bs n).trace = s.trace := rfl
@[simp] theorem deliver_ret : (s.deliver bs n).ret = s.ret := rfl
end

section
variable (s : State) (op : RxIrqOp)
@[simp] theorem setRxIrqOp_life : (s.setRxIrqOp op).life = s.life := rfl
@[simp] theorem setRxIrqOp_lcBusy : (s.setRxIrqOp op).lcBusy = s.lcBusy := rfl
@[simp] theorem setRxIrqOp_chanTx : (s.setRxIrqOp op).chanTx = s.chanTx := rfl
@[simp] theorem setRxIrqOp_chanRx : (s.setRxIrqOp op).chanRx = s.chanRx := rfl
@[simp] theorem setRxIrqOp_rxMode : (s.setRxIrqOp op).rxMode = s.rxMode := rfl
@[simp] theorem setRxIrqOp_rxSched : (s.setRxIrqOp op).rxSched = s.rxSched := rfl
@[simp] theorem setRxIrqOp_engTx : (s.setRxIrqOp op).engTx = s.engTx := rfl
@[simp] theorem setRxIrqOp_engRx : (s.setRxIrqOp op).engRx = s.engRx := rfl
@[simp] theorem setRxIrqOp_callers : (s.setRxIrqOp op).callers = s.callers := rfl
@[simp] theorem setRxIrqOp_irqTx : (s.setRxIrqOp op).irqTx = s.irqTx := rfl
@[simp] theorem setRxIrqOp_defer : (s.setRxIrqOp op).defer = s.defer := rfl
@[simp] theorem setRxIrqOp_wireLog : (s.setRxIrqOp op).wireLog = s.wireLog := rfl
@[simp] theorem setRxIrqOp_sinkLog : (s.setRxIrqOp op).sinkLog = s.sinkLog := rfl
@[simp] theorem setRxIrqOp_allocated : (s.setRxIrqOp op).allocated = s.allocated := rfl
@[simp] theorem setRxIrqOp_tdLog : (s.setRxIrqOp op).tdLog = s.tdLog := rfl
@[simp] theorem setRxIrqOp_faults : (s.setRxIrqOp op).faults = s.faults := rfl
@[simp] theorem setRxIrqOp_refused : (s.setRxIrqOp op).refused = s.refused := rfl
@[simp] theorem setRxIrqOp_cfg : (s.setRxIrqOp op).cfg = s.cfg := rfl
@[simp] theorem setRxIrqOp_schedule : (s.setRxIrqOp op).schedule = s.schedule := rfl
@[simp] theorem setRxIrqOp_ticks : (s.setRxIrqOp op).ticks = s.ticks := rfl
@[simp] theorem setRxIrqOp_draws : (s.setRxIrqOp op).draws = s.draws := rfl
@[simp] theorem setRxIrqOp_drawn : (s.setRxIrqOp op).drawn = s.drawn := rfl
@[simp] theorem setRxIrqOp_stopped : (s.setRxIrqOp op).stopped = s.stopped := rfl
@[simp] theorem setRxIrqOp_nextHandle : (s.setRxIrqOp op).nextHandle = s.nextHandle := rfl
@[simp] theorem setRxIrqOp_active : (s.setRxIrqOp op).active = s.active := rfl
@[simp] theorem setRxIrqOp_trace : (s.setRxIrqOp op).trace = s.trace := rfl
@[simp] theorem setRxIrqOp_ret : (s.setRxIrqOp op).ret = s.ret := rfl
end

section
variable (s : State) (op : TxIrqOp)
@[simp] theorem setTxIrqOp_life : (s.setTxIrqOp op).life = s.life := rfl
@[simp] theorem setTxIrqOp_lcBusy : (s.setTxIrqOp op).lcBusy = s.lcBusy := rfl
@[simp] theorem setTxIrqOp_chanTx : (s.setTxIrqOp op).chanTx = s.chanTx := rfl
@[simp] theorem setTxIrqOp_chanRx : (s.setTxIrqOp op).chanRx = s.chanRx := rfl
@[simp] theorem setTxIrqOp_rxMode : (s.setTxIrqOp op).rxMode = s.rxMode := rfl
@[simp] theorem setTxIrqOp_rxSched : (s.setTxIrqOp op).rxSched = s.rxSched := rfl
@[simp] theorem setTxIrqOp_engTx : (s.setTxIrqOp op).engTx = s.engTx := rfl
@[simp] theorem setTxIrqOp_engRx : (s.setTxIrqOp op).engRx = s.engRx := rfl
@[simp] theorem setTxIrqOp_callers : (s.setTxIrqOp op).callers = s.callers := rfl
@[simp] theorem setTxIrqOp_irqRx : (s.setTxIrqOp op).irqRx = s.irqRx := rfl
@[simp] theorem setTxIrqOp_defer : (s.setTxIrqOp op).defer = s.defer := rfl
@[simp] theorem setTxIrqOp_wireLog : (s.setTxIrqOp op).wireLog = s.wireLog := rfl
@[simp] theorem setTxIrqOp_sinkLog : (s.setTxIrqOp op).sinkLog = s.sinkLog := rfl
@[simp] theorem setTxIrqOp_allocated : (s.setTxIrqOp op).allocated = s.allocated := rfl
@[simp] theorem setTxIrqOp_tdLog : (s.setTxIrqOp op).tdLog = s.tdLog := rfl
@[simp] theorem setTxIrqOp_faults : (s.setTxIrqOp op).faults = s.faults := rfl
@[simp] theorem setTxIrqOp_refused : (s.setTxIrqOp op).refused = s.refused := rfl
@[simp] theorem setTxIrqOp_cfg : (s.setTxIrqOp op).cfg = s.cfg := rfl
@[simp] theorem setTxIrqOp_schedule : (s.setTxIrqOp op).schedule = s.schedule := rfl
@[simp] theorem setTxIrqOp_ticks : (s.setTxIrqOp op).ticks = s.ticks := rfl
@[simp] theorem setTxIrqOp_draws : (s.setTxIrqOp op).draws = s.draws := rfl
@[simp] theorem setTxIrqOp_drawn : (s.setTxIrqOp op).drawn = s.drawn := rfl
@[simp] theorem setTxIrqOp_stopped : (s.setTxIrqOp op).stopped = s.stopped := rfl
@[simp] theorem setTxIrqOp_nextHandle : (s.setTxIrqOp op).nextHandle = s.nextHandle := rfl
@[simp] theorem setTxIrqOp_active : (s.setTxIrqOp op).active = s.active := rfl
@[simp] theorem setTxIrqOp_trace : (s.setTxIrqOp op).trace = s.trace := rfl
@[simp] theorem setTxIrqOp_ret : (s.setTxIrqOp op).ret = s.ret := rfl
end

section
variable (s : State) (op : PollOp)
@[simp] theorem setPollOp_life : (s.setPollOp op).life = s.life := rfl
@[simp] theorem setPollOp_lcBusy : (s.setPollOp op).lcBusy = s.lcBusy := rfl
@[simp] theorem setPollOp_chanTx : (s.setPollOp op).chanTx = s.chanTx := rfl
@[simp] theorem setPollOp_chanRx : (s.setPollOp op).chanRx = s.chanRx := rfl
@[simp] theorem setPollOp_rxMode : (s.setPollOp op).rxMode = s.rxMode := rfl
@[simp] theorem setPollOp_rxSched : (s.setPollOp op).rxSched = s.rxSched := rfl
@[simp] theorem setPollOp_engTx : (s.setPollOp op).engTx = s.engTx := rfl
@[simp] theorem setPollOp_engRx : (s.setPollOp op).engRx = s.engRx := rfl
@[simp] theorem setPollOp_callers : (s.setPollOp op).callers = s.callers := rfl
@[simp] theorem setPollOp_irqTx : (s.setPollOp op).irqTx = s.irqTx := rfl
@[simp] theorem setPollOp_irqRx : (s.setPollOp op).irqRx = s.irqRx := rfl
@[simp] theorem setPollOp_wireLog : (s.setPollOp op).wireLog = s.wireLog := rfl
@[simp] theorem setPollOp_sinkLog : (s.setPollOp op).sinkLog = s.sinkLog := rfl
@[simp] theorem setPollOp_allocated : (s.setPollOp op).allocated = s.allocated := rfl
@[simp] theorem setPollOp_tdLog : (s.setPollOp op).tdLog = s.tdLog := rfl
@[simp] theorem setPollOp_faults : (s.setPollOp op).faults = s.faults := rfl
@[simp] theorem setPollOp_refused : (s.setPollOp op).refused = s.refused := rfl
@[simp] theorem setPollOp_cfg : (s.setPollOp op).cfg = s.cfg := rfl
@[simp] theorem setPollOp_schedule : (s.setPollOp op).schedule = s.schedule := rfl
@[simp] theorem setPollOp_ticks : (s.setPollOp op).ticks = s.ticks := rfl
@[simp] theorem setPollOp_draws : (s.setPollOp op).draws = s.draws := rfl
@[simp] theorem setPollOp_drawn : (s.setPollOp op).drawn = s.drawn := rfl
@[simp] theorem setPollOp_stopped : (s.setPollOp op).stopped = s.stopped := rfl
@[simp] theorem setPollOp_nextHandle : (s.setPollOp op).nextHandle = s.nextHandle := rfl
@[simp] theorem setPollOp_active : (s.setPollOp op).active = s.active := rfl
@[simp] theorem setPollOp_trace : (s.setPollOp op).trace = s.trace := rfl
@[simp] theorem setPollOp_ret : (s.setPollOp op).ret = s.ret := rfl
end

/-! ## Reading after an update -/

section
variable (s : State) (ch ch' : Channel)

@[simp] theorem chan_tx : s.chan .tx = s.chanTx := rfl
@[simp] theorem chan_rx : s.chan .rx = s.chanRx := rfl
@[simp] theorem eng_tx : s.eng .tx = s.engTx := rfl
@[simp] theorem eng_rx : s.eng .rx = s.engRx := rfl
@[simp] theorem setChan_chanTx (c : Chan) : (s.setChan .tx c).chanTx = c := rfl
@[simp] theorem setChan_chanRx (c : Chan) : (s.setChan .rx c).chanRx = c := rfl
@[simp] theorem setChan_rx_chanTx (c : Chan) : (s.setChan .rx c).chanTx = s.chanTx := rfl
@[simp] theorem setChan_tx_chanRx (c : Chan) : (s.setChan .tx c).chanRx = s.chanRx := rfl
@[simp] theorem setEng_engTx (e : Engine) : (s.setEng .tx e).engTx = e := rfl
@[simp] theorem setEng_engRx (e : Engine) : (s.setEng .rx e).engRx = e := rfl
@[simp] theorem setEng_rx_engTx (e : Engine) : (s.setEng .rx e).engTx = s.engTx := rfl
@[simp] theorem setEng_tx_engRx (e : Engine) : (s.setEng .tx e).engRx = s.engRx := rfl

theorem chan_setChan (c : Chan) : (s.setChan ch c).chan ch' = if ch' = ch then c else s.chan ch' := by
  cases ch <;> cases ch' <;> rfl
theorem eng_setEng (e : Engine) : (s.setEng ch e).eng ch' = if ch' = ch then e else s.eng ch' := by
  cases ch <;> cases ch' <;> rfl
@[simp] theorem chan_setChan_same (c : Chan) : (s.setChan ch c).chan ch = c := by cases ch <;> rfl
@[simp] theorem eng_setEng_same (e : Engine) : (s.setEng ch e).eng ch = e := by cases ch <;> rfl
@[simp] theorem chan_setEng (e : Engine) : (s.setEng ch e).chan ch' = s.chan ch' := by
  cases ch <;> cases ch' <;> rfl
@[simp] theorem eng_setChan (c : Chan) : (s.setChan ch c).eng ch' = s.eng ch' := by
  cases ch <;> cases ch' <;> rfl
@[simp] theorem chan_setCaller (k : Nat) (c : Caller) : (s.setCaller k c).chan ch = s.chan ch := by
  cases ch <;> rfl
@[simp] theorem eng_setCaller (k : Nat) (c : Caller) : (s.setCaller k c).eng ch = s.eng ch := by
  cases ch <;> rfl
@[simp] theorem ring_setEng (e : Engine) : (s.setEng ch e).ring ch' = s.ring ch' := by
  cases ch <;> cases ch' <;> rfl
@[simp] theorem ring_setCaller (k : Nat) (c : Caller) : (s.setCaller k c).ring ch = s.ring ch := by
  cases ch <;> rfl
@[simp] theorem ring_setRing_same (r : Option Ring) : (s.setRing ch r).ring ch = r := by cases ch <;> rfl
theorem ring_setRing (r : Option Ring) : (s.setRing ch r).ring ch' = if ch' = ch then r else s.ring ch' := by
  cases ch <;> cases ch' <;> rfl
@[simp] theorem ring_setLock (l : Lock) : (s.setLock ch l).ring ch' = s.ring ch' := by
  cases ch <;> cases ch' <;> rfl
@[simp] theorem ring_setToken (b : Bool) : (s.setToken ch b).ring ch' = s.ring ch' := by
  cases ch <;> cases ch' <;> rfl
@[simp] theorem eng_setRing (r : Option Ring) : (s.setRing ch r).eng ch' = s.eng ch' := by
  cases ch <;> cases ch' <;> rfl
@[simp] theorem lock_setRing (r : Option Ring) : ((s.setRing ch r).chan ch').lock = (s.chan ch').lock := by
  cases ch <;> cases ch' <;> rfl
@[simp] theorem token_setRing (r : Option Ring) : ((s.setRing ch r).chan ch').irqToken = (s.chan ch').irqToken := by
  cases ch <;> cases ch' <;> rfl
theorem lock_setLock (l : Lock) : ((s.setLock ch l).chan ch').lock = if ch' = ch then l else (s.chan ch').lock := by
  cases ch <;> cases ch' <;> rfl
end

/-! ## Callers -/

section
variable (s : State) (k k' : Nat)

theorem caller_of_getElem? {c : Caller} (h : s.callers[k]? = some c) : s.caller k = c := by
  simp [State.caller, List.getD, h]

theorem getElem?_caller (h : k < s.callers.length) : s.callers[k]? = some (s.caller k) := by
  simp [State.caller, List.getD, h]

@[simp] theorem setCaller_length (c : Caller) : (s.setCaller k c).callers.length = s.callers.length := by
  simp [State.setCaller]

@[simp] theorem caller_setCaller_same (c : Caller) (h : k < s.callers.length) : (s.setCaller k c).caller k = c := by
  simp [State.caller, State.setCaller, List.getD, h]

theorem caller_setCaller_ne (c : Caller) (h : k' ≠ k) : (s.setCaller k c).caller k' = s.caller k' := by
  simp [State.caller, State.setCaller, List.getD, List.getElem?_set_ne (Ne.symm h)]

@[simp] theorem caller_setChan (ch : Channel) (c : Chan) : (s.setChan ch c).caller k = s.caller k := by
  cases ch <;> rfl
@[simp] theorem caller_setEng (ch : Channel) (e : Engine) : (s.setEng ch e).caller k = s.caller k := by
  cases ch <;> rfl
end

end Sys2Proof.Machine
end

