-- ==== Sys2Proof/Laws/Ops.lean ====
section
/-! SUPPORT. What each shared operation can do, one lemma each: the draws and the allocator (R86), the ring
primitives (R130 to R138), the port operations that may fault (R259 to R261), the lock (R88). -/

namespace Sys2Proof.Machine

/-! ## Allocator -/

/-- `t` is `s` but for what the allocator and the draws write. -/
def AllocFrame (s t : State) : Prop :=
  t = { s with draws := t.draws, drawn := t.drawn, allocated := t.allocated, nextHandle := t.nextHandle }

theorem AllocFrame.refl (s : State) : AllocFrame s s := rfl

theorem AllocFrame.trans {s t u : State} (h : AllocFrame s t) (h' : AllocFrame t u) : AllocFrame s u := by
  rw [AllocFrame] at *; rw [h', h]

theorem AllocFrame.cfg {s t : State} (h : AllocFrame s t) : t.cfg = s.cfg := by rw [h]

theorem AllocFrame.ring {s t : State} (h : AllocFrame s t) (ch : Channel) : t.ring ch = s.ring ch := by
  rw [h]; cases ch <;> rfl

theorem AllocFrame.eng {s t : State} (h : AllocFrame s t) (ch : Channel) : t.eng ch = s.eng ch := by
  rw [h]; cases ch <;> rfl

theorem drawAlloc_frame (s : State) : AllocFrame s s.drawAlloc.2 := by
  unfold State.drawAlloc; split <;> rfl

theorem drawAlloc_allocated (s : State) :
    s.drawAlloc.2.allocated = s.allocated ∧ s.drawAlloc.2.nextHandle = s.nextHandle := by
  unfold State.drawAlloc; split <;> exact ⟨rfl, rfl⟩

/-- What `allocate` can do (R86, R329). -/
theorem allocate_cases (s : State) (fits : Nat → Bool) :
    (∃ s', s.allocate fits = (none, s') ∧ AllocFrame s s' ∧ s'.allocated = s.allocated ∧
      s'.nextHandle = s.nextHandle) ∨
    ∃ a s', s.allocate fits = (some (s.nextHandle, a), s') ∧ fits a = true ∧ AllocFrame s s' ∧
      s'.allocated = s.allocated ++ [s.nextHandle] ∧ s'.nextHandle = s.nextHandle + 1 := by
  have hf := drawAlloc_frame s
  obtain ⟨h1, h2⟩ := drawAlloc_allocated s
  unfold State.allocate
  split
  · rename_i s' h
    rw [h] at hf h1 h2
    exact .inl ⟨s', rfl, hf, h1, h2⟩
  · rename_i a s' h
    rw [h] at hf h1 h2
    split
    · rename_i hfit
      refine .inr ⟨_, _, by rw [← h2], hfit, ?_, by rw [← h1, ← h2], by rw [← h2]⟩
      exact hf.trans rfl
    · exact .inl ⟨s', rfl, hf, h1, h2⟩

/-- `allocate` under an answer that is fixed and in its range (R86, R329). -/
theorem allocate_of_draw {s : State} {fits : Nat → Bool} {a : Nat} {ds : List (Option Nat)}
    (h : s.draws.alloc = some a :: ds) (hfit : fits (a % 2 ^ s.cfg.addrW) = true) :
    s.allocate fits = (some (s.nextHandle, a % 2 ^ s.cfg.addrW),
      { s with
        draws := { s.draws with alloc := ds }
        allocated := s.allocated ++ [s.nextHandle]
        nextHandle := s.nextHandle + 1 }) := by
  simp [State.allocate, State.drawAlloc, h, hfit]

/-- An answer that overlaps a live buffer is a failure (log 8). -/
theorem allocate_of_overlap {s : State} {fits : Nat → Bool} {a : Nat} {ds : List (Option Nat)}
    (h : s.draws.alloc = some a :: ds) (hfit : fits (a % 2 ^ s.cfg.addrW) = false) :
    s.allocate fits = (none, { s with draws := { s.draws with alloc := ds } }) := by
  simp [State.allocate, State.drawAlloc, h, hfit]

theorem allocate_of_failure {s : State} {fits : Nat → Bool} {ds : List (Option Nat)}
    (h : s.draws.alloc = none :: ds) : s.allocate fits = (none, { s with draws := { s.draws with alloc := ds } }) := by
  simp [State.allocate, State.drawAlloc, h]

theorem AllocFrame.bufAddrs {s t : State} (h : AllocFrame s t) : t.bufAddrs = s.bufAddrs := by rw [h]; rfl

theorem apart_comm (size a b : Nat) : apart size a b = apart size b a := Bool.or_comm _ _

/-- Freeing a list of buffers takes their handles out of the set (R86). -/
theorem freeBuffers_eq (bs : List Buffer) (s : State) :
    s.freeBuffers bs = { s with allocated := s.allocated.filter (fun x => decide (x ∉ bs.map Buffer.handle)) } := by
  induction bs generalizing s with
  | nil => simp [State.freeBuffers]
  | cons b bs ih =>
    have : s.freeBuffers (b :: bs) = (s.freeHandle b.handle).freeBuffers bs := rfl
    rw [this, ih]
    simp [State.freeHandle, List.filter_filter, Bool.and_comm]

theorem freeBuffers_frame (bs : List Buffer) (s : State) : AllocFrame s (s.freeBuffers bs) := by
  rw [freeBuffers_eq]; rfl

theorem freeHandle_frame (h : Nat) (s : State) : AllocFrame s (s.freeHandle h) := rfl

/-- What the buffer loop of `initialize` can do (R130); the buffers it makes overlap no live one (R72). -/
theorem allocBuffers_cases (n : Nat) (acc : List Buffer) (s : State) :
    (∃ s', allocBuffers n acc s = (none, s') ∧ AllocFrame s s') ∨
    ∃ bs s', allocBuffers n acc s = (some (acc ++ bs), s') ∧ bs.length = n ∧ (∀ b ∈ bs, b.bytes = []) ∧
      AllocFrame s s' ∧ bs.map Buffer.handle = List.range' s.nextHandle n ∧
      s'.allocated = s.allocated ++ List.range' s.nextHandle n ∧ s'.nextHandle = s.nextHandle + n ∧
      ((s.bufAddrs ++ acc.map Buffer.devAddr).Pairwise (fun a b => apart s.cfg.bufSize a b = true) →
        (s.bufAddrs ++ (acc ++ bs).map Buffer.devAddr).Pairwise fun a b => apart s.cfg.bufSize a b = true) := by
  induction n generalizing acc s with
  | zero => exact .inr ⟨[], s, by simp [allocBuffers], rfl, by simp, rfl, rfl, by simp, rfl, by simp⟩
  | succ n ih =>
    rcases allocate_cases s (fun a => (s.bufAddrs ++ acc.map Buffer.devAddr).all (apart s.cfg.bufSize a)) with
      ⟨s', h, hf, -, -⟩ | ⟨a, s', h, hfit, hf, ha, hn⟩
    · exact .inl ⟨s'.freeBuffers acc, by simp only [allocBuffers, State.allocateBuffer, h],
        hf.trans (freeBuffers_frame _ _)⟩
    · rcases ih (acc ++ [{ handle := s.nextHandle, devAddr := a, bytes := [] }]) s' with
        ⟨s2, h2, hf2⟩ | ⟨bs, s2, h2, hl, hb, hf2, hh, ha2, hn2, hp⟩
      · exact .inl ⟨s2, by simp only [allocBuffers, State.allocateBuffer, h, h2], hf.trans hf2⟩
      · refine .inr ⟨{ handle := s.nextHandle, devAddr := a, bytes := [] } :: bs, s2, ?_, ?_, ?_, hf.trans hf2, ?_, ?_,
          ?_, fun hs => ?_⟩
        · simp only [allocBuffers, State.allocateBuffer, h, h2, List.append_assoc, List.singleton_append]
        · simp [hl]
        · simpa using hb
        · simp [hh, hn, List.range'_succ]
        · simp [ha2, ha, hn, List.range'_succ]
        · omega
        · rw [hf.bufAddrs, hf.cfg] at hp
          have := hp (by
            rw [List.map_append, ← List.append_assoc, List.pairwise_append]
            refine ⟨hs, by simp, fun x hx y hy => ?_⟩
            obtain rfl : y = a := by simpa using hy
            rw [apart_comm]
            exact List.all_eq_true.mp hfit x hx)
          simpa using this

/-- The ring `initialize` makes, its descriptors' buffers still unwritten. -/
theorem newRing_desc {c : Config} {ch : Channel} {n hb : Nat} {bs : List Buffer} (hl : bs.length = n)
    (hb0 : ∀ b ∈ bs, b.bytes = []) :
    (newRing c ch n hb bs).cap = n ∧ (newRing c ch n hb bs).curr = 0 ∧ (newRing c ch n hb bs).desc.length = n ∧
    (∀ d ∈ (newRing c ch n hb bs).desc, d.buf.bytes = [] ∧ d.st = clearedStatus ∧
      d.own = (match ch with | .tx => .free | .rx => .posted)) := by
  cases ch <;> simp [newRing, channelDir, hl, armRx, freshDesc] <;> intro b hb <;> simp [hb0 b hb]

/-- How a successful `initialize` leaves the state (R130); the new buffers overlap no live one (R72). -/
theorem ringInitialize_ok {a : Agent} {ch : Channel} {n : Nat} {s t : State} (h : ringInitialize a ch n s = .ok t) :
    s.ring ch = none ∧ ∃ s' hb bs, AllocFrame s s' ∧ bs.length = n ∧ (∀ b ∈ bs, b.bytes = []) ∧
      t = s'.setRing ch (some (newRing s.cfg ch n hb bs)) ∧
      (s.bufAddrs.Pairwise (fun a b => apart s.cfg.bufSize a b = true) →
        (s.bufAddrs ++ bs.map Buffer.devAddr).Pairwise fun a b => apart s.cfg.bufSize a b = true) := by
  unfold ringInitialize at h
  split at h
  · cases h
  rename_i hr
  split at h
  · cases h
  split at h
  · cases h
  rename_i hb _ s1 h1
  unfold State.allocateBacking at h1
  rcases allocate_cases s (fun _ => true) with ⟨s', he, hf, -, -⟩ | ⟨a', s', he, -, hf, ha, hn⟩
  · rw [he] at h1; simp at h1
  rw [he] at h1
  obtain ⟨-, rfl⟩ : _ ∧ s' = s1 := by simpa using h1
  split at h
  · cases h
  rename_i bs s2 h2
  rcases allocBuffers_cases n [] s' with ⟨s3, he3, hf3⟩ | ⟨bs', s3, he3, hl, hb0, hf3, hh, ha3, hn3, hp⟩
  · rw [he3] at h2; simp at h2
  rw [he3] at h2
  simp only [List.nil_append, Prod.mk.injEq, Option.some.injEq] at h2
  obtain ⟨rfl, rfl⟩ := h2
  cases h
  rw [hf.bufAddrs, hf.cfg] at hp
  exact ⟨by simpa using hr, s3, hb, bs', hf.trans hf3, hl, hb0, rfl, fun h => by simpa using hp (by simpa using h)⟩

/-- An `initialize` that answers `ALLOCATION_ERROR` writes nothing but what the allocator keeps (R131). -/
theorem ringInitialize_allocationError {a : Agent} {ch : Channel} {n : Nat} {s t : State}
    (h : ringInitialize a ch n s = .allocationError t) : AllocFrame s t := by
  unfold ringInitialize at h
  split at h
  · cases h
  split at h
  · cases h
  split at h
  · rename_i s1 h1
    unfold State.allocateBacking at h1
    rcases allocate_cases s (fun _ => true) with ⟨s', he, hf, -, -⟩ | ⟨a', s', he, -, hf, -, -⟩
    · rw [he] at h1; cases h1; cases h; exact hf
    · rw [he] at h1; simp at h1
  · rename_i hb _ s1 h1
    have hf1 : AllocFrame s s1 := by
      unfold State.allocateBacking at h1
      rcases allocate_cases s (fun _ => true) with ⟨s', he, hf, -, -⟩ | ⟨a', s', he, -, hf, -, -⟩
      · rw [he] at h1; simp at h1
      · rw [he] at h1; cases h1; exact hf
    split at h
    · rename_i s2 h2
      rcases allocBuffers_cases n [] s1 with ⟨s3, he3, hf3⟩ | ⟨bs', s3, he3, -⟩
      · rw [he3] at h2; cases h2; cases h; exact (hf1.trans hf3).trans (freeHandle_frame _ _)
      · rw [he3] at h2; simp at h2
    · cases h

/-- What `teardown` can do (R137, R138). -/
theorem teardownRing_ok {ch : Channel} {s t : State} (h : teardownRing ch s = .ok t) :
    (s.ring ch = none ∧ t = s) ∨ ∃ r, s.ring ch = some r ∧
      ((s.eng ch).halted = true ∨ windowEmpty r.cap (s.eng ch) = true) ∧
      t = { s with allocated := s.allocated.filter (fun x => decide (x ∉ r.backing :: r.desc.map (fun (d : Desc) => d.buf.handle))) }.setRing
        ch none := by
  unfold teardownRing at h
  split at h
  · cases h; exact .inl ⟨‹_›, rfl⟩
  · rename_i r hr
    split at h
    · rename_i hc
      cases h
      refine .inr ⟨r, hr, by simpa using hc, ?_⟩
      rw [freeBuffers_eq]
      simp [State.freeHandle, List.filter_filter, Function.comp_def]
    · cases h

theorem teardownRing_error {ch : Channel} {s : State} {f : FaultReason} (h : teardownRing ch s = .error f) :
    f = .teardownWhileActive ch ∧ (s.ring ch).isSome = true ∧ (s.eng ch).halted = false := by
  unfold teardownRing at h
  split at h
  · cases h
  · rename_i r hr
    split at h
    · cases h
    · rename_i hc
      cases h
      simp only [Bool.or_eq_true, not_or, Bool.not_eq_true] at hc
      exact ⟨rfl, by simp [hr], hc.1⟩

/-! ## Port operations -/

/-- What `setTailDescriptorAddress` can do (R260). -/
theorem portSetTaildesc_ok {ch : Channel} {addr : Option Nat} {s t : State} (h : portSetTaildesc ch addr s = .ok t) :
    ∃ i, addrOperand s.cfg ch addr = .ok i ∧ t = s.setEng ch { s.eng ch with hwTail := i, tailValid := true } := by
  unfold portSetTaildesc at h
  split at h
  · cases h; exact ⟨_, ‹_›, rfl⟩
  · cases h

/-- The tail write of a descriptor's address (R260). -/
theorem portSetTaildesc_index {s : State} (hc : ConfigFacts s.cfg) {ch : Channel} {i : Nat} (hi : i < s.cfg.cap ch) :
    portSetTaildesc ch (addrOf s.cfg ch i) s = .ok (s.setEng ch { s.eng ch with hwTail := i, tailValid := true }) := by
  simp [portSetTaildesc, addrOperand_addrOf hc hi]

/-- What `setCurrentDescriptorAddress` can do (R259). -/
theorem portSetCurdesc_ok {ch : Channel} {addr : Option Nat} {s t : State} (h : portSetCurdesc ch addr s = .ok t) :
    (s.eng ch).halted = true ∧ ∃ i, addrOperand s.cfg ch addr = .ok i ∧
      t = s.setEng ch { s.eng ch with hwCur := i, tailValid := false } := by
  unfold portSetCurdesc at h
  split at h
  · split at h
    · cases h; exact ⟨‹_›, _, ‹_›, rfl⟩
    · cases h
  · cases h

theorem portSetCurdesc_index {s : State} (hc : ConfigFacts s.cfg) {ch : Channel} {i : Nat} (hi : i < s.cfg.cap ch)
    (hh : (s.eng ch).halted = true) :
    portSetCurdesc ch (addrOf s.cfg ch i) s = .ok (s.setEng ch { s.eng ch with hwCur := i, tailValid := false }) := by
  simp [portSetCurdesc, addrOperand_addrOf hc hi, hh]

/-- What `configureDelayAndThreshold` can do (R261). -/
theorem portCfgCoalesce_ok {ch : Channel} {d th : Nat} {s t : State} (h : portCfgCoalesce ch d th s = .ok t) :
    th ≠ 0 ∧ t = s.setEng ch { s.eng ch with coalDelay := d, coalThresh := th } := by
  unfold portCfgCoalesce at h
  split at h
  · cases h
  · cases h; exact ⟨‹_›, rfl⟩

/-- What `start` can do (R253). -/
theorem portStart_cases (ch : Channel) (s : State) :
    ∃ dr drn e, portStart ch s = { s with draws := dr, drawn := drn }.setEng ch e ∧
      e = { s.eng ch with runStop := true, halted := e.halted } := by
  unfold portStart
  split
  · unfold State.drawStartOk
    split
    · exact ⟨_, _, _, rfl, rfl⟩
    · exact ⟨_, _, _, rfl, rfl⟩
  · exact ⟨s.draws, s.drawn, _, rfl, rfl⟩

/-! ## Locks -/

/-- Moving to a position makes a caller wait exactly if an acquire stands there (R56, R88). -/
theorem setOp_caller {s : State} {k : Nat} (hk : k < s.callers.length) (op : CallerOp) :
    (s.setOp k op).caller k = { s.caller k with op := op, wait := (acquiring op).isSome } := by
  simp [State.setOp, State.setCaller, State.caller, List.getD, hk]

theorem acquireLock_free {π : Type} {a : Agent} {ch : Channel} {s : State} {p : π} (h : (s.chan ch).lock = .free) :
    acquireLock a ch s p = .goto p (s.setLock ch (.held a)) := by simp [acquireLock, h]

theorem acquireLock_held {π : Type} {a b : Agent} {ch : Channel} {s : State} {p : π}
    (h : (s.chan ch).lock = .held b) : acquireLock a ch s p = .wait s := by simp [acquireLock, h]

/-- What an acquire can do (R88). -/
theorem acquireLock_cases {π : Type} (a : Agent) (ch : Channel) (s : State) (p : π) :
    ((s.chan ch).lock = .free ∧ acquireLock a ch s p = .goto p (s.setLock ch (.held a))) ∨
    ∃ b, (s.chan ch).lock = .held b ∧ acquireLock a ch s p = .wait s := by
  cases h : (s.chan ch).lock with
  | free => exact .inl ⟨rfl, acquireLock_free h⟩
  | held b => exact .inr ⟨b, rfl, acquireLock_held h⟩

end Sys2Proof.Machine
end

