-- ==== Sys2Proof/Laws/Step.lean ====
section
/-! SUPPORT. What a step can do, said once: a step is a chain of atomic steps (R11, R83), each of one of the kinds
of `Atomic`. An invariant of the machine is proved over these kinds. -/

namespace Sys2Proof.Machine

/-- One atomic step, or one piece of bookkeeping of the model. -/
inductive Atomic : State → State → Prop where
  /-- A choice is used up (log 3). -/
  | pop (s : State) : Atomic s s.popChoice
  /-- A caller is selected (log 4). -/
  | select (s : State) (k : Nat) : Atomic s { s with active := k }
  /-- The trace slot is emptied (log 11). -/
  | dropTrace (s : State) : Atomic s { s with trace := none }
  /-- An internal command runs alone (log 11). -/
  | internal (s t : State) (i : Instr) (hc : i.commandClass = .internal) (h : exec i s = .next t) : Atomic s t
  /-- A caller's command is refused for its word (R111 to R113). -/
  | refuse (s : State) (k : Nat) (m : RefusalMark) : Atomic s (s.refuse (.caller k) m)
  /-- The first atomic step of a caller's command (R110). -/
  | start (s t : State) (cmd : Command) (i : Instr) (hr : s.callerReady s.active = true)
      (hf : s.fetch s.active = some cmd) (ha : admission s.cfg cmd = .run i) (h : startInstr i s = .next t) :
      Atomic s t
  /-- An atomic step of an operation in flight (R11). -/
  | caller (s : State) (k : Nat) (h : s.callerCanAdvance k = true) : Atomic s (callerStep k s)
  /-- Interrupt entry (R316). -/
  | entry (s : State) (ch : Channel) (h : s.irqIdle ch = true) : Atomic s (s.irqEntry ch)
  /-- An atomic step of a handler (R57). -/
  | irq (s : State) (ch : Channel) (h : s.irqCanAdvance ch = true) : Atomic s (irqStep ch s)
  /-- A poll starts (R110). -/
  | pollStart (s : State) (h : s.defer.op = .idle) : Atomic s (startPoll s)
  /-- An atomic step of a poll (R58). -/
  | poll (s : State) (h : s.pollCanAdvance = true) : Atomic s (pollStep s)
  /-- Transmit completion (R281). -/
  | txComplete (s : State) (h : s.completeEnabled .tx = true) : Atomic s (txCompleteStep s)
  /-- Receive completion (R282). -/
  | rxComplete (s : State) (h : s.completeEnabled .rx = true) : Atomic s (rxCompleteStep s)
  /-- Delay expiry (R285). -/
  | delay (s : State) (ch : Channel) (h : s.delayEnabled ch = true) : Atomic s (delayStep ch s)
  /-- Halt (R286). -/
  | halt (s : State) (ch : Channel) (h : s.haltEnabled ch = true) : Atomic s (haltStep ch s)
  /-- Fail (R287). -/
  | fail (s : State) (ch : Channel) (h : s.failEnabled ch = true) : Atomic s (failStep ch s)

/-- Any number of atomic steps. -/
abbrev Atomics := Relation.ReflTransGen Atomic

/-- A property that every atomic step keeps is kept by any number of them. -/
theorem Atomics.keeps {P : State → Prop} (hp : ∀ s t, Atomic s t → P s → P t) {s t : State} (h : Atomics s t)
    (hs : P s) : P t := by
  induction h with
  | refl => exact hs
  | tail _ hbc ih => exact hp _ _ hbc ih

/-- A transitive relation that every atomic step respects is respected by any number of them. -/
theorem Atomics.respects {R : State → State → Prop} (hrefl : ∀ s, R s s) (htrans : ∀ s t u, R s t → R t u → R s u)
    (hp : ∀ s t, Atomic s t → R s t) {s t : State} (h : Atomics s t) : R s t := by
  induction h with
  | refl => exact hrefl _
  | tail _ hbc ih => exact htrans _ _ _ ih (hp _ _ hbc)

/-! ## A whole operation -/

theorem runWhile_of_disabled {enabled : State → Bool} {stp : State → State} {s : State} (h : enabled s = false) :
    ∀ n, runWhile enabled stp n s = s
  | 0 => rfl
  | n + 1 => by simp [runWhile, h]

theorem runWhile_step {enabled : State → Bool} {stp : State → State} {s : State} {n : Nat} (h : enabled s = true) :
    runWhile enabled stp (n + 1) s = runWhile enabled stp n (stp s) := by simp [runWhile, h]

/-- A whole operation is a chain of its enabled steps. -/
theorem runWhile_chain {R : State → State → Prop} {enabled : State → Bool} {stp : State → State}
    (h : ∀ s, enabled s = true → R s (stp s)) :
    ∀ n s, Relation.ReflTransGen R s (runWhile enabled stp n s)
  | 0, s => .refl
  | n + 1, s => by
    cases he : enabled s with
    | false => rw [runWhile_of_disabled he]
    | true => rw [runWhile_step he]; exact .head (h s he) (runWhile_chain h n (stp s))

theorem runCaller_atomics (k : Nat) (s : State) : Atomics s (runCaller k s) :=
  runWhile_chain (fun t h => .caller t k h) _ s

theorem runIrq_atomics (ch : Channel) (s : State) : Atomics s (runIrq ch s) :=
  runWhile_chain (fun t h => .irq t ch h) _ s

theorem runPoll_atomics (s : State) : Atomics s (runPoll s) :=
  runWhile_chain (fun t h => .poll t h) _ s

/-! ## A step -/

/-- The three commands an interrupt agent or `DEFER` runs, when its agent is idle. -/
theorem execTxIrq_atomics {s t : State} (h : s.irqIdle .tx = true) (he : exec .txIrq s = .next t) : Atomics s t := by
  cases he
  exact .head (.entry s .tx h) (runIrq_atomics .tx _)

theorem execRxIrq_atomics {s t : State} (h : s.irqIdle .rx = true) (he : exec .rxIrq s = .next t) : Atomics s t := by
  cases he
  exact .head (.entry s .rx h) (runIrq_atomics .rx _)

theorem execRxPoll_atomics {s t : State} (h : s.defer.op = .idle) (he : exec .rxPoll s = .next t) : Atomics s t := by
  cases he
  exact .head (.pollStart s h) (runPoll_atomics _)

/-- A caller's command, from its first atomic step to its last. -/
theorem exec_caller_atomics {i : Instr} {s t : State} (hc : i.commandClass = .caller)
    (h1 : ∀ t, startInstr i s = .next t → Atomic s t) (he : exec i s = .next t) : Atomics s t := by
  cases i <;> try simp [Instr.commandClass] at hc
  case ringNext => exact .single (h1 _ he)
  case ringIsComplete => exact .single (h1 _ he)
  case ringLength => exact .single (h1 _ he)
  all_goals
    cases he
    exact .head (h1 _ rfl) (runCaller_atomics _ _)

/-- Only a caller's command is admitted (R113). -/
theorem admission_caller {c : Config} {cmd : Command} {i : Instr} (h : admission c cmd = .run i) :
    decode cmd.word = .command i ∧ i.wellFormed c cmd.payload.length = true ∧ i.commandClass = .caller := by
  unfold admission at h
  split at h
  · cases h
  · cases h
  · rename_i j hj
    split at h
    · split at h
      · cases h; exact ⟨hj, ‹_›, ‹_›⟩
      · cases h
    · cases h

/-- What a caller's choice does, given what running an admitted command does. -/
theorem issue_cases {k : Nat} {run : Instr → State → Host.Outcome State Fault Refusal} {s t : State}
    (hr : s.callerReady k = true) (h : issue k run s = .next t)
    (hrun : ∀ cmd i s', s'.callerReady s'.active = true → s'.fetch s'.active = some cmd →
      admission s'.cfg cmd = .run i → run i s' = .next t → Atomics s' t) : Atomics s t := by
  unfold issue at h
  split at h
  · cases h; exact .refl
  · rename_i cmd hf
    split at h
    · rename_i i hi
      exact .head (.select s k) (hrun cmd i { s with active := k } hr hf hi h)
    all_goals
      cases h
      exact .single (.refuse _ _ _)

theorem runTrace_atomics {s t : State} (he : s.traceEnabled = true) (h : runTrace s = .next t) : Atomics s t := by
  unfold runTrace at h
  unfold State.traceEnabled at he
  split at h
  · cases h; exact .refl
  · rename_i w hw
    rw [hw] at he
    simp only at he
    split at h
    · cases h
    · cases h
    · rename_i i hi
      rw [hi] at he
      simp only at he
      split at h
      · cases h
      · rename_i hnc
        refine .head (.dropTrace s) ?_
        cases i <;> simp only [Instr.commandClass, not_true_eq_false, Bool.and_eq_true, decide_eq_true_eq] at he hnc
        case rxIrq => exact execRxIrq_atomics he.1 h
        case txIrq => exact execTxIrq_atomics he.1 h
        case rxPoll => exact execRxPoll_atomics he.1 h
        all_goals exact .single (.internal _ _ _ rfl h)

theorem takeChoice_atomics {c : Choice} {s t : State} (he : s.enabled c = true) (h : takeChoice c s = .next t) :
    Atomics s t := by
  cases c with
  | command k =>
    simp only [State.enabled, Bool.and_eq_true] at he
    refine issue_cases he.1 h fun cmd i s' h1 h2 h3 h4 => ?_
    exact exec_caller_atomics (admission_caller h3).2.2 (fun t ht => .start s' t cmd i h1 h2 h3 ht) h4
  | start k =>
    simp only [State.enabled, Bool.and_eq_true] at he
    exact issue_cases he.1 h fun cmd i s' h1 h2 h3 h4 => .single (.start s' _ cmd i h1 h2 h3 h4)
  | advance k => cases h; exact .single (.caller s k he)
  | handle ch =>
    simp only [State.enabled, State.entryEnabled, Bool.and_eq_true] at he
    cases ch with
    | tx => exact execTxIrq_atomics he.1.2 h
    | rx => exact execRxIrq_atomics he.1.2 h
  | enter ch =>
    simp only [State.enabled, State.entryEnabled, Bool.and_eq_true] at he
    cases h; exact .single (.entry s ch he.1.2)
  | advanceIrq ch => cases h; exact .single (.irq s ch he)
  | poll =>
    simp only [State.enabled, State.pollEnabled, Bool.and_eq_true, decide_eq_true_eq] at he
    exact execRxPoll_atomics he.1.2 h
  | startPoll =>
    simp only [State.enabled, State.pollEnabled, Bool.and_eq_true, decide_eq_true_eq] at he
    cases h; exact .single (.pollStart s he.1.2)
  | advancePoll => cases h; exact .single (.poll s he)
  | txComplete => cases h; exact .single (.txComplete s he)
  | rxComplete => cases h; exact .single (.rxComplete s he)
  | delay ch => cases h; exact .single (.delay s ch he)
  | halt ch => cases h; exact .single (.halt s ch he)
  | fail ch => cases h; exact .single (.fail s ch he)
  | trace => exact runTrace_atomics he h

theorem act_atomics {c : Choice} {s t : State} (h : act c s = .next t) : Atomics s t := by
  unfold act at h
  split at h
  · exact takeChoice_atomics ‹_› h
  · cases h; exact .refl

/-- What a step that answers a next state does: the state is a state of the machine under a well-formed
configuration, and the step is a chain of atomic steps. -/
theorem step_atomics {s t : State} (h : step s = .next t) :
    s.cfg.wf = true ∧ s.shape = true ∧ Atomics s t := by
  unfold step stepOnce at h
  split at h
  · split at h
    · exact ⟨‹_›, ‹_›, .head (.pop s) (act_atomics h)⟩
    · cases h
  · cases h

/-- A step under a schedule takes the schedule's next choice. -/
theorem step_of_schedule {s : State} {c : Choice} {cs : List Choice} (hw : s.cfg.wf = true) (hs : s.shape = true)
    (hc : s.schedule = c :: cs) : step s = act c { s with schedule := cs } := by
  simp [step, stepOnce, hw, hs, State.nextChoice, State.popChoice, hc]

theorem act_of_enabled {s : State} {c : Choice} (h : s.enabled c = true) : act c s = takeChoice c s := by
  simp [act, h]

theorem act_of_disabled {s : State} {c : Choice} (h : s.enabled c = false) : act c s = .next s := by
  simp [act, h]

end Sys2Proof.Machine
end

