-- ==== Sys2Proof/Laws/Rings.lean ====
section
/-! SUPPORT. What an atomic step can do to a ring, said once: the transitions of R41 with the cursor moves that go
with them. -/

namespace Sys2Proof.Machine

/-- What one atomic step can do to the ring of a channel. -/
inductive RingStep (c : Config) : Channel → Option Ring → Option Ring → Prop where
  | same (ch : Channel) (r : Option Ring) : RingStep c ch r r
  /-- `initialize` (R130). -/
  | init (ch : Channel) (hb : Nat) (bs : List Buffer) (hl : bs.length = c.cap ch) (hu : ∀ b ∈ bs, b.bytes = []) :
      RingStep c ch none (some (newRing c ch (c.cap ch) hb bs))
  /-- `teardown` (R137). -/
  | teardown (ch : Channel) (r : Ring) : RingStep c ch (some r) none
  /-- One iteration of a drain (R162). -/
  | drain (r : Ring) (d : Desc) (hd : r.desc[r.curr]? = some d) (hc : d.st.cmplt = true) (ho : d.own ≠ .posted) :
      RingStep c .rx (some r) (some { r.setDesc r.curr (armRx c.bufSize d) with
        curr := next r.cap r.curr, tail := next r.cap r.tail })
  /-- One iteration of a reclaim (R192). -/
  | reclaim (r : Ring) (d : Desc) (hd : r.desc[r.curr]? = some d) (hc : d.st.cmplt = true)
      (ht : next r.cap r.curr ≠ r.tail) :
      RingStep c .tx (some r) (some { r.setDesc r.curr { d with own := .free } with curr := next r.cap r.curr })
  /-- Arm, copy and advance of a send (R194 to R196). -/
  | post (r : Ring) (d : Desc) (len : Nat) (bytes : List Byte) (hd : r.desc[r.tail]? = some d)
      (ho : d.own ≠ .posted) (hf : next r.cap r.tail ≠ r.curr) (hb : bytes.length ≤ c.bufSize) :
      RingStep c .tx (some r) (some { r.setDesc r.tail { armTx len d with
        own := .posted, buf := { d.buf with bytes := Memory.writeFrom d.buf.bytes 0 bytes } } with
        tail := next r.cap r.tail })
  /-- A completion (R281, R282); a transmit writes no byte. -/
  | complete (ch : Channel) (r : Ring) (i : Nat) (d : Desc) (bytes : List Byte) (st : Status)
      (hd : r.desc[i]? = some d) (ho : d.own = .posted) (hb : bytes.length ≤ c.bufSize) (hs : st.cmplt = true) :
      RingStep c ch (some r) (some (r.setDesc i { d with
        own := .completed, st := st, buf := { d.buf with bytes := Memory.writeFrom d.buf.bytes 0 bytes } }))

/-- The state an atomic step of an operation leaves, before its agent's part is written back. -/
def Progress.state {π : Type} : Progress π → State
  | .goto _ s => s
  | .wait s => s
  | .done _ _ s => s
  | .stop s => s

section
variable {s t : State} {ch : Channel}

@[simp] theorem setEng_ring (s : State) (ch ch' : Channel) (e : Engine) : (s.setEng ch e).ring ch' = s.ring ch' := by
  cases ch <;> rfl

@[simp] theorem setLock_ring (s : State) (ch ch' : Channel) (l : Lock) : (s.setLock ch l).ring ch' = s.ring ch' := by
  cases ch <;> cases ch' <;> rfl

@[simp] theorem release_ring (s : State) (ch ch' : Channel) : (s.release ch).ring ch' = s.ring ch' :=
  setLock_ring s ch ch' .free

@[simp] theorem setToken_ring (s : State) (ch ch' : Channel) (b : Bool) : (s.setToken ch b).ring ch' = s.ring ch' := by
  cases ch <;> cases ch' <;> rfl

theorem setRing_ring (s : State) (ch ch' : Channel) (r : Option Ring) :
    (s.setRing ch r).ring ch' = if ch' = ch then r else s.ring ch' := by
  cases ch <;> cases ch' <;> rfl

theorem RingStep.of_eq {c : Config} {r r' : Option Ring} (h : r' = r) : RingStep c ch r r' := by subst h; exact .same ch _

/-- A write of one channel's ring is a step of that ring, and leaves the other's alone. -/
theorem RingStep.setRing {c : Config} {r' : Option Ring} {u : State} (hu : ∀ ch', u.ring ch' = s.ring ch')
    (h : RingStep c ch (s.ring ch) r') (ch' : Channel) :
    RingStep c ch' (s.ring ch') ((u.setRing ch r').ring ch') := by
  rw [setRing_ring]
  split
  · rename_i h'; rw [h']; exact h
  · exact .of_eq (hu ch')

theorem teardownRing_ringStep {c : Config} (h : teardownRing ch s = .ok t) (ch' : Channel) :
    RingStep c ch' (s.ring ch') (t.ring ch') := by
  rcases teardownRing_ok h with ⟨-, rfl⟩ | ⟨r, hr, -, rfl⟩
  · exact .same _ _
  · exact RingStep.setRing (fun c' => by cases c' <;> rfl) (by rw [hr]; exact .teardown ch r) ch'

theorem ringInitialize_ringStep {a : Agent} (h : ringInitialize a ch (s.cfg.cap ch) s = .ok t) (ch' : Channel) :
    RingStep s.cfg ch' (s.ring ch') (t.ring ch') := by
  obtain ⟨hr, s', hb, bs, hf, hl, hu, rfl, -⟩ := ringInitialize_ok h
  exact RingStep.setRing hf.ring (by rw [hr]; exact .init ch hb bs hl hu) ch'

theorem portStart_ring (ch ch' : Channel) (s : State) : (portStart ch s).ring ch' = s.ring ch' := by
  obtain ⟨dr, drn, e, h, -⟩ := portStart_cases ch s
  rw [h, setEng_ring]; rfl

end

/-! ## Receive -/

/-- What a drain's iteration can do (R161, R162). -/
theorem drainOne_ok {r : Ring} {d : Desc} {s t : State} (h : drainOne r d s = .ok t) :
    d.own ≠ .posted ∧ d.st.len ≤ s.cfg.bufSize ∧ ∃ bytes, d.buf.bytes.readFrom d.st.len 0 = some bytes ∧
      t = (s.deliver bytes d.st.len).setRing .rx (some { r.setDesc r.curr (armRx s.cfg.bufSize d) with
            curr := next r.cap r.curr, tail := next r.cap r.tail }) := by
  unfold drainOne at h
  split at h
  · cases h
  · rename_i ho
    split at h
    · cases h
    · rename_i bytes hb
      cases h
      rw [memRead_ok] at hb
      refine ⟨?_, hb.1, bytes, hb.2, rfl⟩
      simpa [softwareMay] using ho

theorem drainStep_ringStep (a : Agent) (b : Nat) (pos : DrainPos) (s : State) (ch : Channel) :
    RingStep s.cfg ch (s.ring ch) ((drainStep a b pos s).state.ring ch) := by
  cases pos with
  | acquire =>
    rcases acquireLock_cases a .rx s DrainPos.checkLife with ⟨-, h⟩ | ⟨-, -, h⟩ <;>
      simp only [drainStep, h, Progress.state, setLock_ring] <;> exact .same _ _
  | checkLife => simp only [drainStep]; split <;> simp only [Progress.state, release_ring] <;> exact .same _ _
  | finish w => simp only [drainStep, Progress.state, release_ring]; exact .same _ _
  | writeTail w =>
    simp only [drainStep, drainWriteTail, orFault]
    split
    · exact .same _ _
    · split
      · rename_i s' h
        obtain ⟨i, -, rfl⟩ := portSetTaildesc_ok h
        exact .of_eq (by simp only [Progress.state, setEng_ring])
      · exact .same _ _
  | loop w =>
    simp only [drainStep, drainLoop, orFault]
    split
    · exact .same _ _
    · split
      · exact .same _ _
      · rename_i r hr
        split
        · exact .same _ _
        · rename_i d hd
          split
          · rename_i hc
            split
            · rename_i s' h
              obtain ⟨ho, -, bytes, -, rfl⟩ := drainOne_ok h
              exact RingStep.setRing (fun c' => by cases c' <;> rfl) (by rw [hr]; exact .drain r d hd hc ho) ch
            · exact .same _ _
          · exact .same _ _

/-! ## Transmit -/

theorem reclaimOne_some {r r' : Ring} {d : Desc} (h : reclaimOne r d = some r') :
    d.st.cmplt = true ∧ next r.cap r.curr ≠ r.tail ∧
      r' = { r.setDesc r.curr { d with own := .free } with curr := next r.cap r.curr } := by
  unfold reclaimOne at h
  split at h
  · rename_i hc
    cases h
    simp only [Bool.and_eq_true, bne_iff_ne, ne_eq] at hc
    exact ⟨hc.1, hc.2, rfl⟩
  · cases h

/-- What arming and copying can do (R194, R195). -/
theorem postDesc_ok {size t len : Nat} {payload : List Byte} {d d' : Desc} (h : postDesc size t len payload d = .ok d') :
    d.own ≠ .posted ∧ (payload.take len).length ≤ size ∧
      d' = { armTx len d with
        own := .posted, buf := { d.buf with bytes := Memory.writeFrom d.buf.bytes 0 (payload.take len) } } := by
  unfold postDesc at h
  split at h
  · cases h
  · rename_i ho
    split at h
    · cases h
    · rename_i b hb
      cases h
      obtain ⟨h1, h2⟩ := memWrite_ok hb
      exact ⟨by simpa [softwareMay] using ho, h1, by rw [h2.1]⟩

theorem sendStep_ringStep (a : Agent) (len : Nat) (payload : List Byte) (pos : SendPos) (s : State) (ch : Channel) :
    RingStep s.cfg ch (s.ring ch) ((sendStep a len payload pos s).state.ring ch) := by
  cases pos with
  | acquire =>
    rcases acquireLock_cases a .tx s SendPos.checkLife with ⟨-, h⟩ | ⟨-, -, h⟩ <;>
      simp only [sendStep, h, Progress.state, setLock_ring] <;> exact .same _ _
  | checkLife => simp only [sendStep]; split <;> simp only [Progress.state, release_ring] <;> exact .same _ _
  | finish => simp only [sendStep, Progress.state, release_ring]; exact .same _ _
  | writeTail t =>
    simp only [sendStep, orFault]
    split
    · rename_i s' h
      obtain ⟨i, -, rfl⟩ := portSetTaildesc_ok h
      exact .of_eq (by simp only [Progress.state, setEng_ring])
    · exact .same _ _
  | reclaim =>
    simp only [sendStep, sendReclaim]
    split
    · exact .same _ _
    · rename_i r hr
      split
      · exact .same _ _
      · rename_i d hd
        split
        · rename_i r' h
          obtain ⟨h1, h2, rfl⟩ := reclaimOne_some h
          exact RingStep.setRing (fun _ => rfl) (by rw [hr]; exact .reclaim r d hd h1 h2) ch
        · exact .same _ _
  | post =>
    simp only [sendStep, sendPost]
    split
    · exact .same _ _
    · rename_i r hr
      split
      · simp only [Progress.state, release_ring]; exact .same _ _
      · rename_i hf
        split
        · exact .same _ _
        · rename_i d hd
          split
          · exact .same _ _
          · rename_i d' h
            obtain ⟨h1, h2, rfl⟩ := postDesc_ok h
            exact RingStep.setRing (fun _ => rfl) (by rw [hr]; exact .post r d len _ hd h1 hf h2) ch

/-! ## Lifecycle -/

theorem portSetTaildesc_ring {ch : Channel} {addr : Option Nat} {s t : State} (h : portSetTaildesc ch addr s = .ok t)
    (ch' : Channel) : t.ring ch' = s.ring ch' := by
  obtain ⟨i, -, rfl⟩ := portSetTaildesc_ok h; exact setEng_ring _ _ _ _

theorem portSetCurdesc_ring {ch : Channel} {addr : Option Nat} {s t : State} (h : portSetCurdesc ch addr s = .ok t)
    (ch' : Channel) : t.ring ch' = s.ring ch' := by
  obtain ⟨-, i, -, rfl⟩ := portSetCurdesc_ok h; exact setEng_ring _ _ _ _

theorem portCfgCoalesce_ring {ch : Channel} {d th : Nat} {s t : State} (h : portCfgCoalesce ch d th s = .ok t)
    (ch' : Channel) : t.ring ch' = s.ring ch' := by
  obtain ⟨-, rfl⟩ := portCfgCoalesce_ok h; exact setEng_ring _ _ _ _

/-- An operation that may fault leaves the rings alone if its good outcome does. -/
theorem orFault_ring {π : Type} {a : Agent} {s : State} {e : Except FaultReason State} {k : State → Progress π}
    {ch : Channel} (h : ∀ s', e = .ok s' → (k s').state.ring ch = s.ring ch) :
    (orFault a s e k).state.ring ch = s.ring ch := by
  unfold orFault; split
  · exact h _ rfl
  · rfl

/-- The rings after a bring-up's teardown of both: each is torn down or left. -/
theorem teardownBoth_ringStep {c : Config} {s t : State} (ch : Channel)
    (h : teardownBoth s = .ok t ∨ ∃ f, teardownBoth s = .error (f, t)) : RingStep c ch (s.ring ch) (t.ring ch) := by
  unfold teardownBoth at h
  split at h
  · obtain h | ⟨f, h⟩ := h <;> cases h
    exact .same _ _
  · rename_i s1 h1
    have htx := teardownRing_ringStep (c := c) h1 ch
    have h1rx : s1.ring .rx = s.ring .rx := by
      rcases teardownRing_ok h1 with ⟨-, rfl⟩ | ⟨r, -, -, rfl⟩ <;> rfl
    split at h
    · obtain h | ⟨f, h⟩ := h <;> cases h
      exact htx
    · rename_i s2 h2
      have h2t : s2 = t := by obtain h | ⟨f, h⟩ := h <;> cases h; rfl
      subst h2t
      have h2tx : s2.ring .tx = s1.ring .tx := by
        rcases teardownRing_ok h2 with ⟨-, rfl⟩ | ⟨r, -, -, rfl⟩ <;> rfl
      cases ch with
      | tx => rw [h2tx]; exact htx
      | rx => rw [← h1rx]; exact teardownRing_ringStep h2 .rx

theorem bringupInitRx_ringStep (a : Agent) (s : State) (ch : Channel) :
    RingStep s.cfg ch (s.ring ch) ((bringupInitRx a s).state.ring ch) := by
  unfold bringupInitRx
  split
  · exact ringInitialize_ringStep ‹_› ch
  · exact .same _ _
  · rename_i s' h
    have hf := ringInitialize_allocationError h
    split
    · exact .of_eq (hf.ring ch)
    · rename_i s2 h2
      have := teardownRing_ringStep (c := s.cfg) h2 ch
      rw [hf.ring] at this
      exact this

theorem bringupRollback_ringStep (a : Agent) (s : State) (ch : Channel) :
    RingStep s.cfg ch (s.ring ch) ((bringupRollback a s).state.ring ch) := by
  have key : ∀ t, (teardownBoth ((s.setToken .tx false).setToken .rx false) = .ok t ∨
      ∃ f, teardownBoth ((s.setToken .tx false).setToken .rx false) = .error (f, t)) →
      RingStep s.cfg ch (s.ring ch) (t.ring ch) := fun t h => by
    simpa only [setToken_ring] using teardownBoth_ringStep (c := s.cfg) ch h
  unfold bringupRollback
  split
  · rename_i f s' h; exact key s' (.inr ⟨f, h⟩)
  · rename_i s' h; exact key s' (.inl h)

theorem bringupStep_ringStep (a : Agent) (pos : BringupPos) (s : State) (ch : Channel) :
    RingStep s.cfg ch (s.ring ch) ((bringupStep a pos s).state.ring ch) := by
  cases pos with
  | initTx =>
    simp only [bringupStep]
    split
    · exact ringInitialize_ringStep (ch := .tx) ‹_› ch
    · rename_i s' h
      exact .of_eq ((ringInitialize_allocationError h).ring ch)
    · exact .same _ _
  | initRx => exact bringupInitRx_ringStep a s ch
  | rollback => exact bringupRollback_ringStep a s ch
  | curTx | curRx =>
    refine .of_eq ?_
    simp only [bringupStep, bringupSetCur]
    split
    · rfl
    · exact orFault_ring fun s' h => portSetCurdesc_ring h ch
  | writeTail =>
    refine .of_eq ?_
    simp only [bringupStep]
    split
    · rfl
    · exact orFault_ring fun s' h => portSetTaildesc_ring h ch
  | startEng c => exact .of_eq (by cases c <;> exact portStart_ring _ ch s)
  | control c okTx running =>
    refine .of_eq ?_
    cases c
    · rfl
    · simp only [bringupStep]; split <;> rfl
  | tokenTx | tokenRx => exact .of_eq (setToken_ring _ _ _ _)
  | enable c | rollDisable c => exact .of_eq (setEng_ring _ _ _ _)
  | rollStop c => exact .of_eq (by cases c <;> cases ch <;> rfl)
  | ready | status | run | finish => exact .same _ _

theorem shutdownFree_ring {ch ch' : Channel} {b : Bool} {s t : State} {c : Config} (h : shutdownFree ch b s = .ok t) :
    RingStep c ch' (s.ring ch') (t.ring ch') ∧ (ch' ≠ ch → t.ring ch' = s.ring ch') := by
  unfold shutdownFree at h
  split at h
  · split at h
    · cases h
    · rename_i s' h'
      cases h
      refine ⟨teardownRing_ringStep h' ch', fun hne => ?_⟩
      rcases teardownRing_ok h' with ⟨-, rfl⟩ | ⟨r, -, -, rfl⟩
      · rfl
      · exact (setRing_ring _ _ _ _).trans (if_neg hne)
  · cases h; exact ⟨.same _ _, fun _ => rfl⟩

theorem shutdownStep_ringStep (a : Agent) (pos : ShutdownPos) (s : State) (ch : Channel) :
    RingStep s.cfg ch (s.ring ch) ((shutdownStep a pos s).state.ring ch) := by
  cases pos with
  | teardown hTx hRx =>
    simp only [shutdownStep, shutdownTeardown, orFault]
    split
    · rename_i s1 h1
      obtain ⟨a1, b1⟩ := shutdownFree_ring (ch' := ch) (c := s.cfg) h1
      split
      · rename_i s2 h2
        obtain ⟨a2, b2⟩ := shutdownFree_ring (ch' := ch) (c := s.cfg) h2
        cases ch with
        | tx => exact (b2 (by decide)) ▸ a1
        | rx => exact (b1 (by decide)) ▸ a2
      · exact a1
    · exact .same _ _
  | lock c =>
    rcases acquireLock_cases a c s (ShutdownPos.unlock c) with ⟨-, h⟩ | ⟨-, -, h⟩ <;>
      simp only [shutdownStep, h, Progress.state, setLock_ring] <;> exact .same _ _
  | unlock c => exact .of_eq (by cases c <;> exact release_ring _ _ _)
  | disable c => exact .of_eq (setEng_ring _ _ _ _)
  | stop c => exact .of_eq (by cases c <;> cases ch <;> rfl)
  | quiesce c p h =>
    refine .of_eq ?_
    simp only [shutdownStep, quiesceStep]
    split
    · rfl
    · split <;> rfl
  | tokens h1 h2 => exact .of_eq (by simp only [shutdownStep, Progress.state, setToken_ring])
  | finish => exact .same _ _

/-! ## Agents -/

theorem settleCaller_ring {π : Type} (k : Nat) (f : π → CallerOp) (p : Progress π) (ch : Channel) :
    (settleCaller k f p).ring ch = p.state.ring ch := by
  cases p <;> cases ch <;> rfl

theorem callerStep_ringStep (k : Nat) (s : State) (ch : Channel) :
    RingStep s.cfg ch (s.ring ch) ((callerStep k s).ring ch) := by
  unfold callerStep
  split
  · exact .same _ _
  · rw [settleCaller_ring]; exact drainStep_ringStep _ _ _ s ch
  · rw [settleCaller_ring]; exact sendStep_ringStep _ _ _ _ s ch
  · rw [settleCaller_ring]; exact bringupStep_ringStep _ _ s ch
  · rw [settleCaller_ring]; exact shutdownStep_ringStep _ _ s ch

theorem irqStep_ring (c : Channel) (s : State) (ch : Channel) : (irqStep c s).ring ch = s.ring ch := by
  cases c with
  | tx => simp only [irqStep, txIrqStep]; split <;> cases ch <;> rfl
  | rx =>
    simp only [irqStep, rxIrqStep]
    split
    · rfl
    · split <;> cases ch <;> rfl
    all_goals cases ch <;> rfl

theorem pollAfterDrain_ring (c : Code) (w : Nat) (s : State) (ch : Channel) :
    (pollAfterDrain c w s).ring ch = s.ring ch := by
  unfold pollAfterDrain; split
  · cases ch <;> rfl
  · split <;> cases ch <;> rfl

theorem pollStep_ringStep (s : State) (ch : Channel) : RingStep s.cfg ch (s.ring ch) ((pollStep s).ring ch) := by
  unfold pollStep
  split
  · exact .same _ _
  · rename_i pos _
    have h := drainStep_ringStep .defer s.cfg.budget pos s ch
    split <;> rename_i hp <;> rw [hp] at h
    · exact (show State.ring (State.setPollOp _ _) ch = State.ring _ ch by cases ch <;> rfl) ▸ h
    · exact h
    · rw [pollAfterDrain_ring]; exact h
    · exact h
  · exact .of_eq (by cases ch <;> rfl)
  · exact .same _ _

/-! ## Engines -/

/-- What the engine's check can answer (R288). -/
theorem engineCheck_ok {ch : Channel} {s : State} {r : Ring} {d : Desc} (h : engineCheck ch s = .ok (r, d)) :
    s.ring ch = some r ∧ r.desc[(s.eng ch).hwCur]? = some d ∧ d.own = .posted ∧ (ch = .tx → d.ctrl.len ≠ 0) := by
  unfold engineCheck at h
  split at h
  · cases h
  · rename_i r' hr
    split at h
    · cases h
    · rename_i d' hd
      split at h
      · cases h
      · rename_i ho
        split at h
        · cases h
        · rename_i hz
          cases h
          exact ⟨hr, hd, by simpa using ho, fun hc hl => hz ⟨hc, hl⟩⟩

/-- `t` is `s` but for what a draw writes and what is on the wire. -/
def DrawFrame (s t : State) : Prop :=
  t = { s with draws := t.draws, drawn := t.drawn, wireLog := t.wireLog }

theorem DrawFrame.ring {s t : State} (h : DrawFrame s t) (ch : Channel) : t.ring ch = s.ring ch := by
  rw [h]; cases ch <;> rfl

theorem DrawFrame.eng {s t : State} (h : DrawFrame s t) (ch : Channel) : t.eng ch = s.eng ch := by
  rw [h]; cases ch <;> rfl

theorem DrawFrame.cfg {s t : State} (h : DrawFrame s t) : t.cfg = s.cfg := by rw [h]

theorem DrawFrame.trans {s t u : State} (h : DrawFrame s t) (h' : DrawFrame t u) : DrawFrame s u := by
  rw [DrawFrame] at *; rw [h', h]

theorem drawErrBits_frame (s : State) : DrawFrame s s.drawErrBits.2 := by
  unfold State.drawErrBits; split
  · split <;> rfl
  · rfl

theorem drawTxLen_frame (m : Nat) (s : State) : DrawFrame s (s.drawTxLen m).2 := by
  unfold State.drawTxLen; split <;> rfl

theorem drawFrame_frame (m : Nat) (s : State) : DrawFrame s (s.drawFrame m).2 := by
  unfold State.drawFrame; split <;> rfl

/-- What a transmit completion can do (R281, R288). -/
theorem txCompleteStep_cases (s : State) :
    (∃ f, txCompleteStep s = s.raiseFault .engTx f) ∨
    ∃ r d st s', s.ring .tx = some r ∧ r.desc[s.engTx.hwCur]? = some d ∧ d.own = .posted ∧ st.cmplt = true ∧
      DrawFrame s s' ∧ txCompleteStep s = writeCompletion .tx r d st s' := by
  unfold txCompleteStep
  split
  · exact .inl ⟨_, rfl⟩
  · rename_i r d h
    obtain ⟨hr, hd, ho, -⟩ := engineCheck_ok h
    split
    · exact .inl ⟨_, rfl⟩
    · refine .inr ?_
      unfold finishTx
      split
      · exact ⟨r, d, _, _, hr, hd, ho, rfl, (drawErrBits_frame s).trans (t := s.drawErrBits.2) (by unfold DrawFrame; rfl), rfl⟩
      · exact ⟨r, d, _, _, hr, hd, ho, rfl, (drawErrBits_frame s).trans (drawTxLen_frame _ _), rfl⟩

/-- What a receive completion can do (R282, R288). -/
theorem rxCompleteStep_cases (s : State) :
    (∃ f, rxCompleteStep s = s.raiseFault .engRx f) ∨
    (∃ f s', DrawFrame s s' ∧ rxCompleteStep s = s'.raiseFault .engRx f) ∨
    ∃ r d st bytes s', s.ring .rx = some r ∧ r.desc[s.engRx.hwCur]? = some d ∧ d.own = .posted ∧ st.cmplt = true ∧
      bytes.length ≤ s.cfg.bufSize ∧ DrawFrame s s' ∧
      rxCompleteStep s =
        writeCompletion .rx r { d with buf := { d.buf with bytes := d.buf.bytes.writeFrom 0 bytes } } st s' := by
  unfold rxCompleteStep
  split
  · exact .inl ⟨_, rfl⟩
  · rename_i r d h
    obtain ⟨hr, hd, ho, -⟩ := engineCheck_ok h
    have hf := (drawFrame_frame d.ctrl.len s).trans (drawErrBits_frame _)
    unfold finishRx
    split
    · exact .inr (.inl ⟨_, _, hf, rfl⟩)
    · rename_i b hb
      obtain ⟨h1, rfl, -⟩ := memWrite_ok hb
      rw [hf.cfg] at h1
      exact .inr (.inr ⟨r, d, _, _, _, hr, hd, ho, rfl, h1, hf, rfl⟩)

@[simp] theorem writeCompletion_ring (ch ch' : Channel) (r : Ring) (d : Desc) (st : Status) (s : State) :
    (writeCompletion ch r d st s).ring ch' =
      if ch' = ch then some (r.setDesc (s.eng ch).hwCur { d with own := .completed, st := st }) else s.ring ch' := by
  rw [writeCompletion, setEng_ring, setRing_ring]

theorem txComplete_ringStep (s : State) (ch : Channel) : RingStep s.cfg ch (s.ring ch) ((txCompleteStep s).ring ch) := by
  rcases txCompleteStep_cases s with ⟨f, h⟩ | ⟨r, d, st, s', hr, hd, ho, hst, hf, h⟩
  · rw [h]; exact .same _ _
  · rw [h, writeCompletion_ring]
    split
    · rename_i hch
      subst hch
      rw [hr, hf.eng]
      exact .complete .tx r _ d [] st hd ho (Nat.zero_le _) hst
    · exact .of_eq (hf.ring ch)

theorem rxComplete_ringStep (s : State) (ch : Channel) : RingStep s.cfg ch (s.ring ch) ((rxCompleteStep s).ring ch) := by
  rcases rxCompleteStep_cases s with ⟨f, h⟩ | ⟨f, s', hf, h⟩ | ⟨r, d, st, b, s', hr, hd, ho, hst, hb, hf, h⟩
  · rw [h]; exact .same _ _
  · rw [h]; exact .of_eq (hf.ring ch)
  · rw [h, writeCompletion_ring]
    split
    · rename_i hch
      subst hch
      rw [hr, hf.eng]
      exact .complete .rx r _ d b st hd ho hb hst
    · exact .of_eq (hf.ring ch)

/-! ## Every atomic step -/

theorem irqEntry_ring (s : State) (c ch : Channel) : (s.irqEntry c).ring ch = s.ring ch := by
  cases c <;> cases ch <;> rfl

theorem portAlone_ring {s : State} {e : Except FaultReason State} {ch : Channel}
    (h : ∀ s', e = .ok s' → s'.ring ch = s.ring ch) : (portAlone s e).ring ch = s.ring ch := by
  unfold portAlone; split
  · exact (show State.ring _ ch = State.ring _ ch by cases ch <;> rfl).trans (h _ rfl)
  · cases ch <;> rfl

/-- An internal command run alone is a step of each ring. -/
theorem internal_ringStep {i : Instr} {s t : State} (hc : i.commandClass = .internal) (h : exec i s = .next t)
    (ch : Channel) : RingStep s.cfg ch (s.ring ch) (t.ring ch) := by
  cases i <;> simp only [Instr.commandClass, reduceCtorEq] at hc <;> cases h
  case ringInit c n =>
    split
    · rename_i hn
      rw [hn]
      split
      · rename_i s' h'
        exact (ringInitialize_ringStep h' ch)
      · rename_i s' h'
        exact .of_eq ((ringInitialize_allocationError h').ring ch)
      · exact .same _ _
    · exact .same _ _
  case ringTeardown c =>
    split
    · rename_i s' h'
      exact teardownRing_ringStep h' ch
    · exact .same _ _
  case portStart c => exact .of_eq (portStart_ring c ch s)
  case portSetCurdesc c i => exact .of_eq (portAlone_ring fun s' h => portSetCurdesc_ring h ch)
  case portSetTaildesc c i => exact .of_eq (portAlone_ring fun s' h => portSetTaildesc_ring h ch)
  case portCfgCoalesce c d th => exact .of_eq (portAlone_ring fun s' h => portCfgCoalesce_ring h ch)
  case portReadStatus => exact .same _ _
  case portReadControl => exact .same _ _
  all_goals exact .of_eq (setEng_ring _ _ _ _)

theorem queryStatus_ring (k : Nat) (c : Channel) (i : Nat) (f : Status → Nat) (s : State) (ch : Channel) :
    (queryStatus k c i f s).ring ch = s.ring ch := by
  unfold queryStatus; split
  · cases ch <;> rfl
  · split <;> cases ch <;> rfl

/-- The first atomic step of a caller's command touches no ring. -/
theorem startInstr_ring {i : Instr} {s t : State} (hc : i.commandClass = .caller) (h : startInstr i s = .next t)
    (ch : Channel) : t.ring ch = s.ring ch := by
  cases i <;> simp only [Instr.commandClass, reduceCtorEq] at hc <;> cases h
  case ringIsComplete => exact queryStatus_ring _ _ _ _ _ _
  case ringLength => exact queryStatus_ring _ _ _ _ _ _
  case txSend => unfold startSend; split <;> cases ch <;> rfl
  case devBringup => unfold startBringup; split <;> cases ch <;> rfl
  case devShutdown => unfold startShutdown; split <;> cases ch <;> rfl
  all_goals cases ch <;> rfl

/-- Every atomic step is a step of each ring. -/
theorem Atomic.ringStep {s t : State} (h : Atomic s t) (ch : Channel) :
    RingStep s.cfg ch (s.ring ch) (t.ring ch) := by
  cases h with
  | pop => exact .of_eq (by unfold State.popChoice; split <;> cases ch <;> rfl)
  | select => exact .of_eq (by cases ch <;> rfl)
  | dropTrace => exact .of_eq (by cases ch <;> rfl)
  | internal _ i hc h => exact internal_ringStep hc h ch
  | refuse => exact .of_eq (by cases ch <;> rfl)
  | start _ cmd i _ _ ha h => exact .of_eq (startInstr_ring (admission_caller ha).2.2 h ch)
  | caller k _ => exact callerStep_ringStep k s ch
  | entry c _ => exact .of_eq (irqEntry_ring s c ch)
  | irq c _ => exact .of_eq (irqStep_ring c s ch)
  | pollStart => exact .of_eq (by cases ch <;> rfl)
  | poll => exact pollStep_ringStep s ch
  | txComplete => exact txComplete_ringStep s ch
  | rxComplete => exact rxComplete_ringStep s ch
  | delay c | halt c | fail c => exact .of_eq (setEng_ring _ _ _ _)

end Sys2Proof.Machine
end

