-- ==== Sys2Proof/Laws/Callers.lean ====
section
/-! SUPPORT. What an atomic step can do to the callers, said once: only a response advances `pc[k]` and extends
`resp[k]` (R64, R106), and only an operation in flight is written otherwise. -/

namespace Sys2Proof.Machine

/-- What one atomic step can do to the callers. -/
inductive CallersStep (s t : State) : Prop where
  | same (h : t.callers = s.callers)
  /-- An operation starts or moves; it waits at an acquire (R56). -/
  | op (k : Nat) (op : CallerOp)
      (h : t.callers = s.callers.set k { s.caller k with op := op, wait := (acquiring op).isSome })
  /-- An operation returns (R64, R313). -/
  | respond (k : Nat) (c : Code) (v : Nat)
      (h : t.callers = s.callers.set k { s.caller k with
        pc := (s.caller k).pc + 1, op := .idle, resp := (s.caller k).resp ++ [respWord c v], wait := false })

section
variable {s t : State} {ch : Channel}

theorem teardownRing_callers (h : teardownRing ch s = .ok t) : t.callers = s.callers := by
  rcases teardownRing_ok h with ⟨-, rfl⟩ | ⟨r, -, -, rfl⟩
  · rfl
  · cases ch <;> rfl

theorem AllocFrame.callers (h : AllocFrame s t) : t.callers = s.callers := by rw [h]

theorem ringInitialize_callers {a : Agent} {n : Nat} (h : ringInitialize a ch n s = .ok t) : t.callers = s.callers := by
  obtain ⟨-, s', hb, bs, hf, -, -, rfl, -⟩ := ringInitialize_ok h
  cases ch <;> exact hf.callers

theorem portSetTaildesc_callers {addr : Option Nat} (h : portSetTaildesc ch addr s = .ok t) : t.callers = s.callers := by
  obtain ⟨i, -, rfl⟩ := portSetTaildesc_ok h; cases ch <;> rfl

theorem portSetCurdesc_callers {addr : Option Nat} (h : portSetCurdesc ch addr s = .ok t) : t.callers = s.callers := by
  obtain ⟨-, i, -, rfl⟩ := portSetCurdesc_ok h; cases ch <;> rfl

theorem portCfgCoalesce_callers {d th : Nat} (h : portCfgCoalesce ch d th s = .ok t) : t.callers = s.callers := by
  obtain ⟨-, rfl⟩ := portCfgCoalesce_ok h; cases ch <;> rfl

theorem portStart_callers (ch : Channel) (s : State) : (portStart ch s).callers = s.callers := by
  obtain ⟨dr, drn, e, h, -⟩ := portStart_cases ch s
  rw [h, setEng_callers]

theorem acquireLock_callers {π : Type} (a : Agent) (c : Channel) (s : State) (p : π) :
    (acquireLock a c s p).state.callers = s.callers := by
  rcases acquireLock_cases a c s p with ⟨-, h⟩ | ⟨-, -, h⟩
  · rw [h]; cases c <;> rfl
  · rw [h]; rfl

theorem orFault_callers {π : Type} {a : Agent} {e : Except FaultReason State} {k : State → Progress π}
    (h : ∀ s', e = .ok s' → (k s').state.callers = s.callers) : (orFault a s e k).state.callers = s.callers := by
  unfold orFault; split
  · exact h _ rfl
  · rfl

end

/-! ## An operation's own step writes no caller -/

theorem drainStep_callers (a : Agent) (b : Nat) (pos : DrainPos) (s : State) :
    (drainStep a b pos s).state.callers = s.callers := by
  cases pos with
  | acquire => exact acquireLock_callers a .rx s _
  | checkLife => simp only [drainStep]; split <;> rfl
  | finish w => rfl
  | writeTail w =>
    simp only [drainStep, drainWriteTail]
    split
    · rfl
    · exact orFault_callers fun s' h => portSetTaildesc_callers h
  | loop w =>
    simp only [drainStep, drainLoop]
    split
    · rfl
    · split
      · rfl
      · split
        · rfl
        · split
          · exact orFault_callers fun s' h => by obtain ⟨-, -, -, -, rfl⟩ := drainOne_ok h; rfl
          · rfl

theorem sendStep_callers (a : Agent) (len : Nat) (payload : List Byte) (pos : SendPos) (s : State) :
    (sendStep a len payload pos s).state.callers = s.callers := by
  cases pos with
  | acquire => exact acquireLock_callers a .tx s _
  | checkLife => simp only [sendStep]; split <;> rfl
  | finish => rfl
  | writeTail t => exact orFault_callers fun s' h => portSetTaildesc_callers h
  | reclaim =>
    simp only [sendStep, sendReclaim]
    split
    · rfl
    · split
      · rfl
      · split <;> rfl
  | post =>
    simp only [sendStep, sendPost]
    split
    · rfl
    · split
      · rfl
      · split
        · rfl
        · split <;> rfl

theorem teardownBoth_callers {s t : State} (h : teardownBoth s = .ok t ∨ ∃ f, teardownBoth s = .error (f, t)) :
    t.callers = s.callers := by
  unfold teardownBoth at h
  split at h
  · obtain h | ⟨f, h⟩ := h <;> cases h
    rfl
  · rename_i s1 h1
    split at h
    · obtain h | ⟨f, h⟩ := h <;> cases h
      exact teardownRing_callers h1
    · rename_i s2 h2
      have h2t : s2 = t := by obtain h | ⟨f, h⟩ := h <;> cases h; rfl
      subst h2t
      rw [teardownRing_callers h2, teardownRing_callers h1]

theorem bringupStep_callers (a : Agent) (pos : BringupPos) (s : State) :
    (bringupStep a pos s).state.callers = s.callers := by
  cases pos with
  | initTx =>
    simp only [bringupStep]
    split
    · rename_i h; exact ringInitialize_callers h
    · rename_i h; exact (ringInitialize_allocationError h).callers
    · rfl
  | initRx =>
    simp only [bringupStep, bringupInitRx]
    split
    · rename_i h; exact ringInitialize_callers h
    · rfl
    · rename_i h
      have hf := (ringInitialize_allocationError h).callers
      split
      · exact hf
      · rename_i h2; exact (teardownRing_callers h2).trans hf
  | rollback =>
    simp only [bringupStep, bringupRollback]
    split
    · rename_i f s' h; exact teardownBoth_callers (t := s') (s := (s.setToken .tx false).setToken .rx false) (.inr ⟨f, h⟩)
    · rename_i s' h; exact teardownBoth_callers (t := s') (s := (s.setToken .tx false).setToken .rx false) (.inl h)
  | curTx | curRx =>
    simp only [bringupStep, bringupSetCur]
    split
    · rfl
    · exact orFault_callers fun s' h => portSetCurdesc_callers h
  | writeTail =>
    simp only [bringupStep]
    split
    · rfl
    · exact orFault_callers fun s' h => portSetTaildesc_callers h
  | startEng c => cases c <;> exact portStart_callers _ s
  | control c okTx running =>
    cases c
    · rfl
    · simp only [bringupStep]; split <;> rfl
  | enable c | rollDisable c | rollStop c => cases c <;> rfl
  | tokenTx | tokenRx | ready | run | finish | status => rfl

theorem shutdownFree_callers {ch : Channel} {b : Bool} {s t : State} (h : shutdownFree ch b s = .ok t) :
    t.callers = s.callers := by
  unfold shutdownFree at h
  split at h
  · split at h
    · cases h
    · rename_i s' h'
      cases h; exact teardownRing_callers (t := s') h'
  · cases h; rfl

theorem shutdownStep_callers (a : Agent) (pos : ShutdownPos) (s : State) :
    (shutdownStep a pos s).state.callers = s.callers := by
  cases pos with
  | teardown hTx hRx =>
    simp only [shutdownStep, shutdownTeardown, orFault]
    split
    · rename_i s1 h1
      have e1 := shutdownFree_callers h1
      split
      · rename_i s2 h2; exact (shutdownFree_callers h2).trans e1
      · exact e1
    · rfl
  | lock c => exact acquireLock_callers a c s _
  | unlock c | stop c | disable c => cases c <;> rfl
  | quiesce c p h =>
    simp only [shutdownStep, quiesceStep]
    split
    · rfl
    · split <;> rfl
  | tokens h1 h2 => rfl
  | finish => rfl

/-! ## Every atomic step -/

theorem settleCaller_callersStep {π : Type} {s : State} (k : Nat) (f : π → CallerOp) (p : Progress π)
    (h : p.state.callers = s.callers) : CallersStep s (settleCaller k f p) := by
  have hk : ∀ u : State, u.callers = s.callers → u.caller k = s.caller k := fun u hu => by
    simp only [State.caller, hu]
  simp only [Progress.state] at h
  cases p with
  | goto q u => exact .op k (f q) (by rw [settleCaller, State.setOp, State.setCaller, hk u h, ← h])
  | wait u => exact .same h
  | done c v u => exact .respond k c v (by rw [settleCaller, State.respond, State.setCaller, hk u h, ← h])
  | stop u => exact .same h

theorem callerStep_callersStep (k : Nat) (s : State) : CallersStep s (callerStep k s) := by
  unfold callerStep
  split
  · exact .same rfl
  · exact settleCaller_callersStep _ _ _ (drainStep_callers _ _ _ s)
  · exact settleCaller_callersStep _ _ _ (sendStep_callers _ _ _ _ s)
  · exact settleCaller_callersStep _ _ _ (bringupStep_callers _ _ s)
  · exact settleCaller_callersStep _ _ _ (shutdownStep_callers _ _ s)

theorem irqStep_callers (c : Channel) (s : State) : (irqStep c s).callers = s.callers := by
  cases c with
  | tx => simp only [irqStep, txIrqStep]; split <;> rfl
  | rx =>
    simp only [irqStep, rxIrqStep]
    split
    · rfl
    · split <;> rfl
    all_goals rfl

theorem pollAfterDrain_callers (c : Code) (w : Nat) (s : State) : (pollAfterDrain c w s).callers = s.callers := by
  unfold pollAfterDrain; split
  · rfl
  · split <;> rfl

theorem pollStep_callers (s : State) : (pollStep s).callers = s.callers := by
  unfold pollStep
  split
  · rfl
  · rename_i pos _
    have h := drainStep_callers .defer s.cfg.budget pos s
    split <;> rename_i hp <;> rw [hp] at h
    · exact h
    · exact h
    · rw [pollAfterDrain_callers]; exact h
    · exact h
  · rfl
  · rfl

theorem DrawFrame.callers {s t : State} (h : DrawFrame s t) : t.callers = s.callers := by rw [h]

theorem writeCompletion_callers (ch : Channel) (r : Ring) (d : Desc) (st : Status) (s : State) :
    (writeCompletion ch r d st s).callers = s.callers := by
  cases ch <;> rfl

theorem txCompleteStep_callers (s : State) : (txCompleteStep s).callers = s.callers := by
  rcases txCompleteStep_cases s with ⟨f, h⟩ | ⟨r, d, st, s', -, -, -, -, hf, h⟩
  · rw [h]; rfl
  · rw [h, writeCompletion_callers, hf.callers]

theorem rxCompleteStep_callers (s : State) : (rxCompleteStep s).callers = s.callers := by
  rcases rxCompleteStep_cases s with ⟨f, h⟩ | ⟨f, s', hf, h⟩ | ⟨r, d, st, b, s', -, -, -, -, -, hf, h⟩
  · rw [h]; rfl
  · rw [h]; exact hf.callers
  · rw [h, writeCompletion_callers, hf.callers]

theorem portAlone_callers {s : State} {e : Except FaultReason State} (h : ∀ s', e = .ok s' → s'.callers = s.callers) :
    (portAlone s e).callers = s.callers := by
  unfold portAlone; split
  · rename_i s'; exact h s' rfl
  · rfl

theorem internal_callers {i : Instr} {s t : State} (hc : i.commandClass = .internal) (h : exec i s = .next t) :
    t.callers = s.callers := by
  cases i <;> simp only [Instr.commandClass, reduceCtorEq] at hc <;> cases h
  case ringInit c n =>
    split
    · split
      · rename_i s' h'; exact ringInitialize_callers (t := s') h'
      · rename_i s' h'; exact (ringInitialize_allocationError h').callers
      · rfl
    · rfl
  case ringTeardown c =>
    split
    · rename_i s' h'; exact teardownRing_callers (t := s') h'
    · rfl
  case portStart c => exact portStart_callers c s
  case portSetCurdesc c i => exact portAlone_callers fun s' h => portSetCurdesc_callers h
  case portSetTaildesc c i => exact portAlone_callers fun s' h => portSetTaildesc_callers h
  case portCfgCoalesce c d th => exact portAlone_callers fun s' h => portCfgCoalesce_callers h
  case portReadStatus => rfl
  case portReadControl => rfl
  all_goals rename_i c; cases c <;> rfl

theorem queryStatus_callersStep (k : Nat) (c : Channel) (i : Nat) (f : Status → Nat) (s : State) :
    CallersStep s (queryStatus k c i f s) := by
  unfold queryStatus; split
  · exact .respond k _ _ rfl
  · split
    · exact .same rfl
    · exact .respond k _ _ rfl

theorem startInstr_callersStep {i : Instr} {s t : State} (hc : i.commandClass = .caller)
    (h : startInstr i s = .next t) : CallersStep s t := by
  cases i <;> simp only [Instr.commandClass, reduceCtorEq] at hc <;> cases h
  case ringNext => exact .respond _ _ _ rfl
  case ringIsComplete => exact queryStatus_callersStep _ _ _ _ _
  case ringLength => exact queryStatus_callersStep _ _ _ _ _
  case rxDrain => exact .op _ _ rfl
  case txSend =>
    unfold startSend; split
    · exact .respond _ _ _ rfl
    · exact .op _ _ rfl
  case devBringup =>
    unfold startBringup; split
    · exact .same rfl
    · exact .op _ _ rfl
  case devShutdown =>
    unfold startShutdown; split
    · exact .same rfl
    · exact .op _ _ rfl

/-- Every atomic step is a step of the callers. -/
theorem Atomic.callersStep {s t : State} (h : Atomic s t) : CallersStep s t := by
  cases h with
  | pop => exact .same (by unfold State.popChoice; split <;> rfl)
  | select => exact .same rfl
  | dropTrace => exact .same rfl
  | internal _ i hc h => exact .same (internal_callers hc h)
  | refuse => exact .same rfl
  | start _ cmd i _ _ ha h => exact startInstr_callersStep (admission_caller ha).2.2 h
  | caller k _ => exact callerStep_callersStep k s
  | entry c _ => exact .same (by cases c <;> rfl)
  | irq c _ => exact .same (irqStep_callers c s)
  | pollStart => exact .same rfl
  | poll => exact .same (pollStep_callers s)
  | txComplete => exact .same (txCompleteStep_callers s)
  | rxComplete => exact .same (rxCompleteStep_callers s)
  | delay c | halt c | fail c => exact .same (by cases c <;> rfl)

end Sys2Proof.Machine
end

