-- ==== Sys2Proof/Laws/Encoding.lean ====
section
/-! SUPPORT. The three fields of an assembled word, and a word assembled from its fields (R102). -/

namespace Sys2Proof

@[simp] theorem opField_assemble (op : BitVec 8) (c : BitVec 1) (imm : Imm) :
    opField (assemble op c imm) = op := by
  apply BitVec.eq_of_getLsbD_eq
  intro i hi
  simp only [opField, assemble, BitVec.getLsbD_extractLsb', BitVec.getLsbD_append]
  simp only [hi, decide_true, Bool.true_and]
  rw [if_neg (by omega), if_neg (by omega)]
  congr 1
  omega

@[simp] theorem chanBit_assemble (op : BitVec 8) (c : BitVec 1) (imm : Imm) :
    chanBit (assemble op c imm) = c := by
  apply BitVec.eq_of_getLsbD_eq
  intro i hi
  simp only [chanBit, assemble, BitVec.getLsbD_extractLsb', BitVec.getLsbD_append]
  simp only [hi, decide_true, Bool.true_and]
  rw [if_neg (by omega), if_pos (by omega)]
  congr 1
  omega

@[simp] theorem immField_assemble (op : BitVec 8) (c : BitVec 1) (imm : Imm) :
    immField (assemble op c imm) = imm := by
  apply BitVec.eq_of_getLsbD_eq
  intro i hi
  simp only [immField, assemble, BitVec.getLsbD_extractLsb', BitVec.getLsbD_append]
  simp only [hi, decide_true, Bool.true_and, Nat.zero_add, if_true]

/-- A word is its three fields (R102): no bit is left over. -/
theorem assemble_fields (w : Word) : assemble (opField w) (chanBit w) (immField w) = w := by
  apply BitVec.eq_of_getLsbD_eq
  intro i hi
  simp only [assemble, opField, chanBit, immField, BitVec.getLsbD_append, BitVec.getLsbD_extractLsb']
  by_cases h1 : i < 23
  · simp [h1]
  · rw [if_neg h1]
    by_cases h2 : i - 23 < 1
    · have : i = 23 := by omega
      subst this; simp
    · rw [if_neg h2]
      have h3 : i - 23 - 1 < 8 := by omega
      have h4 : 24 + (i - 23 - 1) = i := by omega
      simp [h3, h4]

@[simp] theorem channelOf_channelBit (ch : Channel) : channelOf (channelBit ch) = ch := by cases ch <;> rfl

theorem channelBit_channelOf (b : BitVec 1) : channelBit (channelOf b) = b := by
  revert b; decide

/-- The two parts of a coalescing operand (R103). -/
@[simp] theorem delay_append (d : BitVec 15) (t : BitVec 8) : (d ++ t : Imm).extractLsb' 8 15 = d := by
  apply BitVec.eq_of_getLsbD_eq
  intro i hi
  simp only [BitVec.getLsbD_extractLsb', BitVec.getLsbD_append, hi, decide_true, Bool.true_and]
  rw [if_neg (by omega)]
  congr 1
  omega

@[simp] theorem threshold_append (d : BitVec 15) (t : BitVec 8) : (d ++ t : Imm).extractLsb' 0 8 = t := by
  apply BitVec.eq_of_getLsbD_eq
  intro i hi
  simp only [BitVec.getLsbD_extractLsb', BitVec.getLsbD_append, hi, decide_true, Bool.true_and, Nat.zero_add,
    if_true]

theorem append_delay_threshold (imm : Imm) :
    (imm.extractLsb' 8 15 ++ imm.extractLsb' 0 8 : Imm) = imm := by
  apply BitVec.eq_of_getLsbD_eq
  intro i hi
  simp only [BitVec.getLsbD_append, BitVec.getLsbD_extractLsb']
  by_cases h : i < 8
  · simp [h]
  · rw [if_neg h]
    have h1 : i - 8 < 15 := by omega
    have h2 : 8 + (i - 8) = i := by omega
    simp [h1, h2]

end Sys2Proof
end

