-- ==== Sys2Proof/Laws/Engines.lean ====
section
/-! SUPPORT. What an atomic step can do to an engine, said once: the port operations and the engine's own steps, and
nothing else (R54, R280). -/

namespace Sys2Proof.Machine

/-- What one atomic step can do to the engine of a channel of capacity `n`. -/
inductive EngStep (c : Config) (ch : Channel) : Engine → Engine → Prop where
  | same (e : Engine) : EngStep c ch e e
  /-- `start()` on an engine that may start (R253). -/
  | start (e : Engine) (h : Bool) (hh : h = true → e.halted = true) (hs : e.errHalt = true → h = e.halted) :
      EngStep c ch e { e with runStop := true, halted := h }
  /-- `stop()` (R254). -/
  | stop (e : Engine) : EngStep c ch e { e with runStop := false }
  /-- `reset()` (R255). -/
  | reset (e : Engine) : EngStep c ch e (engineReset c)
  /-- `enableCompletionInterrupts()` and `disableCompletionInterrupts()` (R256, R257). -/
  | irq (e : Engine) (b : Bool) : EngStep c ch e { e with irqEn := b }
  /-- `acknowledgeInterrupt()` (R258). -/
  | ack (e : Engine) : EngStep c ch e { e with iocPend := false, dlyPend := false }
  /-- `setCurrentDescriptorAddress` (R259). -/
  | cur (e : Engine) (i : Nat) (hi : i < c.cap ch) (hh : e.halted = true) :
      EngStep c ch e { e with hwCur := i, tailValid := false }
  /-- `setTailDescriptorAddress` (R260). -/
  | tail (e : Engine) (i : Nat) (hi : i < c.cap ch) : EngStep c ch e { e with hwTail := i, tailValid := true }
  /-- `configureDelayAndThreshold` (R261). -/
  | coalesce (e : Engine) (d t : Nat) (ht : t ≠ 0) : EngStep c ch e { e with coalDelay := d, coalThresh := t }
  /-- A completion (R281, R282, R284). -/
  | complete (e : Engine) (hh : e.halted = false) (hw : windowEmpty (c.cap ch) e = false) :
      EngStep c ch e (advanceEngine (c.cap ch) e)
  /-- Delay expiry (R285). -/
  | delay (e : Engine) (hh : e.halted = false) : EngStep c ch e { e with dlyPend := true, coalCount := 0 }
  /-- Halt (R286). -/
  | halt (e : Engine) (hh : e.halted = false) (hr : e.runStop = false) : EngStep c ch e { e with halted := true }
  /-- Fail (R287). -/
  | fail (e : Engine) (hh : e.halted = false) (hm : c.deviceMayFail = true) :
      EngStep c ch e { e with halted := true, errHalt := true }

theorem setEng_eng (s : State) (ch ch' : Channel) (e : Engine) :
    (s.setEng ch e).eng ch' = if ch' = ch then e else s.eng ch' := by
  cases ch <;> cases ch' <;> rfl

@[simp] theorem setRing_eng (s : State) (ch ch' : Channel) (r : Option Ring) : (s.setRing ch r).eng ch' = s.eng ch' := by
  cases ch <;> cases ch' <;> rfl

@[simp] theorem setLock_eng (s : State) (ch ch' : Channel) (l : Lock) : (s.setLock ch l).eng ch' = s.eng ch' := by
  cases ch <;> cases ch' <;> rfl

@[simp] theorem release_eng (s : State) (ch ch' : Channel) : (s.release ch).eng ch' = s.eng ch' :=
  setLock_eng s ch ch' .free

@[simp] theorem setToken_eng (s : State) (ch ch' : Channel) (b : Bool) : (s.setToken ch b).eng ch' = s.eng ch' := by
  cases ch <;> cases ch' <;> rfl

section
variable {s t : State} {ch : Channel} {c : Config}

theorem EngStep.of_eq {e e' : Engine} (h : e' = e) : EngStep c ch e e' := by subst h; exact .same _

/-- A write of one channel's engine is a step of that engine, and leaves the other's alone. -/
theorem EngStep.setEng {u : State} {e' : Engine} (hu : ∀ ch', u.eng ch' = s.eng ch')
    (h : EngStep c ch (s.eng ch) e') (ch' : Channel) : EngStep c ch' (s.eng ch') ((u.setEng ch e').eng ch') := by
  rw [setEng_eng]
  split
  · rename_i h'; rw [h']; exact h
  · exact .of_eq (hu ch')

theorem teardownRing_eng (h : teardownRing ch s = .ok t) (ch' : Channel) : t.eng ch' = s.eng ch' := by
  rcases teardownRing_ok h with ⟨-, rfl⟩ | ⟨r, -, -, rfl⟩
  · rfl
  · rw [setRing_eng]; cases ch' <;> rfl

theorem ringInitialize_eng {a : Agent} {n : Nat} (h : ringInitialize a ch n s = .ok t) (ch' : Channel) :
    t.eng ch' = s.eng ch' := by
  obtain ⟨-, s', hb, bs, hf, -, -, rfl, -⟩ := ringInitialize_ok h
  rw [setRing_eng, hf.eng]

theorem portSetTaildesc_engStep (hc : ConfigFacts s.cfg) {addr : Option Nat} (h : portSetTaildesc ch addr s = .ok t)
    (ch' : Channel) : EngStep s.cfg ch' (s.eng ch') (t.eng ch') := by
  obtain ⟨i, hi, rfl⟩ := portSetTaildesc_ok h
  exact EngStep.setEng (fun _ => rfl) (.tail _ i (addrOperand_lt hc hi)) ch'

theorem portSetCurdesc_engStep (hc : ConfigFacts s.cfg) {addr : Option Nat} (h : portSetCurdesc ch addr s = .ok t)
    (ch' : Channel) : EngStep s.cfg ch' (s.eng ch') (t.eng ch') := by
  obtain ⟨hh, i, hi, rfl⟩ := portSetCurdesc_ok h
  exact EngStep.setEng (fun _ => rfl) (.cur _ i (addrOperand_lt hc hi) hh) ch'

theorem portCfgCoalesce_engStep {d th : Nat} (h : portCfgCoalesce ch d th s = .ok t) (ch' : Channel) :
    EngStep c ch' (s.eng ch') (t.eng ch') := by
  obtain ⟨hth, rfl⟩ := portCfgCoalesce_ok h
  exact EngStep.setEng (fun _ => rfl) (.coalesce _ d th hth) ch'

theorem drawStartOk_eng (s : State) (ch : Channel) : s.drawStartOk.2.eng ch = s.eng ch := by
  unfold State.drawStartOk; split <;> cases ch <;> rfl

theorem portStart_engStep (ch : Channel) (s : State) (ch' : Channel) :
    EngStep c ch' (s.eng ch') ((portStart ch s).eng ch') := by
  unfold portStart
  split
  · rename_i h
    simp only [Bool.and_eq_true, Bool.not_eq_true'] at h
    exact EngStep.setEng (drawStartOk_eng s) (.start _ _ (fun _ => h.1) (fun h' => by rw [h'] at h; simp at h)) ch'
  · exact EngStep.setEng (fun _ => rfl) (.start _ (s.eng ch).halted id (fun _ => rfl)) ch'

theorem portStop_engStep (ch : Channel) (s : State) (ch' : Channel) :
    EngStep c ch' (s.eng ch') ((portStop ch s).eng ch') :=
  EngStep.setEng (fun _ => rfl) (.stop _) ch'

theorem portIrqEnable_engStep (ch : Channel) (s : State) (ch' : Channel) :
    EngStep c ch' (s.eng ch') ((portIrqEnable ch s).eng ch') :=
  EngStep.setEng (fun _ => rfl) (.irq _ true) ch'

theorem portIrqDisable_engStep (ch : Channel) (s : State) (ch' : Channel) :
    EngStep c ch' (s.eng ch') ((portIrqDisable ch s).eng ch') :=
  EngStep.setEng (fun _ => rfl) (.irq _ false) ch'

theorem portIrqAck_engStep (ch : Channel) (s : State) (ch' : Channel) :
    EngStep c ch' (s.eng ch') ((portIrqAck ch s).eng ch') :=
  EngStep.setEng (fun _ => rfl) (.ack _) ch'

theorem orFault_engStep {π : Type} {a : Agent} {e : Except FaultReason State} {k : State → Progress π}
    (h : ∀ s', e = .ok s' → EngStep c ch (s.eng ch) ((k s').state.eng ch)) :
    EngStep c ch (s.eng ch) ((orFault a s e k).state.eng ch) := by
  unfold orFault; split
  · exact h _ rfl
  · exact .of_eq (by cases ch <;> rfl)

end

/-! ## Operations -/

theorem acquireLock_eng {π : Type} (a : Agent) (c : Channel) (s : State) (p : π) (ch : Channel) :
    (acquireLock a c s p).state.eng ch = s.eng ch := by
  rcases acquireLock_cases a c s p with ⟨-, h⟩ | ⟨-, -, h⟩ <;> simp [h, Progress.state]

theorem drainStep_engStep {s : State} (hc : ConfigFacts s.cfg) (a : Agent) (b : Nat) (pos : DrainPos) (ch : Channel) :
    EngStep s.cfg ch (s.eng ch) ((drainStep a b pos s).state.eng ch) := by
  cases pos with
  | acquire => exact .of_eq (acquireLock_eng a .rx s _ ch)
  | checkLife => exact .of_eq (by simp only [drainStep]; split <;> simp only [Progress.state, release_eng])
  | finish w => exact .of_eq (release_eng _ _ _)
  | writeTail w =>
    simp only [drainStep, drainWriteTail]
    split
    · exact .of_eq (by cases ch <;> rfl)
    · exact orFault_engStep fun s' h => portSetTaildesc_engStep hc h ch
  | loop w =>
    refine .of_eq ?_
    simp only [drainStep, drainLoop, orFault]
    split
    · rfl
    · split
      · cases ch <;> rfl
      · split
        · cases ch <;> rfl
        · split
          · split
            · rename_i h
              obtain ⟨-, -, -, -, rfl⟩ := drainOne_ok h
              exact (setRing_eng _ _ _ _).trans (by cases ch <;> rfl)
            · cases ch <;> rfl
          · rfl

theorem sendStep_engStep {s : State} (hc : ConfigFacts s.cfg) (a : Agent) (len : Nat) (payload : List Byte)
    (pos : SendPos) (ch : Channel) : EngStep s.cfg ch (s.eng ch) ((sendStep a len payload pos s).state.eng ch) := by
  cases pos with
  | acquire => exact .of_eq (acquireLock_eng a .tx s _ ch)
  | checkLife => exact .of_eq (by simp only [sendStep]; split <;> simp only [Progress.state, release_eng])
  | finish => exact .of_eq (release_eng _ _ _)
  | writeTail t => exact orFault_engStep fun s' h => portSetTaildesc_engStep hc h ch
  | reclaim =>
    refine .of_eq ?_
    simp only [sendStep, sendReclaim]
    split
    · cases ch <;> rfl
    · split
      · cases ch <;> rfl
      · split
        · exact setRing_eng _ _ _ _
        · rfl
  | post =>
    refine .of_eq ?_
    simp only [sendStep, sendPost]
    split
    · cases ch <;> rfl
    · split
      · exact release_eng _ _ _
      · split
        · cases ch <;> rfl
        · split
          · cases ch <;> rfl
          · exact setRing_eng _ _ _ _

theorem teardownBoth_eng {s t : State} (ch : Channel)
    (h : teardownBoth s = .ok t ∨ ∃ f, teardownBoth s = .error (f, t)) : t.eng ch = s.eng ch := by
  unfold teardownBoth at h
  split at h
  · obtain h | ⟨f, h⟩ := h <;> cases h
    rfl
  · rename_i s1 h1
    split at h
    · obtain h | ⟨f, h⟩ := h <;> cases h
      exact teardownRing_eng h1 ch
    · rename_i s2 h2
      have h2t : s2 = t := by obtain h | ⟨f, h⟩ := h <;> cases h; rfl
      subst h2t
      rw [teardownRing_eng h2, teardownRing_eng h1]

theorem bringupRollback_eng (a : Agent) (s : State) (ch : Channel) : (bringupRollback a s).state.eng ch = s.eng ch := by
  have key : ∀ t, (teardownBoth ((s.setToken .tx false).setToken .rx false) = .ok t ∨
      ∃ f, teardownBoth ((s.setToken .tx false).setToken .rx false) = .error (f, t)) → t.eng ch = s.eng ch :=
    fun t h => by simpa only [setToken_eng] using teardownBoth_eng ch h
  unfold bringupRollback
  split
  · rename_i f s' h
    exact (show State.eng (State.raiseFault _ _ _) ch = State.eng _ ch by cases ch <;> rfl).trans (key s' (.inr ⟨f, h⟩))
  · rename_i s' h
    exact (show State.eng { s' with life := .uninitialized, lcBusy := false } ch = State.eng s' ch by
      cases ch <;> rfl).trans (key s' (.inl h))

theorem bringupStep_engStep {s : State} (hc : ConfigFacts s.cfg) (a : Agent) (pos : BringupPos) (ch : Channel) :
    EngStep s.cfg ch (s.eng ch) ((bringupStep a pos s).state.eng ch) := by
  cases pos with
  | initTx =>
    refine .of_eq ?_
    simp only [bringupStep]
    split
    · rename_i h; exact ringInitialize_eng h ch
    · rename_i s' h
      exact (show State.eng { s' with lcBusy := false } ch = State.eng s' ch by cases ch <;> rfl).trans
        ((ringInitialize_allocationError h).eng ch)
    · cases ch <;> rfl
  | initRx =>
    refine .of_eq ?_
    simp only [bringupStep, bringupInitRx]
    split
    · rename_i h; exact ringInitialize_eng h ch
    · cases ch <;> rfl
    · rename_i s' h
      have hf := (ringInitialize_allocationError h).eng ch
      split
      · exact (show State.eng (State.raiseFault _ _ _) ch = State.eng _ ch by cases ch <;> rfl).trans hf
      · rename_i s2 h2
        exact (show State.eng { s2 with lcBusy := false } ch = State.eng s2 ch by cases ch <;> rfl).trans
          ((teardownRing_eng h2 ch).trans hf)
  | rollback => exact .of_eq (bringupRollback_eng a s ch)
  | curTx | curRx =>
    simp only [bringupStep, bringupSetCur]
    split
    · exact .of_eq (by cases ch <;> rfl)
    · exact orFault_engStep fun s' h => portSetCurdesc_engStep hc h ch
  | writeTail =>
    simp only [bringupStep]
    split
    · exact .of_eq (by cases ch <;> rfl)
    · exact orFault_engStep fun s' h => portSetTaildesc_engStep hc h ch
  | startEng c => cases c <;> exact portStart_engStep _ s ch
  | control c okTx running =>
    refine .of_eq ?_
    cases c
    · rfl
    · simp only [bringupStep]; split <;> rfl
  | tokenTx | tokenRx => exact .of_eq (setToken_eng _ _ _ _)
  | enable c => exact portIrqEnable_engStep c s ch
  | rollDisable c => exact portIrqDisable_engStep c s ch
  | rollStop c => cases c <;> exact portStop_engStep _ s ch
  | ready | run | finish => exact .of_eq (by cases ch <;> rfl)
  | status => exact .same _

theorem shutdownFree_eng {ch : Channel} {b : Bool} {s t : State} (h : shutdownFree ch b s = .ok t) (ch' : Channel) :
    t.eng ch' = s.eng ch' := by
  unfold shutdownFree at h
  split at h
  · split at h
    · cases h
    · rename_i s' h'
      cases h
      exact (show State.eng { s' with tdLog := _ } ch' = State.eng s' ch' by cases ch' <;> rfl).trans
        (teardownRing_eng h' ch')
  · cases h; cases ch' <;> rfl

theorem shutdownStep_engStep (a : Agent) (pos : ShutdownPos) (s : State) (ch : Channel) :
    EngStep s.cfg ch (s.eng ch) ((shutdownStep a pos s).state.eng ch) := by
  cases pos with
  | teardown hTx hRx =>
    refine .of_eq ?_
    simp only [shutdownStep, shutdownTeardown, orFault]
    split
    · rename_i s1 h1
      have e1 := shutdownFree_eng h1 ch
      split
      · rename_i s2 h2; exact (shutdownFree_eng h2 ch).trans e1
      · exact (show State.eng (State.raiseFault _ _ _) ch = State.eng _ ch by cases ch <;> rfl).trans e1
    · cases ch <;> rfl
  | lock c => exact .of_eq (acquireLock_eng a c s _ ch)
  | unlock c => exact .of_eq (by cases c <;> exact release_eng s _ ch)
  | disable c => exact portIrqDisable_engStep c s ch
  | stop c => cases c <;> exact portStop_engStep _ s ch
  | quiesce c p h =>
    refine .of_eq ?_
    simp only [shutdownStep, quiesceStep]
    split
    · rfl
    · split <;> rfl
  | tokens h1 h2 => exact .of_eq (by simp only [shutdownStep, Progress.state, setToken_eng])
  | finish => exact .of_eq (by cases ch <;> rfl)

/-! ## Agents -/

theorem settleCaller_eng {π : Type} (k : Nat) (f : π → CallerOp) (p : Progress π) (ch : Channel) :
    (settleCaller k f p).eng ch = p.state.eng ch := by
  cases p <;> cases ch <;> rfl

theorem callerStep_engStep {s : State} (hc : ConfigFacts s.cfg) (k : Nat) (ch : Channel) :
    EngStep s.cfg ch (s.eng ch) ((callerStep k s).eng ch) := by
  unfold callerStep
  split
  · exact .same _
  · rw [settleCaller_eng]; exact drainStep_engStep hc _ _ _ ch
  · rw [settleCaller_eng]; exact sendStep_engStep hc _ _ _ _ ch
  · rw [settleCaller_eng]; exact bringupStep_engStep hc _ _ ch
  · rw [settleCaller_eng]; exact shutdownStep_engStep _ _ s ch

theorem setRxIrqOp_eng (s : State) (op : RxIrqOp) (ch : Channel) : (s.setRxIrqOp op).eng ch = s.eng ch := by
  cases ch <;> rfl

theorem setTxIrqOp_eng (s : State) (op : TxIrqOp) (ch : Channel) : (s.setTxIrqOp op).eng ch = s.eng ch := by
  cases ch <;> rfl

theorem setPollOp_eng (s : State) (op : PollOp) (ch : Channel) : (s.setPollOp op).eng ch = s.eng ch := by
  cases ch <;> rfl

theorem irqStep_engStep {c : Config} (l : Channel) (s : State) (ch : Channel) :
    EngStep c ch (s.eng ch) ((irqStep l s).eng ch) := by
  cases l with
  | tx =>
    simp only [irqStep, txIrqStep]
    split
    · exact .same _
    · rw [setTxIrqOp_eng]; exact portIrqAck_engStep .tx s ch
    · exact .of_eq (by cases ch <;> rfl)
  | rx =>
    simp only [irqStep, rxIrqStep]
    split
    · exact .same _
    · exact .of_eq (by split <;> exact setRxIrqOp_eng _ _ _)
    · exact .of_eq (by cases ch <;> rfl)
    · rw [setRxIrqOp_eng]; exact portIrqAck_engStep .rx s ch
    · rw [setRxIrqOp_eng]; exact portIrqDisable_engStep .rx s ch
    · exact .of_eq (by cases ch <;> rfl)

theorem pollAfterDrain_eng (c : Code) (w : Nat) (s : State) (ch : Channel) :
    (pollAfterDrain c w s).eng ch = s.eng ch := by
  unfold pollAfterDrain; split
  · cases ch <;> rfl
  · split <;> cases ch <;> rfl

theorem pollStep_engStep {s : State} (hc : ConfigFacts s.cfg) (ch : Channel) :
    EngStep s.cfg ch (s.eng ch) ((pollStep s).eng ch) := by
  unfold pollStep
  split
  · exact .same _
  · rename_i pos _
    have h := drainStep_engStep hc .defer s.cfg.budget pos ch
    split <;> rename_i hp <;> rw [hp] at h
    · rw [setPollOp_eng]; exact h
    · exact h
    · rw [pollAfterDrain_eng]; exact h
    · exact h
  · rw [setPollOp_eng]; exact portIrqEnable_engStep .rx s ch
  · exact .of_eq (by cases ch <;> rfl)

theorem writeCompletion_eng (ch ch' : Channel) (r : Ring) (d : Desc) (st : Status) (s : State) :
    (writeCompletion ch r d st s).eng ch' =
      if ch' = ch then advanceEngine (s.cfg.cap ch) (s.eng ch) else s.eng ch' := by
  rw [writeCompletion, setEng_eng, setRing_eng]

theorem completeEnabled_facts {s : State} {ch : Channel} (h : s.completeEnabled ch = true) :
    (s.eng ch).halted = false ∧ windowEmpty (s.cfg.cap ch) (s.eng ch) = false := by
  simp only [State.completeEnabled, State.engRunning, Bool.and_eq_true, Bool.not_eq_true'] at h
  exact ⟨h.1.1, h.2⟩

theorem txComplete_engStep {s : State} (he : s.completeEnabled .tx = true) (ch : Channel) :
    EngStep s.cfg ch (s.eng ch) ((txCompleteStep s).eng ch) := by
  obtain ⟨hh, hw⟩ := completeEnabled_facts he
  rcases txCompleteStep_cases s with ⟨f, h⟩ | ⟨r, d, st, s', hr, hd, ho, hst, hf, h⟩
  · rw [h]; exact .of_eq (by cases ch <;> rfl)
  · rw [h, writeCompletion_eng, hf.cfg, hf.eng, hf.eng]
    split
    · rename_i hch; subst hch; exact .complete _ hh hw
    · exact .same _

theorem rxComplete_engStep {s : State} (he : s.completeEnabled .rx = true) (ch : Channel) :
    EngStep s.cfg ch (s.eng ch) ((rxCompleteStep s).eng ch) := by
  obtain ⟨hh, hw⟩ := completeEnabled_facts he
  rcases rxCompleteStep_cases s with ⟨f, h⟩ | ⟨f, s', hf, h⟩ | ⟨r, d, st, b, s', hr, hd, ho, hst, hb, hf, h⟩
  · rw [h]; exact .of_eq (by cases ch <;> rfl)
  · rw [h]; exact .of_eq ((show State.eng (State.raiseFault _ _ _) ch = State.eng _ ch by cases ch <;> rfl).trans (hf.eng ch))
  · rw [h, writeCompletion_eng, hf.cfg, hf.eng, hf.eng]
    split
    · rename_i hch; subst hch; exact .complete _ hh hw
    · exact .same _

theorem withRet_eng (s : State) (r : Ret) (ch : Channel) : State.eng { s with ret := r } ch = s.eng ch := by
  cases ch <;> rfl

theorem portAlone_engStep {s : State} {e : Except FaultReason State} {ch : Channel} {c : Config}
    (h : ∀ s', e = .ok s' → EngStep c ch (s.eng ch) (s'.eng ch)) : EngStep c ch (s.eng ch) ((portAlone s e).eng ch) := by
  unfold portAlone; split
  · rename_i s'
    exact h s' rfl
  · exact .of_eq (by cases ch <;> rfl)

theorem internal_engStep {i : Instr} {s t : State} (hf : ConfigFacts s.cfg) (hc : i.commandClass = .internal)
    (h : exec i s = .next t) (ch : Channel) : EngStep s.cfg ch (s.eng ch) (t.eng ch) := by
  cases i <;> simp only [Instr.commandClass, reduceCtorEq] at hc <;> cases h
  case ringInit c n =>
    refine .of_eq ?_
    split
    · split
      · rename_i s' h'; rw [withRet_eng, ringInitialize_eng h']
      · rename_i s' h'; rw [withRet_eng, (ringInitialize_allocationError h').eng]
      · cases ch <;> rfl
    · cases ch <;> rfl
  case ringTeardown c =>
    refine .of_eq ?_
    split
    · rename_i s' h'; rw [withRet_eng, teardownRing_eng h']
    · cases ch <;> rfl
  case portReadStatus => exact .of_eq (by cases ch <;> rfl)
  case portReadControl => exact .of_eq (by cases ch <;> rfl)
  case portStart c => exact portStart_engStep c s ch
  case portStop c => exact portStop_engStep c s ch
  case portReset c => exact EngStep.setEng (fun _ => rfl) (.reset _) ch
  case portIrqEnable c => exact portIrqEnable_engStep c s ch
  case portIrqDisable c => exact portIrqDisable_engStep c s ch
  case portIrqAck c => exact portIrqAck_engStep c s ch
  case portSetCurdesc c i => exact portAlone_engStep fun s' h => portSetCurdesc_engStep hf h ch
  case portSetTaildesc c i => exact portAlone_engStep fun s' h => portSetTaildesc_engStep hf h ch
  case portCfgCoalesce c d th => exact portAlone_engStep fun s' h => portCfgCoalesce_engStep h ch

theorem startInstr_eng {i : Instr} {s t : State} (hc : i.commandClass = .caller) (h : startInstr i s = .next t)
    (ch : Channel) : t.eng ch = s.eng ch := by
  cases i <;> simp only [Instr.commandClass, reduceCtorEq] at hc <;> cases h
  case ringIsComplete => unfold queryStatus; split <;> [skip; split] <;> cases ch <;> rfl
  case ringLength => unfold queryStatus; split <;> [skip; split] <;> cases ch <;> rfl
  case txSend => unfold startSend; split <;> cases ch <;> rfl
  case devBringup => unfold startBringup; split <;> cases ch <;> rfl
  case devShutdown => unfold startShutdown; split <;> cases ch <;> rfl
  all_goals cases ch <;> rfl

/-- Every atomic step is a step of each engine. -/
theorem Atomic.engStep {s t : State} (hc : ConfigFacts s.cfg) (h : Atomic s t) (ch : Channel) :
    EngStep s.cfg ch (s.eng ch) (t.eng ch) := by
  cases h with
  | pop => exact .of_eq (by unfold State.popChoice; split <;> cases ch <;> rfl)
  | select => exact .of_eq (by cases ch <;> rfl)
  | dropTrace => exact .of_eq (by cases ch <;> rfl)
  | internal _ i hi h => exact internal_engStep hc hi h ch
  | refuse => exact .of_eq (by cases ch <;> rfl)
  | start _ cmd i _ _ ha h => exact .of_eq (startInstr_eng (admission_caller ha).2.2 h ch)
  | caller k _ => exact callerStep_engStep hc k ch
  | entry c _ => exact .of_eq (by cases c <;> cases ch <;> rfl)
  | irq c _ => exact irqStep_engStep c s ch
  | pollStart => exact .of_eq (by cases ch <;> rfl)
  | poll => exact pollStep_engStep hc ch
  | txComplete h => exact txComplete_engStep h ch
  | rxComplete h => exact rxComplete_engStep h ch
  | delay c h =>
    simp only [State.delayEnabled, State.engRunning, Bool.and_eq_true, Bool.not_eq_true'] at h
    exact EngStep.setEng (fun _ => rfl) (.delay _ h.1.1.1) ch
  | halt c h =>
    simp only [State.haltEnabled, State.engRunning, Bool.and_eq_true, Bool.not_eq_true'] at h
    exact EngStep.setEng (fun _ => rfl) (.halt _ h.1.1 h.2) ch
  | fail c h =>
    simp only [State.failEnabled, State.engRunning, Bool.and_eq_true, Bool.not_eq_true'] at h
    exact EngStep.setEng (fun _ => rfl) (.fail _ h.1.1 h.2) ch

end Sys2Proof.Machine
end

