-- ==== Sys2Proof/Tests/Slice0.lean ====
section
/-! SUPPORT. Tests: the check of well-formedness refuses each ill-formed term, every command's word decodes, one step
of each command does what the spec's vectors say, and for every statement with hypotheses a state and operands that
meet them. Expected results are from spec/95_test_vectors.md or worked out by hand from the rule named. -/

namespace Sys2Proof.Tests

open Sys2Proof.Machine

/-! ## Well-formedness -/

theorem test_wf_next : Instr.wellFormed Config.t 0 (.ringNext .rx 8) = false
    ∧ Instr.wellFormed Config.t 0 (.ringNext .rx 7) = true := by decide

theorem test_wf_isComplete : Instr.wellFormed Config.t 0 (.ringIsComplete .tx 4) = false
    ∧ Instr.wellFormed Config.t 0 (.ringIsComplete .tx 3) = true := by decide

theorem test_wf_length : Instr.wellFormed Config.t 0 (.ringLength .rx 8) = false
    ∧ Instr.wellFormed Config.t 0 (.ringLength .rx 0) = true := by decide

theorem test_wf_send : Instr.wellFormed Config.t 10 (.txSend 64) = false
    ∧ Instr.wellFormed Config.t 64 (.txSend 64) = true
    ∧ Instr.wellFormed Config.t 1025 (.txSend 1025) = true := by decide

theorem test_config_wf : Config.t.wf = true := by decide

/-- One configuration for each constraint of R5, that one broken. -/
theorem test_config_ill_formed : ([
    { Config.t with nTx := 2, addrTx := [1, 2] },
    { Config.t with nRx := 1, addrRx := [1] },
    { Config.t with bufSize := 0 },
    { Config.t with bufSize := 2 ^ 23 },
    { Config.t with maxFrame := 0 },
    { Config.t with maxFrame := 2049 },
    { Config.t with budget := 0 },
    { Config.t with budget := 2 ^ 23 },
    { Config.t with addrW := 0, addrTx := [0], addrRx := [0] },
    { Config.t with addrTx := [1, 2, 3] },
    { Config.t with addrTx := [1, 2, 3, 1] },
    { Config.t with addrTx := [1, 2, 3, 2 ^ 32] },
    { Config.t with addrRx := [] },
    { Config.t with addrRx := [1, 2, 3, 4, 5, 6, 7, 7] },
    { Config.t with addrRx := [1, 2, 3, 4, 5, 6, 7, 2 ^ 32] },
    { Config.t with coalThreshReset := 0 },
    { Config.t with quiescePolls := 0 },
    { Config.t with numCallers := 0 }].all fun c => !c.wf) = true := by decide

/-! ## Decoding: one word for every command, from R102, R108 and V-ENC-1, V-ENC-2 -/

theorem test_decode_ringInit : decode 0x01000004#32 = .command (.ringInit .tx 4) := by decide
theorem test_decode_ringTeardown : decode 0x02800000#32 = .command (.ringTeardown .rx) := by decide
theorem test_decode_ringNext : decode 0x03800007#32 = .command (.ringNext .rx 7) := by decide
theorem test_decode_ringIsComplete : decode 0x04800005#32 = .command (.ringIsComplete .rx 5) := by decide
theorem test_decode_ringLength : decode 0x05000001#32 = .command (.ringLength .tx 1) := by decide
theorem test_decode_rxDrain : decode 0x107FFFFF#32 = .command (.rxDrain 8388607) := by decide
theorem test_decode_rxIrq : decode 0x11000000#32 = .command .rxIrq := by decide
theorem test_decode_rxPoll : decode 0x12000000#32 = .command .rxPoll := by decide
theorem test_decode_txSend : decode 0x200007D0#32 = .command (.txSend 2000) := by decide
theorem test_decode_txIrq : decode 0x21000000#32 = .command .txIrq := by decide
theorem test_decode_devBringup : decode 0x30000000#32 = .command .devBringup := by decide
theorem test_decode_devShutdown : decode 0x31000000#32 = .command .devShutdown := by decide
theorem test_decode_portReadStatus : decode 0x40000000#32 = .command (.portReadStatus .tx) := by decide
theorem test_decode_portReadControl : decode 0x41800000#32 = .command (.portReadControl .rx) := by decide
theorem test_decode_portStart : decode 0x42000000#32 = .command (.portStart .tx) := by decide
theorem test_decode_portStop : decode 0x43800000#32 = .command (.portStop .rx) := by decide
theorem test_decode_portReset : decode 0x44000000#32 = .command (.portReset .tx) := by decide
theorem test_decode_portIrqEnable : decode 0x45800000#32 = .command (.portIrqEnable .rx) := by decide
theorem test_decode_portIrqDisable : decode 0x46000000#32 = .command (.portIrqDisable .tx) := by decide
theorem test_decode_portIrqAck : decode 0x47800000#32 = .command (.portIrqAck .rx) := by decide
theorem test_decode_portSetCurdesc : decode 0x48000000#32 = .command (.portSetCurdesc .tx 0) := by decide
theorem test_decode_portSetTaildesc : decode 0x49800006#32 = .command (.portSetTaildesc .rx 6) := by decide
theorem test_decode_portCfgCoalesce : decode 0x4AFFFFFF#32 = .command (.portCfgCoalesce .rx 32767 255) := by decide

/-- The reserved opcodes of V-ENC-1. -/
theorem test_decode_reserved : ([0x00000000#32, 0x06000000#32, 0x0F000000#32, 0x13000000#32, 0x1F000000#32,
    0x22000000#32, 0x2F000000#32, 0x32000000#32, 0x3F000000#32, 0x4B000000#32, 0xFFFFFFFF#32].all
    fun w => decide (decode w = .reservedOpcode)) = true := by decide

/-- The malformed words of V-ENC-1. -/
theorem test_decode_malformed : ([0x10800002#32, 0x20800040#32, 0x30000001#32, 0x30800000#32, 0x11000001#32,
    0x40000001#32].all fun w => decide (decode w = .malformedCommand)) = true := by decide

/-- The words of V-ENC-2 from their assembler lines' commands. -/
theorem test_encode : encode (.ringIsComplete .rx 5) = 0x04800005#32 ∧ encode (.rxDrain 100) = 0x10000064#32
    ∧ encode (.txSend 1024) = 0x20000400#32 ∧ encode (.portCfgCoalesce .tx 3 1) = 0x4A000301#32 := by decide

/-- The response words of V-ENC-3. -/
theorem test_responses : respWord .ok 1024 = 0x00000400#32 ∧ respWord .ok 8388607 = 0x007FFFFF#32
    ∧ respWord .allocationError 0 = 0x10000000#32 ∧ respWord .deviceStartError 0 = 0x20000000#32
    ∧ respWord .ringFull 0 = 0x30000000#32 ∧ respWord .invalidLength 0 = 0x40000000#32
    ∧ respWord .channelNotReady 0 = 0x50000000#32 ∧ respWord .notHandled 0 = 0x60000000#32 := by decide

/-! ## States for the tests and witnesses -/

/-- A configuration at the least capacities R5 allows. -/
def cfg : Config where
  nTx := 3
  nRx := 2
  bufSize := 4
  maxFrame := 3
  budget := 2
  addrW := 8
  errW := 2
  addrTx := [0x10, 0x11, 0x12]
  addrRx := [0x20, 0x21]
  coalThreshReset := 1
  coalDelayReset := 0
  quiescePolls := 2
  deviceMayFail := false
  numCallers := 1

/-- Every draw a bring-up of `cfg` makes succeeds. -/
def goodDraws : Draws := { Draws.none with
  alloc := [some 0, some 16, some 20, some 24, some 0, some 32, some 36]
  startOk := [true, true] }

/-- Reset, with a program. -/
def atReset (program : List Command) (draws : Draws) : State := State.resetWith cfg [program] [] draws

/-- Both rings as `initialize` leaves them. -/
def txRing : Ring := initRing cfg .tx 0 [16, 20, 24]
def rxRing : Ring := initRing cfg .rx 4 [32, 36]

/-- After a bring-up that succeeded: the values of R222's example, on `cfg`. -/
def running : State := { atReset [] Draws.none with
  life := .running
  chanTx := { ring := some txRing, lock := .free, irqToken := true }
  chanRx := { ring := some rxRing, lock := .free, irqToken := true }
  engTx := { engineReset cfg with runStop := true, irqEn := true, halted := false }
  engRx := { engineReset cfg with runStop := true, irqEn := true, halted := false, tailValid := true }
  allocated := [0, 1, 2, 3, 4, 5, 6]
  nextHandle := 7 }

/-- A descriptor the engine has completed with the frame `f`. -/
def completed (h : Nat) (f : List Byte) : Desc where
  own := .completed
  ctrl := { len := 4, sop := false, eop := false }
  st := { cmplt := true, err := 0, len := f.length }
  buf := { handle := h, devAddr := 12 + 4 * h, bytes := Memory.writeFrom [] 0 f }

/-- `running`, with descriptor 0 of the receive ring completed and both pending bits of a completion. -/
def received : State := { running with
  chanRx := { running.chanRx with ring := some (rxRing.setDesc 0 (completed 5 [7, 8])) }
  engRx := { running.engRx with hwCur := 1, iocPend := true } }

/-- The transmit ring after one send of the bytes 7, 8. -/
def sentRing : Ring := { txRing.setDesc 0
  { own := .posted
    ctrl := { len := 2, sop := true, eop := true }
    st := clearedStatus
    buf := { handle := 1, devAddr := 16, bytes := [(0, 7), (1, 8)] } } with tail := 1 }

/-- `running`, after that send. -/
def sent : State := { running with
  chanTx := { running.chanTx with ring := some sentRing }
  engTx := { running.engTx with tailValid := true } }

/-- The transmit ring full: two of three descriptors posted. -/
def fullRing : Ring := { sentRing.setDesc 1
  { own := .posted
    ctrl := { len := 1, sop := true, eop := true }
    st := clearedStatus
    buf := { handle := 2, devAddr := 20, bytes := [(0, 9)] } } with tail := 2 }

/-- `running`, with a program for `CALLER[0]`. -/
def runningWith (program : List Command) : State :=
  { running with callers := [callerReset program] }

/-- The same state with another schedule. -/
def sched (cs : List Choice) (s : State) : State := { s with schedule := cs }

/-- What one field of the next state is, none where the step answers no next state. -/
def after {α : Type} (f : State → α) : Host.Outcome State Fault Refusal → Option α
  | .next t => some (f t)
  | .fault _ => none
  | .refused _ => none

/-! ## One step of each command -/

theorem test_ringInit :
    after (fun s => ((s.ring .rx).map fun r => (r.curr, r.tail, r.desc.map Desc.own), s.allocated))
      (exec (.ringInit .rx 2) (atReset [] goodDraws))
      = some (some (0, 0, [.posted, .posted]), [0, 1, 2]) := by decide

/-- The rollback of R131: the third allocation fails. -/
theorem test_ringInit_rollback :
    after (fun s => (s.chanTx.ring, s.allocated, s.ret))
      (exec (.ringInit .tx 3) (atReset [] { Draws.none with alloc := [some 0, some 16, none] }))
      = some (none, [], .word 0x10000000#32) := by decide

/-- R72, R329: the second buffer answered overlaps the first, the first one at 20 a buffer of the other ring. -/
theorem test_ringInit_overlap :
    after (fun s => (s.chanTx.ring, s.allocated, s.ret))
      (exec (.ringInit .tx 3) (atReset [] { Draws.none with alloc := [some 0, some 16, some 19, some 24] }))
      = some (none, [], .word 0x10000000#32)
    ∧ after (fun s => (s.chanRx.ring, s.draws.alloc))
      (exec (.ringInit .rx 2) { running with chanRx := chanReset, draws := { Draws.none with alloc := [some 0, some 23] } })
      = some (none, []) := by decide

theorem test_ringTeardown :
    after (fun s => (s.chanTx.ring, s.allocated)) (exec (.ringTeardown .tx) running)
      = some (none, [4, 5, 6]) := by decide

/-- R138: the receive engine runs with a window. -/
theorem test_ringTeardown_active :
    after (fun s => (s.chanRx.ring.isSome, s.faults)) (exec (.ringTeardown .rx) running)
      = some (true, [.teardownWhileActive .rx]) := by decide

theorem test_ringNext :
    after (fun s => (s.caller 0).resp) (exec (.ringNext .tx 2) running) = some [0x00000000#32] := by decide

theorem test_ringIsComplete :
    after (fun s => (s.caller 0).resp) (exec (.ringIsComplete .rx 0) received) = some [0x00000001#32] := by decide

theorem test_ringIsComplete_noRing :
    after (fun s => ((s.caller 0).resp, (s.caller 0).pc)) (exec (.ringIsComplete .rx 0) (atReset [] Draws.none))
      = some ([0x50000000#32], 1) := by decide

theorem test_ringLength :
    after (fun s => (s.caller 0).resp) (exec (.ringLength .rx 0) received) = some [0x00000002#32] := by decide

theorem test_rxDrain :
    after (fun s => (s.sinkLog, s.engRx.hwTail, (s.caller 0).resp, s.chanRx.lock)) (exec (.rxDrain 5) received)
      = some ([([7, 8], 2)], 1, [0x00000001#32], .free) := by decide

/-- Budget 0 (R169): nothing delivered, the tail register rewritten. -/
theorem test_rxDrain_zero :
    after (fun s => (s.sinkLog, s.engRx.hwTail, (s.caller 0).resp)) (exec (.rxDrain 0) received)
      = some ([], 0, [0x00000000#32]) := by decide

theorem test_rxIrq :
    after (fun s => (s.engRx.irqEn, s.engRx.iocPend, s.rxMode, s.rxSched, s.irqRx.resp)) (exec .rxIrq received)
      = some (false, false, .polling, true, [0x00000000#32]) := by decide

theorem test_rxIrq_notHandled :
    after (fun s => (s.engRx.irqEn, s.rxSched, s.irqRx.resp)) (exec .rxIrq running)
      = some (true, false, [0x60000000#32]) := by decide

theorem test_rxPoll :
    after (fun s => (s.sinkLog, s.rxSched, s.rxMode, s.engRx.irqEn, s.defer.resp))
      (exec .rxPoll { received with
        rxSched := true
        rxMode := .polling
        engRx := { received.engRx with irqEn := false } })
      = some ([([7, 8], 2)], false, .interrupting, true, [0x00000001#32]) := by decide

theorem test_txSend :
    after (fun s => (s.chanTx.ring, s.engTx.hwTail, s.engTx.tailValid, (s.caller 0).resp))
      (exec (.txSend 2) (runningWith [{ word := 0x20000002#32, payload := [7, 8, 9] }]))
      = some (some sentRing, 0, true, [0x00000002#32]) := by decide

theorem test_txSend_tooLong :
    after (fun s => (s.chanTx.ring, (s.caller 0).resp)) (exec (.txSend 4) running)
      = some (some txRing, [0x40000000#32]) := by decide

theorem test_txIrq :
    after (fun s => (s.engTx.iocPend, s.engTx.irqEn, s.irqTx.resp))
      (exec .txIrq { running with engTx := { running.engTx with iocPend := true } })
      = some (false, true, [0x00000000#32]) := by decide

/-- R222's example. -/
theorem test_devBringup :
    after (fun s => { s with callers := [], draws := Draws.none }) (exec .devBringup (atReset [] goodDraws))
      = some { running with callers := [] } := by decide

theorem test_devBringup_startError :
    after (fun s => (s.life, s.chanTx.ring, s.allocated, (s.caller 0).resp))
      (exec .devBringup (atReset [] { goodDraws with startOk := [true, false] }))
      = some (.uninitialized, none, [], [0x20000000#32]) := by decide

/-- R227's example: both engines have halted. -/
theorem test_devShutdown :
    after (fun s => (s.life, s.tdLog, s.allocated, (s.caller 0).resp)) (exec .devShutdown { running with
      engTx := { running.engTx with halted := true }
      engRx := { running.engRx with halted := true } })
      = some (.stopped, [.freed .tx, .freed .rx], [], [0x00000000#32]) := by decide

/-- R228: the engines never halt, so both rings are leaked. -/
theorem test_devShutdown_leaks :
    after (fun s => (s.tdLog, s.allocated)) (exec .devShutdown running)
      = some ([.leaked .tx, .leaked .rx], [0, 1, 2, 3, 4, 5, 6]) := by decide

/-- V-PORT-1. -/
theorem test_portReads :
    after State.ret (exec (.portReadStatus .tx) (atReset [] Draws.none)) = some (.status false false false false)
    ∧ after State.ret (exec (.portReadControl .rx) (atReset [] Draws.none)) = some (.control false false 1 0) := by
  decide

/-- V-PORT-2. -/
theorem test_portStart :
    after (fun s => (s.engTx.runStop, s.engTx.halted))
      (exec (.portStart .tx) (atReset [] { Draws.none with startOk := [false] })) = some (true, true)
    ∧ after (fun s => (s.engTx.runStop, s.engTx.halted)) (exec (.portStart .tx) (atReset [] goodDraws))
      = some (true, false) := by decide

/-- V-PORT-3. -/
theorem test_portStop :
    after (fun s => (s.engRx.runStop, s.engRx.halted)) (exec (.portStop .rx) running) = some (false, false) := by
  decide

/-- V-PORT-8. -/
theorem test_portReset : after State.engRx (exec (.portReset .rx) received) = some (engineReset cfg) := by decide

/-- V-PORT-6. -/
theorem test_portIrq :
    after (fun s => s.line .rx) (exec (.portIrqEnable .rx) received) = some true
    ∧ after (fun s => (s.line .rx, s.engRx.iocPend)) (exec (.portIrqDisable .rx) received) = some (false, true)
    ∧ after (fun s => (s.line .rx, s.engRx.iocPend)) (exec (.portIrqAck .rx) received) = some (false, false) := by
  decide

/-- V-PORT-4. -/
theorem test_portSetCurdesc :
    after (fun s => (s.engRx.hwCur, s.engRx.tailValid, s.window .rx))
      (exec (.portSetCurdesc .rx 0) { received with engRx := { received.engRx with halted := true } })
      = some (0, false, [])
    ∧ after (fun s => (s.engRx.hwCur, s.faults)) (exec (.portSetCurdesc .rx 0) received)
      = some (1, [.curDescWhileRunning .rx]) := by decide

/-- V-PORT-5, on configuration T: from `hwCur` 3 and 7. -/
theorem test_portSetTaildesc :
    after (fun s => s.window .rx) (exec (.portSetTaildesc .rx 0)
      { State.reset with engRx := { State.reset.engRx with hwCur := 3 } }) = some [3, 4, 5, 6, 7, 0]
    ∧ after (fun s => s.window .rx) (exec (.portSetTaildesc .rx 6)
      { State.reset with engRx := { State.reset.engRx with hwCur := 7 } }) = some [] := by decide

/-- V-PORT-7. -/
theorem test_portCfgCoalesce :
    after (fun s => (s.engTx.coalDelay, s.engTx.coalThresh)) (exec (.portCfgCoalesce .tx 3 1) running) = some (3, 1)
    ∧ after State.faults (exec (.portCfgCoalesce .rx 5 0) running) = some [.badThreshold .rx] := by decide

/-- R281's step, on `sent`. -/
theorem test_txComplete :
    after (fun s => (s.wireLog, s.engTx.hwCur, s.engTx.iocPend)) (step (sched [.txComplete] sent))
      = some ([[7, 8]], 1, true) := by decide

/-- Words placed where the next step fetches them run as the first instruction after reset. -/
theorem test_withFetchWord :
    after (fun s => (s.caller 0).resp) (step (State.reset.withFetchWord 32 0x03800007)) = some [0x00000000#32]
    ∧ after State.engTx (step (State.reset.withFetchWord 32 0x4A000A04))
      = some { engineReset Config.t with coalDelay := 10, coalThresh := 4 } := by decide

/-! ## For every statement with hypotheses, a state and operands that meet them -/

/-- The next state of an outcome, `running` where there is none. -/
def nextOf : Host.Outcome State Fault Refusal → State
  | .next t => t
  | .fault _ => running
  | .refused _ => running

/-- The answer is a next state. -/
def isNext : Host.Outcome State Fault Refusal → Bool
  | .next _ => true
  | .fault _ => false
  | .refused _ => false

theorem eq_next {x : Host.Outcome State Fault Refusal} (h : isNext x = true) : x = .next (nextOf x) := by
  cases x with
  | next t => rfl
  | fault f => cases h
  | refused r => cases h

/-- `running`, with both interrupt lines asserted. -/
def lines : State := { running with
  engTx := { running.engTx with iocPend := true }
  engRx := { running.engRx with dlyPend := true } }

/-- A poll is scheduled and a frame has been received. -/
def scheduled : State := { received with
  rxSched := true
  rxMode := .polling
  engRx := { received.engRx with irqEn := false, iocPend := false } }

/-- A drain of `CALLER[0]` holds the receive lock. -/
def draining : State := { received with
  chanRx := { received.chanRx with lock := .held (.caller 0) }
  callers := [{ callerReset [] with op := .drain 5 (.loop 0) }] }

/-- Both descriptors of the receive ring completed. -/
def rxAll : Ring := (rxRing.setDesc 0 (completed 5 [7, 8])).setDesc 1 (completed 6 [9])

/-- `received`, with the whole ring completed. -/
def receivedAll : State := { received with chanRx := { received.chanRx with ring := some rxAll } }

/-- A stopped device with both rings freed. -/
def stoppedState : State := nextOf (exec .devShutdown { running with
  engTx := { running.engTx with halted := true }
  engRx := { running.engRx with halted := true } })

theorem witness_StepRunsFetchedCommand :
    let s := sched [.command 0] (runningWith [{ word := 0x03000002#32, payload := [] }])
    s.cfg.wf = true ∧ s.shape = true ∧ s.schedule = .command 0 :: [] ∧ s.callerReady 0 = true
    ∧ (s.caller 0).stream[(s.caller 0).pc]? = some { word := 0x03000002#32, payload := [] }
    ∧ decode 0x03000002#32 = .command (.ringNext .tx 2)
    ∧ Instr.wellFormed s.cfg 0 (.ringNext .tx 2) = true ∧ Instr.commandClass (.ringNext .tx 2) = .caller := by decide

theorem witness_StepRunsAgentCommand :
    (sched [.handle .rx] lines).cfg.wf = true ∧ (sched [.handle .rx] lines).shape = true
    ∧ (sched [.handle .rx] lines).entryEnabled .rx = true ∧ (sched [.handle .tx] lines).entryEnabled .tx = true
    ∧ (sched [.poll] scheduled).shape = true ∧ (sched [.poll] scheduled).pollEnabled = true
    ∧ decode 0x42000000#32 = .command (.portStart .tx) ∧ Instr.commandClass (.portStart .tx) = .internal
    ∧ State.traceEnabled { lines with trace := some 0x42000000#32 } = true
    ∧ decode 0x12000000#32 = .command .rxPoll ∧ Instr.commandClass .rxPoll ≠ .caller
    ∧ State.traceEnabled { scheduled with trace := some 0x12000000#32 } = true := by decide

/-- The bad commands: a reserved opcode, a malformed word, an index one past the ring, a send one byte longer than its
payload, a command of no caller. -/
theorem witness_StepRefusesBadCommand :
    ([.command 0, .start 0].all fun c => [0x06000000#32, 0x11800000#32, 0x03800002#32, 0x20000002#32, 0x42000000#32].all
      fun w => let s := sched [c] (runningWith [{ word := w, payload := [1] }])
        s.cfg.wf && s.shape && s.callerReady 0
          && decide ((s.caller 0).stream[(s.caller 0).pc]? = some { word := w, payload := [1] })) = true
    ∧ decode 0x06000000#32 = .reservedOpcode ∧ decode 0x11800000#32 = .malformedCommand
    ∧ decode 0x03800002#32 = .command (.ringNext .rx 2) ∧ Instr.wellFormed cfg 1 (.ringNext .rx 2) = false
    ∧ decode 0x20000002#32 = .command (.txSend 2) ∧ Instr.wellFormed cfg 1 (.txSend 2) = false
    ∧ decode 0x42000000#32 = .command (.portStart .tx) ∧ Instr.wellFormed cfg 1 (.portStart .tx) = true
    ∧ Instr.commandClass (.portStart .tx) ≠ .caller := by decide

theorem witness_StepRefusesIllFormedConfig :
    (State.resetWith { Config.t with nTx := 2 } [] [] Draws.none).cfg.nTx < 3 := by decide

/-- Each kind of whole operation, one that takes steps: a bring-up, both handlers, a poll. -/
theorem witness_WholeOperationIsAtomicSteps :
    (∃ t, act (.command 0) (atReset [{ word := 0x30000000#32, payload := [] }] goodDraws) = .next t
      ∧ t.life = .running)
    ∧ (∃ t, act (.handle .rx) lines = .next t ∧ t.rxSched = true)
    ∧ (∃ t, act (.handle .tx) lines = .next t ∧ t.engTx.iocPend = false)
    ∧ ∃ t, act .poll scheduled = .next t ∧ t.rxSched = false :=
  ⟨⟨_, eq_next (by decide), by decide⟩, ⟨_, eq_next (by decide), by decide⟩, ⟨_, eq_next (by decide), by decide⟩,
    ⟨_, eq_next (by decide), by decide⟩⟩

theorem witness_ResponseAdvancesPc : running.callers[0]? = some (callerReset []) ∧ 2 ^ 24 - 1 < 2 ^ 24 := by decide

theorem witness_FaultStopsAgent :
    (Choice.command 0 ≠ .trace ∧ choiceAgent (.command 0) = .caller 0)
    ∧ (Choice.advanceIrq .rx ≠ .trace ∧ choiceAgent (.advanceIrq .rx) = .irqRx)
    ∧ (Choice.advancePoll ≠ .trace ∧ choiceAgent .advancePoll = .defer)
    ∧ (Choice.txComplete ≠ .trace ∧ choiceAgent .txComplete = .engTx) := by decide

theorem witness_ResetMeetsInvariants : cfg.wf = true ∧ Config.t.wf = true := by decide

theorem witness_ResetEnablesOnlyCallers :
    (atReset [{ word := 0x30000000#32, payload := [] }] goodDraws).enabled (.start 0) = true
    ∧ (atReset [{ word := 0x30000000#32, payload := [] }] goodDraws).enabled (.command 0) = true := by decide

theorem witness_RingInitAllocates :
    let s := { running with chanRx := chanReset, draws := { Draws.none with alloc := [some 1, some 28, some 288, none] } }
    BitVec.toNat (2 : Imm) = s.cfg.cap .rx ∧ s.ring .rx = none ∧ s.holdsLock .trace = false
    ∧ [28, 288].length = s.cfg.cap .rx ∧ answersApart s.cfg s.bufAddrs [28, 288] = true
    ∧ s.draws.alloc = some 1 :: ([28, 288].map some ++ [none]) := by decide

/-- The clauses of `RingInitFails`: the first allocation fails, the last one does, the last one overlaps a buffer of the
other ring by one byte, a channel with a ring, a capacity one off. -/
theorem witness_RingInitFails :
    (let s := atReset [] { Draws.none with alloc := [none] };
      BitVec.toNat (2 : Imm) = s.cfg.cap .rx ∧ s.ring .rx = none ∧ s.holdsLock .trace = false ∧ s.allocated.Nodup
      ∧ (∀ h ∈ s.allocated, h < s.nextHandle) ∧ ([] : List Nat).length ≤ s.cfg.cap .rx
      ∧ answersApart s.cfg s.bufAddrs ([] : List Nat).tail = true
      ∧ s.draws.alloc = ([] : List Nat).map some ++ none :: [])
    ∧ ([none, some 27].all fun x =>
      let s := { running with chanRx := chanReset, draws := { Draws.none with alloc := [some 1, some 28, x] } };
      decide (s.ring .rx = none) && !s.holdsLock .trace && decide s.allocated.Nodup
      && s.allocated.all (fun h => decide (h < s.nextHandle)) && decide ([1, 28].length ≤ s.cfg.cap .rx)
      && answersApart s.cfg s.bufAddrs [28] && decide (s.draws.alloc = [1, 28].map some ++ x :: [])
      && !answersApart s.cfg s.bufAddrs ([28] ++ [27])) = true
    ∧ (BitVec.toNat (2 : Imm) = running.cfg.cap .rx ∧ (running.ring .rx).isSome = true)
    ∧ BitVec.toNat (3 : Imm) ≠ running.cfg.cap .rx := by decide

/-- The clauses of `RingTeardownFrees`: no ring; halted; no window yet; an emptied window; a window. -/
theorem witness_RingTeardownFrees :
    (atReset [] Draws.none).ring .tx = none
    ∧ running.ring .tx = some txRing ∧ (running.eng .tx).tailValid = false
    ∧ (stoppedState.eng .tx).halted = true
    ∧ received.ring .rx = some (rxRing.setDesc 0 (completed 5 [7, 8]))
    ∧ (received.eng .rx).hwCur = ((received.eng .rx).hwTail + 1) % 2
    ∧ ((running.eng .rx).halted = false ∧ (running.eng .rx).tailValid = true
      ∧ (running.eng .rx).hwCur ≠ ((running.eng .rx).hwTail + 1) % rxRing.cap) := by decide

theorem witness_RingNextWraps :
    running.cfg.wf = true ∧ BitVec.toNat (0 : Imm) < running.cfg.cap .tx
    ∧ BitVec.toNat (2 : Imm) < running.cfg.cap .tx := by decide

theorem witness_RingQueriesRead :
    (atReset [] Draws.none).ring .tx = none ∧ running.ring .rx = some rxRing
    ∧ (rxRing.desc[BitVec.toNat (0 : Imm)]?).isSome = true ∧ (rxRing.desc[BitVec.toNat (1 : Imm)]?).isSome = true := by
  decide

/-- The clauses of `BufferCopies` on a buffer of four bytes, at lengths 0 and 4, and at an unwritten byte. -/
theorem witness_BufferCopies :
    let b : Buffer := { handle := 0, devAddr := 0, bytes := [(0, 7), (1, 8), (2, 9), (3, 10)] }
    ([1, 2, 3, 4] : List Byte).length ≤ 4 ∧ ([] : List Byte).length ≤ 4
    ∧ (([7, 8, 9, 10] : List Byte).length = 4 ∧ ∀ j, j < 4 → b.bytes.read j = ([7, 8, 9, 10] : List Byte)[j]?)
    ∧ ∃ j, j < 4 ∧ (Memory.writeFrom [] 0 [7, 8, 9]).read j = none := by
  refine ⟨by decide, by decide, ⟨rfl, by decide⟩, 3, by decide, by decide⟩

theorem witness_PortStartDraws :
    (running.eng .tx).halted = false
    ∧ State.eng { stoppedState with engRx := { stoppedState.engRx with errHalt := true } } .rx
      = { stoppedState.engRx with errHalt := true }
    ∧ ((atReset [] goodDraws).eng .tx).halted = true ∧ ((atReset [] goodDraws).eng .tx).errHalt = false
    ∧ (atReset [] goodDraws).draws.startOk = true :: [true] := by decide

/-- The clauses of `PortSetCurdesc` and `PortSetTaildesc`: the last index, the first that is none, a running engine, a
window that wraps. -/
theorem witness_PortSetDesc :
    cfg.wf = true ∧ ((atReset [] Draws.none).eng .rx).halted = true ∧ BitVec.toNat (1 : Imm) < cfg.cap .rx
    ∧ cfg.cap .rx ≤ BitVec.toNat (2 : Imm) ∧ (running.eng .rx).halted = false
    ∧ (received.eng .rx).hwCur < received.cfg.cap .rx
    ∧ (received.eng .rx).hwCur ≠ (BitVec.toNat (1 : Imm) + 1) % received.cfg.cap .rx := by decide

theorem witness_PortCfgCoalesce : (1 : BitVec 8) ≠ 0 ∧ (255 : BitVec 8) ≠ 0 ∧ (0 : BitVec 8) = 0 := by decide

theorem frameAt_first : Ring.frameAt 4 rxAll 0 [7, 8] := ⟨completed 5 [7, 8], by decide⟩

theorem frameAt_second : Ring.frameAt 4 rxAll 1 [9] := ⟨completed 6 [9], by decide⟩

/-- The three ways the loop of `RxDrainDelivers` stops, on `receivedAll` with budgets 0, 1 and 3, and on `received`. -/
theorem witness_RxDrainDelivers :
    (receivedAll.cfg.wf = true ∧ receivedAll.shape = true ∧ receivedAll.callerReady receivedAll.active = true
      ∧ receivedAll.life = .running ∧ receivedAll.chanRx.lock = .free ∧ receivedAll.chanRx.ring = some rxAll)
    ∧ (0 = BitVec.toNat (0 : Imm) ∧ ∀ j f, ([] : List (List Byte))[j]? = some f → rxAll.frameAt 4 j f)
    ∧ (1 = BitVec.toNat (1 : Imm) ∧ ∀ j f, ([[7, 8]] : List (List Byte))[j]? = some f → rxAll.frameAt 4 j f)
    ∧ (2 ≤ BitVec.toNat (3 : Imm) ∧ 2 = rxAll.cap
      ∧ ∀ j f, ([[7, 8], [9]] : List (List Byte))[j]? = some f → rxAll.frameAt 4 j f)
    ∧ (1 ≤ BitVec.toNat (3 : Imm) ∧ received.chanRx.ring = some (rxRing.setDesc 0 (completed 5 [7, 8]))
      ∧ ¬ (rxRing.setDesc 0 (completed 5 [7, 8])).completeAt 1) := by
  refine ⟨by decide, ⟨rfl, fun j f h => by simp at h⟩, ⟨rfl, fun j f h => ?_⟩, ⟨by decide, rfl, fun j f h => ?_⟩,
    by decide, rfl, ?_⟩
  · rcases j with _ | j
    · obtain rfl : [7, 8] = f := by simpa using h
      exact frameAt_first
    · simp at h
  · rcases j with _ | _ | j
    · obtain rfl : [7, 8] = f := by simpa using h
      exact frameAt_first
    · obtain rfl : [9] = f := by simpa using h
      exact frameAt_second
    · simp at h
  · rintro ⟨d, hd, hc⟩
    obtain rfl := Option.some.inj hd
    cases hc

theorem witness_RxDrainNotReadyOrWaits :
    ((atReset [] Draws.none).callerReady 0 = true ∧ (atReset [] Draws.none).life ≠ .running
      ∧ (atReset [] Draws.none).chanRx.lock = .free)
    ∧ (let s := { running with chanRx := { running.chanRx with lock := .held .defer } };
      s.callerReady s.active = true ∧ s.chanRx.lock = .held .defer
        ∧ s.callers[s.active]? = some (callerReset [])) := by decide

theorem witness_RxIrqSchedulesPoll :
    (lines.isStopped .irqRx = false ∧ lines.engRx.iocPend = false ∧ lines.engRx.dlyPend = true)
    ∧ received.engRx.iocPend = true
    ∧ (running.isStopped .irqRx = false ∧ running.engRx.iocPend = false ∧ running.engRx.dlyPend = false) := by decide

/-- `RxPollDrains` below the budget (`scheduled`) and with the budget used up (both descriptors of `rxAll`). -/
theorem witness_RxPollDrains :
    (scheduled.cfg.wf = true ∧ scheduled.shape = true ∧ scheduled.isStopped .defer = false
      ∧ scheduled.life = .running ∧ scheduled.chanRx.lock = .free
      ∧ scheduled.chanRx.ring = some (rxRing.setDesc 0 (completed 5 [7, 8])) ∧ 1 ≤ scheduled.cfg.budget
      ∧ 1 ≠ scheduled.cfg.budget)
    ∧ (∀ j f, ([[7, 8]] : List (List Byte))[j]? = some f → (rxRing.setDesc 0 (completed 5 [7, 8])).frameAt 4 j f)
    ∧ ¬ (rxRing.setDesc 0 (completed 5 [7, 8])).completeAt 1
    ∧ (receivedAll.isStopped .defer = false ∧ 2 = receivedAll.cfg.budget ∧ 2 ≤ rxAll.cap) := by
  refine ⟨by decide, fun j f h => ?_, witness_RxDrainDelivers.2.2.2.2.2.2, by decide⟩
  rcases j with _ | j
  · obtain rfl : [7, 8] = f := by simpa using h
    exact ⟨completed 5 [7, 8], by decide⟩
  · simp at h

theorem witness_RxPollNotReadyOrWaits :
    (stoppedState.isStopped .defer = false ∧ stoppedState.life ≠ .running ∧ stoppedState.chanRx.lock = .free)
    ∧ draining.isStopped .defer = false ∧ draining.chanRx.lock = .held (.caller 0) := by decide

/-- A send that reclaims one descriptor: `curr` 0 completed, `tail` 2. -/
def reclaimRing : Ring := fullRing.setDesc 0 { completed 1 [7, 8] with ctrl := { len := 2, sop := true, eop := true } }

theorem reclaimRing_reclaims : reclaimRing.reclaims 1 := by
  refine ⟨fun j hj => ?_, fun h => ?_⟩
  · obtain rfl : j = 0 := by omega
    exact ⟨⟨_, rfl, rfl⟩, by decide⟩
  · decide

theorem txRing_reclaims : txRing.reclaims 0 := by
  refine ⟨fun j hj => by omega, ?_⟩
  rintro ⟨d, hd, hc⟩
  obtain rfl := Option.some.inj hd
  cases hc

theorem fullRing_reclaims : fullRing.reclaims 0 := by
  refine ⟨fun j hj => by omega, ?_⟩
  rintro ⟨d, hd, hc⟩
  obtain rfl := Option.some.inj hd
  cases hc

/-- `TxSendQueues` on an empty ring with the greatest length, and on a full one of which one descriptor is reclaimed,
with length 0. -/
theorem witness_TxSendQueues :
    (let s := runningWith [{ word := 0x20000003#32, payload := [1, 2, 3] }];
      s.cfg.wf = true ∧ s.shape = true ∧ s.callerReady s.active = true ∧ s.life = .running
      ∧ s.chanTx.lock = .free ∧ s.chanTx.ring = some txRing ∧ BitVec.toNat (3 : Imm) = s.cfg.maxFrame
      ∧ BitVec.toNat (3 : Imm) ≤ (s.payload s.active).length ∧ 0 < txRing.cap
      ∧ (txRing.tail + 1) % txRing.cap ≠ (txRing.reclaimed 0).curr
      ∧ ∃ d ∈ (txRing.reclaimed 0).desc[txRing.tail]?, d.own ≠ .posted)
    ∧ txRing.reclaims 0
    ∧ State.shape { running with chanTx := { running.chanTx with ring := some reclaimRing } } = true
    ∧ reclaimRing.reclaims 1 ∧ 1 < reclaimRing.cap
    ∧ (reclaimRing.tail + 1) % reclaimRing.cap ≠ (reclaimRing.reclaimed 1).curr
    ∧ ∃ d, (reclaimRing.reclaimed 1).desc[reclaimRing.tail]? = some d ∧ d.own ≠ .posted :=
  ⟨by decide, txRing_reclaims, by decide, reclaimRing_reclaims, by decide, by decide, _, rfl, by decide⟩

theorem witness_TxSendRingFull :
    (let s := { running with chanTx := { running.chanTx with ring := some fullRing } };
      s.cfg.wf = true ∧ s.shape = true ∧ s.callerReady s.active = true ∧ s.life = .running
      ∧ s.chanTx.lock = .free ∧ BitVec.toNat (3 : Imm) ≤ s.cfg.maxFrame ∧ 0 < fullRing.cap
      ∧ (fullRing.tail + 1) % fullRing.cap = (fullRing.reclaimed 0).curr ∧ fullRing.curr ≠ fullRing.tail)
    ∧ fullRing.reclaims 0 := ⟨by decide, fullRing_reclaims⟩

theorem witness_TxSendErrors :
    (running.callerReady running.active = true ∧ running.cfg.maxFrame < BitVec.toNat (4 : Imm))
    ∧ (stoppedState.callerReady stoppedState.active = true ∧ BitVec.toNat (3 : Imm) ≤ stoppedState.cfg.maxFrame
      ∧ stoppedState.life ≠ .running ∧ stoppedState.chanTx.lock = .free)
    ∧ (let s := { running with chanTx := { running.chanTx with lock := .held (.caller 1) } };
      s.callerReady s.active = true ∧ s.chanTx.lock = .held (.caller 1)
      ∧ s.callers[s.active]? = some (callerReset [])) := by decide

theorem witness_TxIrqAcknowledges : lines.isStopped .irqTx = false ∧ lines.engTx.iocPend = true := by decide

theorem witness_BringupSucceeds :
    let s := atReset [] goodDraws
    s.cfg.wf = true ∧ s.shape = true ∧ s.callerReady s.active = true ∧ s.lcBusy = false ∧ s.life = .uninitialized
    ∧ s.chanTx.ring = none ∧ s.chanRx.ring = none ∧ s.holdsLock (.caller s.active) = false
    ∧ s.engTx.halted = true ∧ s.engTx.errHalt = false ∧ s.engRx.halted = true ∧ s.engRx.errHalt = false
    ∧ [16, 20, 24].length = s.cfg.nTx ∧ [32, 36].length = s.cfg.nRx
    ∧ answersApart s.cfg [] ([16, 20, 24] ++ [32, 36]) = true
    ∧ s.draws.alloc = some 0 :: ([16, 20, 24].map some ++ some 0 :: ([32, 36].map some ++ []))
    ∧ s.draws.startOk = true :: true :: [] := by decide

/-- The first allocation of a bring-up fails; the last one does; the last one overlaps the transmit ring's first
buffer. -/
theorem witness_BringupAllocationError :
    (atReset [] goodDraws).allocated.Nodup
    ∧ (∀ h ∈ (atReset [] goodDraws).allocated, h < (atReset [] goodDraws).nextHandle)
    ∧ ([] : List Nat).length < cfg.nTx + 1 + (cfg.nRx + 1)
    ∧ (atReset [] { Draws.none with alloc := [none] }).draws.alloc = ([] : List Nat).map some ++ none :: []
    ∧ [0, 16, 20, 24, 0, 32].length < cfg.nTx + 1 + (cfg.nRx + 1)
    ∧ answersApart cfg [] (bufferAnswers cfg [0, 16, 20, 24, 0, 32]) = true
    ∧ ([none, some 13].all fun x => decide ((atReset [] { Draws.none with
        alloc := [some 0, some 16, some 20, some 24, some 0, some 32, x] }).draws.alloc
      = [0, 16, 20, 24, 0, 32].map some ++ x :: [])) = true
    ∧ [0, 16, 20, 24, 0, 32].length ≠ 0 ∧ [0, 16, 20, 24, 0, 32].length ≠ cfg.nTx + 1
    ∧ answersApart cfg [] (bufferAnswers cfg [0, 16, 20, 24, 0, 32] ++ [13]) = false := by decide

/-- The hypotheses of `BringupStartError` are those of `BringupSucceeds` but for the start draws. -/
theorem witness_BringupStartError :
    let s := atReset [] { goodDraws with startOk := [true, false] }
    s.callerReady s.active = true ∧ s.allocated.Nodup ∧ (∀ h ∈ s.allocated, h < s.nextHandle)
    ∧ s.draws.startOk = true :: false :: [] ∧ (true = false ∨ false = false) := by decide

/-- A bring-up whose receive engine did not start leaves the transmit engine running; the other way round it leaves the
receive engine running. -/
theorem witness_BringupRetryFaults :
    ([true, false].all fun b =>
      let s := nextOf (exec .devBringup (atReset [] { goodDraws with
        alloc := goodDraws.alloc ++ goodDraws.alloc
        startOk := [b, !b] }));
      s.cfg.wf && s.shape && s.callerReady s.active && !s.lcBusy && decide (s.life = .uninitialized)
      && decide (s.chanTx.ring = none) && decide (s.chanRx.ring = none) && !s.holdsLock (.caller s.active)
      && (s.engTx.halted == !b) && (s.engRx.halted == b) && answersApart s.cfg [] ([16, 20, 24] ++ [32, 36])
      && decide (s.draws.alloc = some 0 :: ([16, 20, 24].map some ++ some 0 :: ([32, 36].map some ++ [])))) = true := by
  decide

/-- R359: the retry faults at the first engine that still runs. -/
theorem test_bringupRetry :
    ([true, false].all fun b =>
      decide (after (fun s => (s.faults, s.life, s.isStopped (.caller 0)))
        (exec .devBringup (nextOf (exec .devBringup (atReset [] { goodDraws with
          alloc := goodDraws.alloc ++ goodDraws.alloc
          startOk := [b, !b] }))))
        = some ([.curDescWhileRunning (if b then .tx else .rx)], .ready, true))) = true := by decide

theorem witness_LifecycleRefused :
    (running.callerReady running.active = true ∧ running.life ≠ .uninitialized)
    ∧ ((atReset [] Draws.none).callerReady 0 = true ∧ (atReset [] Draws.none).life ≠ .running)
    ∧ State.lcBusy { running with lcBusy := true } = true := by decide

theorem witness_ShutdownFreesHalted :
    running.callerReady running.active = true ∧ running.lcBusy = false ∧ running.life = .running
    ∧ running.chanTx.lock = .free ∧ running.chanRx.lock = .free := by decide

/-- The descriptor of `sentRing` at 0. -/
def sentDesc : Desc :=
  { own := .posted
    ctrl := { len := 2, sop := true, eop := true }
    st := clearedStatus
    buf := { handle := 1, devAddr := 16, bytes := [(0, 7), (1, 8)] } }

/-- The clauses of `TxCompletion`: a device that may not fail, one that does not, one that does. -/
theorem witness_TxCompletion :
    (let s := sched [.txComplete] sent;
      s.cfg.wf = true ∧ s.shape = true ∧ s.completeEnabled .tx = true ∧ s.chanTx.ring = some sentRing
      ∧ sentRing.desc[s.engTx.hwCur]? = some sentDesc ∧ sentDesc.own = .posted ∧ sentDesc.ctrl.len ≠ 0
      ∧ sentDesc.ctrl.len ≤ s.cfg.bufSize
      ∧ sentDesc.buf.bytes.readFrom sentDesc.ctrl.len 0 = some [7, 8] ∧ s.cfg.deviceMayFail = false)
    ∧ (let s := sched [.txComplete] { sent with
        cfg := { cfg with deviceMayFail := true }
        draws := { Draws.none with errBits := [4, 3], txLen := [9] } };
      s.cfg.wf = true ∧ s.shape = true ∧ s.completeEnabled .tx = true ∧ s.cfg.deviceMayFail = true
      ∧ s.draws.errBits = 4 :: [3] ∧ 4 % 2 ^ s.cfg.errW = 0 ∧ 3 % 2 ^ s.cfg.errW ≠ 0
      ∧ s.draws.txLen = 9 :: []) := by decide

theorem witness_RxCompletion :
    let s := sched [.rxComplete] { running with
      cfg := { cfg with deviceMayFail := true }
      draws := { Draws.none with frame := [[1, 2, 3, 4], []], errBits := [3] } }
    s.cfg.wf = true ∧ s.shape = true ∧ s.completeEnabled .rx = true
    ∧ s.draws.frame = [1, 2, 3, 4] :: [[]] ∧ s.chanRx.ring = some rxRing
    ∧ (∃ d ∈ rxRing.desc[s.engRx.hwCur]?, d.own = .posted ∧ ([1, 2, 3, 4] : List Byte).length = d.ctrl.len
      ∧ d.ctrl.len ≤ s.cfg.bufSize)
    ∧ s.draws.errBits = 3 :: [] ∧ running.cfg.deviceMayFail = false := by decide

/-- The clauses of `EngineChecks`: no ring, a descriptor that is free, one of length zero; on either side. -/
theorem witness_EngineChecks :
    (let s := sched [.txComplete] { sent with chanTx := chanReset };
      s.cfg.wf = true ∧ s.shape = true ∧ s.completeEnabled .tx = true ∧ s.chanTx.ring = none)
    ∧ (let s := sched [.txComplete] { sent with chanTx := { sent.chanTx with ring := some txRing } };
      s.shape = true ∧ s.completeEnabled .tx = true
      ∧ ∃ d ∈ txRing.desc[s.engTx.hwCur]?, d.own ≠ .posted)
    ∧ (let r := sentRing.setDesc 0 { sentDesc with ctrl := { len := 0, sop := true, eop := true } };
      let s := sched [.txComplete] { sent with chanTx := { sent.chanTx with ring := some r } };
      s.shape = true ∧ s.completeEnabled .tx = true
      ∧ ∃ d ∈ r.desc[s.engTx.hwCur]?, d.own = .posted ∧ d.ctrl.len = 0)
    ∧ (let s := sched [.rxComplete] { running with chanRx := { running.chanRx with ring := some rxAll } };
      s.shape = true ∧ s.completeEnabled .rx = true ∧ ∃ d ∈ rxAll.desc[s.engRx.hwCur]?, d.own ≠ .posted) := by decide

theorem witness_EngineTimerHaltFail :
    (∀ ch, running.isStopped (engineAgent ch) = false) ∧ running.cfg.wf = true ∧ running.shape = true
    ∧ (∀ ch, (running.eng ch).halted = false) := by
  refine ⟨fun ch => ?_, by decide, by decide, fun ch => ?_⟩ <;> cases ch <;> decide

theorem witness_HaltedEngineTakesNoStep :
    (sched [.halt .rx] stoppedState).cfg.wf = true ∧ (sched [.halt .rx] stoppedState).shape = true
    ∧ ((sched [.halt .rx] stoppedState).eng .rx).halted = true
    ∧ choiceAgent (.halt .rx) = engineAgent .rx ∧ choiceAgent .txComplete = engineAgent .tx := by decide

/-- `InterruptEntry` where the entry is taken and where it is not. -/
theorem witness_InterruptEntry :
    (lines.cfg.wf = true ∧ lines.shape = true ∧ lines.isStopped (irqAgent .rx) = false
      ∧ (lines.eng .rx).irqEn = true ∧ (lines.eng .rx).dlyPend = true ∧ (lines.chan .rx).irqToken = true
      ∧ lines.irqIdle .rx = true)
    ∧ (running.isStopped (irqAgent .tx) = false ∧ running.line .tx = false) := by decide

theorem witness_EngineFrame :
    choiceAgent .txComplete = engineAgent .tx ∧ choiceAgent .rxComplete = engineAgent .rx
    ∧ act .txComplete sent = .next (nextOf (act .txComplete sent)) :=
  ⟨rfl, rfl, eq_next (by decide)⟩

/-- Both forms of `MemoryFrame`: a send that stores, a drain that does not. -/
theorem witness_MemoryFrame :
    (∃ t, exec (.txSend 2) (runningWith [{ word := 0x20000002#32, payload := [7, 8] }]) = .next t
      ∧ t.byteAt .tx 0 1 = some 8)
    ∧ ∃ t, exec (.rxDrain 5) received = .next t ∧ t.byteAt .rx 0 1 = some 8 :=
  ⟨⟨_, eq_next (by decide), by decide⟩, ⟨_, eq_next (by decide), by decide⟩⟩

/-- The hypotheses of the invariants that every step keeps, at a state whose step writes memory. -/
theorem witness_MemoryInvariantsKept :
    let s := sched [.txComplete] sent
    s.shape = true ∧ s.memoryCanonical ∧ s.tagsAgree ∧ s.rxTailTrails ∧ s.handlesFresh ∧ s.rxNeverFree ∧ s.txRingOrdered
    ∧ s.buffersApart ∧ ∃ t, step s = .next t ∧ t.wireLog = [[7, 8]] := by
  refine ⟨by decide, fun ch => ?_, fun ch => ?_, fun r h => ?_, ⟨by decide, by decide⟩, ?_, fun r h => ?_, ?_, _,
    eq_next (by decide), by decide⟩
  · cases ch <;> decide
  · cases ch <;> simp only [Desc.tagAgrees] <;> decide
  · obtain rfl := Option.some.inj h
    decide
  · unfold State.rxNeverFree
    decide
  · obtain rfl := Option.some.inj h
    refine ⟨fun i d hd => ?_, fun h => by cases h⟩
    rcases i with _ | _ | _ | i
    · obtain rfl := Option.some.inj hd
      decide
    · obtain rfl := Option.some.inj hd
      decide
    · obtain rfl := Option.some.inj hd
      decide
    · cases hd
  · unfold State.buffersApart
    decide

theorem draining_lockDiscipline : draining.lockDiscipline := by
  intro ch a
  cases ch <;> cases a <;> simp [draining, received, running, State.chan, State.atHolding, State.caller, holdsAt,
    pollHolds, State.resetWith, atReset]
  · rintro rfl h
    cases h
  · constructor
    · rintro rfl
      exact ⟨rfl, rfl⟩
    · rintro ⟨rfl, -⟩
      rfl

/-- `CALLER[0]` has begun a drain while `DEFER` holds the lock (V-TX-11's wait). -/
def waiting : State := nextOf (step (sched [.start 0] { runningWith [{ word := 0x10000005#32, payload := [] }] with
  chanRx := { running.chanRx with lock := .held .defer } }))

theorem witness_LockDisciplineKept :
    (sched [.advance 0] draining).lockDiscipline ∧ (sched [.advance 0] draining).waitsAtAcquire
    ∧ waiting.callerBlocked 0 = true ∧ (waiting.caller 0).wait = true ∧ (draining.chan .rx).lock = .held (.caller 0)
    ∧ ∃ t, step (sched [.advance 0] draining) = .next t ∧ t.sinkLog = [([7, 8], 2)] :=
  ⟨draining_lockDiscipline, fun c hc => by obtain rfl := List.mem_singleton.1 hc; rfl, by decide, by decide, rfl, _, eq_next (by decide), by decide⟩

/-- A bring-up in flight, about to reach `READY`. -/
def bringing : State := { atReset [] Draws.none with
  lcBusy := true
  callers := [{ callerReset [] with op := .bringup .ready }] }

theorem witness_LifecycleKept :
    (sched [.advance 0] bringing).lifecycleDiscipline
    ∧ ∃ t, step (sched [.advance 0] bringing) = .next t ∧ t.life = .ready := by
  refine ⟨⟨⟨fun _ => ⟨0, by decide, by decide⟩, fun _ => rfl⟩, ?_, ?_, fun h => by cases h⟩, _, eq_next (by decide),
    by decide⟩
  · rintro k k' ⟨hk, -⟩ ⟨hk', -⟩
    have h1 : k < 1 := hk
    have h2 : k' < 1 := hk'
    omega
  · rintro k l ⟨hk, -⟩ hl
    have h1 : k < 1 := hk
    obtain rfl : k = 0 := by omega
    exact Option.some.inj hl

/-- A state with a response already given. -/
def answered : State := { running with
  callers := [{ callerReset (List.replicate 2 { word := 0x03000002#32, payload := [] }) with
    pc := 1
    resp := [0x50000000#32] }] }

theorem wordLegal_answered : wordLegal 0x50000000#32 := by unfold wordLegal; decide

theorem witness_ResponsesKept :
    (sched [.command 0] answered).responsesLegal ∧ (sched [.command 0] answered).pcCountsResponses
    ∧ ∃ t, step (sched [.command 0] answered) = .next t ∧ (t.caller 0).resp = [0x50000000#32, 0x00000000#32] := by
  refine ⟨⟨fun c hc w hw => ?_, fun w hw => ?_, fun w hw => ?_, fun w hw => ?_⟩, fun c hc => ?_, _,
    eq_next (by decide), by decide⟩
  · obtain rfl := List.mem_singleton.1 hc
    obtain rfl := List.mem_singleton.1 hw
    exact wordLegal_answered
  · cases hw
  · cases hw
  · cases hw
  · obtain rfl := List.mem_singleton.1 hc
    rfl

theorem witness_SettledWaitsOnEnvironment :
    let s := { running with cfg := { cfg with deviceMayFail := true } }
    s.settled = true ∧ s.trace = none ∧ s.enabled .rxComplete = true ∧ s.enabled (.fail .tx) = true
    ∧ s.enabled (.fail .rx) = true := by decide

end Sys2Proof.Tests
end

section
/-! PROOFS. A whole operation is a chain of atomic choices of its agent (R11, R82, R83; log 4). -/

namespace Sys2Proof.Machine

/-- The choice `c`, taken some number of times, leads from `u` to `t`. -/
def RunsOn (c : Choice) (u t : State) : Prop := ∃ n, runChoices (List.replicate n c) u = some t

theorem RunsOn.refl (c : Choice) (s : State) : RunsOn c s s := ⟨0, rfl⟩

theorem runChoices_cons {c : Choice} {cs : List Choice} {s t : State} (h : act c s = .next t) :
    runChoices (c :: cs) s = runChoices cs t := by
  simp [runChoices, h]

theorem RunsOn.head {c : Choice} {s u t : State} (h : act c s = .next u) (hut : RunsOn c u t) : RunsOn c s t := by
  obtain ⟨n, hn⟩ := hut
  exact ⟨n + 1, by rw [List.replicate_succ, runChoices_cons h, hn]⟩

/-- Running a step while its choice is enabled is taking that choice over and over. -/
theorem runsOn_runWhile {c : Choice} {stp : State → State} (h : ∀ s, takeChoice c s = .next (stp s)) :
    ∀ n s, RunsOn c s (runWhile (fun t => t.enabled c) stp n s)
  | 0, s => .refl c s
  | n + 1, s => by
    cases he : s.enabled c with
    | false => rw [runWhile_of_disabled he]; exact .refl c s
    | true =>
      rw [runWhile_step he]
      exact .head ((act_of_enabled he).trans (h s)) (runsOn_runWhile h n (stp s))

theorem runsOn_runCaller (k : Nat) (s : State) : RunsOn (.advance k) s (runCaller k s) :=
  runsOn_runWhile (c := .advance k) (fun _ => rfl) _ s

theorem runsOn_runIrq (ch : Channel) (s : State) : RunsOn (.advanceIrq ch) s (runIrq ch s) :=
  runsOn_runWhile (c := .advanceIrq ch) (fun _ => rfl) _ s

theorem runsOn_runPoll (s : State) : RunsOn .advancePoll s (runPoll s) :=
  runsOn_runWhile (c := .advancePoll) (fun _ => rfl) _ s

/-- A caller's command is its first atomic step, with which a query is done, and then the operation in flight run on
(R110, R139 to R141). -/
theorem exec_startInstr_then {i : Instr} {s t : State} (hc : i.commandClass = .caller) (he : exec i s = .next t) :
    ∃ u, startInstr i s = .next u ∧ (t = u ∨ t = runCaller s.active u) := by
  cases i <;> try cases hc
  case ringNext | ringIsComplete | ringLength => exact ⟨t, he, .inl rfl⟩
  case rxDrain | txSend | devBringup | devShutdown => cases he; exact ⟨_, rfl, .inr rfl⟩

/-- Issuing a whole command is issuing its first atomic step and then advancing the caller; a refused word is refused by
both alike (R312). -/
theorem issue_startInstr_then {k : Nat} {s t : State} (h : issue k exec s = .next t) :
    ∃ u, issue k startInstr s = .next u ∧ RunsOn (.advance k) u t := by
  unfold issue at h ⊢
  cases hf : s.fetch k with
  | none => rw [hf] at h; exact ⟨t, h, .refl _ t⟩
  | some cmd =>
    simp only [hf] at h ⊢
    cases ha : admission s.cfg cmd with
    | reservedOpcode | malformedCommand | notIssuable => rw [ha] at h; exact ⟨t, h, .refl _ t⟩
    | run i =>
      rw [ha] at h
      obtain ⟨-, -, hclass⟩ := admission_caller ha
      obtain ⟨u, hu, ht⟩ := exec_startInstr_then hclass h
      refine ⟨u, hu, ?_⟩
      obtain rfl | rfl := ht
      · exact .refl _ t
      · exact runsOn_runCaller k u

/-- A choice whose effect is that of `first` and then `next` over and over is one order of these two choices, whether
it is enabled or not, provided it is enabled exactly when `first` is. -/
theorem runChoices_of_act {whole first next : Choice} {s t : State} (hen : s.enabled first = s.enabled whole)
    (htake : takeChoice whole s = .next t → ∃ u, takeChoice first s = .next u ∧ RunsOn next u t)
    (h : act whole s = .next t) : ∃ n, runChoices (first :: List.replicate n next) s = some t := by
  suffices hfirst : ∃ u, act first s = .next u ∧ RunsOn next u t by
    obtain ⟨u, hu, n, hn⟩ := hfirst
    exact ⟨n, by rw [runChoices_cons hu, hn]⟩
  cases he : s.enabled whole with
  | true =>
    rw [act_of_enabled he] at h
    rw [act_of_enabled (hen.trans he)]
    exact htake h
  | false =>
    rw [act_of_disabled he] at h
    exact ⟨t, by rw [act_of_disabled (hen.trans he), h], .refl _ t⟩

/-- Settles O9: each whole operation is its first atomic step and then its agent's choice taken over and over. -/
theorem wholeOperationIsAtomicSteps : Obligations.WholeOperationIsAtomicSteps := by
  intro s t
  refine ⟨fun k => ?command, fun ch => ?handle, ?poll⟩
  case command => exact runChoices_of_act rfl issue_startInstr_then
  case handle =>
    refine runChoices_of_act rfl fun h => ⟨s.irqEntry ch, rfl, ?_⟩
    cases ch <;> (cases h; exact runsOn_runIrq _ _)
  case poll =>
    refine runChoices_of_act rfl fun h => ⟨startPoll s, rfl, ?_⟩
    cases h
    exact runsOn_runPoll _

end Sys2Proof.Machine
end

section
/-! PROOFS. What an ill-formed configuration (R5, R6) and a fault (R10, R318) do. -/

namespace Sys2Proof.Machine

theorem Config.addrW_pos {c : Config} (h : c.wf = true) : 1 ≤ c.addrW := by
  simp only [Config.wf, Bool.and_eq_true, decide_eq_true_eq] at h
  obtain ⟨-, -, -, -, -, -, -, -, haddrW, -⟩ := h
  exact haddrW

theorem step_of_illFormed {s : State} (h : s.cfg.wf = false) : step s = .refused .illFormedConfig := by
  simp [step, stepOnce, h]

/-- Settles O8: each disjunct contradicts the constraint of R5 it breaks. -/
theorem stepRefusesIllFormedConfig : Obligations.StepRefusesIllFormedConfig := by
  intro s hbroken
  refine step_of_illFormed (Bool.eq_false_iff.mpr fun hwf => ?_)
  have haddrW := Config.addrW_pos hwf
  obtain ⟨hnTx, hnRx, hbuf, hbufLt, hframe, hframeLe, hbudget, hbudgetLt, hlen, hnodup, haddrLt, hcoal, hpolls,
    hcallers⟩ := Config.facts hwf
  have hlenTx : s.cfg.addrTx.length = s.cfg.nTx := hlen .tx
  have hlenRx : s.cfg.addrRx.length = s.cfg.nRx := hlen .rx
  rcases hbroken with h | h | h | h | h | h | h | h | h | h | h | h | h | hdupTx | ⟨a, ha, hbig⟩ | h | hdupRx
    | ⟨a, ha, hbig⟩
  any_goals omega
  · exact hdupTx (hnodup .tx)
  · exact absurd (haddrLt .tx a ha) (Nat.not_lt.mpr hbig)
  · exact hdupRx (hnodup .rx)
  · exact absurd (haddrLt .rx a ha) (Nat.not_lt.mpr hbig)

theorem mem_addNew {α : Type} [DecidableEq α] (x : α) (l : List α) : x ∈ addNew x l := by
  unfold addNew
  split
  · assumption
  · simp

/-- A fault stops the agent that takes it (R10, R318). -/
theorem isStopped_raiseFault (s : State) (a : Agent) (f : FaultReason) : (s.raiseFault a f).isStopped a = true :=
  decide_eq_true (mem_addNew a s.stopped)

theorem engRunning_of_stopped {s : State} {ch : Channel} (h : s.isStopped (engineAgent ch) = true) :
    s.engRunning ch = false := by
  simp [State.engRunning, h]

/-- A stopped agent has no enabled step; the trace slot is left out, its word runs in the name of another agent (R10,
log 9, log 11). -/
theorem enabled_of_stopped {s : State} {c : Choice} (hc : c ≠ .trace) (h : s.isStopped (choiceAgent c) = true) :
    s.enabled c = false := by
  cases c with
  | trace => exact absurd rfl hc
  | command k | start k => simp [State.enabled, State.callerReady, show s.isStopped (.caller k) = true from h]
  | advance k => simp [State.enabled, State.callerCanAdvance, show s.isStopped (.caller k) = true from h]
  | handle ch | enter ch => simp [State.enabled, State.entryEnabled, show s.isStopped (irqAgent ch) = true from h]
  | advanceIrq ch => simp [State.enabled, State.irqCanAdvance, show s.isStopped (irqAgent ch) = true from h]
  | poll | startPoll => simp [State.enabled, State.pollEnabled, show s.isStopped .defer = true from h]
  | advancePoll => simp [State.enabled, State.pollCanAdvance, show s.isStopped .defer = true from h]
  | txComplete => simp [State.enabled, State.completeEnabled, engRunning_of_stopped (ch := .tx) h]
  | rxComplete => simp [State.enabled, State.completeEnabled, engRunning_of_stopped (ch := .rx) h]
  | delay ch => simp [State.enabled, State.delayEnabled, engRunning_of_stopped h]
  | halt ch => simp [State.enabled, State.haltEnabled, engRunning_of_stopped h]
  | fail ch => simp [State.enabled, State.failEnabled, engRunning_of_stopped h]

/-- Settles O11: the marks are those `raiseFault` writes, and a stopped agent has no enabled step. -/
theorem faultStopsAgent : Obligations.FaultStopsAgent := by
  intro s a f
  refine ⟨rfl, fun c hc ha => enabled_of_stopped hc ?_⟩
  rw [ha]
  exact isStopped_raiseFault s a f

end Sys2Proof.Machine
end

section
/-! PROOFS. The reset state (R350 to R353) meets every invariant. -/

namespace Sys2Proof.Machine

section
variable (c : Config) (streams : List (List Command)) (sch : List Choice) (dr : Draws)

@[simp] theorem resetWith_ring (ch : Channel) : (State.resetWith c streams sch dr).ring ch = none := by
  cases ch <;> rfl

@[simp] theorem resetWith_descs (ch : Channel) : (State.resetWith c streams sch dr).descs ch = [] := by
  simp [State.descs]

@[simp] theorem resetWith_lock (ch : Channel) : ((State.resetWith c streams sch dr).chan ch).lock = .free := by
  cases ch <;> rfl

/-- Every caller is one of R353, with its command stream. -/
theorem resetWith_callers {x : Caller} (hx : x ∈ (State.resetWith c streams sch dr).callers) :
    ∃ stream, x = callerReset stream := by
  obtain ⟨k, -, rfl⟩ := List.mem_map.mp hx
  exact ⟨_, rfl⟩

@[simp] theorem resetWith_callers_length : (State.resetWith c streams sch dr).callers.length = c.numCallers := by
  simp [State.resetWith]

/-- No caller, existing or not, has an operation in flight. -/
@[simp] theorem resetWith_op (k : Nat) : ((State.resetWith c streams sch dr).caller k).op = .idle := by
  by_cases hk : k < (State.resetWith c streams sch dr).callers.length
  · obtain ⟨stream, hs⟩ := resetWith_callers c streams sch dr
      (List.mem_of_getElem? (getElem?_caller _ k hk))
    rw [hs]; rfl
  · simp [State.caller, List.getD, List.getElem?_eq_none (Nat.not_lt.mp hk), callerReset]

theorem engineReset_shape {n : Nat} (hn : 0 < n) : engineShape n (engineReset c) = true := by
  simp [engineShape, engineReset, hn]

theorem resetWith_shape (hc : c.wf = true) : (State.resetWith c streams sch dr).shape = true := by
  have hnTx := (Config.facts hc).nTx
  have hnRx := (Config.facts hc).nRx
  have hTx := engineReset_shape c (n := c.nTx) (by omega)
  have hRx := engineReset_shape c (n := c.nRx) (by omega)
  simp [State.shape, State.resetWith, chanShape, chanReset, hTx, hRx]

/-- No agent is inside a critical section: every caller and the poll are idle. -/
theorem resetWith_not_atHolding (a : Agent) (ch : Channel) : ¬ (State.resetWith c streams sch dr).atHolding a ch := by
  cases a with
  | caller k => simp [State.atHolding, holdsAt]
  | defer => simp [State.atHolding, State.resetWith, pollHolds]
  | irqTx | irqRx | engTx | engRx | trace => exact id

theorem resetWith_lockDiscipline : (State.resetWith c streams sch dr).lockDiscipline := by
  intro ch a
  simp [resetWith_not_atHolding]

theorem resetWith_not_inLifecycle (k : Nat) : ¬ (State.resetWith c streams sch dr).inLifecycle k := by
  simp [State.inLifecycle, lifeAt]

theorem resetWith_lifecycleDiscipline : (State.resetWith c streams sch dr).lifecycleDiscipline := by
  have hnot := resetWith_not_inLifecycle c streams sch dr
  refine ⟨⟨fun hbusy => ?_, fun ⟨k, hk⟩ => absurd hk (hnot k)⟩, fun k _ hk => absurd hk (hnot k),
    fun k _ hk => absurd hk (hnot k), fun hready => ?_⟩
  · cases hbusy
  · cases hready

theorem resetWith_responsesLegal : (State.resetWith c streams sch dr).responsesLegal := by
  refine ⟨fun x hx => ?_, ?_, ?_, ?_⟩
  · obtain ⟨stream, rfl⟩ := resetWith_callers c streams sch dr hx
    simp [callerReset]
  all_goals simp [State.resetWith]

theorem resetWith_pcCountsResponses : (State.resetWith c streams sch dr).pcCountsResponses := by
  intro x hx
  obtain ⟨stream, rfl⟩ := resetWith_callers c streams sch dr hx
  rfl

theorem resetWith_waitsAtAcquire : (State.resetWith c streams sch dr).waitsAtAcquire := by
  intro x hx
  obtain ⟨stream, rfl⟩ := resetWith_callers c streams sch dr hx
  rfl

theorem resetWith_buffersApart : (State.resetWith c streams sch dr).buffersApart := .nil

end

/-- Settles O13: there is no ring, no lock is held, and every agent is idle. -/
theorem resetMeetsInvariants : Obligations.ResetMeetsInvariants := by
  intro c streams sch dr hc
  refine ⟨resetWith_shape c streams sch dr hc, ?memory, ?tags, ?rxTail, resetWith_lockDiscipline c streams sch dr,
    resetWith_lifecycleDiscipline c streams sch dr, ?handles, resetWith_responsesLegal c streams sch dr,
    resetWith_pcCountsResponses c streams sch dr, ?rxFree, ?txRing, resetWith_buffersApart c streams sch dr,
    resetWith_waitsAtAcquire c streams sch dr⟩
  case memory => simp [State.memoryCanonical]
  case tags => simp [State.tagsAgree]
  case rxTail => simp [State.rxTailTrails]
  case handles => simp [State.handlesFresh, State.resetWith]
  case rxFree => simp [State.rxNeverFree]
  case txRing => simp [State.txRingOrdered]

end Sys2Proof.Machine
end

section
/-! PROOFS. What an atomic step can do to the control part of the state (the lifecycle, the locks, the agents' positions
and responses) and to the logs, said once. -/

namespace Sys2Proof.Machine

open List (prefix_rfl)

/-! ## The control part and the logs -/

/-- The part of the state the steps of the data path leave alone. -/
structure Control where
  life : Life
  lcBusy : Bool
  lockTx : Lock
  lockRx : Lock
  callers : List Caller
  irqTx : TxIrqAgent
  irqRx : RxIrqAgent
  defer : PollAgent
  cfg : Config

def State.control (s : State) : Control where
  life := s.life
  lcBusy := s.lcBusy
  lockTx := s.chanTx.lock
  lockRx := s.chanRx.lock
  callers := s.callers
  irqTx := s.irqTx
  irqRx := s.irqRx
  defer := s.defer
  cfg := s.cfg

/-- What is only ever appended to (R59, R60; log 9). -/
structure Logs where
  wire : List (List Byte)
  sink : List (List Byte × Nat)
  td : List TdRecord
  faults : List FaultReason
  refused : List RefusalMark
  stopped : List Agent

def State.logs (s : State) : Logs where
  wire := s.wireLog
  sink := s.sinkLog
  td := s.tdLog
  faults := s.faults
  refused := s.refused
  stopped := s.stopped

/-- Each log of `m` begins with that of `l`. -/
structure Logs.Grow (l m : Logs) : Prop where
  wire : l.wire <+: m.wire
  sink : l.sink <+: m.sink
  td : l.td <+: m.td
  faults : l.faults <+: m.faults
  refused : l.refused <+: m.refused
  stopped : l.stopped <+: m.stopped

theorem Logs.Grow.refl (l : Logs) : l.Grow l :=
  ⟨prefix_rfl, prefix_rfl, prefix_rfl, prefix_rfl, prefix_rfl, prefix_rfl⟩

theorem Logs.Grow.of_eq {l m : Logs} (h : m = l) : l.Grow m := h ▸ .refl m

theorem Logs.Grow.trans {l m n : Logs} (h : l.Grow m) (h' : m.Grow n) : l.Grow n :=
  ⟨h.wire.trans h'.wire, h.sink.trans h'.sink, h.td.trans h'.td, h.faults.trans h'.faults,
    h.refused.trans h'.refused, h.stopped.trans h'.stopped⟩

/-- The control part is left alone, and the logs only grow. -/
structure Quiet (s t : State) : Prop where
  control : t.control = s.control
  logs : s.logs.Grow t.logs

section
variable {s t u : State}

theorem Quiet.of_eq (hc : t.control = s.control) (hl : t.logs = s.logs) : Quiet s t := ⟨hc, .of_eq hl⟩

theorem Quiet.refl (s : State) : Quiet s s := .of_eq rfl rfl

theorem Quiet.trans (h : Quiet s t) (h' : Quiet t u) : Quiet s u :=
  ⟨h'.control.trans h.control, h.logs.trans h'.logs⟩

theorem Quiet.life (h : Quiet s t) : t.life = s.life := congrArg Control.life h.control

theorem Quiet.lcBusy (h : Quiet s t) : t.lcBusy = s.lcBusy := congrArg Control.lcBusy h.control

theorem Quiet.lock (h : Quiet s t) : ∀ ch, (t.chan ch).lock = (s.chan ch).lock
  | .tx => congrArg Control.lockTx h.control
  | .rx => congrArg Control.lockRx h.control

theorem Quiet.callers (h : Quiet s t) : t.callers = s.callers := congrArg Control.callers h.control

theorem Quiet.irqTx (h : Quiet s t) : t.irqTx = s.irqTx := congrArg Control.irqTx h.control

theorem Quiet.irqRx (h : Quiet s t) : t.irqRx = s.irqRx := congrArg Control.irqRx h.control

theorem Quiet.defer (h : Quiet s t) : t.defer = s.defer := congrArg Control.defer h.control

theorem Quiet.cfg (h : Quiet s t) : t.cfg = s.cfg := congrArg Control.cfg h.control

/-- Writing `lcBusy` too keeps a quiet step quiet. -/
theorem Quiet.withBusy (h : Quiet s t) (b : Bool) : Quiet { s with lcBusy := b } { t with lcBusy := b } :=
  ⟨congrArg (fun c : Control => { c with lcBusy := b }) h.control, h.logs⟩

/-- Writing `life` too keeps a quiet step quiet. -/
theorem Quiet.withLife (h : Quiet s t) (l : Life) : Quiet { s with life := l } { t with life := l } :=
  ⟨congrArg (fun c : Control => { c with life := l }) h.control, h.logs⟩

end

/-! ## The shared operations are quiet -/

section
variable {s t : State} {ch : Channel}

theorem prefix_addNew {α : Type} [DecidableEq α] (x : α) (l : List α) : l <+: addNew x l := by
  unfold addNew
  split
  · exact prefix_rfl
  · exact l.prefix_append [x]

theorem quiet_raiseFault (s : State) (a : Agent) (f : FaultReason) : Quiet s (s.raiseFault a f) :=
  ⟨rfl, prefix_rfl, prefix_rfl, prefix_rfl, prefix_addNew f s.faults, prefix_rfl, prefix_addNew a s.stopped⟩

theorem quiet_refuse (s : State) (a : Agent) (m : RefusalMark) : Quiet s (s.refuse a m) :=
  ⟨rfl, prefix_rfl, prefix_rfl, prefix_rfl, prefix_rfl, prefix_addNew m s.refused, prefix_addNew a s.stopped⟩

theorem Quiet.setEng (h : Quiet s t) (ch : Channel) (e : Engine) : Quiet s (t.setEng ch e) := by
  cases ch <;> exact h.trans (.of_eq rfl rfl)

theorem Quiet.setRing (h : Quiet s t) (ch : Channel) (r : Option Ring) : Quiet s (t.setRing ch r) := by
  cases ch <;> exact h.trans (.of_eq rfl rfl)

theorem Quiet.setToken (h : Quiet s t) (ch : Channel) (b : Bool) : Quiet s (t.setToken ch b) := by
  cases ch <;> exact h.trans (.of_eq rfl rfl)

theorem AllocFrame.quiet (h : AllocFrame s t) : Quiet s t := by
  rw [h]; exact .of_eq rfl rfl

theorem quiet_ringInitialize {a : Agent} {n : Nat} (h : ringInitialize a ch n s = .ok t) : Quiet s t := by
  obtain ⟨-, s', hb, bs, hf, -, -, rfl, -⟩ := ringInitialize_ok h
  exact hf.quiet.setRing _ _

theorem quiet_teardownRing (h : teardownRing ch s = .ok t) : Quiet s t := by
  obtain ⟨-, rfl⟩ | ⟨r, -, -, rfl⟩ := teardownRing_ok h
  · exact .refl _
  · refine Quiet.setRing ?_ _ _
    exact .of_eq rfl rfl

theorem quiet_teardownBoth (h : teardownBoth s = .ok t ∨ ∃ f, teardownBoth s = .error (f, t)) : Quiet s t := by
  unfold teardownBoth at h
  split at h
  · obtain h | ⟨f, h⟩ := h <;> cases h
    exact .refl _
  · rename_i s1 h1
    split at h
    · obtain h | ⟨f, h⟩ := h <;> cases h
      exact quiet_teardownRing h1
    · rename_i s2 h2
      obtain rfl : s2 = t := by obtain h | ⟨f, h⟩ := h <;> cases h; rfl
      exact (quiet_teardownRing h1).trans (quiet_teardownRing h2)

theorem quiet_shutdownFree {b : Bool} (h : shutdownFree ch b s = .ok t) : Quiet s t := by
  unfold shutdownFree at h
  split at h
  · split at h
    · cases h
    · rename_i s' h'
      cases h
      exact (quiet_teardownRing h').trans
        ⟨rfl, prefix_rfl, prefix_rfl, s'.tdLog.prefix_append _, prefix_rfl, prefix_rfl, prefix_rfl⟩
  · cases h
    exact ⟨rfl, prefix_rfl, prefix_rfl, s.tdLog.prefix_append _, prefix_rfl, prefix_rfl, prefix_rfl⟩

theorem quiet_portStart (ch : Channel) (s : State) : Quiet s (portStart ch s) := by
  obtain ⟨dr, drn, e, h, -⟩ := portStart_cases ch s
  rw [h]
  refine Quiet.setEng ?_ _ _
  exact .of_eq rfl rfl

theorem quiet_portSetTaildesc {addr : Option Nat} (h : portSetTaildesc ch addr s = .ok t) : Quiet s t := by
  obtain ⟨i, -, rfl⟩ := portSetTaildesc_ok h; exact (Quiet.refl s).setEng _ _

theorem quiet_portSetCurdesc {addr : Option Nat} (h : portSetCurdesc ch addr s = .ok t) : Quiet s t := by
  obtain ⟨-, i, -, rfl⟩ := portSetCurdesc_ok h; exact (Quiet.refl s).setEng _ _

theorem quiet_portCfgCoalesce {d th : Nat} (h : portCfgCoalesce ch d th s = .ok t) : Quiet s t := by
  obtain ⟨-, rfl⟩ := portCfgCoalesce_ok h; exact (Quiet.refl s).setEng _ _

theorem quiet_drainOne {r : Ring} {d : Desc} (h : drainOne r d s = .ok t) : Quiet s t := by
  obtain ⟨-, -, bytes, -, rfl⟩ := drainOne_ok h
  refine Quiet.setRing ?_ _ _
  exact ⟨rfl, prefix_rfl, s.sinkLog.prefix_append _, prefix_rfl, prefix_rfl, prefix_rfl, prefix_rfl⟩

end

/-! ## The steps of an operation -/

/-- What one atomic step of an operation of agent `a`, at the position `op`, can do to the control part. -/
inductive OpMove {π : Type} (a : Agent) (s : State) (f : π → CallerOp) (op : CallerOp) : Progress π → Prop where
  /-- It goes on, and writes no more than the data path does. -/
  | go {q : π} {t : State} (hq : Quiet s t) (hh : holdsAt (f q) = holdsAt op) (hl : lifeAt (f q) = lifeAt op) :
      OpMove a s f op (.goto q t)
  /-- It acquires a lock that is free (R88). -/
  | acquire {q : π} (ch : Channel) (hf : (s.chan ch).lock = .free) (hh : holdsAt op = none)
      (hh' : holdsAt (f q) = some ch) (hl : lifeAt (f q) = lifeAt op) :
      OpMove a s f op (.goto q (s.setLock ch (.held a)))
  /-- It waits for a lock (R88). -/
  | wait : OpMove a s f op (.wait s)
  /-- It releases its lock and goes on. -/
  | release {q : π} (ch : Channel) (hh : holdsAt op = some ch) (hh' : holdsAt (f q) = none)
      (hl : lifeAt (f q) = lifeAt op) : OpMove a s f op (.goto q (s.release ch))
  /-- It releases its lock and returns. -/
  | returns (ch : Channel) (c : Code) (v : Nat) (hh : holdsAt op = some ch) (hl : lifeAt op = none) :
      OpMove a s f op (.done c v (s.release ch))
  /-- A bring-up takes `life` along an edge (R220). -/
  | lives {q : π} {t : State} (l l' : Life) (hq : Quiet { s with life := l' } t) (hh : holdsAt op = none)
      (hh' : holdsAt (f q) = none) (hl : lifeAt op = some l) (hl' : lifeAt (f q) = some l')
      (he : lifeEdge l l' = true) (hs : l' ≠ .stopped) : OpMove a s f op (.goto q t)
  /-- A lifecycle command returns (R222, R227). -/
  | ends {t : State} (l : Life) (c : Code) (v : Nat) (hq : Quiet { s with lcBusy := false } t)
      (hh : holdsAt op = none) (hl : lifeAt op = some l) (hr : l ≠ .ready) : OpMove a s f op (.done c v t)
  /-- A bring-up that failed returns (R223). -/
  | rollsBack {t : State} (c : Code) (v : Nat) (hq : Quiet { s with life := .uninitialized, lcBusy := false } t)
      (hh : holdsAt op = none) (hl : lifeAt op = some .ready) : OpMove a s f op (.done c v t)
  /-- Its agent stops at a fault, the position left as it is (R318). -/
  | stops {t : State} (hq : Quiet s t) : OpMove a s f op (.stop t)

section
variable {π : Type} {a : Agent} {s : State} {f : π → CallerOp} {op : CallerOp}

theorem opMove_acquireLock {q : π} (ch : Channel) (hh : holdsAt op = none) (hh' : holdsAt (f q) = some ch)
    (hl : lifeAt (f q) = lifeAt op) : OpMove a s f op (acquireLock a ch s q) := by
  obtain ⟨hf, h⟩ | ⟨b, -, h⟩ := acquireLock_cases a ch s q
  · rw [h]; exact .acquire ch hf hh hh' hl
  · rw [h]; exact .wait

theorem opMove_fault (s' : State) (r : FaultReason) (h : Quiet s s') : OpMove a s f op (.stop (s'.raiseFault a r)) :=
  .stops (h.trans (quiet_raiseFault s' a r))

/-- An operation that may fault moves as its good outcome does. -/
theorem opMove_orFault {s' : State} {e : Except FaultReason State} {k : State → Progress π} (hq : Quiet s s')
    (h : ∀ t, e = .ok t → OpMove a s f op (k t)) : OpMove a s f op (orFault a s' e k) := by
  unfold orFault
  split
  · exact h _ rfl
  · exact opMove_fault s' _ hq

end

theorem drainStep_move (a : Agent) (b : Nat) (pos : DrainPos) (s : State) :
    OpMove a s (.drain b) (.drain b pos) (drainStep a b pos s) := by
  cases pos with
  | acquire => exact opMove_acquireLock .rx rfl rfl rfl
  | checkLife =>
    simp only [drainStep]
    split
    · exact .go (.refl s) rfl rfl
    · exact .returns .rx _ _ rfl rfl
  | loop w =>
    simp only [drainStep, drainLoop]
    split
    · exact .go (.refl s) rfl rfl
    · split
      · exact opMove_fault s _ (.refl s)
      · split
        · exact opMove_fault s _ (.refl s)
        · split
          · exact opMove_orFault (.refl s) fun t h => .go (quiet_drainOne h) rfl rfl
          · exact .go (.refl s) rfl rfl
  | writeTail w =>
    simp only [drainStep, drainWriteTail]
    split
    · exact opMove_fault s _ (.refl s)
    · exact opMove_orFault (.refl s) fun t h => .go (quiet_portSetTaildesc h) rfl rfl
  | finish w => exact .returns .rx _ _ rfl rfl

theorem sendStep_move (a : Agent) (len : Nat) (payload : List Byte) (pos : SendPos) (s : State) :
    OpMove a s (.send len payload) (.send len payload pos) (sendStep a len payload pos s) := by
  cases pos with
  | acquire => exact opMove_acquireLock .tx rfl rfl rfl
  | checkLife =>
    simp only [sendStep]
    split
    · exact .go (.refl s) rfl rfl
    · exact .returns .tx _ _ rfl rfl
  | reclaim =>
    simp only [sendStep, sendReclaim]
    split
    · exact opMove_fault s _ (.refl s)
    · split
      · exact opMove_fault s _ (.refl s)
      · split
        · exact .go ((Quiet.refl s).setRing _ _) rfl rfl
        · exact .go (.refl s) rfl rfl
  | post =>
    simp only [sendStep, sendPost]
    split
    · exact opMove_fault s _ (.refl s)
    · split
      · exact .returns .tx _ _ rfl rfl
      · split
        · exact opMove_fault s _ (.refl s)
        · split
          · exact opMove_fault s _ (.refl s)
          · exact .go ((Quiet.refl s).setRing _ _) rfl rfl
  | writeTail i => exact opMove_orFault (.refl s) fun t h => .go (quiet_portSetTaildesc h) rfl rfl
  | finish => exact .returns .tx _ _ rfl rfl

theorem bringupInitRx_move (a : Agent) (s : State) : OpMove a s .bringup (.bringup .initRx) (bringupInitRx a s) := by
  unfold bringupInitRx
  split
  · rename_i h; exact .go (quiet_ringInitialize h) rfl rfl
  · exact opMove_fault s _ (.refl s)
  · rename_i s' h
    have hq := (ringInitialize_allocationError h).quiet
    split
    · exact opMove_fault s' _ hq
    · rename_i h2
      exact .ends .uninitialized _ _ ((hq.trans (quiet_teardownRing h2)).withBusy false) rfl rfl (by decide)

theorem bringupRollback_move (a : Agent) (s : State) :
    OpMove a s .bringup (.bringup .rollback) (bringupRollback a s) := by
  have hq : Quiet s ((s.setToken .tx false).setToken .rx false) :=
    ((Quiet.refl s).setToken .tx false).setToken .rx false
  unfold bringupRollback
  split
  · rename_i r s' h
    exact opMove_fault s' _ (hq.trans (quiet_teardownBoth (.inr ⟨r, h⟩)))
  · rename_i s' h
    exact .rollsBack _ _ (((hq.trans (quiet_teardownBoth (.inl h))).withLife .uninitialized).withBusy false) rfl rfl

theorem bringupStep_move (a : Agent) (pos : BringupPos) (s : State) :
    OpMove a s .bringup (.bringup pos) (bringupStep a pos s) := by
  cases pos with
  | initTx =>
    simp only [bringupStep]
    split
    · rename_i h; exact .go (quiet_ringInitialize h) rfl rfl
    · rename_i h
      exact .ends .uninitialized _ _ ((ringInitialize_allocationError h).quiet.withBusy false) rfl rfl (by decide)
    · exact opMove_fault s _ (.refl s)
  | initRx => exact bringupInitRx_move a s
  | ready => exact .lives .uninitialized .ready (.refl _) rfl rfl rfl rfl rfl (by decide)
  | tokenTx => exact .go ((Quiet.refl s).setToken .tx true) rfl rfl
  | tokenRx => exact .go ((Quiet.refl s).setToken .rx true) rfl rfl
  | curTx | curRx =>
    simp only [bringupStep, bringupSetCur]
    split
    · exact opMove_fault s _ (.refl s)
    · exact opMove_orFault (.refl s) fun t h => .go (quiet_portSetCurdesc h) rfl rfl
  | enable ch => exact .go ((Quiet.refl s).setEng _ _) rfl rfl
  | startEng ch => cases ch <;> exact .go (quiet_portStart _ s) rfl rfl
  | status ch okTx => exact .go (.refl s) rfl rfl
  | control ch okTx running =>
    cases ch with
    | tx => exact .go (.refl s) rfl rfl
    | rx => simp only [bringupStep]; split <;> exact .go (.refl s) rfl rfl
  | rollDisable ch => exact .go ((Quiet.refl s).setEng _ _) rfl rfl
  | rollStop ch => cases ch <;> exact .go ((Quiet.refl s).setEng _ _) rfl rfl
  | rollback => exact bringupRollback_move a s
  | run => exact .lives .ready .running (.of_eq rfl rfl) rfl rfl rfl rfl rfl (by decide)
  | writeTail =>
    simp only [bringupStep]
    split
    · exact opMove_fault s _ (.refl s)
    · exact opMove_orFault (.refl s) fun t h => .go (quiet_portSetTaildesc h) rfl rfl
  | finish => exact .ends .running _ _ (.refl _) rfl rfl (by decide)

theorem shutdownStep_move (a : Agent) (pos : ShutdownPos) (s : State) :
    OpMove a s .shutdown (.shutdown pos) (shutdownStep a pos s) := by
  cases pos with
  | lock ch => exact opMove_acquireLock ch rfl rfl rfl
  | unlock ch => cases ch <;> exact .release _ rfl rfl rfl
  | disable ch => exact .go ((Quiet.refl s).setEng _ _) rfl rfl
  | stop ch => cases ch <;> exact .go ((Quiet.refl s).setEng _ _) rfl rfl
  | quiesce ch polls hTx =>
    have hq : ∀ h, holdsAt (.shutdown (afterQuiesce s.cfg ch hTx h)) = none := by cases ch <;> exact fun _ => rfl
    simp only [shutdownStep, quiesceStep]
    split
    · exact .go (.refl s) (hq _) rfl
    · split
      · exact .go (.refl s) (hq _) rfl
      · exact .go (.refl s) rfl rfl
  | tokens hTx hRx => exact .go (((Quiet.refl s).setToken .tx false).setToken .rx false) rfl rfl
  | teardown hTx hRx =>
    refine opMove_orFault (.refl s) fun s1 h1 => opMove_orFault (quiet_shutdownFree h1) fun s2 h2 => ?_
    exact .go ((quiet_shutdownFree h1).trans (quiet_shutdownFree h2)) rfl rfl
  | finish => exact .ends .stopped _ _ (.refl _) rfl rfl (by decide)

end Sys2Proof.Machine
end

section
/-! PROOFS. What an atomic step of each agent can do to the control part, and so what every atomic step can do to it. -/

namespace Sys2Proof.Machine

/-! ## What every move of an operation keeps -/

/-- The position an operation at `op` is left at. -/
def Progress.after {π : Type} (f : π → CallerOp) (op : CallerOp) : Progress π → CallerOp
  | .goto q _ => f q
  | .wait _ => op
  | .done _ _ _ => .idle
  | .stop _ => op

section
variable {π : Type} {a : Agent} {s : State} {f : π → CallerOp} {op : CallerOp} {p : Progress π}

/-- A move writes no more of the control part than `life`, `lcBusy` and the locks. -/
theorem OpMove.control (h : OpMove a s f op p) :
    p.state.control = { s.control with
      life := p.state.life, lcBusy := p.state.lcBusy
      lockTx := p.state.chanTx.lock, lockRx := p.state.chanRx.lock } := by
  cases h with
  | go hq | stops hq | lives _ _ hq | ends _ _ _ hq | rollsBack _ _ hq =>
    have hc := hq.control
    simp only [State.control, Control.mk.injEq] at hc
    simp [State.control, Progress.state, hc]
  | wait => rfl
  | acquire ch | release ch | returns ch => cases ch <;> rfl

theorem OpMove.logs (h : OpMove a s f op p) : s.logs.Grow p.state.logs := by
  cases h with
  | go hq | stops hq | lives _ _ hq | ends _ _ _ hq | rollsBack _ _ hq => exact hq.logs
  | wait => exact .refl _
  | acquire ch | release ch | returns ch => cases ch <;> exact .refl _

theorem OpMove.callers (h : OpMove a s f op p) : p.state.callers = s.callers :=
  congrArg Control.callers h.control

theorem OpMove.caller (h : OpMove a s f op p) (k : Nat) : p.state.caller k = s.caller k := by
  simp only [State.caller, h.callers]

theorem OpMove.irqTx (h : OpMove a s f op p) : p.state.irqTx = s.irqTx := congrArg Control.irqTx h.control

theorem OpMove.irqRx (h : OpMove a s f op p) : p.state.irqRx = s.irqRx := congrArg Control.irqRx h.control

theorem OpMove.defer (h : OpMove a s f op p) : p.state.defer = s.defer := congrArg Control.defer h.control

theorem OpMove.cfg (h : OpMove a s f op p) : p.state.cfg = s.cfg := congrArg Control.cfg h.control

end

/-! ## The interrupt agents and the poll -/

/-- A response list is left as it is, or one response is appended (R106). -/
def Answers (l m : List Word) : Prop := m = l ∨ ∃ c v, m = l ++ [respWord c v]

/-- A step of an interrupt agent (R316, R317). -/
structure HandlerStep (s t : State) : Prop where
  quiet : Quiet { s with irqTx := t.irqTx, irqRx := t.irqRx } t
  respTx : Answers s.irqTx.resp t.irqTx.resp
  respRx : Answers s.irqRx.resp t.irqRx.resp

/-- A step of the poll outside its drain (R167). -/
structure PollStep (s t : State) : Prop where
  quiet : Quiet { s with defer := t.defer } t
  holds : pollHolds t.defer.op = pollHolds s.defer.op
  resp : Answers s.defer.resp t.defer.resp

theorem irqEntry_handlerStep (s : State) (ch : Channel) : HandlerStep s (s.irqEntry ch) := by
  cases ch <;> exact ⟨.refl _, .inl rfl, .inl rfl⟩

theorem irqStep_handlerStep (ch : Channel) (s : State) : HandlerStep s (irqStep ch s) := by
  cases ch with
  | tx =>
    simp only [irqStep, txIrqStep]
    split
    · exact ⟨.refl _, .inl rfl, .inl rfl⟩
    · exact ⟨.of_eq rfl rfl, .inl rfl, .inl rfl⟩
    · exact ⟨.of_eq rfl rfl, .inr ⟨_, _, rfl⟩, .inl rfl⟩
  | rx =>
    simp only [irqStep, rxIrqStep]
    split
    · exact ⟨.refl _, .inl rfl, .inl rfl⟩
    · split <;> exact ⟨.of_eq rfl rfl, .inl rfl, .inl rfl⟩
    · exact ⟨.of_eq rfl rfl, .inl rfl, .inr ⟨_, _, rfl⟩⟩
    · exact ⟨.of_eq rfl rfl, .inl rfl, .inl rfl⟩
    · exact ⟨.of_eq rfl rfl, .inl rfl, .inl rfl⟩
    · exact ⟨.of_eq rfl rfl, .inl rfl, .inr ⟨_, _, rfl⟩⟩

/-- Write back how an atomic step of the poll's drain ended (R167). -/
def settlePoll : Progress DrainPos → State
  | .goto q s => s.setPollOp (.drain q)
  | .wait s => s
  | .done c work s => pollAfterDrain c work s
  | .stop s => s

theorem pollStep_drain {s : State} {pos : DrainPos} (h : s.defer.op = .drain pos) :
    pollStep s = settlePoll (drainStep .defer s.cfg.budget pos s) := by
  simp only [pollStep, h]
  cases drainStep .defer s.cfg.budget pos s <;> rfl

/-- What the poll does when its drain returns: it goes on outside the drain, or it responds. -/
theorem pollAfterDrain_cases (c : Code) (work : Nat) (s : State) :
    Quiet { s with defer := (pollAfterDrain c work s).defer } (pollAfterDrain c work s) ∧
    pollHolds (pollAfterDrain c work s).defer.op = false ∧
    Answers s.defer.resp (pollAfterDrain c work s).defer.resp := by
  unfold pollAfterDrain
  split
  · exact ⟨.of_eq rfl rfl, rfl, .inr ⟨_, _, rfl⟩⟩
  · split
    · exact ⟨.of_eq rfl rfl, rfl, .inr ⟨_, _, rfl⟩⟩
    · exact ⟨.of_eq rfl rfl, rfl, .inl rfl⟩

/-! ## Every atomic step -/

/-- What one atomic step can do to the control part. -/
inductive ControlStep (s t : State) : Prop where
  | quiet (hq : Quiet s t)
  /-- A command that is answered in its first atomic step (R139 to R141, R191). -/
  | answer (k : Nat) (c : Code) (v : Nat) (hi : (s.caller k).op = .idle) (ht : t = s.respond k c v)
  /-- A command that stays in flight and is no lifecycle command begins (R161, R191). -/
  | begins (k : Nat) (op : CallerOp) (hi : (s.caller k).op = .idle) (hh : holdsAt op = none) (hl : lifeAt op = none)
      (ht : t = s.setOp k op)
  /-- A lifecycle command begins (R222, R227, R230). -/
  | lifecycle (k : Nat) (op : CallerOp) (l : Life) (hk : k < s.callers.length) (hi : (s.caller k).op = .idle)
      (hb : s.lcBusy = false) (hh : holdsAt op = none) (hl : lifeAt op = some l)
      (he : l = s.life ∨ lifeEdge s.life l = true) (ht : t = { s with lcBusy := true, life := l }.setOp k op)
  /-- The operation in flight of a caller moves (R11). -/
  | caller {π : Type} (k : Nat) (f : π → CallerOp) (p : Progress π) (hk : k < s.callers.length)
      (hm : OpMove (.caller k) s f (s.caller k).op p) (ht : t = settleCaller k f p)
  | handler (hs : HandlerStep s t)
  | poll (hs : PollStep s t)
  /-- The drain of the poll moves (R167). -/
  | pollDrain (b : Nat) (pos : DrainPos) (p : Progress DrainPos) (hp : s.defer.op = .drain pos)
      (hm : OpMove .defer s (.drain b) (.drain b pos) p) (ht : t = settlePoll p)

/-- A step of a caller's operation in flight is a move of that operation; an idle caller takes none. -/
theorem callerStep_move (k : Nat) (s : State) :
    callerStep k s = s ∨ ∃ (π : Type) (f : π → CallerOp) (p : Progress π),
      OpMove (.caller k) s f (s.caller k).op p ∧ callerStep k s = settleCaller k f p := by
  unfold callerStep
  split
  · exact .inl rfl
  · rename_i b pos hop; rw [hop]; exact .inr ⟨_, _, _, drainStep_move _ b pos s, rfl⟩
  · rename_i len payload pos hop; rw [hop]; exact .inr ⟨_, _, _, sendStep_move _ len payload pos s, rfl⟩
  · rename_i pos hop; rw [hop]; exact .inr ⟨_, _, _, bringupStep_move _ pos s, rfl⟩
  · rename_i pos hop; rw [hop]; exact .inr ⟨_, _, _, shutdownStep_move _ pos s, rfl⟩

theorem callerStep_controlStep {k : Nat} {s : State} (h : s.callerCanAdvance k = true) :
    ControlStep s (callerStep k s) := by
  have hk : k < s.callers.length := by
    simp only [State.callerCanAdvance, Bool.and_eq_true, decide_eq_true_eq] at h
    exact h.1.1.1
  obtain h | ⟨π, f, p, hm, h⟩ := callerStep_move k s
  · rw [h]; exact .quiet (.refl s)
  · exact .caller k f p hk hm h

theorem pollStep_controlStep (s : State) : ControlStep s (pollStep s) := by
  cases hp : s.defer.op with
  | idle => simp only [pollStep, hp]; exact .quiet (.refl s)
  | drain pos => exact .pollDrain _ pos _ hp (drainStep_move .defer s.cfg.budget pos s) (pollStep_drain hp)
  | enable work => simp only [pollStep, hp]; exact .poll ⟨.of_eq rfl rfl, by rw [hp]; rfl, .inl rfl⟩
  | ret work => simp only [pollStep, hp]; exact .poll ⟨.of_eq rfl rfl, by rw [hp]; rfl, .inr ⟨_, _, rfl⟩⟩

theorem quiet_writeCompletion {s t : State} (h : Quiet s t) (ch : Channel) (r : Ring) (d : Desc) (st : Status) :
    Quiet s (writeCompletion ch r d st t) :=
  (h.setRing ch _).setEng ch _

/-- A draw writes no log. -/
theorem quiet_drawErrBits (s : State) : Quiet s s.drawErrBits.2 := by
  unfold State.drawErrBits
  split
  · split <;> exact .of_eq rfl rfl
  · exact .refl s

theorem quiet_drawTxLen (s : State) (m : Nat) : Quiet s (s.drawTxLen m).2 := by
  unfold State.drawTxLen; split <;> exact .of_eq rfl rfl

theorem quiet_drawFrame (s : State) (m : Nat) : Quiet s (s.drawFrame m).2 := by
  unfold State.drawFrame; split <;> exact .of_eq rfl rfl

theorem quiet_txCompleteStep (s : State) : Quiet s (txCompleteStep s) := by
  unfold txCompleteStep
  split
  · exact quiet_raiseFault s _ _
  · split
    · exact quiet_raiseFault s _ _
    · have hq := quiet_drawErrBits s
      unfold finishTx
      split
      · refine quiet_writeCompletion (hq.trans ?_) _ _ _ _
        exact ⟨rfl, List.prefix_append _ _, List.prefix_rfl, List.prefix_rfl, List.prefix_rfl, List.prefix_rfl,
          List.prefix_rfl⟩
      · exact quiet_writeCompletion (hq.trans (quiet_drawTxLen _ _)) _ _ _ _

theorem quiet_rxCompleteStep (s : State) : Quiet s (rxCompleteStep s) := by
  unfold rxCompleteStep
  split
  · exact quiet_raiseFault s _ _
  · rename_i r d _
    have hq := (quiet_drawFrame s d.ctrl.len).trans (quiet_drawErrBits _)
    unfold finishRx
    split
    · exact hq.trans (quiet_raiseFault _ _ _)
    · exact quiet_writeCompletion hq _ _ _ _

theorem quiet_portAlone {s : State} {e : Except FaultReason State} (h : ∀ t, e = .ok t → Quiet s t) :
    Quiet s (portAlone s e) := by
  unfold portAlone
  split
  · exact h _ rfl
  · exact quiet_raiseFault s _ _

/-- An internal command run alone (log 11). -/
theorem quiet_internal {i : Instr} {s t : State} (hc : i.commandClass = .internal) (h : exec i s = .next t) :
    Quiet s t := by
  cases i <;> simp only [Instr.commandClass, reduceCtorEq] at hc <;> cases h
  case ringInit ch n =>
    split
    · split
      · rename_i h; exact (quiet_ringInitialize h).trans (.of_eq rfl rfl)
      · rename_i h; exact (ringInitialize_allocationError h).quiet.trans (.of_eq rfl rfl)
      · exact quiet_raiseFault s _ _
    · exact quiet_refuse s _ _
  case ringTeardown ch =>
    split
    · rename_i h; exact (quiet_teardownRing h).trans (.of_eq rfl rfl)
    · exact quiet_raiseFault s _ _
  case portReadStatus => exact .of_eq rfl rfl
  case portReadControl => exact .of_eq rfl rfl
  case portStart ch => exact quiet_portStart ch s
  case portSetCurdesc ch i => exact quiet_portAlone fun t h => quiet_portSetCurdesc h
  case portSetTaildesc ch i => exact quiet_portAlone fun t h => quiet_portSetTaildesc h
  case portCfgCoalesce ch d th => exact quiet_portAlone fun t h => quiet_portCfgCoalesce h
  all_goals exact (Quiet.refl s).setEng _ _

theorem queryStatus_controlStep {s : State} {k : Nat} (hi : (s.caller k).op = .idle) (ch : Channel)
    (i : Nat) (f : Status → Nat) : ControlStep s (queryStatus k ch i f s) := by
  unfold queryStatus
  split
  · exact .answer k _ _ hi rfl
  · split
    · exact .quiet (quiet_raiseFault s _ _)
    · exact .answer k _ _ hi rfl

theorem startBringup_controlStep {s : State} {k : Nat} (hk : k < s.callers.length) (hi : (s.caller k).op = .idle) :
    ControlStep s (startBringup k s) := by
  unfold startBringup
  split
  · exact .quiet (quiet_refuse s _ _)
  · rename_i h
    simp only [Bool.or_eq_true, decide_eq_true_eq, not_or, Bool.not_eq_true, Decidable.not_not] at h
    obtain ⟨hb, hl⟩ := h
    refine .lifecycle k (.bringup .initTx) .uninitialized hk hi hb rfl rfl (.inl hl.symm) ?_
    rw [← hl]

theorem startShutdown_controlStep {s : State} {k : Nat} (hk : k < s.callers.length) (hi : (s.caller k).op = .idle) :
    ControlStep s (startShutdown k s) := by
  unfold startShutdown
  split
  · exact .quiet (quiet_refuse s _ _)
  · rename_i h
    simp only [Bool.or_eq_true, decide_eq_true_eq, not_or, Bool.not_eq_true, Decidable.not_not] at h
    obtain ⟨hb, hl⟩ := h
    exact .lifecycle k (.shutdown (.lock .tx)) .stopped hk hi hb rfl rfl (.inr (by rw [hl]; rfl)) rfl

/-- The first atomic step of a caller's command (R110). -/
theorem startInstr_controlStep {i : Instr} {s t : State} (hc : i.commandClass = .caller)
    (hr : s.callerReady s.active = true) (h : startInstr i s = .next t) : ControlStep s t := by
  simp only [State.callerReady, Bool.and_eq_true, decide_eq_true_eq] at hr
  obtain ⟨⟨hk, hi⟩, -⟩ := hr
  cases i <;> simp only [Instr.commandClass, reduceCtorEq] at hc <;> cases h
  case ringNext => exact .answer _ _ _ hi rfl
  case ringIsComplete => exact queryStatus_controlStep hi _ _ _
  case ringLength => exact queryStatus_controlStep hi _ _ _
  case rxDrain budget => exact .begins _ _ hi rfl rfl rfl
  case txSend len =>
    unfold startSend
    split
    · exact .answer _ _ _ hi rfl
    · exact .begins _ _ hi rfl rfl rfl
  case devBringup => exact startBringup_controlStep hk hi
  case devShutdown => exact startShutdown_controlStep hk hi

theorem Atomic.controlStep {s t : State} (h : Atomic s t) : ControlStep s t := by
  cases h with
  | pop => exact .quiet (by unfold State.popChoice; split <;> exact .of_eq rfl rfl)
  | select | dropTrace => exact .quiet (.of_eq rfl rfl)
  | internal _ i hc h => exact .quiet (quiet_internal hc h)
  | refuse k m => exact .quiet (quiet_refuse s _ m)
  | start _ cmd i hr _ ha h => exact startInstr_controlStep (admission_caller ha).2.2 hr h
  | caller k h => exact callerStep_controlStep h
  | entry ch _ => exact .handler (irqEntry_handlerStep s ch)
  | irq ch _ => exact .handler (irqStep_handlerStep ch s)
  | pollStart h => exact .poll ⟨.of_eq rfl rfl, by rw [h]; rfl, .inl rfl⟩
  | poll _ => exact pollStep_controlStep s
  | txComplete => exact .quiet (quiet_txCompleteStep s)
  | rxComplete => exact .quiet (quiet_rxCompleteStep s)
  | delay ch _ | halt ch _ | fail ch _ => exact .quiet ((Quiet.refl s).setEng _ _)

end Sys2Proof.Machine
end

section
/-! PROOFS. The configuration, the streams and the logs (R59, R60, R66), and the shape of the rings and engines (R38,
R39, R52). -/

namespace Sys2Proof.Machine

/-! ## The configuration, the streams and the logs -/

theorem settleCaller_logs {π : Type} (k : Nat) (f : π → CallerOp) (p : Progress π) :
    (settleCaller k f p).logs = p.state.logs := by
  cases p <;> rfl

theorem settleCaller_cfg {π : Type} (k : Nat) (f : π → CallerOp) (p : Progress π) :
    (settleCaller k f p).cfg = p.state.cfg := by
  cases p <;> rfl

theorem pollAfterDrain_logs (c : Code) (work : Nat) (s : State) : (pollAfterDrain c work s).logs = s.logs := by
  unfold pollAfterDrain
  split
  · rfl
  · split <;> rfl

theorem settlePoll_logs (p : Progress DrainPos) : (settlePoll p).logs = p.state.logs := by
  cases p with
  | done c work s => exact pollAfterDrain_logs c work s
  | goto | wait | stop => rfl

theorem settlePoll_cfg (p : Progress DrainPos) : (settlePoll p).cfg = p.state.cfg := by
  cases p with
  | done c work s => exact (pollAfterDrain_cases c work s).1.cfg
  | goto | wait | stop => rfl

theorem ControlStep.logs {s t : State} (h : ControlStep s t) : s.logs.Grow t.logs := by
  cases h with
  | quiet hq => exact hq.logs
  | answer _ _ _ _ ht | begins _ _ _ _ _ ht | lifecycle _ _ _ _ _ _ _ _ _ ht => subst ht; exact .refl _
  | caller k f p _ hm ht => subst ht; rw [settleCaller_logs]; exact hm.logs
  | handler hs => exact hs.quiet.logs
  | poll hs => exact hs.quiet.logs
  | pollDrain b pos p _ hm ht => subst ht; rw [settlePoll_logs]; exact hm.logs

theorem ControlStep.cfg {s t : State} (h : ControlStep s t) : t.cfg = s.cfg := by
  cases h with
  | quiet hq => exact hq.cfg
  | answer _ _ _ _ ht | begins _ _ _ _ _ ht | lifecycle _ _ _ _ _ _ _ _ _ ht => subst ht; rfl
  | caller k f p _ hm ht => subst ht; rw [settleCaller_cfg]; exact hm.cfg
  | handler hs => exact hs.quiet.cfg
  | poll hs => exact hs.quiet.cfg
  | pollDrain b pos p _ hm ht => subst ht; rw [settlePoll_cfg]; exact hm.cfg

theorem Atomic.cfg {s t : State} (h : Atomic s t) : t.cfg = s.cfg := h.controlStep.cfg

theorem Atomics.cfg {s t : State} (h : Atomics s t) : t.cfg = s.cfg :=
  h.keeps (P := fun u => u.cfg = s.cfg) (fun _ _ h hu => h.cfg.trans hu) rfl

/-- What a write to a caller leaves alone is the same over all callers. -/
theorem map_set_caller {α : Type} (s : State) (k : Nat) (c : Caller) (f : Caller → α) (h : f c = f (s.caller k)) :
    (s.callers.set k c).map f = s.callers.map f := by
  rw [List.map_set]
  by_cases hk : k < s.callers.length
  · have he : s.caller k = s.callers[k] := by simp [State.caller, List.getD, hk]
    rw [h, he, ← List.getElem_map f (h := by simpa using hk), List.set_getElem_self]
  · exact List.set_eq_of_length_le (by simpa using hk)

theorem CallersStep.streams {s t : State} (h : CallersStep s t) :
    t.callers.map Caller.stream = s.callers.map Caller.stream := by
  cases h with
  | same h => rw [h]
  | op k op h | respond k c v h => rw [h]; exact map_set_caller s k _ _ rfl

/-- Settles O58: no atomic step takes anything out of a log, or writes the configuration or a stream. -/
theorem logsOnlyGrow : Obligations.LogsOnlyGrow := by
  intro s t h
  obtain ⟨-, -, hat⟩ := step_atomics h
  have hgrow : s.logs.Grow t.logs :=
    hat.keeps (P := fun u => s.logs.Grow u.logs) (fun _ _ h hu => hu.trans h.controlStep.logs) (.refl _)
  have hstreams : t.callers.map Caller.stream = s.callers.map Caller.stream :=
    hat.keeps (P := fun u => u.callers.map Caller.stream = s.callers.map Caller.stream)
      (fun _ _ h hu => h.callersStep.streams.trans hu) rfl
  exact ⟨hgrow.wire, hgrow.sink, hgrow.td, hgrow.faults, hgrow.refused, hgrow.stopped, hat.cfg, hstreams⟩

/-! ## The shape -/

/-- The bounds of R38 and R39 on a ring of capacity `n`. -/
structure RingBounds (n : Nat) (r : Ring) : Prop where
  cap : r.cap = n
  length : r.desc.length = n
  curr : r.curr < n
  tail : r.tail < n

theorem ringShape_iff {n : Nat} {r : Ring} : ringShape n r = true ↔ RingBounds n r := by
  simp only [ringShape, Bool.and_eq_true, decide_eq_true_eq]
  exact ⟨fun ⟨⟨⟨h1, h2⟩, h3⟩, h4⟩ => ⟨h1, h2, h3, h4⟩, fun h => ⟨⟨⟨h.cap, h.length⟩, h.curr⟩, h.tail⟩⟩

theorem shape_iff {s : State} : s.shape = true ↔
    s.callers.length = s.cfg.numCallers ∧ (∀ ch r, s.ring ch = some r → RingBounds (s.cfg.cap ch) r) ∧
    ∀ ch, engineShape (s.cfg.cap ch) (s.eng ch) = true := by
  have hchan : ∀ n (c : Chan), chanShape n c = true ↔ ∀ r, c.ring = some r → RingBounds n r := by
    intro n c
    simp only [chanShape, ← ringShape_iff]
    cases c.ring <;> simp
  simp only [State.shape, Bool.and_eq_true, decide_eq_true_eq, hchan]
  constructor
  · rintro ⟨⟨⟨⟨hlen, htx⟩, hrx⟩, hetx⟩, herx⟩
    refine ⟨hlen, fun ch => ?_, fun ch => ?_⟩ <;> cases ch <;> assumption
  · rintro ⟨hlen, hring, heng⟩
    exact ⟨⟨⟨⟨hlen, hring .tx⟩, hring .rx⟩, heng .tx⟩, heng .rx⟩

theorem setDesc_bounds {n : Nat} {r : Ring} (h : RingBounds n r) (i : Nat) (d : Desc) : RingBounds n (r.setDesc i d) :=
  ⟨h.cap, by simpa [Ring.setDesc] using h.length, h.curr, h.tail⟩

/-- All cursors advance modulo the capacity (R142). -/
theorem RingStep.bounds {c : Config} {ch : Channel} {r r' : Option Ring} (hc : ConfigFacts c)
    (hs : ∀ q, r = some q → RingBounds (c.cap ch) q) (h : RingStep c ch r r') :
    ∀ q, r' = some q → RingBounds (c.cap ch) q := by
  have hn := hc.cap_ge_two ch
  have hnext : ∀ {q : Ring}, q.cap = c.cap ch → ∀ i, next q.cap i < c.cap ch :=
    fun hq i => hq ▸ next_lt (by omega) i
  cases h with
  | same => exact hs
  | teardown => intro q hq; cases hq
  | init _ hb bs hl hu =>
    rintro _ ⟨⟩
    obtain ⟨hcap, hcurr, hlen, -⟩ := newRing_desc (c := c) (ch := ch) (hb := hb) hl hu
    refine ⟨hcap, hlen, by omega, ?_⟩
    cases ch <;> simp only [newRing, channelDir] <;> omega
  | drain r d =>
    rintro _ ⟨⟩
    have hr := hs r rfl
    exact { setDesc_bounds hr _ _ with curr := hnext hr.cap _, tail := hnext hr.cap _ }
  | reclaim r d =>
    rintro _ ⟨⟩
    have hr := hs r rfl
    exact { setDesc_bounds hr _ _ with curr := hnext hr.cap _ }
  | post r d =>
    rintro _ ⟨⟩
    have hr := hs r rfl
    exact { setDesc_bounds hr _ _ with tail := hnext hr.cap _ }
  | complete _ r i d =>
    rintro _ ⟨⟩
    exact setDesc_bounds (hs r rfl) _ _

theorem engineShape_iff {n : Nat} {e : Engine} : engineShape n e = true ↔ e.hwCur < n ∧ e.hwTail < n := by
  simp [engineShape]

theorem advanceEngine_positions (n : Nat) (e : Engine) :
    (advanceEngine n e).hwCur = next n e.hwCur ∧ (advanceEngine n e).hwTail = e.hwTail := by
  unfold advanceEngine coalesce
  split <;> exact ⟨rfl, rfl⟩

/-- The positions of an engine advance modulo the capacity, and are written with indices only (R52, R142). -/
theorem EngStep.shape {c : Config} {ch : Channel} {e e' : Engine} (hc : ConfigFacts c)
    (hs : engineShape (c.cap ch) e = true) (h : EngStep c ch e e') : engineShape (c.cap ch) e' = true := by
  have hn := hc.cap_ge_two ch
  rw [engineShape_iff] at hs ⊢
  cases h with
  | same | start | stop | irq | ack | coalesce | delay | halt | fail => exact hs
  | reset => exact ⟨by simp only [engineReset]; omega, by simp only [engineReset]; omega⟩
  | cur i hi => exact ⟨hi, hs.2⟩
  | tail i hi => exact ⟨hs.1, hi⟩
  | complete =>
    obtain ⟨hcur, htail⟩ := advanceEngine_positions (c.cap ch) e
    rw [hcur, htail]
    exact ⟨next_lt (by omega) _, hs.2⟩

theorem CallersStep.length {s t : State} (h : CallersStep s t) : t.callers.length = s.callers.length := by
  cases h with
  | same h => rw [h]
  | op k op h | respond k c v h => rw [h, List.length_set]

/-- A state of the machine under a configuration R5 allows. -/
structure WellShaped (s : State) : Prop where
  wf : s.cfg.wf = true
  shape : s.shape = true

theorem WellShaped.ringBounds {s : State} (h : WellShaped s) {ch : Channel} {r : Ring} (hr : s.ring ch = some r) :
    RingBounds (s.cfg.cap ch) r :=
  (shape_iff.mp h.shape).2.1 ch r hr

theorem Atomic.wellShaped {s t : State} (h : Atomic s t) (hs : WellShaped s) : WellShaped t := by
  have hcfg := h.cfg
  have hfacts := Config.facts hs.wf
  obtain ⟨hlen, hring, heng⟩ := shape_iff.mp hs.shape
  refine ⟨hcfg ▸ hs.wf, shape_iff.mpr ⟨?_, fun ch => ?_, fun ch => ?_⟩⟩
  · rw [h.callersStep.length, hcfg, hlen]
  · rw [hcfg]; exact (h.ringStep ch).bounds hfacts (hring ch)
  · rw [hcfg]; exact (h.engStep hfacts ch).shape hfacts (heng ch)

/-- A property of states of the machine that every atomic step keeps is kept by every step. -/
theorem step_keeps {P : State → Prop} (hp : ∀ s t, WellShaped s → Atomic s t → P s → P t) {s t : State}
    (h : step s = .next t) (hs : P s) : P t := by
  obtain ⟨hwf, hshape, hat⟩ := step_atomics h
  exact (hat.keeps (P := fun s => WellShaped s ∧ P s)
    (fun s t h ⟨hw, hs⟩ => ⟨h.wellShaped hw, hp s t hw h hs⟩) ⟨⟨hwf, hshape⟩, hs⟩).2

/-- Settles O52: every atomic step keeps the bounds of every ring and engine, and the number of callers. -/
theorem shapeKept : Obligations.ShapeKept := by
  intro s t _ h
  obtain ⟨hwf, hshape, hat⟩ := step_atomics h
  exact ⟨(hat.keeps (fun _ _ h => h.wellShaped) ⟨hwf, hshape⟩).shape, hat.cfg⟩

end Sys2Proof.Machine
end

section
/-! PROOFS. The descriptors and cursors of the rings: canonical memory (R44), tags (R45), the receive tail and the
receive tags (R48), the order of the transmit ring (R46, R47). -/

namespace Sys2Proof.Machine

/-! ## A property of every descriptor -/

/-- The tag of a descriptor of a new ring (R130). -/
def freshOwn : Channel → Own
  | .tx => .free
  | .rx => .posted

/-- What an atomic step writes into a descriptor of channel `ch` keeps `P`. -/
structure DescClosed (c : Config) (ch : Channel) (P : Desc → Prop) : Prop where
  fresh : ∀ d : Desc, d.buf.bytes = [] → d.st = clearedStatus → d.own = freshOwn ch → P d
  drain : ∀ d, P d → P (armRx c.bufSize d)
  reclaim : ch = .tx → ∀ d : Desc, P d → P { d with own := .free }
  post : ∀ (d : Desc) (len : Nat) (bytes : List Byte), bytes.length ≤ c.bufSize → P d →
    P { armTx len d with own := .posted, buf := { d.buf with bytes := d.buf.bytes.writeFrom 0 bytes } }
  complete : ∀ (d : Desc) (st : Status) (bytes : List Byte), bytes.length ≤ c.bufSize → st.cmplt = true → P d →
    P { d with own := .completed, st := st, buf := { d.buf with bytes := d.buf.bytes.writeFrom 0 bytes } }

theorem mem_descs {s : State} {ch : Channel} {d : Desc} : d ∈ s.descs ch ↔ ∃ r, s.ring ch = some r ∧ d ∈ r.desc := by
  unfold State.descs
  cases s.ring ch <;> simp

theorem forall_mem_setDesc {P : Desc → Prop} {r : Ring} {i : Nat} {d x : Desc} (hr : ∀ y ∈ r.desc, P y)
    (hd : r.desc[i]? = some d) (hx : P d → P x) : ∀ y ∈ (r.setDesc i x).desc, P y := by
  intro y hy
  obtain hy | rfl := List.mem_or_eq_of_mem_set hy
  · exact hr y hy
  · exact hx (hr d (List.mem_of_getElem? hd))

theorem RingStep.forall_desc {c : Config} {ch : Channel} {r r' : Option Ring} {P : Desc → Prop}
    (hP : DescClosed c ch P) (hs : ∀ q, r = some q → ∀ d ∈ q.desc, P d) (h : RingStep c ch r r') :
    ∀ q, r' = some q → ∀ d ∈ q.desc, P d := by
  cases h with
  | same => exact hs
  | teardown => intro q hq; cases hq
  | init _ hb bs hl hu =>
    rintro _ ⟨⟩ d hd
    obtain ⟨-, -, -, hfresh⟩ := newRing_desc (c := c) (ch := ch) (hb := hb) hl hu
    obtain ⟨hbytes, hst, hown⟩ := hfresh d hd
    exact hP.fresh d hbytes hst (by cases ch <;> exact hown)
  | drain r d hd => rintro _ ⟨⟩; exact forall_mem_setDesc (hs r rfl) hd (hP.drain d)
  | reclaim r d hd => rintro _ ⟨⟩; exact forall_mem_setDesc (hs r rfl) hd (hP.reclaim rfl d)
  | post r d len bytes hd _ _ hb => rintro _ ⟨⟩; exact forall_mem_setDesc (hs r rfl) hd (hP.post d len bytes hb)
  | complete _ r i d bytes st hd _ hb hst =>
    rintro _ ⟨⟩; exact forall_mem_setDesc (hs r rfl) hd (hP.complete d st bytes hb hst)

/-- A property that what a step writes into a descriptor keeps stays a property of every descriptor. -/
theorem Atomic.forall_descs {s t : State} {ch : Channel} {P : Desc → Prop} (hP : DescClosed s.cfg ch P)
    (h : Atomic s t) (hs : ∀ d ∈ s.descs ch, P d) : ∀ d ∈ t.descs ch, P d := by
  have hstep := (h.ringStep ch).forall_desc hP fun q hq d hd => hs d (mem_descs.mpr ⟨q, hq, hd⟩)
  intro d hd
  obtain ⟨r, hr, hd⟩ := mem_descs.mp hd
  exact hstep r hr d hd

theorem descClosed_memory (c : Config) (ch : Channel) : DescClosed c ch fun d => Memory.wf c.bufSize d.buf.bytes where
  fresh d hbytes _ _ := by rw [hbytes]; exact Memory.wf_nil _
  drain _ h := h
  reclaim _ _ h := h
  post _ _ bytes hb h := Memory.writeFrom_wf bytes h (by omega)
  complete _ _ bytes hb _ h := Memory.writeFrom_wf bytes h (by omega)

theorem descClosed_tagAgrees (c : Config) (ch : Channel) : DescClosed c ch Desc.tagAgrees where
  fresh d _ hst hown := by cases ch <;> simp [Desc.tagAgrees, hst, hown, freshOwn, clearedStatus]
  drain _ _ := by simp [Desc.tagAgrees, armRx, clearedStatus]
  reclaim _ _ _ := by simp [Desc.tagAgrees]
  post _ _ _ _ _ := by simp [Desc.tagAgrees, armTx, clearedStatus]
  complete _ _ _ _ hst _ := by simp [Desc.tagAgrees, hst]

theorem descClosed_rxNeverFree (c : Config) : DescClosed c .rx fun d => d.own ≠ .free where
  fresh d _ _ hown := by simp [hown, freshOwn]
  drain _ _ := by simp [armRx]
  reclaim h := by cases h
  post _ _ _ _ _ := by simp
  complete _ _ _ _ _ _ := by simp

/-- Settles O53: every byte written to a buffer is written below `BUF_SIZE`, in its place. -/
theorem memoryCanonicalKept : Obligations.MemoryCanonicalKept := by
  intro s t hs h
  refine step_keeps (P := State.memoryCanonical) (fun s t _ hat hs ch => ?_) h hs
  rw [hat.cfg]
  exact hat.forall_descs (descClosed_memory s.cfg ch) (hs ch)

/-! ## The receive tail -/

/-- R48(a) on one ring: two slots on from `tail` is `curr`. -/
theorem RingStep.rxTail {c : Config} {r r' : Option Ring} (hc : ConfigFacts c)
    (hs : ∀ q, r = some q → next q.cap (next q.cap q.tail) = q.curr) (h : RingStep c .rx r r') :
    ∀ q, r' = some q → next q.cap (next q.cap q.tail) = q.curr := by
  cases h with
  | same => exact hs
  | teardown => intro q hq; cases hq
  | init _ hb bs =>
    rintro _ ⟨⟩
    have hn : 2 ≤ c.cap .rx := hc.cap_ge_two .rx
    have hlast : next (c.cap .rx) (c.cap .rx - 2) = c.cap .rx - 1 := (next_of_lt (by omega)).trans (by omega)
    simp only [newRing, channelDir]
    rw [hlast, next_wrap (by omega)]
  | drain r d => rintro _ ⟨⟩; exact congrArg (next r.cap) (hs r rfl)
  | complete _ r i d => rintro _ ⟨⟩; exact hs r rfl

/-! ## Distances between slots -/

section
variable {n a b i : Nat}

theorem next_eq_ite (hi : i < n) : next n i = if i + 1 = n then 0 else i + 1 := by
  split
  · rename_i h; simp [next, h]
  · exact next_of_lt (by omega)

theorem dist_eq_ite (ha : a < n) (hb : b < n) : dist n a b = if a ≤ b then b - a else b + n - a := by
  rw [dist, Nat.mod_eq_of_lt ha]
  split
  · rw [show b + (n - a) = b - a + n by omega, Nat.add_mod_right, Nat.mod_eq_of_lt (by omega)]
  · rw [Nat.mod_eq_of_lt (by omega)]; omega

theorem dist_self (ha : a < n) : dist n a a = 0 := by rw [dist_eq_ite ha ha]; simp

theorem dist_inj (ha : a < n) (hb : b < n) (hi : i < n) : dist n a b = dist n a i ↔ b = i := by
  rw [dist_eq_ite ha hb, dist_eq_ite ha hi]
  split <;> split <;> omega

/-- Advancing the start brings every other slot one place nearer. -/
theorem dist_next_left (ha : a < n) (hb : b < n) (h : b ≠ a) : dist n a b = dist n (next n a) b + 1 := by
  have hnext := next_eq_ite ha
  have hlt := next_lt (n := n) (by omega) a
  rw [dist_eq_ite ha hb, dist_eq_ite hlt hb]
  split at hnext <;> split <;> split <;> omega

theorem dist_next_left_self (ha : a < n) : dist n (next n a) a = n - 1 := by
  have hnext := next_eq_ite ha
  have hlt := next_lt (n := n) (by omega) a
  rw [dist_eq_ite hlt ha]
  split at hnext <;> split <;> omega

/-- Advancing the end takes it one place further, unless it comes round to the start. -/
theorem dist_next_right (ha : a < n) (hb : b < n) (h : next n b ≠ a) : dist n a (next n b) = dist n a b + 1 := by
  have hnext := next_eq_ite hb
  have hlt := next_lt (n := n) (by omega) b
  rw [dist_eq_ite ha hb, dist_eq_ite ha hlt]
  split at hnext <;> split <;> split <;> omega

end

/-! ## The order of the transmit ring -/

/-- R46(b) and R47 on one ring. -/
structure TxOrdered (r : Ring) : Prop where
  slots : ∀ i d, r.desc[i]? = some d → (d.own = .free ↔ dist r.cap r.curr r.tail ≤ dist r.cap r.curr i)
  unused : r.curr = r.tail → ∀ d ∈ r.desc, d.unused

theorem txRingOrdered_iff {s : State} : s.txRingOrdered ↔ ∀ r, s.ring .tx = some r → TxOrdered r :=
  ⟨fun h r hr => ⟨(h r hr).1, (h r hr).2⟩, fun h r hr => ⟨(h r hr).slots, (h r hr).unused⟩⟩

theorem setDesc_getElem? {r : Ring} {i j : Nat} {d x : Desc} (h : (r.setDesc i d).desc[j]? = some x) :
    (j = i ∧ x = d) ∨ (j ≠ i ∧ r.desc[j]? = some x) := by
  by_cases hij : j = i
  · subst hij
    obtain ⟨_, hx⟩ := List.getElem?_eq_some_iff.mp h
    exact .inl ⟨rfl, by simpa [Ring.setDesc] using hx.symm⟩
  · exact .inr ⟨hij, by simpa [Ring.setDesc, List.getElem?_set_ne (Ne.symm hij)] using h⟩

section
variable {c : Config} {n i : Nat} {r : Ring} {d : Desc}

theorem RingBounds.index_lt (hr : RingBounds n r) (h : r.desc[i]? = some d) : i < r.cap := by
  obtain ⟨hi, -⟩ := List.getElem?_eq_some_iff.mp h
  rwa [hr.cap, ← hr.length]

theorem newRing_txOrdered {hb : Nat} {bs : List Buffer} (hl : bs.length = n) (hu : ∀ b ∈ bs, b.bytes = []) :
    TxOrdered (newRing c .tx n hb bs) := by
  have hfree : ∀ d ∈ (newRing c .tx n hb bs).desc, d.unused := by
    simp only [newRing, channelDir, List.mem_map]
    rintro _ ⟨b, hb, rfl⟩
    exact ⟨rfl, rfl, rfl, hu b hb⟩
  refine ⟨fun i d hd => ?_, fun _ => hfree⟩
  obtain ⟨hi, -⟩ := List.getElem?_eq_some_iff.mp hd
  obtain ⟨-, -, hlen, -⟩ := newRing_desc (c := c) (ch := .tx) (hb := hb) hl hu
  have hzero : dist n 0 0 = 0 := dist_self (by omega)
  simp [(hfree d (List.mem_of_getElem? hd)).1, newRing, channelDir, hzero]

/-- A reclaim frees the slot at `curr`, which the advance of `curr` makes the last one (R192). -/
theorem reclaim_txOrdered (hb : RingBounds n r) (hr : TxOrdered r) (hd : r.desc[r.curr]? = some d)
    (hc : d.st.cmplt = true) (ht : next r.cap r.curr ≠ r.tail) :
    TxOrdered { r.setDesc r.curr { d with own := .free } with curr := next r.cap r.curr } := by
  have hcurr : r.curr < r.cap := hb.cap ▸ hb.curr
  have htail : r.tail < r.cap := hb.cap ▸ hb.tail
  have hused : r.tail ≠ r.curr := by
    intro he
    obtain ⟨-, -, hst, -⟩ := hr.unused he.symm d (List.mem_of_getElem? hd)
    rw [hst] at hc
    cases hc
  have hdist := dist_next_left hcurr htail hused
  refine ⟨fun i x hx => ?_, fun he => absurd he ht⟩
  change x.own = .free ↔ dist r.cap (next r.cap r.curr) r.tail ≤ dist r.cap (next r.cap r.curr) i
  obtain ⟨rfl, rfl⟩ | ⟨hne, hx⟩ := setDesc_getElem? (r := r) hx
  · have hlt := dist_lt (n := r.cap) (by omega) (next r.cap r.curr) r.tail
    rw [dist_next_left_self hcurr]
    exact iff_of_true rfl (by omega)
  · have hdisti := dist_next_left hcurr (hb.index_lt hx) hne
    rw [hr.slots i x hx]
    omega

/-- A send posts the slot at `tail`, which the advance of `tail` puts among the outstanding ones (R195, R196). -/
theorem post_txOrdered (hb : RingBounds n r) (hr : TxOrdered r) {x : Desc} (hx : x.own = .posted)
    (hf : next r.cap r.tail ≠ r.curr) :
    TxOrdered { r.setDesc r.tail x with tail := next r.cap r.tail } := by
  have hcurr : r.curr < r.cap := hb.cap ▸ hb.curr
  have htail : r.tail < r.cap := hb.cap ▸ hb.tail
  have hdist := dist_next_right hcurr htail hf
  refine ⟨fun i y hy => ?_, fun he => absurd he.symm hf⟩
  change y.own = .free ↔ dist r.cap r.curr (next r.cap r.tail) ≤ dist r.cap r.curr i
  rw [hdist]
  obtain ⟨rfl, rfl⟩ | ⟨hne, hy⟩ := setDesc_getElem? (r := r) hy
  · exact iff_of_false (by simp [hx]) (by omega)
  · have hinj := dist_inj hcurr htail (hb.index_lt hy)
    rw [hr.slots i y hy]
    omega

/-- A completion turns a `POSTED` slot into a `COMPLETED` one (R281). -/
theorem complete_txOrdered (hr : TxOrdered r) (hd : r.desc[i]? = some d) (ho : d.own = .posted) {x : Desc}
    (hx : x.own = .completed) : TxOrdered (r.setDesc i x) := by
  refine ⟨fun j y hy => ?_, fun he => ?_⟩
  · change y.own = .free ↔ dist r.cap r.curr r.tail ≤ dist r.cap r.curr j
    obtain ⟨rfl, rfl⟩ | ⟨-, hy⟩ := setDesc_getElem? hy
    · rw [← hr.slots j d hd, ho, hx]; simp
    · exact hr.slots j y hy
  · obtain ⟨hfree, -⟩ := hr.unused he d (List.mem_of_getElem? hd)
    rw [ho] at hfree
    cases hfree

end

theorem RingStep.txOrdered {c : Config} {r r' : Option Ring} (hb : ∀ q, r = some q → RingBounds (c.cap .tx) q)
    (hs : ∀ q, r = some q → TxOrdered q) (h : RingStep c .tx r r') : ∀ q, r' = some q → TxOrdered q := by
  cases h with
  | same => exact hs
  | teardown => intro q hq; cases hq
  | init _ _ bs hl hu => rintro _ ⟨⟩; exact newRing_txOrdered hl hu
  | reclaim r d hd hc ht => rintro _ ⟨⟩; exact reclaim_txOrdered (hb r rfl) (hs r rfl) hd hc ht
  | post r d len bytes hd _ hf => rintro _ ⟨⟩; exact post_txOrdered (hb r rfl) (hs r rfl) rfl hf
  | complete _ r i d bytes st hd ho => rintro _ ⟨⟩; exact complete_txOrdered (hs r rfl) hd ho rfl

/-- Settles O54: each of the four is kept by every step of a ring on its own, the bounds of the cursors given. -/
theorem ringInvariantsKept : Obligations.RingInvariantsKept := by
  intro s t h
  refine ⟨step_keeps (P := State.tagsAgree) (fun s t _ hat hs ch => ?tags) h,
    step_keeps (P := State.rxTailTrails) (fun s t hw hat hs => ?rxTail) h,
    step_keeps (P := State.rxNeverFree) (fun s t _ hat hs => ?rxFree) h,
    step_keeps (P := State.txRingOrdered) (fun s t hw hat hs => ?txRing) h⟩
  case tags => exact hat.forall_descs (descClosed_tagAgrees s.cfg ch) (hs ch)
  case rxTail => exact (hat.ringStep .rx).rxTail (Config.facts hw.wf) hs
  case rxFree => exact hat.forall_descs (descClosed_rxNeverFree s.cfg) hs
  case txRing =>
    exact txRingOrdered_iff.mpr
      ((hat.ringStep .tx).txOrdered (fun _ hr => hw.ringBounds hr) (txRingOrdered_iff.mp hs))

end Sys2Proof.Machine
end

section
/-! PROOFS. Mutual exclusion (R88, R89, R322), and waiting at an acquire (R56, R88; log 17). -/

namespace Sys2Proof.Machine

/-! ## Writing back an atomic step -/

section
variable {s : State} {k : Nat} {c : Caller}

/-- What a write to a caller leaves alone reads the same of every caller. -/
theorem caller_congr_of_set {α : Type} {t : State} {f : Caller → α} (ht : t.callers = s.callers.set k c)
    (h : f c = f (s.caller k)) (k' : Nat) : f (t.caller k') = f (s.caller k') := by
  have hread : t.caller k' = (s.setCaller k c).caller k' := by simp only [State.caller, State.setCaller, ht]
  rw [hread]
  by_cases hk' : k' = k
  · subst hk'
    by_cases hlen : k' < s.callers.length
    · rw [caller_setCaller_same s k' c hlen, h]
    · simp [State.setCaller, List.set_eq_of_length_le (Nat.not_lt.mp hlen), State.caller]
  · rw [caller_setCaller_ne s k k' c hk']

/-- A property of every caller that the caller written keeps. -/
theorem forall_mem_setCaller {P : Caller → Prop} (hs : ∀ x ∈ s.callers, P x) (hc : P (s.caller k) → P c) :
    ∀ x ∈ s.callers.set k c, P x := by
  intro x hx
  by_cases hk : k < s.callers.length
  · obtain hx | rfl := List.mem_or_eq_of_mem_set hx
    · exact hs x hx
    · exact hc (hs _ (List.mem_of_getElem? (getElem?_caller s k hk)))
  · rw [List.set_eq_of_length_le (Nat.not_lt.mp hk)] at hx
    exact hs x hx

end

section
variable {π : Type} {k : Nat} {f : π → CallerOp} {p : Progress π}

theorem settleCaller_control (k : Nat) (f : π → CallerOp) (p : Progress π) :
    (settleCaller k f p).control = { p.state.control with callers := (settleCaller k f p).callers } := by
  cases p <;> rfl

theorem settleCaller_lock (ch : Channel) : ((settleCaller k f p).chan ch).lock = (p.state.chan ch).lock := by
  cases p <;> cases ch <;> rfl

theorem settleCaller_length : (settleCaller k f p).callers.length = p.state.callers.length := by
  cases p <;> simp [settleCaller, Progress.state, State.setOp, State.respond]

theorem settleCaller_caller_ne {k' : Nat} (h : k' ≠ k) : (settleCaller k f p).caller k' = p.state.caller k' := by
  cases p with
  | goto | done => exact caller_setCaller_ne _ _ _ _ h
  | wait | stop => rfl

/-- The position a caller's operation is left at is written back. -/
theorem settleCaller_op {op : CallerOp} (hk : k < p.state.callers.length) (hop : (p.state.caller k).op = op) :
    ((settleCaller k f p).caller k).op = p.after f op := by
  cases p with
  | goto q s => exact congrArg Caller.op (setOp_caller hk (f q))
  | done c v s => exact congrArg Caller.op (caller_setCaller_same s k _ hk)
  | wait | stop => exact hop

end

theorem settlePoll_control (p : Progress DrainPos) :
    (settlePoll p).control = { p.state.control with defer := (settlePoll p).defer } := by
  cases p with
  | done c work s => exact (pollAfterDrain_cases c work s).1.control
  | goto | wait | stop => rfl

theorem settlePoll_lock (p : Progress DrainPos) : ∀ ch, ((settlePoll p).chan ch).lock = (p.state.chan ch).lock
  | .tx => congrArg Control.lockTx (settlePoll_control p)
  | .rx => congrArg Control.lockRx (settlePoll_control p)

/-! ## The locks -/

theorem atHolding_congr {s t : State} (hlen : t.callers.length = s.callers.length)
    (hop : ∀ k, holdsAt (t.caller k).op = holdsAt (s.caller k).op) (hd : pollHolds t.defer.op = pollHolds s.defer.op)
    (a : Agent) (ch : Channel) : t.atHolding a ch ↔ s.atHolding a ch := by
  cases a with
  | caller k => simp only [State.atHolding, hlen, hop]
  | defer => simp only [State.atHolding, hd]
  | irqTx | irqRx | engTx | engRx | trace => rfl

theorem lockDiscipline_of_same {s t : State} (hl : ∀ ch, (t.chan ch).lock = (s.chan ch).lock)
    (hh : ∀ a ch, t.atHolding a ch ↔ s.atHolding a ch) (hs : s.lockDiscipline) : t.lockDiscipline :=
  fun ch a => by rw [hl, hh]; exact hs ch a

/-- What a move of an operation of agent `a` can do to the locks: the operation holds the lock of the first channel
before it, of the second after it. -/
inductive LockMove (a : Agent) (s t : State) : Option Channel → Option Channel → Prop where
  | same (h : Option Channel) (hl : ∀ ch, (t.chan ch).lock = (s.chan ch).lock) : LockMove a s t h h
  | acquire (c : Channel) (hf : (s.chan c).lock = .free)
      (hl : ∀ ch, (t.chan ch).lock = if ch = c then .held a else (s.chan ch).lock) : LockMove a s t none (some c)
  | release (c : Channel) (hl : ∀ ch, (t.chan ch).lock = if ch = c then .free else (s.chan ch).lock) :
      LockMove a s t (some c) none

theorem OpMove.lockMove {π : Type} {a : Agent} {s : State} {f : π → CallerOp} {op : CallerOp} {p : Progress π}
    (h : OpMove a s f op p) : LockMove a s p.state (holdsAt op) (holdsAt (p.after f op)) := by
  cases h with
  | go hq hh => rw [Progress.after, hh]; exact .same _ hq.lock
  | stops hq => exact .same _ hq.lock
  | wait => exact .same _ fun _ => rfl
  | acquire ch hf hh hh' => rw [Progress.after, hh, hh']; exact .acquire ch hf (lock_setLock s ch · _)
  | release ch hh hh' => rw [Progress.after, hh, hh']; exact .release ch (lock_setLock s ch · _)
  | returns ch c v hh => rw [hh]; exact .release ch (lock_setLock s ch · _)
  | lives l l' hq hh hh' => rw [Progress.after, hh, hh']; exact .same none hq.lock
  | ends l c v hq hh => rw [hh]; exact .same none hq.lock
  | rollsBack c v hq hh => rw [hh]; exact .same none hq.lock

theorem LockMove.congr {a : Agent} {s t u : State} {h h' : Option Channel} (hm : LockMove a s t h h')
    (hu : ∀ ch, (u.chan ch).lock = (t.chan ch).lock) : LockMove a s u h h' := by
  cases hm with
  | same _ hl => exact .same _ fun ch => (hu ch).trans (hl ch)
  | acquire c hf hl => exact .acquire c hf fun ch => (hu ch).trans (hl ch)
  | release c hl => exact .release c fun ch => (hu ch).trans (hl ch)

/-- A move that writes no other agent's part keeps mutual exclusion. -/
theorem LockMove.lockDiscipline {a : Agent} {s t : State} {h h' : Option Channel} (hm : LockMove a s t h h')
    (ha : ∀ ch, s.atHolding a ch ↔ h = some ch) (ha' : ∀ ch, t.atHolding a ch ↔ h' = some ch)
    (hother : ∀ b, b ≠ a → ∀ ch, t.atHolding b ch ↔ s.atHolding b ch) (hs : s.lockDiscipline) :
    t.lockDiscipline := by
  intro ch b
  have hsb := hs ch b
  by_cases hb : b = a
  · subst hb
    rw [ha']
    rw [ha] at hsb
    cases hm with
    | same _ hl => rw [hl]; exact hsb
    | acquire c hf hl =>
      rw [hl]
      split
      · rename_i hc; simp [hc]
      · rename_i hne; rw [hsb]; simp [Ne.symm hne]
    | release c hl =>
      rw [hl]
      split
      · simp
      · rename_i hne; rw [hsb]; simp [Ne.symm hne]
  · rw [hother b hb]
    cases hm with
    | same _ hl => rw [hl]; exact hsb
    | acquire c hf hl =>
      rw [hl, ← hsb]
      split
      · rename_i hc; subst hc; simp [hf, Ne.symm hb]
      · rfl
    | release c hl =>
      rw [hl, ← hsb]
      split
      · rename_i hc; subst hc
        have hheld : (s.chan ch).lock = .held a := (hs ch a).mpr ((ha ch).mpr rfl)
        simp [hheld, Ne.symm hb]
      · rfl

/-- The poll holds the receive lock where a caller's drain would (R161, R167). -/
theorem pollHolds_drain (b : Nat) (pos : DrainPos) (ch : Channel) :
    (ch = .rx ∧ pollHolds (.drain pos) = true) ↔ holdsAt (.drain b pos) = some ch := by
  cases pos <;> simp [pollHolds, holdsAt, eq_comm]

theorem settlePoll_holds {s : State} {b : Nat} {pos : DrainPos} {p : Progress DrainPos} (hp : s.defer.op = .drain pos)
    (hm : OpMove .defer s (.drain b) (.drain b pos) p) (ch : Channel) :
    (settlePoll p).atHolding .defer ch ↔ holdsAt (p.after (.drain b) (.drain b pos)) = some ch := by
  have hdefer := hm.defer
  cases p with
  | goto q t => exact pollHolds_drain b q ch
  | wait t | stop t =>
    simp only [Progress.state] at hdefer
    simp only [settlePoll, State.atHolding, hdefer, hp]
    exact pollHolds_drain b pos ch
  | done c work t =>
    obtain ⟨-, hholds, -⟩ := pollAfterDrain_cases c work t
    simp [settlePoll, State.atHolding, hholds, Progress.after, holdsAt]

/-- A step that moves no lock, and no agent into or out of a critical section. -/
theorem lockDiscipline_of_callers {s t : State} (hl : ∀ ch, (t.chan ch).lock = (s.chan ch).lock)
    (hc : t.callers = s.callers) (hd : pollHolds t.defer.op = pollHolds s.defer.op) (hs : s.lockDiscipline) :
    t.lockDiscipline :=
  lockDiscipline_of_same hl (atHolding_congr (by rw [hc]) (fun k => by simp only [State.caller, hc]) hd) hs

/-- The same for a step that writes one caller. -/
theorem lockDiscipline_of_set {s t : State} {k : Nat} {c : Caller} (hl : ∀ ch, (t.chan ch).lock = (s.chan ch).lock)
    (hc : t.callers = s.callers.set k c) (hh : holdsAt c.op = holdsAt (s.caller k).op) (hd : t.defer = s.defer)
    (hs : s.lockDiscipline) : t.lockDiscipline :=
  lockDiscipline_of_same hl (atHolding_congr (by rw [hc, List.length_set])
    (caller_congr_of_set (f := fun x => holdsAt x.op) hc hh) (by rw [hd])) hs

/-- A step of a caller's operation writes no other agent's part. -/
theorem settleCaller_lockDiscipline {π : Type} {s : State} {k : Nat} {f : π → CallerOp} {p : Progress π}
    (hk : k < s.callers.length) (hm : OpMove (.caller k) s f (s.caller k).op p) (hs : s.lockDiscipline) :
    (settleCaller k f p).lockDiscipline := by
  have hlen : (settleCaller k f p).callers.length = s.callers.length := by rw [settleCaller_length, hm.callers]
  have hdefer : (settleCaller k f p).defer = s.defer :=
    (congrArg Control.defer (settleCaller_control k f p)).trans hm.defer
  have hop := settleCaller_op (f := f) (p := p) (by rwa [hm.callers]) (congrArg Caller.op (hm.caller k))
  refine (hm.lockMove.congr settleCaller_lock).lockDiscipline (fun ch => ?_) (fun ch => ?_) (fun b hb ch => ?_) hs
  · simp [State.atHolding, hk]
  · simp [State.atHolding, hlen, hk, hop]
  · cases b with
    | caller k' =>
      have hne : k' ≠ k := fun h => hb (by rw [h])
      simp only [State.atHolding, hlen, settleCaller_caller_ne hne, hm.caller]
    | defer => simp only [State.atHolding, hdefer]
    | irqTx | irqRx | engTx | engRx | trace => rfl

/-- A step of the poll's drain writes no other agent's part. -/
theorem settlePoll_lockDiscipline {s : State} {b : Nat} {pos : DrainPos} {p : Progress DrainPos}
    (hp : s.defer.op = .drain pos) (hm : OpMove .defer s (.drain b) (.drain b pos) p) (hs : s.lockDiscipline) :
    (settlePoll p).lockDiscipline := by
  have hcallers : (settlePoll p).callers = s.callers :=
    (congrArg Control.callers (settlePoll_control p)).trans hm.callers
  refine (hm.lockMove.congr (settlePoll_lock p)).lockDiscipline (fun ch => ?_) (settlePoll_holds hp hm)
    (fun a ha ch => ?_) hs
  · simp only [State.atHolding, hp]; exact pollHolds_drain b pos ch
  · cases a with
    | caller k => simp only [State.atHolding, State.caller, hcallers]
    | defer => exact absurd rfl ha
    | irqTx | irqRx | engTx | engRx | trace => rfl

theorem ControlStep.lockDiscipline {s t : State} (h : ControlStep s t) (hs : s.lockDiscipline) :
    t.lockDiscipline := by
  cases h with
  | quiet hq => exact lockDiscipline_of_callers hq.lock hq.callers (by rw [hq.defer]) hs
  | handler hh => exact lockDiscipline_of_callers (s := s) hh.quiet.lock hh.quiet.callers (by rw [hh.quiet.defer]) hs
  | poll hp => exact lockDiscipline_of_callers (s := s) hp.quiet.lock hp.quiet.callers hp.holds hs
  | answer k c v hi ht =>
    subst ht
    exact lockDiscipline_of_set (fun ch => by cases ch <;> rfl) rfl (by rw [hi]) rfl hs
  | begins k op hi hh _ ht | lifecycle k op _ _ hi _ hh _ _ ht =>
    subst ht
    have hsame : holdsAt op = holdsAt (s.caller k).op := by rw [hi]; exact hh
    exact lockDiscipline_of_set (s := s) (fun ch => by cases ch <;> rfl) rfl hsame rfl hs
  | caller k f p hk hm ht => subst ht; exact settleCaller_lockDiscipline hk hm hs
  | pollDrain b pos p hp hm ht => subst ht; exact settlePoll_lockDiscipline hp hm hs

/-! ## Waiting -/

theorem CallersStep.waitsAtAcquire {s t : State} (h : CallersStep s t) (hs : s.waitsAtAcquire) : t.waitsAtAcquire := by
  unfold State.waitsAtAcquire
  cases h with
  | same h => rw [h]; exact hs
  | op k op h | respond k c v h => rw [h]; exact forall_mem_setCaller hs fun _ => rfl

/-- A caller at an acquire whose lock is held has no enabled step (R88). -/
theorem enabled_of_blocked {s : State} {k : Nat} {c : Choice} (hb : s.callerBlocked k = true)
    (ha : choiceAgent c = .caller k) : s.enabled c = false := by
  have hbusy : (s.caller k).op ≠ .idle := by
    intro hi
    simp [State.callerBlocked, hi, acquiring] at hb
  cases c with
  | command j | start j => cases ha; simp [State.enabled, State.callerReady, hbusy]
  | advance j => cases ha; simp [State.enabled, State.callerCanAdvance, hb]
  | handle ch | enter ch | advanceIrq ch | delay ch | halt ch | fail ch => cases ch <;> cases ha
  | poll | startPoll | advancePoll | txComplete | rxComplete | trace => cases ha

/-- Settles O55: a lock changes hands only as its agent enters or leaves its critical section. -/
theorem lockDisciplineKept : Obligations.LockDisciplineKept := by
  intro s t h
  exact ⟨step_keeps (fun _ _ _ hat hs => hat.controlStep.lockDiscipline hs) h,
    step_keeps (fun _ _ _ hat hs => hat.callersStep.waitsAtAcquire hs) h, fun _ _ => enabled_of_blocked⟩

end Sys2Proof.Machine
end

section
/-! PROOFS. The lifecycle: `lcBusy`, `life` and the position of the lifecycle command (R31, R220, R222, R227, R230). -/

namespace Sys2Proof.Machine

/-! ## What a move of an operation does to the lifecycle -/

/-- What a move of an operation can do to `life` and `lcBusy`: the first value is what `life` is at the position before
it, the second at the one after it; none outside a lifecycle command. -/
inductive LifeMove (s t : State) : Option Life → Option Life → Prop where
  | same (h : Option Life) (hl : t.life = s.life) (hb : t.lcBusy = s.lcBusy) : LifeMove s t h h
  | moves (l l' : Life) (he : lifeEdge l l' = true) (hs : l' ≠ .stopped) (hl : t.life = l') (hb : t.lcBusy = s.lcBusy) :
      LifeMove s t (some l) (some l')
  | ends (l : Life) (hr : l ≠ .ready) (hl : t.life = s.life) (hb : t.lcBusy = false) : LifeMove s t (some l) none
  | rollsBack (hl : t.life = .uninitialized) (hb : t.lcBusy = false) : LifeMove s t (some .ready) none

theorem OpMove.lifeMove {π : Type} {a : Agent} {s : State} {f : π → CallerOp} {op : CallerOp} {p : Progress π}
    (h : OpMove a s f op p) : LifeMove s p.state (lifeAt op) (lifeAt (p.after f op)) := by
  cases h with
  | go hq _ hl => rw [Progress.after, hl]; exact .same _ hq.life hq.lcBusy
  | stops hq => exact .same _ hq.life hq.lcBusy
  | wait => exact .same _ rfl rfl
  | acquire ch _ _ _ hl => rw [Progress.after, hl]; exact .same _ (setLock_life s ch _) (setLock_lcBusy s ch _)
  | release ch _ _ hl => rw [Progress.after, hl]; exact .same _ (release_life s ch) (release_lcBusy s ch)
  | returns ch c v _ hl => rw [hl]; exact .same none (release_life s ch) (release_lcBusy s ch)
  | lives l l' hq _ _ hl hl' he hs => rw [Progress.after, hl, hl']; exact .moves l l' he hs hq.life hq.lcBusy
  | ends l c v hq _ hl hr => rw [hl]; exact .ends l hr hq.life hq.lcBusy
  | rollsBack c v hq _ hl => rw [hl]; exact .rollsBack hq.life hq.lcBusy

theorem LifeMove.congr {s t u : State} {h h' : Option Life} (hm : LifeMove s t h h') (hl : u.life = t.life)
    (hb : u.lcBusy = t.lcBusy) : LifeMove s u h h' := by
  cases hm with
  | same _ hl' hb' => exact .same _ (hl.trans hl') (hb.trans hb')
  | moves l l' he hs hl' hb' => exact .moves l l' he hs (hl.trans hl') (hb.trans hb')
  | ends l hr hl' hb' => exact .ends l hr (hl.trans hl') (hb.trans hb')
  | rollsBack hl' hb' => exact .rollsBack (hl.trans hl') (hb.trans hb')

/-- Outside a lifecycle command a move leaves `life` and `lcBusy` alone. -/
theorem LifeMove.of_none {s t : State} {h' : Option Life} (hm : LifeMove s t none h') :
    t.life = s.life ∧ t.lcBusy = s.lcBusy := by
  cases hm with
  | same _ hl hb => exact ⟨hl, hb⟩

theorem settleCaller_lifeMove {π : Type} {s : State} {k : Nat} {f : π → CallerOp} {op : CallerOp} {p : Progress π}
    (hm : OpMove (.caller k) s f op p) : LifeMove s (settleCaller k f p) (lifeAt op) (lifeAt (p.after f op)) :=
  hm.lifeMove.congr (congrArg Control.life (settleCaller_control k f p))
    (congrArg Control.lcBusy (settleCaller_control k f p))

/-- The poll's drain leaves `life` and `lcBusy` alone. -/
theorem settlePoll_lifeMove {s : State} {b : Nat} {pos : DrainPos} {p : Progress DrainPos}
    (hm : OpMove .defer s (.drain b) (.drain b pos) p) :
    (settlePoll p).life = s.life ∧ (settlePoll p).lcBusy = s.lcBusy :=
  (hm.lifeMove.congr (congrArg Control.life (settlePoll_control p))
    (congrArg Control.lcBusy (settlePoll_control p))).of_none

/-! ## The lifecycle discipline -/

/-- A step that moves no caller into, out of or within a lifecycle command. -/
theorem lifecycleDiscipline_congr {s t : State} (hlen : t.callers.length = s.callers.length)
    (hop : ∀ k, lifeAt (t.caller k).op = lifeAt (s.caller k).op) (hl : t.life = s.life) (hb : t.lcBusy = s.lcBusy)
    (hs : s.lifecycleDiscipline) : t.lifecycleDiscipline := by
  have hin : ∀ k, t.inLifecycle k ↔ s.inLifecycle k := fun k => by simp only [State.inLifecycle, hlen, hop]
  simpa only [State.lifecycleDiscipline, hin, hop, hl, hb] using hs

theorem lifecycleDiscipline_of_callers {s t : State} (hc : t.callers = s.callers) (hl : t.life = s.life)
    (hb : t.lcBusy = s.lcBusy) (hs : s.lifecycleDiscipline) : t.lifecycleDiscipline :=
  lifecycleDiscipline_congr (by rw [hc]) (fun k => by simp only [State.caller, hc]) hl hb hs

/-- Only caller `k` is inside a lifecycle command, at a position of `l`. -/
theorem lifecycleDiscipline_of_only {t : State} {k : Nat} {l : Life} (hk : k < t.callers.length)
    (hop : lifeAt (t.caller k).op = some l) (honly : ∀ j, t.inLifecycle j → j = k) (hl : t.life = l)
    (hb : t.lcBusy = true) : t.lifecycleDiscipline := by
  refine ⟨iff_of_true hb ⟨k, hk, by rw [hop]; rfl⟩, fun i j hi hj => (honly i hi).trans (honly j hj).symm,
    fun j l' hj hl' => ?_, fun _ => hb⟩
  rw [honly j hj, hop] at hl'
  exact hl.trans (Option.some.inj hl')

/-- No caller is inside a lifecycle command. -/
theorem lifecycleDiscipline_of_none {t : State} (hnone : ∀ j, ¬ t.inLifecycle j) (hl : t.life ≠ .ready)
    (hb : t.lcBusy = false) : t.lifecycleDiscipline :=
  ⟨iff_of_false (by simp [hb]) fun ⟨j, hj⟩ => hnone j hj, fun j _ hj => absurd hj (hnone j),
    fun j _ hj => absurd hj (hnone j), fun h => absurd h hl⟩

/-- A move of the operation of caller `k` keeps the discipline. -/
theorem LifeMove.lifecycleDiscipline {s t : State} {k : Nat} {h h' : Option Life} (hm : LifeMove s t h h')
    (hk : k < s.callers.length) (hlen : t.callers.length = s.callers.length) (hop : lifeAt (s.caller k).op = h)
    (hop' : lifeAt (t.caller k).op = h') (hother : ∀ j, j ≠ k → t.caller j = s.caller j)
    (hs : s.lifecycleDiscipline) : t.lifecycleDiscipline := by
  obtain ⟨hbusy, honly, hlife, hready⟩ := hs
  have hin : ∀ {l}, h = some l → s.inLifecycle k := fun hl => ⟨hk, by rw [hop, hl]; rfl⟩
  have hback : ∀ j, j ≠ k → t.inLifecycle j → s.inLifecycle j := fun j hj ⟨hlt, hsome⟩ =>
    ⟨hlen ▸ hlt, hother j hj ▸ hsome⟩
  have hleft : ∀ {l}, h = some l → ∀ j, t.inLifecycle j → j = k := fun hl j hj =>
    not_not.mp fun hne => hne (honly j k (hback j hne hj) (hin hl))
  have hgone : ∀ {l}, h = some l → h' = none → ∀ j, ¬ t.inLifecycle j := fun hl hn j hj => by
    obtain rfl := hleft hl j hj
    obtain ⟨-, hsome⟩ := hj
    rw [hop', hn] at hsome
    cases hsome
  cases hm with
  | same _ hl hb =>
    refine lifecycleDiscipline_congr hlen (fun j => ?_) hl hb ⟨hbusy, honly, hlife, hready⟩
    by_cases hj : j = k
    · rw [hj, hop, hop']
    · rw [hother j hj]
  | moves l l' he hs hl hb =>
    exact lifecycleDiscipline_of_only (by omega) hop' (hleft rfl) hl (hb.trans (hbusy.mpr ⟨k, hin rfl⟩))
  | ends l hr hl hb =>
    refine lifecycleDiscipline_of_none (hgone rfl rfl) ?_ hb
    rw [hl, hlife k l (hin rfl) hop]
    exact hr
  | rollsBack hl hb => exact lifecycleDiscipline_of_none (hgone rfl rfl) (by rw [hl]; decide) hb

/-- A lifecycle command begins while none is in progress (R230). -/
theorem setOp_lifecycleDiscipline {u : State} {k : Nat} {op : CallerOp} (hk : k < u.callers.length)
    (hnone : ∀ j, j ≠ k → ¬ u.inLifecycle j) (hl : lifeAt op = some u.life) (hb : u.lcBusy = true) :
    (u.setOp k op).lifecycleDiscipline := by
  have hlen : (u.setOp k op).callers.length = u.callers.length := setCaller_length u k _
  refine lifecycleDiscipline_of_only (hlen ▸ hk) (by rw [setOp_caller hk]; exact hl) (fun j ⟨hlt, hsome⟩ => ?_) rfl hb
  by_contra hne
  exact hnone j hne ⟨hlen ▸ hlt, caller_setCaller_ne u k j _ hne ▸ hsome⟩

theorem ControlStep.lifecycleDiscipline {s t : State} (h : ControlStep s t) (hs : s.lifecycleDiscipline) :
    t.lifecycleDiscipline := by
  cases h with
  | quiet hq => exact lifecycleDiscipline_of_callers hq.callers hq.life hq.lcBusy hs
  | handler hh => exact lifecycleDiscipline_of_callers (s := s) hh.quiet.callers hh.quiet.life hh.quiet.lcBusy hs
  | poll hp => exact lifecycleDiscipline_of_callers (s := s) hp.quiet.callers hp.quiet.life hp.quiet.lcBusy hs
  | answer k c v hi ht =>
    subst ht
    refine lifecycleDiscipline_congr (setCaller_length s k _) (fun j => ?_) rfl rfl hs
    exact caller_congr_of_set (f := fun x => lifeAt x.op) rfl (congrArg lifeAt hi).symm j
  | begins k op hi _ hl ht =>
    subst ht
    refine lifecycleDiscipline_congr (setCaller_length s k _) (fun j => ?_) rfl rfl hs
    exact caller_congr_of_set (f := fun x => lifeAt x.op) rfl (hl.trans (congrArg lifeAt hi).symm) j
  | lifecycle k op l hk _ hb _ hl _ ht =>
    subst ht
    obtain ⟨hbusy, -, -, -⟩ := hs
    have hnone : ∀ j, ¬ s.inLifecycle j := fun j hj => by simp [hbusy.mpr ⟨j, hj⟩] at hb
    exact setOp_lifecycleDiscipline (u := { s with lcBusy := true, life := l }) hk (fun j _ => hnone j) hl rfl
  | caller k f p hk hm ht =>
    subst ht
    refine (settleCaller_lifeMove hm).lifecycleDiscipline hk (by rw [settleCaller_length, hm.callers]) rfl ?_
      (fun j hj => by rw [settleCaller_caller_ne hj, hm.caller]) hs
    rw [settleCaller_op (by rwa [hm.callers]) (congrArg Caller.op (hm.caller k))]
  | pollDrain b pos p hp hm ht =>
    subst ht
    obtain ⟨hl, hb⟩ := settlePoll_lifeMove hm
    exact lifecycleDiscipline_of_callers ((congrArg Control.callers (settlePoll_control p)).trans hm.callers) hl hb hs

/-! ## How `life` moves -/

/-- Where the steps of one caller's operation can take `life`: never to `STOPPED`, and nowhere from `RUNNING`. -/
def LifeRises (l l' : Life) : Prop := l' = l ∨ (l = .uninitialized ∨ l = .ready) ∧ l' ≠ .stopped

theorem LifeRises.refl (l : Life) : LifeRises l l := .inl rfl

theorem LifeRises.trans {l l' l'' : Life} (h : LifeRises l l') (h' : LifeRises l' l'') : LifeRises l l'' := by
  obtain rfl | ⟨hl, hl'⟩ := h
  · exact h'
  · obtain rfl | ⟨-, hl''⟩ := h'
    · exact .inr ⟨hl, hl'⟩
    · exact .inr ⟨hl, hl''⟩

theorem lifeRises_of_edge {l l' : Life} (he : lifeEdge l l' = true) (hs : l' ≠ .stopped) : LifeRises l l' := by
  refine .inr ⟨?_, hs⟩
  cases l with
  | uninitialized => exact .inl rfl
  | ready => exact .inr rfl
  | running => cases l' <;> simp_all [lifeEdge]
  | stopped => cases l' <;> cases he

/-- Under the discipline a move of an operation takes `life` along one edge of R220 at most, and never to `STOPPED`. -/
theorem LifeMove.life {s t : State} {k : Nat} {h' : Option Life} (hs : s.lifecycleDiscipline)
    (hk : k < s.callers.length) (hm : LifeMove s t (lifeAt (s.caller k).op) h') :
    t.life = s.life ∨ lifeEdge s.life t.life = true ∧ t.life ≠ .stopped := by
  obtain ⟨-, -, hlife, -⟩ := hs
  have hat : ∀ l, lifeAt (s.caller k).op = some l → s.life = l := fun l hl => hlife k l ⟨hk, by rw [hl]; rfl⟩ hl
  generalize hop : lifeAt (s.caller k).op = h at hm hat
  cases hm with
  | same _ hl | ends _ _ hl => exact .inl hl
  | moves l l' he hne hl => rw [hat l rfl, hl]; exact .inr ⟨he, hne⟩
  | rollsBack hl => rw [hat .ready rfl, hl]; exact .inr ⟨rfl, by decide⟩

theorem ControlStep.life {s t : State} (h : ControlStep s t) (hs : s.lifecycleDiscipline) :
    t.life = s.life ∨ lifeEdge s.life t.life = true := by
  cases h with
  | quiet hq => exact .inl hq.life
  | handler hh => exact .inl hh.quiet.life
  | poll hp => exact .inl hp.quiet.life
  | answer _ _ _ _ ht | begins _ _ _ _ _ ht => subst ht; exact .inl rfl
  | lifecycle k op l _ _ _ _ _ he ht => subst ht; exact he
  | caller k f p hk hm ht =>
    subst ht
    exact ((settleCaller_lifeMove hm).life hs hk).imp_right And.left
  | pollDrain b pos p hp hm ht =>
    subst ht
    exact .inl (settlePoll_lifeMove hm).1

/-! ## A whole step -/

theorem callerStep_life {k : Nat} {s : State} (hs : s.lifecycleDiscipline) (he : s.callerCanAdvance k = true) :
    LifeRises s.life (callerStep k s).life := by
  have hk : k < s.callers.length := by
    simp only [State.callerCanAdvance, Bool.and_eq_true, decide_eq_true_eq] at he
    exact he.1.1.1
  obtain h | ⟨π, f, p, hm, h⟩ := callerStep_move k s
  · rw [h]; exact .refl _
  · rw [h]
    obtain hl | ⟨hedge, hne⟩ := (settleCaller_lifeMove hm).life hs hk
    · exact .inl hl
    · exact lifeRises_of_edge hedge hne

/-- What each enabled step keeps, a whole operation keeps. -/
theorem runWhile_keeps {P : State → Prop} {enabled : State → Bool} {stp : State → State}
    (h : ∀ s, enabled s = true → P s → P (stp s)) : ∀ n s, P s → P (runWhile enabled stp n s)
  | 0, _, hs => hs
  | n + 1, s, hs => by
    cases he : enabled s with
    | false => rw [runWhile_of_disabled he]; exact hs
    | true => rw [runWhile_step he]; exact runWhile_keeps h n (stp s) (h s he hs)

/-- However far a caller's operation runs, it never takes `life` to `STOPPED` (R226). -/
theorem runCaller_life (k : Nat) {s : State} (hs : s.lifecycleDiscipline) : LifeRises s.life (runCaller k s).life :=
  (runWhile_keeps (P := fun u => u.lifecycleDiscipline ∧ LifeRises s.life u.life)
    (fun _ he ⟨hd, hl⟩ => ⟨(callerStep_controlStep he).lifecycleDiscipline hd, hl.trans (callerStep_life hd he)⟩)
    _ s ⟨hs, .refl _⟩).2

theorem runIrq_life (ch : Channel) (s : State) : (runIrq ch s).life = s.life :=
  runWhile_keeps (P := fun u => u.life = s.life) (fun u _ hu => (irqStep_handlerStep ch u).quiet.life.trans hu) _ s rfl

theorem pollStep_life (s : State) : (pollStep s).life = s.life := by
  cases hp : s.defer.op with
  | idle => simp only [pollStep, hp]
  | drain pos => rw [pollStep_drain hp]; exact (settlePoll_lifeMove (drainStep_move _ _ _ s)).1
  | enable work | ret work => simp only [pollStep, hp]; rfl

theorem runPoll_life (s : State) : (runPoll s).life = s.life :=
  runWhile_keeps (P := fun u => u.life = s.life) (fun u _ hu => (pollStep_life u).trans hu) _ s rfl

/-- A command that no caller issues leaves `life` alone. -/
theorem exec_life {i : Instr} {s t : State} (hc : i.commandClass ≠ .caller) (h : exec i s = .next t) :
    t.life = s.life := by
  cases hi : i.commandClass with
  | caller => exact absurd hi hc
  | internal => exact (quiet_internal hi h).life
  | irqRxOnly => cases i <;> cases hi; cases h; exact runIrq_life .rx _
  | irqTxOnly => cases i <;> cases hi; cases h; exact runIrq_life .tx _
  | deferOnly => cases i <;> cases hi; cases h; exact runPoll_life _

theorem runTrace_life {s t : State} (h : runTrace s = .next t) : t.life = s.life := by
  unfold runTrace at h
  split at h
  · cases h; rfl
  · split at h
    · cases h
    · cases h
    · split at h
      · cases h
      · rename_i hc; exact (exec_life hc h).trans rfl

/-- What an issued command does to `life`, given what running an admitted one does. -/
theorem issue_life {P : Life → Life → Prop} (hrefl : ∀ l, P l l) {k : Nat}
    {run : Instr → State → Host.Outcome State Fault Refusal} {s t : State} (h : issue k run s = .next t)
    (hrun : ∀ i, i.commandClass = .caller → run i { s with active := k } = .next t → P s.life t.life) :
    P s.life t.life := by
  unfold issue at h
  split at h
  · cases h; exact hrefl _
  · split at h
    · rename_i i hi; exact hrun i (admission_caller hi).2.2 h
    all_goals cases h; exact hrefl _

/-- One event, and then the rest of a whole operation of the caller, seen as a move of `life`. -/
theorem lifeRises_after_edge {a b c : Life} (hab : b = a ∨ lifeEdge a b = true) (hbc : LifeRises b c) :
    c = a ∨ lifeEdge a c = true ∨ (a = .uninitialized ∧ c = .running) := by
  obtain rfl | ⟨hb, hc⟩ := hbc
  · exact hab.imp_right .inl
  · have ha : a = .uninitialized ∨ a = .ready := by
      obtain rfl | he := hab
      · exact hb
      · obtain rfl | rfl := hb <;> cases a <;> simp_all [lifeEdge]
    obtain rfl | rfl := ha <;> cases c <;> simp_all [lifeEdge]

/-- The start of a caller's command, as a step of the control part. -/
theorem startInstr_life {i : Instr} {s u : State} {k : Nat} (hs : s.lifecycleDiscipline)
    (hr : s.callerReady k = true) (hc : i.commandClass = .caller) (h : startInstr i { s with active := k } = .next u) :
    u.lifecycleDiscipline ∧ (u.life = s.life ∨ lifeEdge s.life u.life = true) := by
  have hstep := startInstr_controlStep (s := { s with active := k }) hc hr h
  exact ⟨hstep.lifecycleDiscipline hs, hstep.life hs⟩

/-- What a choice can do to `life` (R220; log 4). -/
def LifeOutcome (c : Choice) (l l' : Life) : Prop :=
  l' = l ∨ lifeEdge l l' = true ∨ (l = .uninitialized ∧ l' = .running ∧ ∃ k, c = .command k)

theorem takeChoice_life {c : Choice} {s t : State} (hs : s.lifecycleDiscipline) (he : s.enabled c = true)
    (h : takeChoice c s = .next t) : LifeOutcome c s.life t.life := by
  have hatomic : Atomic s t → LifeOutcome c s.life t.life := fun ha => (ha.controlStep.life hs).imp_right .inl
  cases c with
  | command k =>
    simp only [State.enabled, Bool.and_eq_true] at he
    refine issue_life (P := LifeOutcome (.command k)) (fun _ => .inl rfl) h fun i hi hrun => ?_
    obtain ⟨u, hu, ht⟩ := exec_startInstr_then hi hrun
    obtain ⟨hdisc, hlife⟩ := startInstr_life hs he.1 hi hu
    have hrise : LifeRises u.life t.life := by
      obtain rfl | rfl := ht
      · exact .refl _
      · exact runCaller_life k hdisc
    exact (lifeRises_after_edge hlife hrise).imp_right (Or.imp_right fun ⟨ha, hc⟩ => ⟨ha, hc, k, rfl⟩)
  | start k =>
    simp only [State.enabled, Bool.and_eq_true] at he
    refine issue_life (P := LifeOutcome (.start k)) (fun _ => .inl rfl) h fun i hi hrun => ?_
    exact (startInstr_life hs he.1 hi hrun).2.imp_right .inl
  | advance k => cases h; exact hatomic (.caller s k he)
  | handle ch =>
    cases ch with
    | tx => exact .inl (exec_life (i := .txIrq) (by decide) h)
    | rx => exact .inl (exec_life (i := .rxIrq) (by decide) h)
  | enter ch => cases h; exact .inl (irqEntry_handlerStep s ch).quiet.life
  | advanceIrq ch => cases h; exact .inl (irqStep_handlerStep ch s).quiet.life
  | poll => exact .inl (exec_life (i := .rxPoll) (by decide) h)
  | startPoll => cases h; exact .inl rfl
  | advancePoll => cases h; exact .inl (pollStep_life s)
  | txComplete => cases h; exact hatomic (.txComplete s he)
  | rxComplete => cases h; exact hatomic (.rxComplete s he)
  | delay ch => cases h; exact hatomic (.delay s ch he)
  | halt ch => cases h; exact hatomic (.halt s ch he)
  | fail ch => cases h; exact hatomic (.fail s ch he)
  | trace => exact .inl (runTrace_life h)

/-- What a step can do to `life`. -/
theorem step_life {s t : State} (hs : s.lifecycleDiscipline) (h : step s = .next t) :
    LifeOutcome s.nextChoice s.life t.life := by
  have hpop : Quiet s s.popChoice := by unfold State.popChoice; split <;> exact .of_eq rfl rfl
  have hdisc := (Atomic.pop s).controlStep.lifecycleDiscipline hs
  rw [← hpop.life]
  unfold step stepOnce at h
  split at h
  · split at h
    · unfold act at h
      split at h
      · exact takeChoice_life hdisc ‹_› h
      · cases h; exact .inl rfl
    · cases h
  · cases h

/-- `STOPPED` is final (R220). -/
theorem LifeOutcome.stopped {c : Choice} {l l' : Life} (h : LifeOutcome c l l') (hl : l = .stopped) :
    l' = .stopped := by
  subst hl
  obtain rfl | he | ⟨hl, -⟩ := h
  · rfl
  · cases l' <;> cases he
  · cases hl

/-- Settles O56: the discipline is kept by every atomic step, and a choice takes `life` along one edge, but for the two
of a whole bring-up. -/
theorem lifecycleKept : Obligations.LifecycleKept := by
  intro s t hs h
  have hlife := step_life hs h
  exact ⟨step_keeps (fun _ _ _ hat hs => hat.controlStep.lifecycleDiscipline hs) h hs, hlife, hlife.stopped⟩

end Sys2Proof.Machine
end

section
/-! PROOFS. Responses (R64, R106, R107, R313). -/

namespace Sys2Proof.Machine

theorem codeBits_le (c : Code) : (codeBits c).toNat ≤ 6 := by cases c <;> decide

/-- A response word as a number (R106); the value is cut to 24 bits (log 19). -/
theorem respWord_toNat (c : Code) (v : Nat) :
    (respWord c v).toNat = (codeBits c).toNat * 2 ^ 28 + v % 2 ^ 24 := by
  have hv : v % 2 ^ 24 < 2 ^ 24 := Nat.mod_lt _ (by decide)
  simp only [respWord, BitVec.toNat_append, BitVec.toNat_ofNat, Nat.zero_mod, Nat.or_zero]
  rw [← Nat.shiftLeft_add_eq_or_of_lt hv]
  simp only [Nat.shiftLeft_eq]
  omega

/-- Settles O10: `respond` writes one caller, and the word's three fields do not overlap. -/
theorem responseAdvancesPc : Obligations.ResponseAdvancesPc := by
  intro s k c code v hc
  refine ⟨?_, fun hv => by rw [respWord_toNat, Nat.mod_eq_of_lt hv]⟩
  unfold State.respond
  rw [caller_of_getElem? s k hc]
  rfl

theorem wordLegal_respWord (c : Code) (v : Nat) : wordLegal (respWord c v) := by
  have hc := codeBits_le c
  have hv : v % 2 ^ 24 < 2 ^ 24 := Nat.mod_lt _ (by decide)
  refine ⟨BitVec.eq_of_toNat_eq ?_, ?_⟩
  · rw [BitVec.extractLsb'_toNat, respWord_toNat, Nat.shiftRight_eq_div_pow]
    change _ = 0
    omega
  · rw [BitVec.extractLsb'_toNat, respWord_toNat, Nat.shiftRight_eq_div_pow]
    omega

theorem Answers.legal {l m : List Word} (h : Answers l m) (hl : ∀ w ∈ l, wordLegal w) : ∀ w ∈ m, wordLegal w := by
  obtain rfl | ⟨c, v, rfl⟩ := h
  · exact hl
  · simp only [List.mem_append, List.mem_singleton]
    rintro w (hw | rfl)
    · exact hl w hw
    · exact wordLegal_respWord c v

theorem settlePoll_answers {s : State} {b : Nat} {pos : DrainPos} {p : Progress DrainPos}
    (hm : OpMove .defer s (.drain b) (.drain b pos) p) : Answers s.defer.resp (settlePoll p).defer.resp := by
  have hdefer := hm.defer
  cases p with
  | goto q t | wait t | stop t => exact .inl (show t.defer.resp = s.defer.resp from congrArg PollAgent.resp hdefer)
  | done c work t => rw [← hdefer]; exact (pollAfterDrain_cases c work t).2.2

/-- An atomic step appends at most one response to the list of an interrupt agent or of the poll. -/
theorem ControlStep.answers {s t : State} (h : ControlStep s t) :
    Answers s.irqTx.resp t.irqTx.resp ∧ Answers s.irqRx.resp t.irqRx.resp ∧ Answers s.defer.resp t.defer.resp := by
  cases h with
  | quiet hq => rw [hq.irqTx, hq.irqRx, hq.defer]; exact ⟨.inl rfl, .inl rfl, .inl rfl⟩
  | answer _ _ _ _ ht | begins _ _ _ _ _ ht | lifecycle _ _ _ _ _ _ _ _ _ ht =>
    subst ht; exact ⟨.inl rfl, .inl rfl, .inl rfl⟩
  | caller k f p _ hm ht =>
    subst ht
    have hc := settleCaller_control k f p
    have htx : (settleCaller k f p).irqTx = s.irqTx := (congrArg Control.irqTx hc).trans hm.irqTx
    have hrx : (settleCaller k f p).irqRx = s.irqRx := (congrArg Control.irqRx hc).trans hm.irqRx
    have hdefer : (settleCaller k f p).defer = s.defer := (congrArg Control.defer hc).trans hm.defer
    rw [htx, hrx, hdefer]
    exact ⟨.inl rfl, .inl rfl, .inl rfl⟩
  | handler hh => exact ⟨hh.respTx, hh.respRx, .inl (congrArg PollAgent.resp hh.quiet.defer)⟩
  | poll hp =>
    exact ⟨.inl (congrArg TxIrqAgent.resp hp.quiet.irqTx), .inl (congrArg RxIrqAgent.resp hp.quiet.irqRx), hp.resp⟩
  | pollDrain b pos p _ hm ht =>
    subst ht
    have hc := settlePoll_control p
    have htx : (settlePoll p).irqTx = s.irqTx := (congrArg Control.irqTx hc).trans hm.irqTx
    have hrx : (settlePoll p).irqRx = s.irqRx := (congrArg Control.irqRx hc).trans hm.irqRx
    rw [htx, hrx]
    exact ⟨.inl rfl, .inl rfl, settlePoll_answers hm⟩

/-- A property of the response list and `pc` of every caller that a response keeps (R64). -/
theorem CallersStep.forall_responses {s t : State} {P : Nat → List Word → Prop}
    (hP : ∀ n l c v, P n l → P (n + 1) (l ++ [respWord c v])) (h : CallersStep s t)
    (hs : ∀ x ∈ s.callers, P x.pc x.resp) : ∀ x ∈ t.callers, P x.pc x.resp := by
  cases h with
  | same h => rw [h]; exact hs
  | op k op h => rw [h]; exact forall_mem_setCaller hs id
  | respond k c v h => rw [h]; exact forall_mem_setCaller hs (hP _ _ c v)

theorem Atomic.responsesLegal {s t : State} (h : Atomic s t) (hs : s.responsesLegal) : t.responsesLegal := by
  obtain ⟨hcallers, htx, hrx, hdefer⟩ := hs
  obtain ⟨atx, arx, adefer⟩ := h.controlStep.answers
  refine ⟨?_, atx.legal htx, arx.legal hrx, adefer.legal hdefer⟩
  exact h.callersStep.forall_responses (P := fun _ l => ∀ w ∈ l, wordLegal w)
    (fun _ _ c v hl => Answers.legal (.inr ⟨c, v, rfl⟩) hl) hcallers

theorem Atomic.pcCountsResponses {s t : State} (h : Atomic s t) (hs : s.pcCountsResponses) : t.pcCountsResponses :=
  h.callersStep.forall_responses (P := fun n l => n = l.length) (fun n l c v hl => by simp [hl]) hs

/-- Settles O57: an atomic step appends response words only, and a caller's `pc` advances with each of its own. -/
theorem responsesKept : Obligations.ResponsesKept := by
  intro s t hlegal hpc h
  exact ⟨step_keeps (fun _ _ _ hat => hat.responsesLegal) h hlegal,
    step_keeps (fun _ _ _ hat => hat.pcCountsResponses) h hpc⟩

end Sys2Proof.Machine
end

section
/-! PROOFS. `RING_TEARDOWN` (R137, R138) and `PORT_SET_TAILDESC` (R61, R260), each run alone (log 11). -/

namespace Sys2Proof.Machine

/-! ## Teardown -/

theorem windowEmpty_iff {n : Nat} {e : Engine} :
    windowEmpty n e = true ↔ e.tailValid = false ∨ e.hwCur = next n e.hwTail := by
  simp [windowEmpty]

theorem exec_ringTeardown_ok {ch : Channel} {s t : State} (h : teardownRing ch s = .ok t) :
    exec (.ringTeardown ch) s = .next { t with ret := .word (respWord .ok 0) } := by
  change execRingTeardown ch s = _
  simp only [execRingTeardown, h]

theorem exec_ringTeardown_error {ch : Channel} {s : State} {f : FaultReason} (h : teardownRing ch s = .error f) :
    exec (.ringTeardown ch) s = .next (s.raiseFault .trace f) := by
  change execRingTeardown ch s = _
  simp only [execRingTeardown, h]

theorem teardownRing_of_none {ch : Channel} {s : State} (hr : s.ring ch = none) : teardownRing ch s = .ok s := by
  simp only [teardownRing, hr]

/-- A teardown of a ring its engine no longer touches frees all its handles (R137). -/
theorem teardownRing_of_free {ch : Channel} {s : State} {r : Ring} (hr : s.ring ch = some r)
    (h : (s.eng ch).halted = true ∨ windowEmpty r.cap (s.eng ch) = true) :
    teardownRing ch s = .ok (State.setRing { s with
      allocated := s.allocated.filter fun x => decide (x ∉ r.handles) } ch none) := by
  have hc : ((s.eng ch).halted || windowEmpty r.cap (s.eng ch)) = true := by simpa using h
  obtain ⟨t, ht⟩ : ∃ t, teardownRing ch s = .ok t := by
    simp only [teardownRing, hr, hc, if_true]
    exact ⟨_, rfl⟩
  obtain ⟨hnone, -⟩ | ⟨q, hq, -, rfl⟩ := teardownRing_ok ht
  · rw [hr] at hnone; cases hnone
  · obtain rfl : r = q := Option.some.inj (hr.symm.trans hq)
    exact ht

/-- A teardown of a ring its engine may still touch is a fault (R138). -/
theorem teardownRing_of_active {ch : Channel} {s : State} {r : Ring} (hr : s.ring ch = some r)
    (hh : (s.eng ch).halted = false) (hw : windowEmpty r.cap (s.eng ch) = false) :
    teardownRing ch s = .error (.teardownWhileActive ch) := by
  simp [teardownRing, hr, hh, hw]

theorem withRet_setRing (s : State) (ch : Channel) (r : Option Ring) (x : Ret) :
    { s.setRing ch r with ret := x } = State.setRing { s with ret := x } ch r := by
  cases ch <;> rfl

/-- Settles O17: by the three ways `teardown` goes. -/
theorem ringTeardownFrees : Obligations.RingTeardownFrees := by
  intro s ch
  refine ⟨fun hr => exec_ringTeardown_ok (teardownRing_of_none hr), fun r hr => ⟨fun hfree => ?_, fun hh hv hne => ?_⟩⟩
  · have hfree := hfree.imp_right (windowEmpty_iff (n := r.cap)).mpr
    rw [exec_ringTeardown_ok (teardownRing_of_free hr hfree), withRet_setRing]
    rfl
  · have hw : windowEmpty r.cap (s.eng ch) = false := by
      rw [← Bool.not_eq_true, windowEmpty_iff, not_or]
      exact ⟨by simp [hv], hne⟩
    exact exec_ringTeardown_error (teardownRing_of_active hr hh hw)

/-! ## The window -/

theorem dist_slot {n a j : Nat} (ha : a < n) (hj : j < n) : dist n a ((a + j) % n) = j := by
  rw [dist, Nat.mod_eq_of_lt ha, Nat.mod_add_mod, show a + j + (n - a) = j + n by omega, Nat.add_mod_right,
    Nat.mod_eq_of_lt hj]

theorem slot_dist {n a b : Nat} (ha : a < n) (hb : b < n) : (a + dist n a b) % n = b := by
  rw [dist, Nat.mod_eq_of_lt ha, Nat.add_mod_mod, show a + (b + (n - a)) = b + n by omega, Nat.add_mod_right,
    Nat.mod_eq_of_lt hb]

/-- The window reaches from `hwCur` to `hwTail`, both included, unless it is empty (R61). -/
theorem mem_windowOf {n : Nat} {e : Engine} (hcur : e.hwCur < n) (j : Nat) :
    j ∈ windowOf n e ↔ windowEmpty n e = false ∧ j < n ∧ dist n e.hwCur j ≤ dist n e.hwCur e.hwTail := by
  unfold windowOf
  cases windowEmpty n e with
  | true => simp
  | false =>
    simp only [Bool.false_eq_true, if_false, List.mem_map, List.mem_range, true_and]
    constructor
    · rintro ⟨i, hi, rfl⟩
      have htail := dist_lt (n := n) (by omega) e.hwCur e.hwTail
      rw [dist_slot hcur (by omega)]
      exact ⟨Nat.mod_lt _ (by omega), by omega⟩
    · rintro ⟨hj, hle⟩
      exact ⟨dist n e.hwCur j, by omega, slot_dist hcur hj⟩

/-- Settles O26: the operand of an index in range is that index, and the window is then by its two ends. -/
theorem portSetTaildesc_holds : Obligations.PortSetTaildesc := by
  intro s ch i hwf
  have hc := Config.facts hwf
  refine ⟨fun hi => ?written, fun hi hcur j => ?window, fun hi => ?outside⟩
  case written =>
    change Host.Outcome.next (portAlone s _) = _
    rw [portSetTaildesc_index hc hi]
    rfl
  case window =>
    rw [State.window, eng_setEng_same, setEng_cfg]
    refine (mem_windowOf (e := { s.eng ch with hwTail := i.toNat, tailValid := true }) hcur j).trans ?_
    rw [← Bool.not_eq_true, windowEmpty_iff]
    simp [next]
  case outside =>
    change Host.Outcome.next (portAlone s _) = _
    simp only [addrOf_none hc hi]
    rfl

end Sys2Proof.Machine
end

section
/-! PROOFS. The copies of buffer memory (R77, R78), and the status queries (R140, R141). -/

namespace Sys2Proof.Machine

theorem memWrite_of_le {size : Nat} {v : List Byte} (h : v.length ≤ size) (ch : Channel) (i : Nat) (b : Buffer) :
    memWrite size ch i v b = .ok { b with bytes := b.bytes.writeFrom 0 v } := by
  rw [memWrite, if_neg (Nat.not_lt.mpr h)]

/-- A read that meets an unwritten byte is the fault of R77. -/
theorem memRead_of_unwritten {size n j : Nat} {b : Buffer} (hn : n ≤ size) (hj : j < n) (h : b.bytes.read j = none)
    (ch : Channel) (i : Nat) : memRead size ch i n b = .error (.unwrittenRead ch i) := by
  have hnone : b.bytes.readFrom n 0 = none := by
    refine Option.eq_none_iff_forall_ne_some.mpr fun v hv => ?_
    obtain ⟨hlen, hread⟩ := Memory.readFrom_eq_some.mp hv
    have hsome := hread j hj
    rw [Nat.zero_add, h, List.getElem?_eq_getElem (by omega)] at hsome
    cases hsome
  simp only [memRead, if_neg (Nat.not_lt.mpr hn), hnone]

/-- Settles O20: a write is read back byte by byte, and a read answers exactly if each byte it meets is written. -/
theorem bufferCopies : Obligations.BufferCopies := by
  intro size ch i b
  refine ⟨fun v hv => ⟨_, memWrite_of_le hv ch i b, rfl, rfl, fun j => ?written⟩, fun n hn =>
    ⟨fun v hlen hread => ?read, fun ⟨j, hj, hnone⟩ => memRead_of_unwritten hn hj hnone ch i⟩⟩
  case written => simpa using Memory.read_writeFrom v b.bytes 0 j
  case read => exact memRead_ok.mpr ⟨hn, Memory.readFrom_eq_some.mpr ⟨hlen, by simpa using hread⟩⟩

theorem queryStatus_of_none {s : State} {ch : Channel} (hr : s.ring ch = none) (k i : Nat) (value : Status → Nat) :
    queryStatus k ch i value s = s.respond k .channelNotReady 0 := by
  simp only [queryStatus, hr]

theorem queryStatus_of_some {s : State} {ch : Channel} {r : Ring} {d : Desc} {i : Nat} (hr : s.ring ch = some r)
    (hd : r.desc[i]? = some d) (k : Nat) (value : Status → Nat) :
    queryStatus k ch i value s = s.respond k .ok (value d.st) := by
  simp only [queryStatus, hr, hd]

/-- Settles O19: both queries are `queryStatus`, of one field each. -/
theorem ringQueriesRead : Obligations.RingQueriesRead := by
  intro s ch i
  refine ⟨fun hr => ⟨?_, ?_⟩, fun r d hr hd => ⟨?_, ?_⟩⟩
  · exact congrArg Host.Outcome.next (queryStatus_of_none hr s.active i.toNat _)
  · exact congrArg Host.Outcome.next (queryStatus_of_none hr s.active i.toNat _)
  · exact congrArg Host.Outcome.next (queryStatus_of_some hr hd s.active _)
  · exact congrArg Host.Outcome.next (queryStatus_of_some hr hd s.active _)

end Sys2Proof.Machine
end

section
/-! PROOFS. Running a whole operation of one agent step by step (R11; log 4), and the operations that end at the lock or
at the test of `life` (R88, R161, R167, R191). -/

namespace Sys2Proof.Machine

/-! ## Steps of a run -/

/-- `n` enabled steps lead from `s` to `t`, whatever fuel is left after them. -/
def Runs (enabled : State → Bool) (stp : State → State) (n : Nat) (s t : State) : Prop :=
  ∀ m, runWhile enabled stp (n + m) s = runWhile enabled stp m t

section
variable {enabled : State → Bool} {stp : State → State} {s t u : State} {n m : Nat}

theorem Runs.single (h : enabled s = true) (ht : stp s = t) : Runs enabled stp 1 s t := fun m => by
  rw [Nat.add_comm, runWhile_step h, ht]

theorem Runs.trans (h : Runs enabled stp n s t) (h' : Runs enabled stp m t u) : Runs enabled stp (n + m) s u :=
  fun l => by rw [Nat.add_assoc, h, h']

/-- A run that comes to a state with no enabled step ends there. -/
theorem Runs.ends (h : Runs enabled stp n s t) (ht : enabled t = false) {fuel : Nat} (hn : n ≤ fuel) :
    runWhile enabled stp fuel s = t := by
  obtain ⟨m, rfl⟩ := Nat.exists_eq_add_of_le hn
  rw [h, runWhile_of_disabled ht]

end

theorem forty_le_opFuel (c : Config) : 40 ≤ opFuel c := by
  unfold opFuel; omega

/-! ## Steps of a caller -/

/-- Atomic steps of the operation in flight of `CALLER[k]`. -/
abbrev CallerRuns (k : Nat) : Nat → State → State → Prop := Runs (fun u => u.callerCanAdvance k) (callerStep k)

theorem CallerRuns.runCaller {k n : Nat} {s t : State} (h : CallerRuns k n s t) (ht : t.callerCanAdvance k = false)
    (hn : n ≤ 40) : runCaller k s = t :=
  Runs.ends h ht (hn.trans (forty_le_opFuel s.cfg))

/-- `CALLER[k]` exists and has not been stopped. -/
def State.callerLives (s : State) (k : Nat) : Prop := k < s.callers.length ∧ s.isStopped (.caller k) = false

theorem callerLives_of_ready {s : State} {k : Nat} (h : s.callerReady k = true) : s.callerLives k := by
  simp only [State.callerReady, Bool.and_eq_true, decide_eq_true_eq, Bool.not_eq_true'] at h
  obtain ⟨⟨hk, -⟩, hstop⟩ := h
  exact ⟨hk, hstop⟩

section
variable {s t : State} {k : Nat} {op : CallerOp}

/-- Only the last position written stays. -/
@[simp] theorem setCaller_setCaller (s : State) (k : Nat) (c c' : Caller) :
    (s.setCaller k c).setCaller k c' = s.setCaller k c' := by
  simp [State.setCaller]

theorem setOp_setOp (hk : k < s.callers.length) (op op' : CallerOp) : (s.setOp k op).setOp k op' = s.setOp k op' := by
  rw [State.setOp, setOp_caller hk, State.setOp, setCaller_setCaller]
  rfl

/-- A response leaves nothing of the position it is given at. -/
theorem setOp_respond (hk : k < s.callers.length) (op : CallerOp) (c : Code) (v : Nat) :
    (s.setOp k op).respond k c v = s.respond k c v := by
  rw [State.respond, setOp_caller hk, State.setOp, setCaller_setCaller]
  rfl

theorem callerCanAdvance_setOp (hs : s.callerLives k) (hop : op ≠ .idle)
    (hfree : ∀ ch, acquiring op = some ch → (s.chan ch).lock = .free) : (s.setOp k op).callerCanAdvance k = true := by
  obtain ⟨hk, hstop⟩ := hs
  have hblocked : (s.setOp k op).callerBlocked k = false := by
    simp only [State.callerBlocked, setOp_caller hk]
    split
    · rfl
    · rename_i ch hch
      have : ((s.setOp k op).chan ch).lock = .free := hfree ch hch
      simp [State.lockHeld, this]
  have hstop' : (s.setOp k op).isStopped (.caller k) = false := hstop
  have hlen : k < (s.setOp k op).callers.length := by simpa [State.setOp] using hk
  simp [State.callerCanAdvance, setOp_caller hk, hop, hblocked, hstop', hlen]

/-- At an acquire whose lock is held a caller has no step (R88). -/
theorem callerCanAdvance_setOp_of_held (hk : k < s.callers.length) {ch : Channel} {a : Agent}
    (hop : acquiring op = some ch) (hheld : (s.chan ch).lock = .held a) :
    (s.setOp k op).callerCanAdvance k = false := by
  have hheld' : ((s.setOp k op).chan ch).lock = .held a := hheld
  simp [State.callerCanAdvance, State.callerBlocked, setOp_caller hk, hop, State.lockHeld, hheld']

theorem callerCanAdvance_respond (hk : k < s.callers.length) (c : Code) (v : Nat) :
    (s.respond k c v).callerCanAdvance k = false := by
  simp [State.callerCanAdvance, State.respond, hk]

/-- The operations `f` of `CALLER[k]` take their atomic steps by `stepOf`, which writes no caller (R11, R56). -/
structure StepsBy {π : Type} (k : Nat) (f : π → CallerOp) (stepOf : π → State → Progress π) : Prop where
  busy : ∀ pos, f pos ≠ .idle
  step : ∀ (s : State) (pos : π), (s.caller k).op = f pos → callerStep k s = settleCaller k f (stepOf pos s)
  callers : ∀ (s : State) (pos : π), (stepOf pos s).state.callers = s.callers

theorem stepsBy_drain (k b : Nat) : StepsBy k (.drain b) (drainStep (.caller k) b) where
  busy _ := by simp
  step s pos h := by simp only [callerStep, h]
  callers s pos := drainStep_callers _ b pos s

theorem stepsBy_send (k len : Nat) (payload : List Byte) :
    StepsBy k (.send len payload) (sendStep (.caller k) len payload) where
  busy _ := by simp
  step s pos h := by simp only [callerStep, h]
  callers s pos := sendStep_callers _ len payload pos s

theorem stepsBy_bringup (k : Nat) : StepsBy k .bringup (bringupStep (.caller k)) where
  busy _ := by simp
  step s pos h := by simp only [callerStep, h]
  callers s pos := bringupStep_callers _ pos s

section
variable {π : Type} {f : π → CallerOp} {stepOf : π → State → Progress π} {pos : π}

theorem StepsBy.step_setOp (hf : StepsBy k f stepOf) (hk : k < s.callers.length) (pos : π) :
    callerStep k (s.setOp k (f pos)) = settleCaller k f (stepOf pos (s.setOp k (f pos))) :=
  hf.step _ _ (by rw [setOp_caller hk])

/-- A step leaves as many callers as there were. -/
theorem StepsBy.length (hf : StepsBy k f stepOf) {op : CallerOp} {p : Progress π}
    (h : stepOf pos (s.setOp k (f pos)) = p) (hp : p.state = t.setOp k op) : t.callers.length = s.callers.length := by
  have hc := congrArg List.length (hf.callers (s.setOp k (f pos)) pos)
  rw [h, hp] at hc
  simpa [State.setOp] using hc

/-- A step of an operation that goes on, its caller's part written back. -/
theorem StepsBy.goto (hf : StepsBy k f stepOf) {q : π} (hs : s.callerLives k)
    (hfree : ∀ ch, acquiring (f pos) = some ch → (s.chan ch).lock = .free)
    (h : stepOf pos (s.setOp k (f pos)) = .goto q (t.setOp k (f pos))) :
    CallerRuns k 1 (s.setOp k (f pos)) (t.setOp k (f q)) := by
  refine .single (callerCanAdvance_setOp hs (hf.busy pos) hfree) ?_
  rw [hf.step_setOp hs.1, h]
  exact setOp_setOp (hf.length h rfl ▸ hs.1) _ _

/-- A step with which an operation returns. -/
theorem StepsBy.done (hf : StepsBy k f stepOf) {c : Code} {v : Nat} (hs : s.callerLives k)
    (hfree : ∀ ch, acquiring (f pos) = some ch → (s.chan ch).lock = .free)
    (h : stepOf pos (s.setOp k (f pos)) = .done c v (t.setOp k (f pos))) :
    CallerRuns k 1 (s.setOp k (f pos)) (t.respond k c v) := by
  refine .single (callerCanAdvance_setOp hs (hf.busy pos) hfree) ?_
  rw [hf.step_setOp hs.1, h]
  exact setOp_respond (hf.length h rfl ▸ hs.1) _ _ _

/-- A property that every atomic step of an operation keeps is kept by the whole operation. -/
theorem StepsBy.runCaller_keeps (hf : StepsBy k f stepOf) {P : State → Prop}
    (hP : ∀ u pos, k < u.callers.length → (u.caller k).op = f pos → P u → P (settleCaller k f (stepOf pos u)))
    (hop : (s.caller k).op = .idle ∨ ∃ pos, (s.caller k).op = f pos) (hs : P s) : P (runCaller k s) := by
  refine (runWhile_keeps (P := fun u => P u ∧ ((u.caller k).op = .idle ∨ ∃ pos, (u.caller k).op = f pos))
    (fun u he ⟨hu, hop⟩ => ?_) _ s ⟨hs, hop⟩).1
  simp only [State.callerCanAdvance, Bool.and_eq_true, decide_eq_true_eq] at he
  obtain ⟨⟨⟨hk, hbusy⟩, -⟩, -⟩ := he
  obtain ⟨pos, hpos⟩ := hop.resolve_left hbusy
  have hcallers := hf.callers u pos
  rw [hf.step u pos hpos]
  refine ⟨hP u pos hk hpos hu, ?_⟩
  rw [settleCaller_op (op := f pos) (by rwa [hcallers]) (by simp only [State.caller, hcallers]; exact hpos)]
  cases stepOf pos u with
  | goto q v => exact .inr ⟨q, rfl⟩
  | done c w v => exact .inl rfl
  | wait v | stop v => exact .inr ⟨pos, rfl⟩

end

/-- A caller that does not exist runs nothing. -/
theorem runCaller_of_missing (hk : ¬ k < s.callers.length) : runCaller k s = s :=
  runWhile_of_disabled (by simp [State.callerCanAdvance, hk]) _

/-! ## Not ready, or a wait at the lock -/

/-- An operation at an acquire whose lock is held has no step to take. -/
theorem runCaller_of_held (hk : k < s.callers.length) {ch : Channel} {a : Agent} (hop : acquiring op = some ch)
    (hheld : (s.chan ch).lock = .held a) : runCaller k (s.setOp k op) = s.setOp k op :=
  runWhile_of_disabled (callerCanAdvance_setOp_of_held hk hop hheld) _

theorem runCaller_respond (hk : k < s.callers.length) (c : Code) (v : Nat) :
    runCaller k (s.respond k c v) = s.respond k c v :=
  runWhile_of_disabled (callerCanAdvance_respond hk c v) _

theorem setLock_release_of_free {ch : Channel} (h : (s.chan ch).lock = .free) (l : Lock) :
    (s.setLock ch l).setLock ch .free = s := by
  cases ch <;> simp only [chan_tx, chan_rx] at h <;> simp only [State.setLock, State.setChan, State.chan, ← h]

theorem setOp_of_getElem? {c : Caller} (hc : s.callers[k]? = some c) {ch : Channel} (hop : acquiring op = some ch) :
    s.setOp k op = { s with callers := s.callers.set k { c with op := op, wait := true } } := by
  rw [State.setOp, caller_of_getElem? s k hc, hop]
  rfl

/-- The lock taken, the device is found not running, and the lock is released with the answer: nothing else is left of
the operation (R161, R191). -/
theorem StepsBy.runCaller_notReady {π : Type} {f : π → CallerOp} {stepOf : π → State → Progress π}
    {acquire checkLife : π} {ch : Channel} (hf : StepsBy k f stepOf) (hs : s.callerLives k)
    (hfree : (s.chan ch).lock = .free) (hlife : s.life ≠ .running) (hac : acquiring (f acquire) = some ch)
    (hac' : acquiring (f checkLife) = none)
    (hacquire : ∀ t, stepOf acquire t = acquireLock (.caller k) ch t checkLife)
    (hcheck : ∀ t : State, t.life ≠ .running → stepOf checkLife t = .done .channelNotReady 0 (t.release ch)) :
    runCaller k (s.setOp k (f acquire)) = s.respond k .channelNotReady 0 := by
  have hlocked : (s.setLock ch (.held (.caller k))).callerLives k := by
    cases ch <;> exact hs
  have h1 : CallerRuns k 1 (s.setOp k (f acquire)) ((s.setLock ch (.held (.caller k))).setOp k (f checkLife)) := by
    refine hf.goto hs (fun c hc => ?_) ?_
    · obtain rfl : ch = c := Option.some.inj (hac.symm.trans hc)
      exact hfree
    · rw [hacquire, acquireLock_free (show ((s.setOp k (f acquire)).chan ch).lock = .free from hfree)]
      cases ch <;> rfl
  have h2 : CallerRuns k 1 ((s.setLock ch (.held (.caller k))).setOp k (f checkLife))
      (s.respond k .channelNotReady 0) := by
    refine hf.done hlocked (fun c hc => ?_) ?_
    · rw [hac'] at hc; cases hc
    · rw [hcheck _ (by simpa using hlife)]
      conv_rhs => rw [← setLock_release_of_free hfree (.held (.caller k))]
      cases ch <;> rfl
  exact CallerRuns.runCaller (h1.trans h2) (callerCanAdvance_respond hs.1 _ _) (by decide)

/-- Settles O29: at the lock, and at the test of `life` after it. -/
theorem rxDrainNotReadyOrWaits : Obligations.RxDrainNotReadyOrWaits := by
  intro s budget hready
  have hs := callerLives_of_ready hready
  refine ⟨fun hlife hfree => congrArg Host.Outcome.next ?notReady,
    fun a c hheld hc => congrArg Host.Outcome.next ?waits⟩
  case notReady =>
    exact (stepsBy_drain s.active budget.toNat).runCaller_notReady (ch := .rx) (acquire := DrainPos.acquire)
      (checkLife := DrainPos.checkLife) hs hfree hlife rfl rfl (fun _ => rfl) fun t ht => if_neg ht
  case waits =>
    refine Eq.trans ?_ (setOp_of_getElem? hc (ch := .rx) rfl)
    exact runCaller_of_held hs.1 (ch := .rx) rfl hheld

/-- Settles O35: the length check comes first; then as a drain does. -/
theorem txSendErrors : Obligations.TxSendErrors := by
  intro s len hready
  have hs := callerLives_of_ready hready
  have hexec : exec (.txSend len) s = .next (runCaller s.active (startSend s.active len.toNat s)) := rfl
  have hstart : len.toNat ≤ s.cfg.maxFrame →
      startSend s.active len.toNat s = s.setOp s.active (.send len.toNat (s.payload s.active) .acquire) :=
    fun hlen => if_neg (Nat.not_lt.mpr hlen)
  refine ⟨fun hlong => ?invalid, fun hlen hlife hfree => ?notReady, fun a c hlen hheld hc => ?waits⟩
  case invalid => rw [hexec, startSend, if_pos hlong, runCaller_respond hs.1]
  case notReady =>
    rw [hexec, hstart hlen, (stepsBy_send s.active len.toNat _).runCaller_notReady (ch := .tx)
      (acquire := SendPos.acquire) (checkLife := SendPos.checkLife) hs hfree hlife rfl rfl
      (fun _ => rfl) fun t ht => if_neg ht]
  case waits =>
    rw [hexec, hstart hlen, runCaller_of_held hs.1 (ch := .tx) rfl hheld, setOp_of_getElem? hc (ch := .tx) rfl]

/-! ## The poll -/

/-- The poll's drain at a position moves, if the agent `DEFER` has not been stopped. -/
theorem pollCanAdvance_setPollOp {pos : DrainPos} (hs : s.isStopped .defer = false)
    (hfree : pos = .acquire → s.chanRx.lock = .free) : (s.setPollOp (.drain pos)).pollCanAdvance = true := by
  have hstop : (s.setPollOp (.drain pos)).isStopped .defer = false := hs
  have hblocked : pos ≠ .acquire ∨ (s.setPollOp (.drain pos)).lockHeld .rx = false := by
    by_cases hpos : pos = .acquire
    · exact .inr (by simp [State.lockHeld, hfree hpos])
    · exact .inl hpos
  have hop : (s.setPollOp (.drain pos)).defer.op = .drain pos := rfl
  simpa [State.pollCanAdvance, hstop, hop] using hblocked

/-- At its acquire with the lock held the poll has no step (R88). -/
theorem pollCanAdvance_of_held {a : Agent} (hheld : s.chanRx.lock = .held a) :
    (s.setPollOp (.drain .acquire)).pollCanAdvance = false := by
  have hop : (s.setPollOp (.drain .acquire)).defer.op = .drain .acquire := rfl
  simp [State.pollCanAdvance, State.lockHeld, hop, hheld]

/-- The poll takes the lock, finds the device not running, and returns (R167). -/
theorem runPoll_notReady (hs : s.isStopped .defer = false) (hfree : s.chanRx.lock = .free) (hlife : s.life ≠ .running) :
    runPoll (startPoll s) = State.pollRespond { s with rxSched := false } .channelNotReady 0 := by
  have h1 : Runs State.pollCanAdvance pollStep 1 (startPoll s)
      ((s.setLock .rx (.held .defer)).setPollOp (.drain .checkLife)) := by
    refine .single (pollCanAdvance_setPollOp hs fun _ => hfree) ?_
    rw [pollStep_drain (pos := .acquire) rfl, drainStep,
      acquireLock_free (show ((startPoll s).chan .rx).lock = .free from hfree)]
    rfl
  have h2 : Runs State.pollCanAdvance pollStep 1 ((s.setLock .rx (.held .defer)).setPollOp (.drain .checkLife))
      (State.pollRespond { s with rxSched := false } .channelNotReady 0) := by
    refine .single (pollCanAdvance_setPollOp hs fun h => by cases h) ?_
    rw [pollStep_drain (pos := .checkLife) rfl, drainStep, if_neg (by simpa using hlife)]
    conv_rhs => rw [← setLock_release_of_free (s := s) (ch := .rx) hfree (.held .defer)]
    rfl
  exact (Runs.trans h1 h2).ends rfl ((by decide : 1 + 1 ≤ 40).trans (forty_le_opFuel _))

/-- Settles O32: the poll stands at its drain's acquire, and then at the drain's test of `life`. -/
theorem rxPollNotReadyOrWaits : Obligations.RxPollNotReadyOrWaits := by
  intro s hs
  refine ⟨fun hlife hfree => congrArg Host.Outcome.next ?notReady, fun a hheld => congrArg Host.Outcome.next ?waits⟩
  case notReady => exact runPoll_notReady hs hfree hlife
  case waits => exact runWhile_of_disabled (pollCanAdvance_of_held hheld) _

end

end Sys2Proof.Machine
end

section
/-! PROOFS. The store: the live handles and the buffers with their bytes. Which steps leave it alone, and which bytes a
command can change (R78, R135, R162, R195). -/

namespace Sys2Proof.Machine

/-! ## The store -/

/-- The buffers of a channel, in the order of its slots; none without a ring. -/
def State.bufs (s : State) (ch : Channel) : List Buffer := (s.descs ch).map Desc.buf

/-- What the allocator keeps, and the buffers. -/
structure Store where
  cfg : Config
  allocated : List Nat
  nextHandle : Nat
  bufsTx : List Buffer
  bufsRx : List Buffer

def State.store (s : State) : Store where
  cfg := s.cfg
  allocated := s.allocated
  nextHandle := s.nextHandle
  bufsTx := s.bufs .tx
  bufsRx := s.bufs .rx

section
variable {s t : State}

theorem bufs_of_store (h : t.store = s.store) : ∀ ch, t.bufs ch = s.bufs ch
  | .tx => congrArg Store.bufsTx h
  | .rx => congrArg Store.bufsRx h

theorem bufs_of_ring {ch : Channel} (h : t.ring ch = s.ring ch) : t.bufs ch = s.bufs ch := by
  simp only [State.bufs, State.descs, h]

theorem bufs_of_some {ch : Channel} {r : Ring} (h : s.ring ch = some r) : s.bufs ch = r.desc.map Desc.buf := by
  simp only [State.bufs, State.descs, h]

theorem byteAt_eq (s : State) (ch : Channel) (j off : Nat) :
    s.byteAt ch j off = (s.bufs ch)[j]?.bind fun b => b.bytes.read off := by
  unfold State.byteAt State.bufs State.descs
  cases s.ring ch with
  | none => rfl
  | some r => cases hd : r.desc[j]? <;> simp [hd]

theorem byteAt_of_store (h : t.store = s.store) (ch : Channel) (j off : Nat) :
    t.byteAt ch j off = s.byteAt ch j off := by
  rw [byteAt_eq, byteAt_eq, bufs_of_store h]

theorem bufAddrs_eq (s : State) : s.bufAddrs = (s.bufs .tx).map Buffer.devAddr ++ (s.bufs .rx).map Buffer.devAddr := by
  have h : ∀ ch, ringAddrs (s.ring ch) = (s.bufs ch).map Buffer.devAddr := fun ch => by
    unfold State.bufs State.descs
    cases s.ring ch <;> simp [ringAddrs]
  rw [← h, ← h]
  rfl

end

/-! ## Updates that leave the store alone -/

section
variable (s : State) (ch : Channel)
@[simp] theorem setEng_store (e : Engine) : (s.setEng ch e).store = s.store := by cases ch <;> rfl
@[simp] theorem setLock_store (l : Lock) : (s.setLock ch l).store = s.store := by cases ch <;> rfl
@[simp] theorem irqEntry_store : (s.irqEntry ch).store = s.store := by cases ch <;> rfl

theorem portStart_store : (portStart ch s).store = s.store := by
  obtain ⟨dr, drn, e, h, -⟩ := portStart_cases ch s
  rw [h, setEng_store]
  rfl
end

section
variable {s t : State} {ch : Channel}

theorem portSetTaildesc_store {addr : Option Nat} (h : portSetTaildesc ch addr s = .ok t) : t.store = s.store := by
  obtain ⟨i, -, rfl⟩ := portSetTaildesc_ok h; exact setEng_store s ch _

theorem portSetCurdesc_store {addr : Option Nat} (h : portSetCurdesc ch addr s = .ok t) : t.store = s.store := by
  obtain ⟨-, i, -, rfl⟩ := portSetCurdesc_ok h; exact setEng_store s ch _

theorem portCfgCoalesce_store {d th : Nat} (h : portCfgCoalesce ch d th s = .ok t) : t.store = s.store := by
  obtain ⟨-, rfl⟩ := portCfgCoalesce_ok h; exact setEng_store s ch _

theorem portAlone_store {e : Except FaultReason State} (h : ∀ t, e = .ok t → t.store = s.store) :
    (portAlone s e).store = s.store := by
  unfold portAlone
  split
  · exact h _ rfl
  · rfl

theorem acquireLock_store {π : Type} (a : Agent) (ch : Channel) (s : State) (p : π) :
    (acquireLock a ch s p).state.store = s.store := by
  obtain ⟨-, h⟩ | ⟨b, -, h⟩ := acquireLock_cases a ch s p
  · rw [h]; exact setLock_store s ch _
  · rw [h]; rfl

theorem orFault_store {π : Type} {a : Agent} {e : Except FaultReason State} {k : State → Progress π}
    (h : ∀ t, e = .ok t → (k t).state.store = s.store) : (orFault a s e k).state.store = s.store := by
  unfold orFault
  split
  · exact h _ rfl
  · rfl

/-- A ring written with the same buffers in its slots. -/
theorem setRing_store {r q : Ring} (hr : s.ring ch = some r) (h : q.desc.map Desc.buf = r.desc.map Desc.buf) :
    (s.setRing ch (some q)).store = s.store := by
  have hbufs : ∀ ch', (s.setRing ch (some q)).bufs ch' = s.bufs ch' := fun ch' => by
    by_cases hch : ch' = ch
    · subst hch
      rw [bufs_of_some (ring_setRing_same s ch' (some q)), bufs_of_some hr, h]
    · exact bufs_of_ring (by rw [ring_setRing, if_neg hch])
  simp only [State.store, hbufs, setRing_cfg, setRing_allocated, setRing_nextHandle]

end

theorem map_setDesc {α : Type} {g : Desc → α} {r : Ring} {i : Nat} {d d' : Desc} (hd : r.desc[i]? = some d)
    (h : g d' = g d) : (r.setDesc i d').desc.map g = r.desc.map g := by
  obtain ⟨hi, rfl⟩ := List.getElem?_eq_some_iff.mp hd
  rw [Ring.setDesc, List.map_set, h, ← List.getElem_map g (h := by simpa using hi), List.set_getElem_self]

/-! ## The receive path -/

theorem drainOne_store {r : Ring} {d : Desc} {s t : State} (hr : s.ring .rx = some r) (hd : r.desc[r.curr]? = some d)
    (h : drainOne r d s = .ok t) : t.store = s.store := by
  obtain ⟨-, -, bytes, -, rfl⟩ := drainOne_ok h
  refine (setRing_store (r := r) hr ?_).trans rfl
  exact map_setDesc (g := Desc.buf) hd rfl

/-- A drain reads the buffers and writes none (R162). -/
theorem drainStep_store (a : Agent) (b : Nat) (pos : DrainPos) (s : State) :
    (drainStep a b pos s).state.store = s.store := by
  cases pos with
  | acquire => exact acquireLock_store a .rx s _
  | checkLife => simp only [drainStep]; split <;> rfl
  | finish w => rfl
  | writeTail w =>
    simp only [drainStep, drainWriteTail]
    split
    · rfl
    · exact orFault_store fun t h => portSetTaildesc_store h
  | loop w =>
    simp only [drainStep, drainLoop]
    split
    · rfl
    · split
      · rfl
      · rename_i r hr
        split
        · rfl
        · rename_i d hd
          split
          · exact orFault_store fun t h => drainOne_store hr hd h
          · rfl

theorem irqStep_store (ch : Channel) (s : State) : (irqStep ch s).store = s.store := by
  cases ch with
  | tx => simp only [irqStep, txIrqStep]; split <;> rfl
  | rx =>
    simp only [irqStep, rxIrqStep]
    split
    · rfl
    · split <;> rfl
    all_goals rfl

theorem settleCaller_store {π : Type} (k : Nat) (f : π → CallerOp) (p : Progress π) :
    (settleCaller k f p).store = p.state.store := by
  cases p <;> rfl

theorem settlePoll_store (p : Progress DrainPos) : (settlePoll p).store = p.state.store := by
  cases p with
  | goto | wait | stop => rfl
  | done c work s =>
    simp only [settlePoll, pollAfterDrain]
    split
    · rfl
    · split <;> rfl

theorem pollStep_store (s : State) : (pollStep s).store = s.store := by
  cases hp : s.defer.op with
  | idle => simp only [pollStep, hp]
  | enable work | ret work => simp only [pollStep, hp]; rfl
  | drain pos => rw [pollStep_drain hp, settlePoll_store, drainStep_store]

theorem queryStatus_store (k : Nat) (ch : Channel) (i : Nat) (value : Status → Nat) (s : State) :
    (queryStatus k ch i value s).store = s.store := by
  unfold queryStatus
  split
  · rfl
  · split <;> rfl

/-! ## The transmit path -/

/-- The descriptor at `tail` filled and posted, `tail` advanced (R194 to R196). -/
def postedRing (r : Ring) (d : Desc) (len : Nat) (bytes : List Byte) : Ring :=
  { r.setDesc r.tail { armTx len d with
      own := .posted, buf := { d.buf with bytes := d.buf.bytes.writeFrom 0 bytes } } with
    tail := next r.cap r.tail }

/-- What the arming and copying step of a send can do: no ring is written, or the descriptor at `tail` is filled with
at most `len` bytes (R193 to R196). -/
theorem sendPost_cases (a : Agent) (len : Nat) (payload : List Byte) (s : State) :
    (∀ ch, (sendPost a len payload s).state.ring ch = s.ring ch) ∧ (sendPost a len payload s).state.store = s.store ∨
    ∃ r d bytes, s.ring .tx = some r ∧ r.desc[r.tail]? = some d ∧ bytes.length ≤ len ∧
      sendPost a len payload s = .goto (.writeTail r.tail) (s.setRing .tx (some (postedRing r d len bytes))) := by
  unfold sendPost
  split
  · exact .inl ⟨fun ch => by cases ch <;> rfl, rfl⟩
  · rename_i r hr
    split
    · exact .inl ⟨fun ch => release_ring s .tx ch, rfl⟩
    · split
      · exact .inl ⟨fun ch => by cases ch <;> rfl, rfl⟩
      · rename_i d hd
        split
        · exact .inl ⟨fun ch => by cases ch <;> rfl, rfl⟩
        · rename_i d' hd'
          obtain ⟨-, -, rfl⟩ := postDesc_ok hd'
          exact .inr ⟨r, d, payload.take len, hr, hd, by simp, rfl⟩

/-- Every other step of a send leaves the buffers and the `tail` of the transmit ring alone. -/
theorem sendStep_store (a : Agent) (len : Nat) (payload : List Byte) {pos : SendPos} (hpos : pos ≠ .post) (s : State) :
    (sendStep a len payload pos s).state.store = s.store ∧
      ((sendStep a len payload pos s).state.ring .tx).map Ring.tail = (s.ring .tx).map Ring.tail := by
  cases pos with
  | post => exact absurd rfl hpos
  | acquire =>
    obtain ⟨-, h⟩ | ⟨b, -, h⟩ := acquireLock_cases a .tx s SendPos.checkLife <;>
      exact ⟨acquireLock_store a .tx s _, by simp only [sendStep, h]; rfl⟩
  | checkLife => simp only [sendStep]; split <;> exact ⟨rfl, rfl⟩
  | finish => exact ⟨rfl, rfl⟩
  | writeTail i =>
    simp only [sendStep, orFault]
    split
    · rename_i t h
      exact ⟨portSetTaildesc_store h, congrArg _ (portSetTaildesc_ring h .tx)⟩
    · exact ⟨rfl, rfl⟩
  | reclaim =>
    simp only [sendStep, sendReclaim]
    split
    · exact ⟨rfl, rfl⟩
    · rename_i r hr
      split
      · exact ⟨rfl, rfl⟩
      · rename_i d hd
        split
        · rename_i r' h
          obtain ⟨-, -, rfl⟩ := reclaimOne_some h
          refine ⟨setRing_store hr (map_setDesc (g := Desc.buf) hd rfl), ?_⟩
          rw [hr]
          rfl
        · exact ⟨rfl, rfl⟩

/-! ## The bytes a command can change -/

/-- The bytes a send of `len` bytes fills: those below `len` of the descriptor at `tail` (R195). -/
def State.sendFills (s : State) (len : Nat) (ch : Channel) (j off : Nat) : Prop :=
  ch = .tx ∧ (∃ r, s.ring .tx = some r ∧ j = r.tail) ∧ off < len

/-- A send at this position has not filled its descriptor yet (R191). -/
def fillsLater : CallerOp → Bool
  | .send _ _ .acquire => true
  | .send _ _ .checkLife => true
  | .send _ _ .reclaim => true
  | .send _ _ .post => true
  | _ => false

/-- Of the state `s` in which a send of `len` bytes by `CALLER[k]` began, `u` has changed no byte but those it fills;
until it fills them, `tail` is where it was. -/
structure SendFrame (k len : Nat) (s u : State) : Prop where
  bytes : ∀ ch j off, ¬ s.sendFills len ch j off → u.byteAt ch j off = s.byteAt ch j off
  tail : fillsLater (u.caller k).op = true → (u.ring .tx).map Ring.tail = (s.ring .tx).map Ring.tail

theorem byteAt_postedRing {s : State} {r : Ring} {d : Desc} {len : Nat} {bytes : List Byte} (hr : s.ring .tx = some r)
    (hd : r.desc[r.tail]? = some d) (hlen : bytes.length ≤ len) {ch : Channel} {j off : Nat}
    (h : ¬ (ch = .tx ∧ j = r.tail ∧ off < len)) :
    (s.setRing .tx (some (postedRing r d len bytes))).byteAt ch j off = s.byteAt ch j off := by
  cases ch with
  | rx => rfl
  | tx =>
    have hd' := List.getElem?_eq_some_iff.mp hd
    obtain ⟨hi, -⟩ := hd'
    simp only [State.byteAt, ring_setRing_same, hr, postedRing, Ring.setDesc]
    by_cases hj : j = r.tail
    · subst hj
      have hoff : ¬ off < bytes.length := fun hlt => h ⟨rfl, rfl, by omega⟩
      rw [List.getElem?_set_self hi, hd]
      simp only [Memory.read_writeFrom, Nat.zero_add, hoff, and_false, if_false]
    · rw [List.getElem?_set_ne (Ne.symm hj)]

theorem settleCaller_byteAt {π : Type} (k : Nat) (f : π → CallerOp) (p : Progress π) (ch : Channel) (j off : Nat) :
    (settleCaller k f p).byteAt ch j off = p.state.byteAt ch j off :=
  byteAt_of_store (settleCaller_store k f p) ch j off

/-- A send past its filling does not come back to it. -/
theorem fillsLater_of_after (a : Agent) (len : Nat) (payload : List Byte) (pos : SendPos) (s : State)
    (h : fillsLater ((sendStep a len payload pos s).after (.send len payload) (.send len payload pos)) = true) :
    fillsLater (.send len payload pos) = true := by
  cases pos with
  | acquire | checkLife | reclaim | post => rfl
  | finish => cases h
  | writeTail i =>
    simp only [sendStep, orFault] at h
    split at h <;> cases h

theorem SendFrame.step {k len : Nat} {payload : List Byte} {s u : State} {pos : SendPos} (h : SendFrame k len s u)
    (hk : k < u.callers.length) (hop : (u.caller k).op = .send len payload pos) :
    SendFrame k len s (settleCaller k (.send len payload) (sendStep (.caller k) len payload pos u)) := by
  have hcallers := sendStep_callers (.caller k) len payload pos u
  have hop' : ((sendStep (.caller k) len payload pos u).state.caller k).op = .send len payload pos := by
    simpa only [State.caller, hcallers] using hop
  have hafter := settleCaller_op (f := .send len payload) (hcallers ▸ hk) hop'
  have kept : (sendStep (.caller k) len payload pos u).state.store = u.store →
      ((sendStep (.caller k) len payload pos u).state.ring .tx).map Ring.tail = (u.ring .tx).map Ring.tail →
      SendFrame k len s (settleCaller k (.send len payload) (sendStep (.caller k) len payload pos u)) := by
    intro hstore htail
    refine ⟨fun ch j off hoff => ?_, fun hlater => ?_⟩
    · rw [settleCaller_byteAt, byteAt_of_store hstore, h.bytes ch j off hoff]
    · rw [hafter] at hlater
      rw [settleCaller_ring, htail, h.tail (hop ▸ fillsLater_of_after _ _ _ _ _ hlater)]
  by_cases hpos : pos = .post
  · subst hpos
    obtain ⟨hring, hstore⟩ | ⟨r, d, bytes, hr, hd, hlen, hpost⟩ := sendPost_cases (.caller k) len payload u
    · exact kept hstore (congrArg _ (hring .tx))
    · rw [sendStep, hpost] at hafter ⊢
      refine ⟨fun ch j off hoff => ?_, fun hlater => by rw [hafter] at hlater; cases hlater⟩
      rw [settleCaller_byteAt]
      refine (byteAt_postedRing hr hd hlen fun ⟨hch, hj, hlt⟩ => hoff ⟨hch, ?_, hlt⟩).trans (h.bytes ch j off hoff)
      have htail := h.tail (by rw [hop]; rfl)
      rw [hr, Option.map_some, eq_comm, Option.map_eq_some_iff] at htail
      obtain ⟨q, hq, hqtail⟩ := htail
      exact ⟨q, hq, hj.trans hqtail.symm⟩
  · obtain ⟨hstore, htail⟩ := sendStep_store (.caller k) len payload hpos u
    exact kept hstore htail

theorem runCaller_drain_store (k b : Nat) (s : State) : (runCaller k (startDrain k b s)).store = s.store := by
  by_cases hk : k < (startDrain k b s).callers.length
  · have hop : ((startDrain k b s).caller k).op = .drain b .acquire := by
      rw [startDrain, setOp_caller (by simpa [startDrain, State.setOp] using hk)]
    refine (stepsBy_drain k b).runCaller_keeps (P := fun u => u.store = s.store) (fun u pos _ _ hu => ?_)
      (.inr ⟨_, hop⟩) rfl
    rw [settleCaller_store, drainStep_store, hu]
  · rw [runCaller_of_missing hk]
    rfl

theorem runPoll_store (s : State) : (runPoll s).store = s.store :=
  runWhile_keeps (P := fun u => u.store = s.store) (fun u _ hu => (pollStep_store u).trans hu) _ s rfl

theorem runIrq_store (ch : Channel) (s : State) : (runIrq ch s).store = s.store :=
  runWhile_keeps (P := fun u => u.store = s.store) (fun u _ hu => (irqStep_store ch u).trans hu) _ s rfl

theorem runCaller_send_bytes (k len : Nat) (s : State) {ch : Channel} {j off : Nat} (h : ¬ s.sendFills len ch j off) :
    (runCaller k (startSend k len s)).byteAt ch j off = s.byteAt ch j off := by
  have hstore : (startSend k len s).store = s.store := by unfold startSend; split <;> rfl
  by_cases hk : k < (startSend k len s).callers.length
  · have hk' : k < s.callers.length := by
      unfold startSend at hk
      split at hk <;> simpa [State.setOp, State.respond] using hk
    have hop : ((startSend k len s).caller k).op = .idle ∨
        ∃ pos, ((startSend k len s).caller k).op = .send len (s.payload k) pos := by
      unfold startSend
      split
      · exact .inl (by rw [State.respond, caller_setCaller_same s k _ hk'])
      · exact .inr ⟨.acquire, by rw [setOp_caller hk']⟩
    have hframe : SendFrame k len s (startSend k len s) :=
      ⟨fun ch j off _ => byteAt_of_store hstore ch j off, fun _ => by unfold startSend; split <;> rfl⟩
    exact ((stepsBy_send k len (s.payload k)).runCaller_keeps (fun u pos hk hop hu => hu.step hk hop) hop hframe).bytes
      ch j off h
  · rw [runCaller_of_missing hk, byteAt_of_store hstore]

/-- An internal command that is no `RING_INIT` and no `RING_TEARDOWN` leaves the store alone. -/
theorem exec_port_store {i : Instr} {s t : State} (hc : i.commandClass = .internal) (hinit : ∀ ch n, i ≠ .ringInit ch n)
    (htd : ∀ ch, i ≠ .ringTeardown ch) (h : exec i s = .next t) : t.store = s.store := by
  cases i <;> simp only [Instr.commandClass, reduceCtorEq] at hc <;> cases h
  case ringInit ch n => exact absurd rfl (hinit ch n)
  case ringTeardown ch => exact absurd rfl (htd ch)
  case portReadStatus | portReadControl => rfl
  case portStart ch => exact portStart_store s ch
  case portSetCurdesc => exact portAlone_store fun t h => portSetCurdesc_store h
  case portSetTaildesc => exact portAlone_store fun t h => portSetTaildesc_store h
  case portCfgCoalesce => exact portAlone_store fun t h => portCfgCoalesce_store h
  all_goals exact setEng_store s _ _

/-- Settles O51: every command named but a send leaves the whole store alone. -/
theorem memoryFrame : Obligations.MemoryFrame := by
  intro i s t h
  have port : i.commandClass = .internal → (∀ ch n, i ≠ .ringInit ch n) → (∀ ch, i ≠ .ringTeardown ch) →
      ∀ ch j off, t.byteAt ch j off = s.byteAt ch j off :=
    fun hc hinit htd => byteAt_of_store (exec_port_store hc hinit htd h)
  cases i with
  | ringInit | ringTeardown | devBringup | devShutdown => trivial
  | txSend len => cases h; exact fun ch j off => runCaller_send_bytes s.active len.toNat s
  | ringNext => cases h; exact byteAt_of_store rfl
  | ringIsComplete | ringLength => cases h; exact byteAt_of_store (queryStatus_store _ _ _ _ s)
  | rxDrain b => cases h; exact byteAt_of_store (runCaller_drain_store s.active b.toNat s)
  | rxIrq => cases h; exact byteAt_of_store ((runIrq_store .rx _).trans (irqEntry_store s .rx))
  | txIrq => cases h; exact byteAt_of_store ((runIrq_store .tx _).trans (irqEntry_store s .tx))
  | rxPoll => cases h; exact byteAt_of_store ((runPoll_store _).trans rfl)
  | _ => exact port rfl (by simp) (by simp)

end Sys2Proof.Machine
end

section
/-! PROOFS. The live handles stay distinct and older than the next one (R86), and the live buffers apart (R72, R329). -/

namespace Sys2Proof.Machine

/-! ## Keeping both -/

/-- The step from `s` to `t` keeps the live handles fresh and the live buffers apart. -/
structure KeepsLive (s t : State) : Prop where
  handles : s.handlesFresh → t.handlesFresh
  buffers : s.buffersApart → t.buffersApart

section
variable {s t u : State} {ch : Channel}

theorem KeepsLive.trans (h : KeepsLive s t) (h' : KeepsLive t u) : KeepsLive s u :=
  ⟨fun hs => h'.handles (h.handles hs), fun hs => h'.buffers (h.buffers hs)⟩

theorem handlesFresh_of_sublist (ha : t.allocated.Sublist s.allocated) (hn : t.nextHandle = s.nextHandle)
    (hs : s.handlesFresh) : t.handlesFresh := by
  obtain ⟨hnodup, hlt⟩ := hs
  exact ⟨ha.nodup hnodup, fun h hh => hn ▸ hlt h (ha.subset hh)⟩

/-- Nothing becomes live; handles and buffers may be freed. -/
theorem KeepsLive.of_sublist (ha : t.allocated.Sublist s.allocated) (hn : t.nextHandle = s.nextHandle)
    (hc : t.cfg = s.cfg) (hb : t.bufAddrs.Sublist s.bufAddrs) : KeepsLive s t where
  handles := handlesFresh_of_sublist ha hn
  buffers hs := by
    unfold State.buffersApart at hs ⊢
    rw [hc]
    exact hs.sublist hb

theorem KeepsLive.of_store (h : t.store = s.store) : KeepsLive s t := by
  refine .of_sublist ?_ (congrArg Store.nextHandle h) (congrArg Store.cfg h) ?_
  · rw [show t.allocated = s.allocated from congrArg Store.allocated h]
  · rw [bufAddrs_eq, bufAddrs_eq, bufs_of_store h, bufs_of_store h]

/-- A ring written with buffers at the same addresses. -/
theorem KeepsLive.setRing {r q : Ring} (hr : s.ring ch = some r)
    (h : q.desc.map (fun d => d.buf.devAddr) = r.desc.map fun d => d.buf.devAddr) :
    KeepsLive s (s.setRing ch (some q)) := by
  refine .of_sublist (by simp) (by simp) (by simp) ?_
  have haddrs : ∀ ch', ringAddrs ((s.setRing ch (some q)).ring ch') = ringAddrs (s.ring ch') := fun ch' => by
    by_cases hch : ch' = ch
    · subst hch
      rw [ring_setRing_same, hr]
      exact h
    · rw [ring_setRing, if_neg hch]
  have hb : (s.setRing ch (some q)).bufAddrs = s.bufAddrs := congrArg₂ (· ++ ·) (haddrs .tx) (haddrs .rx)
  rw [hb]

/-! ## The allocator -/

theorem allocate_handlesFresh {fits : Nat → Bool} (hs : s.handlesFresh) : (s.allocate fits).2.handlesFresh := by
  obtain ⟨t, h, -, ha, hn⟩ | ⟨a, t, h, -, -, ha, hn⟩ := allocate_cases s fits
  · rw [h]
    exact handlesFresh_of_sublist (ha ▸ .refl _) hn hs
  · obtain ⟨hnodup, hlt⟩ := hs
    rw [h]
    refine ⟨?_, fun x hx => ?_⟩
    · rw [ha, List.nodup_append]
      refine ⟨hnodup, by simp, fun x hx y hy => ?_⟩
      obtain rfl : y = s.nextHandle := by simpa using hy
      exact (hlt x hx).ne
    · rw [ha, List.mem_append, List.mem_singleton] at hx
      rw [hn]
      obtain hx | rfl := hx
      · exact (hlt x hx).trans (Nat.lt_succ_self _)
      · exact Nat.lt_succ_self _

theorem freeHandle_handlesFresh (h : Nat) (hs : s.handlesFresh) : (s.freeHandle h).handlesFresh :=
  handlesFresh_of_sublist List.filter_sublist rfl hs

theorem freeBuffers_handlesFresh (bs : List Buffer) (hs : s.handlesFresh) : (s.freeBuffers bs).handlesFresh := by
  rw [freeBuffers_eq]
  exact handlesFresh_of_sublist List.filter_sublist rfl hs

theorem allocBuffers_handlesFresh (n : Nat) (acc : List Buffer) (s : State) (hs : s.handlesFresh) :
    (allocBuffers n acc s).2.handlesFresh := by
  induction n generalizing acc s with
  | zero => exact hs
  | succ n ih =>
    have hfresh := allocate_handlesFresh (fits := fun a => (s.bufAddrs ++ acc.map Buffer.devAddr).all
      (apart s.cfg.bufSize a)) hs
    simp only [allocBuffers, State.allocateBuffer]
    split
    · rename_i t h
      rw [h] at hfresh
      exact freeBuffers_handlesFresh acc hfresh
    · rename_i b a t h
      rw [h] at hfresh
      exact ih _ _ hfresh

/-- Whether a ring is made or not, the handles stay fresh (R130, R131). -/
theorem ringInitialize_handlesFresh {a : Agent} {n : Nat}
    (h : ringInitialize a ch n s = .ok t ∨ ringInitialize a ch n s = .allocationError t) (hs : s.handlesFresh) :
    t.handlesFresh := by
  unfold ringInitialize at h
  split at h
  · simp at h
  split at h
  · simp at h
  have h1 := allocate_handlesFresh (fits := fun _ => true) hs
  unfold State.allocateBacking at h
  split at h
  · rename_i s1 he
    rw [he] at h1
    obtain rfl : s1 = t := by simpa using h
    exact h1
  · rename_i hb _ s1 he
    rw [he] at h1
    have h2 := allocBuffers_handlesFresh n [] s1 h1
    split at h
    · rename_i s2 he2
      rw [he2] at h2
      obtain rfl : s2.freeHandle hb = t := by simpa using h
      exact freeHandle_handlesFresh hb h2
    · rename_i bs s2 he2
      rw [he2] at h2
      obtain rfl : s2.setRing ch (some (newRing s.cfg ch n hb bs)) = t := by simpa using h
      exact handlesFresh_of_sublist (by simp) (by simp) h2

theorem ringAddrs_newRing (c : Config) (ch : Channel) (n hb : Nat) (bs : List Buffer) :
    ringAddrs (some (newRing c ch n hb bs)) = bs.map Buffer.devAddr := by
  cases ch <;> simp [ringAddrs, newRing, channelDir, armRx, freshDesc]

/-- A new ring's buffers come to those that are live. -/
theorem bufAddrs_setRing (hr : s.ring ch = none) (r : Ring) :
    ((s.setRing ch (some r)).bufAddrs).Perm (s.bufAddrs ++ ringAddrs (some r)) := by
  cases ch with
  | tx =>
    have hnone : s.chanTx.ring = none := hr
    have haddrs : s.bufAddrs = ringAddrs s.chanRx.ring := by simp [State.bufAddrs, hnone, ringAddrs]
    rw [haddrs]
    exact List.perm_append_comm
  | rx =>
    have hnone : s.chanRx.ring = none := hr
    have haddrs : s.bufAddrs = ringAddrs s.chanTx.ring := by simp [State.bufAddrs, hnone, ringAddrs]
    rw [haddrs]
    exact .refl _

theorem keepsLive_ringInitialize {a : Agent} {n : Nat} (h : ringInitialize a ch n s = .ok t) : KeepsLive s t where
  handles := ringInitialize_handlesFresh (.inl h)
  buffers hs := by
    obtain ⟨hr, s', hb, bs, hf, -, -, rfl, hp⟩ := ringInitialize_ok h
    have hperm := bufAddrs_setRing ((hf.ring ch).trans hr) (newRing s.cfg ch n hb bs)
    rw [hf.bufAddrs, ringAddrs_newRing] at hperm
    have hsymm : ∀ {x y}, apart s.cfg.bufSize x y = true → apart s.cfg.bufSize y x = true := fun {x y} hxy => by
      rwa [apart_comm]
    unfold State.buffersApart
    rw [setRing_cfg, hf.cfg]
    exact (hperm.pairwise_iff hsymm).mpr (hp hs)

theorem keepsLive_allocationError {a : Agent} {n : Nat} (h : ringInitialize a ch n s = .allocationError t) :
    KeepsLive s t where
  handles := ringInitialize_handlesFresh (.inr h)
  buffers hs := by
    have hf := ringInitialize_allocationError h
    unfold State.buffersApart at hs ⊢
    rwa [hf.bufAddrs, hf.cfg]

/-! ## Teardown -/

theorem keepsLive_teardownRing (h : teardownRing ch s = .ok t) : KeepsLive s t := by
  obtain ⟨-, rfl⟩ | ⟨r, -, -, rfl⟩ := teardownRing_ok h
  · exact .of_store rfl
  · refine .of_sublist (by simp) (by simp) (by simp) ?_
    cases ch with
    | tx => exact List.sublist_append_right _ _
    | rx => exact List.Sublist.append (.refl _) (List.nil_sublist _)

theorem keepsLive_teardownBoth (h : teardownBoth s = .ok t ∨ ∃ f, teardownBoth s = .error (f, t)) : KeepsLive s t := by
  unfold teardownBoth at h
  split at h
  · obtain h | ⟨f, h⟩ := h <;> cases h
    exact .of_store rfl
  · rename_i s1 h1
    split at h
    · obtain h | ⟨f, h⟩ := h <;> cases h
      exact keepsLive_teardownRing h1
    · rename_i s2 h2
      obtain rfl : s2 = t := by obtain h | ⟨f, h⟩ := h <;> cases h; rfl
      exact (keepsLive_teardownRing h1).trans (keepsLive_teardownRing h2)

theorem keepsLive_shutdownFree {b : Bool} (h : shutdownFree ch b s = .ok t) : KeepsLive s t := by
  unfold shutdownFree at h
  split at h
  · split at h
    · cases h
    · rename_i s' h'
      cases h
      exact (keepsLive_teardownRing h').trans (.of_store rfl)
  · cases h
    exact .of_store rfl

end

/-! ## The steps of an operation -/

section
variable (a : Agent) (s : State)

theorem keepsLive_sendStep (len : Nat) (payload : List Byte) (pos : SendPos) :
    KeepsLive s (sendStep a len payload pos s).state := by
  by_cases hpos : pos = .post
  · subst hpos
    obtain ⟨-, hstore⟩ | ⟨r, d, bytes, hr, hd, -, hpost⟩ := sendPost_cases a len payload s
    · exact .of_store hstore
    · rw [sendStep, hpost]
      exact .setRing hr (map_setDesc (g := fun d => d.buf.devAddr) hd rfl)
  · exact .of_store (sendStep_store a len payload hpos s).1

theorem keepsLive_bringupInitRx : KeepsLive s (bringupInitRx a s).state := by
  unfold bringupInitRx
  split
  · rename_i h; exact keepsLive_ringInitialize h
  · exact .of_store rfl
  · rename_i h
    have hkeeps := keepsLive_allocationError h
    split
    · exact hkeeps.trans (.of_store rfl)
    · rename_i h2; exact (hkeeps.trans (keepsLive_teardownRing h2)).trans (.of_store rfl)

theorem keepsLive_bringupRollback : KeepsLive s (bringupRollback a s).state := by
  have htoken : KeepsLive s ((s.setToken .tx false).setToken .rx false) := .of_store rfl
  unfold bringupRollback
  split
  · rename_i f t h
    exact (htoken.trans (keepsLive_teardownBoth (.inr ⟨f, h⟩))).trans (.of_store rfl)
  · rename_i t h
    exact (htoken.trans (keepsLive_teardownBoth (.inl h))).trans (.of_store rfl)

theorem keepsLive_bringupStep (pos : BringupPos) : KeepsLive s (bringupStep a pos s).state := by
  cases pos with
  | initTx =>
    simp only [bringupStep]
    split
    · rename_i h; exact keepsLive_ringInitialize h
    · rename_i h; exact (keepsLive_allocationError h).trans (.of_store rfl)
    · exact .of_store rfl
  | initRx => exact keepsLive_bringupInitRx a s
  | rollback => exact keepsLive_bringupRollback a s
  | curTx | curRx =>
    refine .of_store ?_
    simp only [bringupStep, bringupSetCur]
    split
    · rfl
    · exact orFault_store fun t h => portSetCurdesc_store h
  | writeTail =>
    refine .of_store ?_
    simp only [bringupStep]
    split
    · rfl
    · exact orFault_store fun t h => portSetTaildesc_store h
  | startEng ch => cases ch <;> exact .of_store (portStart_store s _)
  | control ch okTx running =>
    refine .of_store ?_
    cases ch with
    | tx => rfl
    | rx => simp only [bringupStep]; split <;> rfl
  | enable ch | rollDisable ch | rollStop ch => cases ch <;> exact .of_store rfl
  | ready | tokenTx | tokenRx | status | run | finish => exact .of_store rfl

theorem keepsLive_shutdownStep (pos : ShutdownPos) : KeepsLive s (shutdownStep a pos s).state := by
  cases pos with
  | teardown hTx hRx =>
    simp only [shutdownStep, shutdownTeardown, orFault]
    split
    · rename_i s1 h1
      have hkeeps := keepsLive_shutdownFree h1
      split
      · rename_i s2 h2; exact hkeeps.trans (keepsLive_shutdownFree h2)
      · exact hkeeps.trans (.of_store rfl)
    · exact .of_store rfl
  | lock ch => exact .of_store (acquireLock_store a ch s _)
  | quiesce ch polls hTx =>
    refine .of_store ?_
    simp only [shutdownStep, quiesceStep]
    split
    · rfl
    · split <;> rfl
  | unlock ch | disable ch | stop ch => cases ch <;> exact .of_store rfl
  | tokens | finish => exact .of_store rfl

theorem keepsLive_callerStep (k : Nat) : KeepsLive s (callerStep k s) := by
  have settle : ∀ {π : Type} (f : π → CallerOp) {p : Progress π}, KeepsLive s p.state →
      KeepsLive s (settleCaller k f p) := fun f p h => h.trans (.of_store (settleCaller_store k f p))
  unfold callerStep
  split
  · exact .of_store rfl
  · exact settle _ (.of_store (drainStep_store _ _ _ s))
  · exact settle _ (keepsLive_sendStep _ s _ _ _)
  · exact settle _ (keepsLive_bringupStep _ s _)
  · exact settle _ (keepsLive_shutdownStep _ s _)

end

/-! ## Every atomic step -/

section
variable {s t : State}

theorem DrawFrame.store (h : DrawFrame s t) : t.store = s.store := by
  rw [h]; rfl

/-- A completion writes no address (R281, R282). -/
theorem keepsLive_writeCompletion {ch : Channel} {r : Ring} {d d' : Desc} (hr : s.ring ch = some r)
    (hd : r.desc[(s.eng ch).hwCur]? = some d) (haddr : d'.buf.devAddr = d.buf.devAddr) (st : Status) :
    KeepsLive s (writeCompletion ch r d' st s) :=
  (KeepsLive.setRing (q := r.setDesc (s.eng ch).hwCur { d' with own := .completed, st := st }) hr
    (map_setDesc (g := fun d => d.buf.devAddr) hd haddr)).trans (.of_store (setEng_store _ ch _))

theorem keepsLive_txCompleteStep (s : State) : KeepsLive s (txCompleteStep s) := by
  obtain ⟨f, h⟩ | ⟨r, d, st, s', hr, hd, -, -, hf, h⟩ := txCompleteStep_cases s
  · rw [h]; exact .of_store rfl
  · rw [h]
    refine (KeepsLive.of_store hf.store).trans (keepsLive_writeCompletion ((hf.ring .tx).trans hr) ?_ rfl st)
    rwa [hf.eng]

theorem keepsLive_rxCompleteStep (s : State) : KeepsLive s (rxCompleteStep s) := by
  obtain ⟨f, h⟩ | ⟨f, s', hf, h⟩ | ⟨r, d, st, bytes, s', hr, hd, -, -, -, hf, h⟩ := rxCompleteStep_cases s
  · rw [h]; exact .of_store rfl
  · rw [h]; exact .of_store hf.store
  · rw [h]
    have hd' : r.desc[(s'.eng .rx).hwCur]? = some d := by rwa [hf.eng]
    exact (KeepsLive.of_store hf.store).trans (keepsLive_writeCompletion ((hf.ring .rx).trans hr) hd' (by rfl) st)

theorem keepsLive_internal {i : Instr} (hc : i.commandClass = .internal) (h : exec i s = .next t) : KeepsLive s t := by
  by_cases hinit : ∃ ch n, i = .ringInit ch n
  · obtain ⟨ch, n, rfl⟩ := hinit
    cases h
    split
    · split
      · rename_i h; exact (keepsLive_ringInitialize h).trans (.of_store rfl)
      · rename_i h; exact (keepsLive_allocationError h).trans (.of_store rfl)
      · exact .of_store rfl
    · exact .of_store rfl
  by_cases htd : ∃ ch, i = .ringTeardown ch
  · obtain ⟨ch, rfl⟩ := htd
    cases h
    split
    · rename_i h; exact (keepsLive_teardownRing h).trans (.of_store rfl)
    · exact .of_store rfl
  · exact .of_store (exec_port_store hc (fun ch n h => hinit ⟨ch, n, h⟩) (fun ch h => htd ⟨ch, h⟩) h)

theorem startInstr_store {i : Instr} (hc : i.commandClass = .caller) (h : startInstr i s = .next t) :
    t.store = s.store := by
  cases i <;> simp only [Instr.commandClass, reduceCtorEq] at hc <;> cases h
  case ringIsComplete | ringLength => exact queryStatus_store _ _ _ _ s
  case txSend => unfold startSend; split <;> rfl
  case devBringup => unfold startBringup; split <;> rfl
  case devShutdown => unfold startShutdown; split <;> rfl
  all_goals rfl

theorem Atomic.keepsLive (h : Atomic s t) : KeepsLive s t := by
  cases h with
  | pop => exact .of_store (by unfold State.popChoice; split <;> rfl)
  | select | dropTrace | refuse | pollStart => exact .of_store rfl
  | internal _ i hc h => exact keepsLive_internal hc h
  | start _ cmd i _ _ ha h => exact .of_store (startInstr_store (admission_caller ha).2.2 h)
  | caller k _ => exact keepsLive_callerStep s k
  | entry ch _ => exact .of_store (irqEntry_store s ch)
  | irq ch _ => exact .of_store (irqStep_store ch s)
  | poll => exact .of_store (pollStep_store s)
  | txComplete => exact keepsLive_txCompleteStep s
  | rxComplete => exact keepsLive_rxCompleteStep s
  | delay ch _ | halt ch _ | fail ch _ => exact .of_store (setEng_store s ch _)

/-- Settles O59: only the making of a ring makes a handle or a buffer live, and the allocator answers none that is. -/
theorem handlesAndBuffersKept : Obligations.HandlesAndBuffersKept := by
  intro s t h
  exact ⟨step_keeps (fun _ _ _ hat => hat.keepsLive.handles) h,
    step_keeps (fun _ _ _ hat => hat.keepsLive.buffers) h⟩

end

end Sys2Proof.Machine
end

section
/-! PROOFS. The making of a ring under answers of the environment that are fixed and in their range (R72, R130,
R329). -/

namespace Sys2Proof.Machine

/-! ## The buffers -/

/-- The address an answer stands for (R86; log 8). -/
def answered (c : Config) (a : Nat) : Nat := a % 2 ^ c.addrW

/-- The buffers made from the handles from `h` on at the addresses answered (R130; log 6). -/
def newBuffers (c : Config) (h : Nat) (addrs : List Nat) : List Buffer :=
  addrs.mapIdx fun i a => { handle := h + i, devAddr := answered c a, bytes := [] }

theorem newBuffers_cons (c : Config) (h a : Nat) (as : List Nat) :
    newBuffers c h (a :: as) = { handle := h, devAddr := answered c a, bytes := [] } :: newBuffers c (h + 1) as := by
  simp [newBuffers, List.mapIdx_cons, Nat.add_comm, Nat.add_left_comm]

theorem newBuffers_devAddr (c : Config) (h : Nat) (addrs : List Nat) :
    (newBuffers c h addrs).map Buffer.devAddr = addrs.map (answered c) := by
  induction addrs generalizing h with
  | nil => rfl
  | cons a as ih => rw [newBuffers_cons, List.map_cons, ih, List.map_cons]

theorem newBuffers_handle (c : Config) (h : Nat) (addrs : List Nat) :
    (newBuffers c h addrs).map Buffer.handle = List.range' h addrs.length := by
  induction addrs generalizing h with
  | nil => rfl
  | cons a as ih => rw [newBuffers_cons, List.map_cons, ih, List.length_cons, List.range'_succ]

theorem answersApart_cons {c : Config} {taken as : List Nat} {a : Nat} :
    answersApart c taken (a :: as) = true ↔
      taken.all (apart c.bufSize (answered c a)) = true ∧ answersApart c (taken ++ [answered c a]) as = true := by
  simp only [answersApart, Bool.and_eq_true, answered]

/-- Answers one after the other: the later ones against the earlier ones too. -/
theorem answersApart_append {c : Config} {taken as bs : List Nat} :
    answersApart c taken (as ++ bs) = true ↔
      answersApart c taken as = true ∧ answersApart c (taken ++ as.map (answered c)) bs = true := by
  induction as generalizing taken with
  | nil => simp [answersApart]
  | cons a as ih =>
    rw [List.cons_append, answersApart_cons, answersApart_cons, ih, and_assoc]
    simp

/-- The state after `n` allocations whose answers `rest` come after. -/
def State.afterAllocs (s : State) (rest : List (Option Nat)) (n : Nat) : State :=
  { s with
    draws := { s.draws with alloc := rest }
    allocated := s.allocated ++ List.range' s.nextHandle n
    nextHandle := s.nextHandle + n }

theorem afterAllocs_afterAllocs (s : State) (ds rest : List (Option Nat)) (n m : Nat) :
    (s.afterAllocs ds n).afterAllocs rest m = s.afterAllocs rest (n + m) := by
  simp [State.afterAllocs, Nat.add_assoc, List.append_assoc]

theorem afterAllocs_zero {s : State} {rest : List (Option Nat)} (h : s.draws.alloc = rest) :
    s.afterAllocs rest 0 = s := by
  simp [State.afterAllocs, ← h]

theorem allocate_afterAllocs {s : State} {fits : Nat → Bool} {a : Nat} {ds : List (Option Nat)}
    (h : s.draws.alloc = some a :: ds) (hfit : fits (answered s.cfg a) = true) :
    s.allocate fits = (some (s.nextHandle, answered s.cfg a), s.afterAllocs ds 1) := by
  rw [allocate_of_draw h hfit]
  rfl

theorem allocBuffers_of_draws {s : State} {addrs : List Nat} {acc : List Buffer} {rest : List (Option Nat)}
    (hd : s.draws.alloc = addrs.map some ++ rest)
    (hap : answersApart s.cfg (s.bufAddrs ++ acc.map Buffer.devAddr) addrs = true) :
    allocBuffers addrs.length acc s =
      (some (acc ++ newBuffers s.cfg s.nextHandle addrs), s.afterAllocs rest addrs.length) := by
  induction addrs generalizing s acc with
  | nil =>
    rw [List.length_nil, afterAllocs_zero (rest := rest) hd]
    simp [allocBuffers, newBuffers]
  | cons a as ih =>
    obtain ⟨hfit, hap'⟩ := answersApart_cons.mp hap
    have hd' : s.draws.alloc = some a :: (as.map some ++ rest) := hd
    have halloc := allocate_afterAllocs (fits := fun x => (s.bufAddrs ++ acc.map Buffer.devAddr).all
      (apart s.cfg.bufSize x)) hd' hfit
    have hrest := ih (s := s.afterAllocs (as.map some ++ rest) 1)
      (acc := acc ++ [{ handle := s.nextHandle, devAddr := answered s.cfg a, bytes := [] }]) rfl (by
        rw [List.map_append, ← List.append_assoc]
        exact hap')
    rw [afterAllocs_afterAllocs, Nat.add_comm] at hrest
    simp only [List.length_cons, allocBuffers, State.allocateBuffer, halloc]
    refine hrest.trans ?_
    rw [newBuffers_cons, List.append_assoc]
    rfl

/-! ## The ring -/

theorem map_mapIdx {α β γ : Type} (g : β → γ) (f : Nat → α → β) (l : List α) :
    (l.mapIdx f).map g = l.mapIdx fun i a => g (f i a) :=
  List.ext_getElem? fun i => by simp [Function.comp_def]

theorem newRing_newBuffers (c : Config) (ch : Channel) (h : Nat) (addrs : List Nat) :
    newRing c ch (c.cap ch) h (newBuffers c (h + 1) addrs) = initRing c ch h addrs := by
  cases ch <;> simp only [newRing, initRing, newBuffers, channelDir, map_mapIdx] <;> rfl

theorem initRing_handles (c : Config) (ch : Channel) (h : Nat) (addrs : List Nat) :
    (initRing c ch h addrs).handles = List.range' h (addrs.length + 1) := by
  rw [List.range'_succ, ← newBuffers_handle c (h + 1) addrs, ← newRing_newBuffers]
  cases ch <;> simp [Ring.handles, newRing, channelDir, freshDesc, armRx]

theorem initRing_addrs (c : Config) (ch : Channel) (h : Nat) (addrs : List Nat) :
    ringAddrs (some (initRing c ch h addrs)) = addrs.map (answered c) := by
  rw [← newRing_newBuffers, ringAddrs_newRing, newBuffers_devAddr]

/-- The making of a ring with every allocation succeeding (R130, R132, R133). -/
theorem ringInitialize_of_draws {a : Agent} {ch : Channel} {s : State} {b : Nat} {addrs : List Nat}
    {rest : List (Option Nat)} (hr : s.ring ch = none) (hl : s.holdsLock a = false) (hlen : addrs.length = s.cfg.cap ch)
    (hap : answersApart s.cfg s.bufAddrs addrs = true) (hd : s.draws.alloc = some b :: (addrs.map some ++ rest)) :
    ringInitialize a ch (s.cfg.cap ch) s =
      .ok ((s.afterAllocs rest (s.cfg.cap ch + 1)).setRing ch (some (initRing s.cfg ch s.nextHandle addrs))) := by
  have hback : s.allocateBacking = (some (s.nextHandle, answered s.cfg b), s.afterAllocs (addrs.map some ++ rest) 1) :=
    allocate_afterAllocs hd rfl
  have hbufs := allocBuffers_of_draws (s := s.afterAllocs (addrs.map some ++ rest) 1) (acc := []) rfl
    (by rw [List.map_nil, List.append_nil]; exact hap)
  rw [afterAllocs_afterAllocs, Nat.add_comm, hlen] at hbufs
  have hring : newRing s.cfg ch (s.cfg.cap ch) s.nextHandle (newBuffers s.cfg (s.nextHandle + 1) addrs)
      = initRing s.cfg ch s.nextHandle addrs := newRing_newBuffers s.cfg ch s.nextHandle addrs
  simp only [ringInitialize, hr, hl, hback, hbufs, Option.isSome_none, Bool.false_eq_true, if_false, List.nil_append]
  exact congrArg (fun r => InitResult.ok ((s.afterAllocs rest (s.cfg.cap ch + 1)).setRing ch (some r))) hring

/-- Settles O15: each answer is taken, none overlapping a live buffer. -/
theorem ringInitAllocates : Obligations.RingInitAllocates := by
  intro s ch n b addrs rest hn hr hl hlen hap hd
  change execRingInit ch n s = _
  rw [execRingInit, if_pos hn, hn]
  simp only [ringInitialize_of_draws hr hl hlen hap hd, withRet_setRing]
  rfl

end Sys2Proof.Machine
end

section
/-! PROOFS. `DEV_BRINGUP` run as one operation (R222, R223; log 4): both rings made, both engines programmed and
started, and then either `RUNNING` or the rollback. -/

namespace Sys2Proof.Machine

section
variable {s t : State} {k : Nat}

/-- A step of a bring-up that goes on; no position of it is an acquire. -/
theorem bringup_goto {pos q : BringupPos} (hs : s.callerLives k)
    (h : bringupStep (.caller k) pos (s.setOp k (.bringup pos)) = .goto q (t.setOp k (.bringup pos))) :
    CallerRuns k 1 (s.setOp k (.bringup pos)) (t.setOp k (.bringup q)) :=
  (stepsBy_bringup k).goto hs (fun _ hc => by cases hc) h

theorem bringup_done {pos : BringupPos} {c : Code} {v : Nat} (hs : s.callerLives k)
    (h : bringupStep (.caller k) pos (s.setOp k (.bringup pos)) = .done c v (t.setOp k (.bringup pos))) :
    CallerRuns k 1 (s.setOp k (.bringup pos)) (t.respond k c v) :=
  (stepsBy_bringup k).done hs (fun _ hc => by cases hc) h

/-! ## Each step -/

theorem bringupStep_initTx {a : Agent} (h : ringInitialize a .tx s.cfg.nTx s = .ok t) :
    bringupStep a .initTx s = .goto .initRx t := by
  simp only [bringupStep, h]

theorem bringupStep_initRx {a : Agent} (h : ringInitialize a .rx s.cfg.nRx s = .ok t) :
    bringupStep a .initRx s = .goto .ready t := by
  simp only [bringupStep, bringupInitRx, h]

/-- The current-descriptor register set to `curr` of the channel's ring (R222 lines 7 and 8, R259). -/
theorem bringupSetCur_of_halted {a : Agent} {ch : Channel} {r : Ring} (hc : ConfigFacts s.cfg)
    (hr : s.ring ch = some r) (hcurr : r.curr < s.cfg.cap ch) (hh : (s.eng ch).halted = true) (q : BringupPos) :
    bringupSetCur a ch q s = .goto q (s.setEng ch { s.eng ch with hwCur := r.curr, tailValid := false }) := by
  simp only [bringupSetCur, hr, portSetCurdesc_index hc hcurr hh, orFault]

/-- The receive tail register set to `tail` of the ring (R225, R260). -/
theorem bringupStep_writeTail {a : Agent} {r : Ring} (hc : ConfigFacts s.cfg) (hr : s.ring .rx = some r)
    (htail : r.tail < s.cfg.cap .rx) :
    bringupStep a .writeTail s
      = .goto .finish (s.setEng .rx { s.eng .rx with hwTail := r.tail, tailValid := true }) := by
  simp only [bringupStep, hr, portSetTaildesc_index hc htail, orFault]

/-- `start()` on an engine that is halted and has not failed, its draw fixed (R253). -/
theorem portStart_of_draw {ch : Channel} {ok : Bool} {starts : List Bool} (hh : (s.eng ch).halted = true)
    (he : (s.eng ch).errHalt = false) (hd : s.draws.startOk = ok :: starts) :
    portStart ch s = State.setEng { s with draws := { s.draws with startOk := starts } } ch
      { s.eng ch with runStop := true, halted := !ok } := by
  simp [portStart, State.drawStartOk, hh, he, hd]

/-! ## The rings -/

/-- Both rings made on fresh handles, the transmit ring's first (R222 lines 2 and 3). -/
def State.withRings (s : State) (aTx aRx : List Nat) (allocs : List (Option Nat)) : State :=
  ((s.afterAllocs allocs (s.cfg.nTx + 1 + (s.cfg.nRx + 1))).setRing .tx
    (some (initRing s.cfg .tx s.nextHandle aTx))).setRing .rx
      (some (initRing s.cfg .rx (s.nextHandle + (s.cfg.nTx + 1)) aRx))

theorem bringup_makesRings {bTx bRx : Nat} {aTx aRx : List Nat} {allocs : List (Option Nat)} (hs : s.callerLives k)
    (hTx : s.chanTx.ring = none) (hRx : s.chanRx.ring = none) (hl : s.holdsLock (.caller k) = false)
    (hlenTx : aTx.length = s.cfg.nTx) (hlenRx : aRx.length = s.cfg.nRx)
    (hap : answersApart s.cfg [] (aTx ++ aRx) = true)
    (hd : s.draws.alloc = some bTx :: (aTx.map some ++ some bRx :: (aRx.map some ++ allocs))) :
    CallerRuns k 2 (s.setOp k (.bringup .initTx)) ((s.withRings aTx aRx allocs).setOp k (.bringup .ready)) := by
  obtain ⟨hapTx, hapRx⟩ := answersApart_append.mp hap
  have haddrs : s.bufAddrs = [] := by simp [State.bufAddrs, hTx, hRx, ringAddrs]
  let u := (s.afterAllocs (some bRx :: (aRx.map some ++ allocs)) (s.cfg.nTx + 1)).setRing .tx
    (some (initRing s.cfg .tx s.nextHandle aTx))
  have haddrs' : u.bufAddrs = aTx.map (answered s.cfg) := by
    change ringAddrs (some (initRing s.cfg .tx s.nextHandle aTx)) ++ ringAddrs s.chanRx.ring = _
    rw [initRing_addrs, hRx, ringAddrs, List.append_nil]
  have h1 : CallerRuns k 1 (s.setOp k (.bringup .initTx)) (u.setOp k (.bringup .initRx)) := by
    have hap' : answersApart s.cfg s.bufAddrs aTx = true := haddrs.symm ▸ hapTx
    exact bringup_goto hs (bringupStep_initTx
      (ringInitialize_of_draws (s := s.setOp k (.bringup .initTx)) (ch := .tx) hTx hl hlenTx hap' hd))
  have h2 : CallerRuns k 1 (u.setOp k (.bringup .initRx)) ((s.withRings aTx aRx allocs).setOp k (.bringup .ready)) := by
    have hap' : answersApart u.cfg u.bufAddrs aRx = true := haddrs'.symm ▸ hapRx
    have hinit := bringupStep_initRx
      (ringInitialize_of_draws (s := u.setOp k (.bringup .initRx)) (ch := .rx) hRx hl hlenRx hap' rfl)
    refine bringup_goto hs (hinit.trans ?_)
    rw [State.withRings, ← afterAllocs_afterAllocs s (some bRx :: (aRx.map some ++ allocs))]
    rfl
  exact h1.trans h2

/-! ## The engines -/

/-- Both handlers registered, both engines at slot 0, told to run and started as the draws say, no window yet (R222
lines 4 to 10). -/
def State.withEngines (s : State) (okTx okRx : Bool) (starts : List Bool) : State :=
  { s with
    life := .ready
    chanTx := { s.chanTx with irqToken := true }
    chanRx := { s.chanRx with irqToken := true }
    engTx := { s.engTx with runStop := true, irqEn := true, halted := !okTx, hwCur := 0, tailValid := false }
    engRx := { s.engRx with runStop := true, irqEn := true, halted := !okRx, hwCur := 0, tailValid := false }
    draws := { s.draws with startOk := starts } }

/-- The handlers registered and the engines at slot 0 (R222 lines 4 to 8). -/
def State.programmed (s : State) : State :=
  { s with
    life := .ready
    chanTx := { s.chanTx with irqToken := true }
    chanRx := { s.chanRx with irqToken := true }
    engTx := { s.engTx with hwCur := 0, tailValid := false }
    engRx := { s.engRx with hwCur := 0, tailValid := false } }

theorem bringup_programsEngines {rTx rRx : Ring} (hs : s.callerLives k) (hc : ConfigFacts s.cfg)
    (hTx : s.ring .tx = some rTx) (hRx : s.ring .rx = some rRx) (hcTx : rTx.curr = 0) (hcRx : rRx.curr = 0)
    (hhTx : s.engTx.halted = true) (hhRx : s.engRx.halted = true) :
    CallerRuns k 5 (s.setOp k (.bringup .ready)) (s.programmed.setOp k (.bringup (.enable .tx))) := by
  have hcap : ∀ ch, 0 < s.cfg.cap ch := fun ch => by have := hc.cap_ge_two ch; omega
  let u1 : State := { s with life := .ready }
  let u2 := u1.setToken .tx true
  let u3 := u2.setToken .rx true
  let u4 := u3.setEng .tx { s.engTx with hwCur := 0, tailValid := false }
  have h1 : CallerRuns k 1 (s.setOp k (.bringup .ready)) (u1.setOp k (.bringup .tokenTx)) := bringup_goto hs rfl
  have h2 : CallerRuns k 1 (u1.setOp k (.bringup .tokenTx)) (u2.setOp k (.bringup .tokenRx)) := bringup_goto hs rfl
  have h3 : CallerRuns k 1 (u2.setOp k (.bringup .tokenRx)) (u3.setOp k (.bringup .curTx)) := bringup_goto hs rfl
  have h4 : CallerRuns k 1 (u3.setOp k (.bringup .curTx)) (u4.setOp k (.bringup .curRx)) := by
    refine bringup_goto hs ((bringupSetCur_of_halted (s := u3.setOp k (.bringup .curTx)) (ch := .tx) hc hTx
      (hcTx ▸ hcap .tx) hhTx .curRx).trans ?_)
    rw [hcTx]
    rfl
  have h5 : CallerRuns k 1 (u4.setOp k (.bringup .curRx)) (s.programmed.setOp k (.bringup (.enable .tx))) := by
    refine bringup_goto hs ((bringupSetCur_of_halted (s := u4.setOp k (.bringup .curRx)) (ch := .rx) hc hRx
      (hcRx ▸ hcap .rx) hhRx (.enable .tx)).trans ?_)
    rw [hcRx]
    rfl
  exact (((h1.trans h2).trans h3).trans h4).trans h5

/-- The position after the start of an engine (R222 lines 9 to 11). -/
def afterStart : Channel → BringupPos
  | .tx => .enable .rx
  | .rx => .status .tx false

/-- An engine's interrupts enabled and the engine started as the draw says (R222 lines 9 and 10). -/
def State.engineStarted (s : State) (ch : Channel) (ok : Bool) (starts : List Bool) : State :=
  State.setEng { s with draws := { s.draws with startOk := starts } } ch
    { s.eng ch with runStop := true, irqEn := true, halted := !ok }

theorem bringup_startsEngine {ch : Channel} {ok : Bool} {starts : List Bool} (hs : s.callerLives k)
    (hh : (s.eng ch).halted = true) (he : (s.eng ch).errHalt = false) (hd : s.draws.startOk = ok :: starts) :
    CallerRuns k 2 (s.setOp k (.bringup (.enable ch)))
      ((s.engineStarted ch ok starts).setOp k (.bringup (afterStart ch))) := by
  have h1 : CallerRuns k 1 (s.setOp k (.bringup (.enable ch)))
      ((portIrqEnable ch s).setOp k (.bringup (.startEng ch))) :=
    bringup_goto hs (by cases ch <;> rfl)
  have h2 : CallerRuns k 1 ((portIrqEnable ch s).setOp k (.bringup (.startEng ch)))
      ((s.engineStarted ch ok starts).setOp k (.bringup (afterStart ch))) := by
    cases ch <;> exact bringup_goto hs (congrArg (Progress.goto _)
      (portStart_of_draw (s := (portIrqEnable _ s).setOp k (.bringup (.startEng _))) hh he hd))
  exact h1.trans h2

theorem bringup_startsEngines {rTx rRx : Ring} {okTx okRx : Bool} {starts : List Bool} (hs : s.callerLives k)
    (hc : ConfigFacts s.cfg) (hTx : s.ring .tx = some rTx) (hRx : s.ring .rx = some rRx) (hcTx : rTx.curr = 0)
    (hcRx : rRx.curr = 0) (hhTx : s.engTx.halted = true) (heTx : s.engTx.errHalt = false)
    (hhRx : s.engRx.halted = true) (heRx : s.engRx.errHalt = false) (hd : s.draws.startOk = okTx :: okRx :: starts) :
    CallerRuns k 9 (s.setOp k (.bringup .ready))
      ((s.withEngines okTx okRx starts).setOp k (.bringup (.status .tx false))) := by
  have h1 := bringup_programsEngines hs hc hTx hRx hcTx hcRx hhTx hhRx
  have h2 := bringup_startsEngine (s := s.programmed) (k := k) (ch := .tx) hs hhTx heTx hd
  have h3 := bringup_startsEngine (s := s.programmed.engineStarted .tx okTx (okRx :: starts)) (k := k) (ch := .rx)
    hs hhRx heRx rfl
  exact (h1.trans h2).trans h3

/-- Both engines are read back, and the bring-up goes on if both run with their interrupts enabled (R222 line 11). -/
theorem bringup_checksEngines (hs : s.callerLives k) (hiTx : s.engTx.irqEn = true) (hiRx : s.engRx.irqEn = true) :
    CallerRuns k 4 (s.setOp k (.bringup (.status .tx false)))
      (s.setOp k (.bringup (if !s.engTx.halted && !s.engRx.halted then .run else .rollDisable .tx))) := by
  have h1 : CallerRuns k 1 (s.setOp k (.bringup (.status .tx false)))
      (s.setOp k (.bringup (.control .tx false !s.engTx.halted))) := bringup_goto hs rfl
  have h2 : CallerRuns k 1 (s.setOp k (.bringup (.control .tx false !s.engTx.halted)))
      (s.setOp k (.bringup (.status .rx !s.engTx.halted))) := by
    refine bringup_goto hs (congrArg (fun b => Progress.goto (BringupPos.status .rx b) _) ?_)
    change (!s.engTx.halted && s.engTx.irqEn) = !s.engTx.halted
    rw [hiTx, Bool.and_true]
  have h3 : CallerRuns k 1 (s.setOp k (.bringup (.status .rx !s.engTx.halted)))
      (s.setOp k (.bringup (.control .rx (!s.engTx.halted) !s.engRx.halted))) := bringup_goto hs rfl
  have h4 : CallerRuns k 1 (s.setOp k (.bringup (.control .rx (!s.engTx.halted) !s.engRx.halted)))
      (s.setOp k (.bringup (if !s.engTx.halted && !s.engRx.halted then .run else .rollDisable .tx))) := by
    refine bringup_goto hs ?_
    change (if (!s.engTx.halted && (!s.engRx.halted && s.engRx.irqEn)) = true then _ else _) = _
    rw [hiRx, Bool.and_true]
    split <;> rfl
  exact ((h1.trans h2).trans h3).trans h4

/-! ## Running -/

theorem bringup_runs {r : Ring} (hs : s.callerLives k) (hc : ConfigFacts s.cfg) (hr : s.ring .rx = some r)
    (htail : r.tail < s.cfg.nRx) :
    CallerRuns k 3 (s.setOp k (.bringup .run)) (State.respond { s with
      life := .running
      rxMode := .interrupting
      rxSched := false
      engRx := { s.engRx with hwTail := r.tail, tailValid := true }
      lcBusy := false } k .ok 0) := by
  let u1 : State := { s with rxMode := .interrupting, rxSched := false, life := .running }
  let u2 := u1.setEng .rx { s.engRx with hwTail := r.tail, tailValid := true }
  have h1 : CallerRuns k 1 (s.setOp k (.bringup .run)) (u1.setOp k (.bringup .writeTail)) := bringup_goto hs rfl
  have h2 : CallerRuns k 1 (u1.setOp k (.bringup .writeTail)) (u2.setOp k (.bringup .finish)) :=
    bringup_goto hs (bringupStep_writeTail (s := u1.setOp k (.bringup .writeTail)) hc hr htail)
  have h3 : CallerRuns k 1 (u2.setOp k (.bringup .finish)) (State.respond { u2 with lcBusy := false } k .ok 0) :=
    bringup_done hs rfl
  exact (h1.trans h2).trans h3

/-! ## The rollback -/

/-- Both rings are torn down while no engine has a window, and the handles that are neither's stay live (R223, R138). -/
theorem teardownBoth_of_noWindow {rTx rRx : Ring} {live : List Nat} (hTx : s.ring .tx = some rTx)
    (hRx : s.ring .rx = some rRx) (hvTx : s.engTx.tailValid = false) (hvRx : s.engRx.tailValid = false)
    (hlive : (s.allocated.filter fun h => decide (h ∉ rTx.handles)).filter (fun h => decide (h ∉ rRx.handles)) = live) :
    teardownBoth s = .ok (State.setRing (State.setRing { s with allocated := live } .tx none) .rx none) := by
  let u := State.setRing { s with allocated := s.allocated.filter fun h => decide (h ∉ rTx.handles) } .tx none
  have h1 : teardownRing .tx s = .ok u := teardownRing_of_free hTx (.inr (windowEmpty_iff.mpr (.inl hvTx)))
  have h2 := teardownRing_of_free (s := u) (ch := .rx) hRx (.inr (windowEmpty_iff.mpr (.inl hvRx)))
  simp only [teardownBoth, h1, h2, ← hlive]
  rfl

/-- The position after an engine is told to stop (R223). -/
def afterRollStop : Channel → BringupPos
  | .tx => .rollDisable .rx
  | .rx => .rollback

/-- An engine's interrupts disabled and the engine told to stop (R223). -/
def State.engineStopped (s : State) (ch : Channel) : State :=
  s.setEng ch { s.eng ch with irqEn := false, runStop := false }

theorem bringup_stopsEngine (hs : s.callerLives k) (ch : Channel) :
    CallerRuns k 2 (s.setOp k (.bringup (.rollDisable ch)))
      ((s.engineStopped ch).setOp k (.bringup (afterRollStop ch))) := by
  have h1 : CallerRuns k 1 (s.setOp k (.bringup (.rollDisable ch)))
      ((portIrqDisable ch s).setOp k (.bringup (.rollStop ch))) :=
    bringup_goto hs (by cases ch <;> rfl)
  have h2 : CallerRuns k 1 ((portIrqDisable ch s).setOp k (.bringup (.rollStop ch)))
      ((s.engineStopped ch).setOp k (.bringup (afterRollStop ch))) := by
    cases ch <;> exact bringup_goto hs rfl
  exact h1.trans h2

theorem bringup_tearsDown {rTx rRx : Ring} {live : List Nat} (hs : s.callerLives k) (hTx : s.ring .tx = some rTx)
    (hRx : s.ring .rx = some rRx) (hvTx : s.engTx.tailValid = false) (hvRx : s.engRx.tailValid = false)
    (hlive : (s.allocated.filter fun h => decide (h ∉ rTx.handles)).filter (fun h => decide (h ∉ rRx.handles)) = live) :
    CallerRuns k 1 (s.setOp k (.bringup .rollback)) (State.respond { s with
      life := .uninitialized
      lcBusy := false
      chanTx := { s.chanTx with ring := none, irqToken := false }
      chanRx := { s.chanRx with ring := none, irqToken := false }
      allocated := live } k .deviceStartError 0) := by
  refine bringup_done hs ?_
  have htd := teardownBoth_of_noWindow
    (s := ((s.setOp k (.bringup .rollback)).setToken .tx false).setToken .rx false) hTx hRx hvTx hvRx hlive
  simp only [bringupStep, bringupRollback, htd]
  rfl

/-- The rollback stops both engines, unregisters both handlers and frees both rings (R223). -/
theorem bringup_rollsBack {rTx rRx : Ring} {live : List Nat} (hs : s.callerLives k) (hTx : s.ring .tx = some rTx)
    (hRx : s.ring .rx = some rRx) (hvTx : s.engTx.tailValid = false) (hvRx : s.engRx.tailValid = false)
    (hlive : (s.allocated.filter fun h => decide (h ∉ rTx.handles)).filter (fun h => decide (h ∉ rRx.handles)) = live) :
    CallerRuns k 5 (s.setOp k (.bringup (.rollDisable .tx))) (State.respond { s with
      life := .uninitialized
      lcBusy := false
      chanTx := { s.chanTx with ring := none, irqToken := false }
      chanRx := { s.chanRx with ring := none, irqToken := false }
      engTx := { s.engTx with irqEn := false, runStop := false }
      engRx := { s.engRx with irqEn := false, runStop := false }
      allocated := live } k .deviceStartError 0) := by
  have h1 := bringup_stopsEngine hs .tx
  have h2 := bringup_stopsEngine (s := s.engineStopped .tx) (k := k) hs .rx
  have h3 := bringup_tearsDown (s := (s.engineStopped .tx).engineStopped .rx) (k := k) hs hTx hRx hvTx hvRx hlive
  exact (h1.trans h2).trans h3

/-! ## The whole operation -/

theorem exec_devBringup_of_runs {n : Nat} (hready : s.callerReady s.active = true) (hbusy : s.lcBusy = false)
    (hlife : s.life = .uninitialized) {c : Code} {v : Nat}
    (h : CallerRuns s.active n (State.setOp { s with lcBusy := true } s.active (.bringup .initTx))
      (t.respond s.active c v)) (ht : t.callers = s.callers) (hn : n ≤ 40) :
    exec .devBringup s = .next (t.respond s.active c v) := by
  have hs := callerLives_of_ready hready
  have hstart : startBringup s.active s = State.setOp { s with lcBusy := true } s.active (.bringup .initTx) := by
    simp [startBringup, hbusy, hlife]
  have hexec : exec .devBringup s = .next (runCaller s.active (startBringup s.active s)) := rfl
  rw [hexec, hstart, h.runCaller (callerCanAdvance_respond (ht ▸ hs.1) c v) hn]

end

/-- A bring-up whose allocations succeed and whose engines' starts are drawn comes to the choice between `RUNNING` and
the rollback (R222 lines 2 to 11). -/
theorem bringup_reachesChoice {s : State} {k : Nat} {bTx bRx : Nat} {aTx aRx : List Nat} {allocs : List (Option Nat)}
    {okTx okRx : Bool} {starts : List Bool} (hs : s.callerLives k) (hc : ConfigFacts s.cfg) (hTx : s.chanTx.ring = none)
    (hRx : s.chanRx.ring = none) (hl : s.holdsLock (.caller k) = false) (hhTx : s.engTx.halted = true)
    (heTx : s.engTx.errHalt = false) (hhRx : s.engRx.halted = true) (heRx : s.engRx.errHalt = false)
    (hlenTx : aTx.length = s.cfg.nTx) (hlenRx : aRx.length = s.cfg.nRx)
    (hap : answersApart s.cfg [] (aTx ++ aRx) = true)
    (hd : s.draws.alloc = some bTx :: (aTx.map some ++ some bRx :: (aRx.map some ++ allocs)))
    (hst : s.draws.startOk = okTx :: okRx :: starts) :
    CallerRuns k 15 (s.setOp k (.bringup .initTx)) (((s.withRings aTx aRx allocs).withEngines okTx okRx starts).setOp k
      (.bringup (if okTx && okRx then .run else .rollDisable .tx))) := by
  have h1 := bringup_makesRings hs hTx hRx hl hlenTx hlenRx hap hd
  have h2 := bringup_startsEngines (s := s.withRings aTx aRx allocs) (k := k) hs hc rfl rfl rfl rfl hhTx heTx
    hhRx heRx hst
  have h3 := bringup_checksEngines (s := (s.withRings aTx aRx allocs).withEngines okTx okRx starts) (k := k) hs rfl rfl
  have h := (h1.trans h2).trans h3
  simpa only [State.withEngines, Bool.not_not] using h

/-- Settles O37: the choice falls on `RUNNING`. -/
theorem bringupSucceeds : Obligations.BringupSucceeds := by
  intro s bTx bRx aTx aRx allocs starts hwf _ hready hbusy hlife hTx hRx hl hhTx heTx hhRx heRx hlenTx hlenRx hap hd hst
  have hs := callerLives_of_ready hready
  have hc := Config.facts hwf
  have h1 := bringup_reachesChoice (s := { s with lcBusy := true }) (k := s.active) hs hc hTx hRx hl hhTx heTx hhRx heRx
    hlenTx hlenRx hap hd hst
  have h2 := bringup_runs (s := (State.withRings { s with lcBusy := true } aTx aRx allocs).withEngines true true starts)
    (k := s.active) hs hc rfl (show s.cfg.nRx - 2 < s.cfg.nRx by have := hc.nRx; omega)
  rw [exec_devBringup_of_runs hready hbusy hlife (h1.trans h2) rfl (by decide), hbusy]
  rfl

/-- The handles of both new rings are freed, and no other (R131, R223). -/
theorem filter_newHandles {s : State} (hfresh : s.handlesFresh) (aTx aRx : List Nat) :
    ((s.allocated ++ List.range' s.nextHandle (aTx.length + 1 + (aRx.length + 1))).filter
        fun h => decide (h ∉ (initRing s.cfg .tx s.nextHandle aTx).handles)).filter
      (fun h => decide (h ∉ (initRing s.cfg .rx (s.nextHandle + (aTx.length + 1)) aRx).handles)) = s.allocated := by
  obtain ⟨-, hlt⟩ := hfresh
  simp only [initRing_handles, List.filter_filter, List.filter_append]
  have hold : s.allocated.filter (fun h =>
      decide (h ∉ List.range' (s.nextHandle + (aTx.length + 1)) (aRx.length + 1)) &&
      decide (h ∉ List.range' s.nextHandle (aTx.length + 1))) = s.allocated := by
    refine List.filter_eq_self.mpr fun h hh => ?_
    have := hlt h hh
    simp only [List.mem_range'_1, Bool.and_eq_true, decide_eq_true_eq]
    omega
  have hnew : (List.range' s.nextHandle (aTx.length + 1 + (aRx.length + 1))).filter
      (fun h => decide (h ∉ List.range' (s.nextHandle + (aTx.length + 1)) (aRx.length + 1)) &&
        decide (h ∉ List.range' s.nextHandle (aTx.length + 1))) = [] := by
    refine List.filter_eq_nil_iff.mpr fun h hh => ?_
    simp only [List.mem_range'_1, Bool.and_eq_true, decide_eq_true_eq] at hh ⊢
    omega
  rw [hold, hnew, List.append_nil]

/-- Settles O39: the choice falls on the rollback. -/
theorem bringupStartError : Obligations.BringupStartError := by
  intro s bTx bRx aTx aRx allocs starts okTx okRx hwf _ hready hbusy hlife hTx hRx hl hhTx heTx hhRx heRx hfresh hlenTx
    hlenRx hap hd hst hfail
  have hs := callerLives_of_ready hready
  have hc := Config.facts hwf
  have h1 := bringup_reachesChoice (s := { s with lcBusy := true }) (k := s.active) hs hc hTx hRx hl hhTx heTx hhRx heRx
    hlenTx hlenRx hap hd hst
  have hlive := filter_newHandles hfresh aTx aRx
  rw [hlenTx, hlenRx] at hlive
  have h2 := bringup_rollsBack
    (s := (State.withRings { s with lcBusy := true } aTx aRx allocs).withEngines okTx okRx starts) (k := s.active)
    hs rfl rfl rfl rfl hlive
  have hchoice : (okTx && okRx) = false := by obtain rfl | rfl := hfail <;> simp
  rw [hchoice] at h1
  rw [exec_devBringup_of_runs hready hbusy hlife (h1.trans h2) rfl (by decide)]
  simp only [hbusy, hlife, hTx, hRx]
  rfl

end Sys2Proof.Machine
end

section
/-! PROOFS. The encoding: every command decodes from its own word, and what every word decodes to, by its opcode and its
reserved fields (R102 to R104, R108, R111, R112, R114). -/

namespace Sys2Proof

/-! ## From the command to the word -/

/-- Row by row of the opcode map: the fields of the word are those `encode` put in, and the fields that the row reserves
are zero (R103, R104). -/
theorem decode_encode (i : Instr) : decode (encode i) = .command i := by
  cases i with
  -- The channel and the operand are both used.
  | ringInit ch n | ringNext ch n | ringIsComplete ch n | ringLength ch n | portSetCurdesc ch n
  | portSetTaildesc ch n => simp [encode, decode]
  | portCfgCoalesce ch d t => simp [encode, decode]
  -- The operand is reserved.
  | ringTeardown ch | portReadStatus ch | portReadControl ch | portStart ch | portStop ch | portReset ch
  | portIrqEnable ch | portIrqDisable ch | portIrqAck ch => simp [encode, decode, requireZero]
  -- The channel bit is reserved.
  | rxDrain n | txSend n => simp [encode, decode, requireZero]
  -- Both are reserved.
  | rxIrq | rxPoll | txIrq | devBringup | devShutdown => simp [encode, decode, requireZero]

theorem decodeTableWord_of_decode {w : Word} {i : Instr} (h : decode w = .command i) :
    decodeTableWord 32 w.toNat = some i := by
  have hw : BitVec.ofNat 32 (w.toNat % 2 ^ 32) = w :=
    BitVec.eq_of_toNat_eq (by simp [w.isLt])
  rw [decodeTableWord, hw, h]

/-- Settles O2: the word of a command decodes to it, and the opcode table reads the same 32 bits. -/
theorem decodeEncodeAllCommands : Obligations.DecodeEncodeAllCommands := fun i =>
  ⟨decode_encode i, decodeTableWord_of_decode (decode_encode i)⟩

/-! ## From the word to the command -/

/-- The opcodes of the opcode map (R108). -/
def mapOpcodes : List (BitVec 8) :=
  [0x01, 0x02, 0x03, 0x04, 0x05, 0x10, 0x11, 0x12, 0x20, 0x21, 0x30, 0x31, 0x40, 0x41, 0x42, 0x43, 0x44, 0x45, 0x46,
    0x47, 0x48, 0x49, 0x4A]

/-- The opcodes whose operand is reserved (R103). -/
def operandReserved : List (BitVec 8) :=
  [0x02, 0x11, 0x12, 0x21, 0x30, 0x31, 0x40, 0x41, 0x42, 0x43, 0x44, 0x45, 0x46, 0x47]

/-- The opcodes whose channel bit is reserved (R104). -/
def channelReserved : List (BitVec 8) := [0x10, 0x11, 0x12, 0x20, 0x21, 0x30, 0x31]

/-- A field that the word's opcode reserves is not zero (R112). -/
def reservedFieldSet (w : Word) : Prop :=
  (opField w ∈ operandReserved ∧ immField w ≠ 0) ∨ (opField w ∈ channelReserved ∧ chanBit w ≠ 0)

theorem mem_mapOpcodes_of_reservedFieldSet {w : Word} (h : reservedFieldSet w) : opField w ∈ mapOpcodes := by
  have hoperand : operandReserved ⊆ mapOpcodes := by decide
  have hchannel : channelReserved ⊆ mapOpcodes := by decide
  obtain ⟨hop, -⟩ | ⟨hop, -⟩ := h
  · exact hoperand hop
  · exact hchannel hop

/-- What a word decodes to, exactly one of three things (R114). -/
inductive DecodesTo (w : Word) : Decoded → Prop where
  | reserved (hop : opField w ∉ mapOpcodes) : DecodesTo w .reservedOpcode
  | malformed (hset : reservedFieldSet w) : DecodesTo w .malformedCommand
  | command {i : Instr} (hop : opField w ∈ mapOpcodes) (hset : ¬ reservedFieldSet w) (henc : encode i = w) :
      DecodesTo w (.command i)

/-- A word in a row of the map: a command exactly if no reserved field is set, and then the command's own word. -/
theorem DecodesTo.requireZero {w : Word} {i : Instr} {zero : Bool} (hop : opField w ∈ mapOpcodes)
    (hzero : zero = true ↔ ¬ reservedFieldSet w) (henc : zero = true → encode i = w) :
    DecodesTo w (requireZero zero i) := by
  cases zero with
  | true => exact .command hop (hzero.mp rfl) (henc rfl)
  | false => exact .malformed (by simpa using hzero)

/-- `decode` tries one opcode after the other. -/
theorem DecodesTo.ite {w : Word} {op : BitVec 8} {d d' : Decoded} (hrow : opField w = op → DecodesTo w d)
    (hrest : opField w ≠ op → DecodesTo w d') : DecodesTo w (if opField w = op then d else d') := by
  by_cases hop : opField w = op
  · rw [if_pos hop]
    exact hrow hop
  · rw [if_neg hop]
    exact hrest hop

/-! The four kinds of row, by the fields that are reserved. -/

section
variable {w : Word} {op : BitVec 8} {i : Instr} (hop : opField w = op)
include hop

/-- No field is reserved. -/
theorem DecodesTo.row (hrow : op ∈ mapOpcodes ∧ op ∉ operandReserved ∧ op ∉ channelReserved)
    (henc : encode i = assemble op (channelBit (channelOf (chanBit w))) (immField w)) : DecodesTo w (.command i) := by
  subst hop
  obtain ⟨hmap, himm, hch⟩ := hrow
  refine .command hmap (by simp [reservedFieldSet, himm, hch]) ?_
  rw [henc, channelBit_channelOf, assemble_fields]

/-- The operand is reserved. -/
theorem DecodesTo.row_channel (hrow : op ∈ mapOpcodes ∧ op ∈ operandReserved ∧ op ∉ channelReserved)
    (henc : encode i = assemble op (channelBit (channelOf (chanBit w))) 0) :
    DecodesTo w (Sys2Proof.requireZero (immField w == 0) i) := by
  subst hop
  obtain ⟨hmap, himm, hch⟩ := hrow
  refine .requireZero hmap (by simp [reservedFieldSet, himm, hch]) fun hzero => ?_
  rw [henc, channelBit_channelOf, ← beq_iff_eq.mp hzero, assemble_fields]

/-- The channel bit is reserved. -/
theorem DecodesTo.row_operand (hrow : op ∈ mapOpcodes ∧ op ∉ operandReserved ∧ op ∈ channelReserved)
    (henc : encode i = assemble op 0 (immField w)) : DecodesTo w (Sys2Proof.requireZero (chanBit w == 0) i) := by
  subst hop
  obtain ⟨hmap, himm, hch⟩ := hrow
  refine .requireZero hmap (by simp [reservedFieldSet, himm, hch]) fun hzero => ?_
  rw [henc, ← beq_iff_eq.mp hzero, assemble_fields]

/-- Both are reserved. -/
theorem DecodesTo.row_bare (hrow : op ∈ mapOpcodes ∧ op ∈ operandReserved ∧ op ∈ channelReserved)
    (henc : encode i = assemble op 0 0) :
    DecodesTo w (Sys2Proof.requireZero (chanBit w == 0 && immField w == 0) i) := by
  subst hop
  obtain ⟨hmap, himm, hch⟩ := hrow
  refine .requireZero hmap (by simp [reservedFieldSet, himm, hch, and_comm]) fun hzero => ?_
  obtain ⟨hc, hoperand⟩ := Bool.and_eq_true_iff.mp hzero
  calc encode i = assemble (opField w) 0 0 := henc
    _ = assemble (opField w) (chanBit w) (immField w) := by rw [beq_iff_eq.mp hc, beq_iff_eq.mp hoperand]
    _ = w := assemble_fields w

end

/-- The opcode map, row by row (R108); a word of no row is reserved (R111). -/
theorem decodesTo_decode (w : Word) : DecodesTo w (decode w) := by
  dsimp only [decode]
  refine .ite (.row (op := 0x01#8) · (by decide) rfl) fun _ => ?_
  refine .ite (.row_channel (op := 0x02#8) · (by decide) rfl) fun _ => ?_
  refine .ite (.row (op := 0x03#8) · (by decide) rfl) fun _ => ?_
  refine .ite (.row (op := 0x04#8) · (by decide) rfl) fun _ => ?_
  refine .ite (.row (op := 0x05#8) · (by decide) rfl) fun _ => ?_
  refine .ite (.row_operand (op := 0x10#8) · (by decide) rfl) fun _ => ?_
  refine .ite (.row_bare (op := 0x11#8) · (by decide) rfl) fun _ => ?_
  refine .ite (.row_bare (op := 0x12#8) · (by decide) rfl) fun _ => ?_
  refine .ite (.row_operand (op := 0x20#8) · (by decide) rfl) fun _ => ?_
  refine .ite (.row_bare (op := 0x21#8) · (by decide) rfl) fun _ => ?_
  refine .ite (.row_bare (op := 0x30#8) · (by decide) rfl) fun _ => ?_
  refine .ite (.row_bare (op := 0x31#8) · (by decide) rfl) fun _ => ?_
  refine .ite (.row_channel (op := 0x40#8) · (by decide) rfl) fun _ => ?_
  refine .ite (.row_channel (op := 0x41#8) · (by decide) rfl) fun _ => ?_
  refine .ite (.row_channel (op := 0x42#8) · (by decide) rfl) fun _ => ?_
  refine .ite (.row_channel (op := 0x43#8) · (by decide) rfl) fun _ => ?_
  refine .ite (.row_channel (op := 0x44#8) · (by decide) rfl) fun _ => ?_
  refine .ite (.row_channel (op := 0x45#8) · (by decide) rfl) fun _ => ?_
  refine .ite (.row_channel (op := 0x46#8) · (by decide) rfl) fun _ => ?_
  refine .ite (.row_channel (op := 0x47#8) · (by decide) rfl) fun _ => ?_
  refine .ite (.row (op := 0x48#8) · (by decide) rfl) fun _ => ?_
  refine .ite (.row (op := 0x49#8) · (by decide) rfl) fun _ => ?_
  refine .ite (.row (op := 0x4A#8) · (by decide) (by rw [encode, append_delay_threshold])) fun _ => ?_
  exact .reserved (by simp [mapOpcodes, *])

/-- Settles O3: of the three things a word decodes to, only a word that is an encoding is a command. -/
theorem encodeDecodeOneWordPerCommand : Obligations.EncodeDecodeOneWordPerCommand := by
  intro w i h
  have hdec := decodesTo_decode w
  rw [h] at hdec
  cases hdec with
  | command _ _ henc => exact henc

/-! ## The words that spell no command -/

theorem decode_eq_reservedOpcode_iff (w : Word) : decode w = .reservedOpcode ↔ opField w ∉ mapOpcodes := by
  have hdec := decodesTo_decode w
  generalize decode w = d at hdec
  cases hdec with
  | reserved hop => simp [hop]
  | malformed hset => simp [mem_mapOpcodes_of_reservedFieldSet hset]
  | command hop => simp [hop]

theorem decode_eq_malformedCommand_iff (w : Word) : decode w = .malformedCommand ↔ reservedFieldSet w := by
  have hdec := decodesTo_decode w
  generalize decode w = d at hdec
  cases hdec with
  | reserved hop => simp [mt mem_mapOpcodes_of_reservedFieldSet hop]
  | malformed hset => simp [hset]
  | command _ hset => simp [hset]

/-! The fields as the numbers R102 writes. -/

theorem opField_toNat (w : Word) : (opField w).toNat = (w >>> 24).toNat := by
  have := w.isLt
  simp only [opField, BitVec.extractLsb'_toNat, BitVec.toNat_ushiftRight, Nat.shiftRight_eq_div_pow]
  omega

theorem immField_ne_zero_iff (w : Word) : immField w ≠ 0 ↔ w.toNat % 2 ^ 23 ≠ 0 := by
  simp [immField, ← BitVec.toNat_inj]

theorem chanBit_ne_zero_iff (w : Word) : chanBit w ≠ 0 ↔ w.getLsbD 23 = true := by
  have hbit : chanBit w = BitVec.ofBool (w.getLsbD 23) := by
    apply BitVec.eq_of_getLsbD_eq
    simp [chanBit]
  rw [hbit]
  cases w.getLsbD 23 <;> decide

/-- The reserved opcodes, as R111 lists them. -/
def reservedRange (op : Nat) : Prop :=
  op = 0x00 ∨ (0x06 ≤ op ∧ op ≤ 0x0F) ∨ (0x13 ≤ op ∧ op ≤ 0x1F) ∨ (0x22 ≤ op ∧ op ≤ 0x2F)
    ∨ (0x32 ≤ op ∧ op ≤ 0x3F) ∨ 0x4B ≤ op

theorem not_mem_mapOpcodes_iff (op : BitVec 8) : op ∉ mapOpcodes ↔ reservedRange op.toNat := by
  revert op
  unfold reservedRange
  decide

/-- Membership in a list of opcodes is membership of the number in the list of their numbers. -/
theorem mem_opcodes_iff (op : BitVec 8) (l : List (BitVec 8)) : op ∈ l ↔ op.toNat ∈ l.map BitVec.toNat :=
  (List.mem_map_of_injective fun _ _ => BitVec.eq_of_toNat_eq).symm

/-- Settles O4: the opcodes outside the map are the ranges of R111, and the reserved fields are those of R103 and
R104. -/
theorem refusedWords : Obligations.RefusedWords := by
  intro w
  constructor
  · rw [decode_eq_reservedOpcode_iff, not_mem_mapOpcodes_iff, opField_toNat]
    rfl
  · rw [decode_eq_malformedCommand_iff, reservedFieldSet, mem_opcodes_iff, mem_opcodes_iff, opField_toNat,
      immField_ne_zero_iff, chanBit_ne_zero_iff]
    rfl

/-- Settles O1: each word is the encoding of its command, or of no command at all. -/
theorem specWordsDecode : Obligations.SpecWordsDecode :=
  ⟨decode_encode (.ringNext .rx 7), decode_encode (.ringIsComplete .tx 0), decode_encode (.rxDrain 2),
    decode_encode (.txSend 64), decode_encode .devBringup, decode_encode .devShutdown,
    decode_encode (.portSetTaildesc .rx 6), decode_encode (.portCfgCoalesce .tx 3 1),
    decode_encode (.portCfgCoalesce .tx 10 4), (decode_eq_reservedOpcode_iff _).mpr (by decide),
    (decode_eq_malformedCommand_iff _).mpr (.inr (by decide))⟩

end Sys2Proof
end

section
/-! PROOFS. What a step runs: a caller's command or its refusal (R110 to R114, R312), the fixed command of an interrupt
agent and of `DEFER`, and the word of the trace slot (log 3, log 4, log 11). -/

namespace Sys2Proof.Machine

/-! ## Admission of a command, in the order of R312 -/

section
variable {c : Config} {cmd : Command} {i : Instr}

theorem admission_of_reservedOpcode (hdec : decode cmd.word = .reservedOpcode) : admission c cmd = .reservedOpcode := by
  simp [admission, hdec]

theorem admission_of_malformedCommand (hdec : decode cmd.word = .malformedCommand) :
    admission c cmd = .malformedCommand := by
  simp [admission, hdec]

variable (hdec : decode cmd.word = .command i)
include hdec

theorem admission_of_illFormed (hform : i.wellFormed c cmd.payload.length = false) :
    admission c cmd = .malformedCommand := by
  simp [admission, hdec, hform]

theorem admission_of_notIssuable (hform : i.wellFormed c cmd.payload.length = true)
    (hclass : i.commandClass ≠ .caller) : admission c cmd = .notIssuable := by
  simp [admission, hdec, hform, hclass]

theorem admission_of_caller (hform : i.wellFormed c cmd.payload.length = true) (hclass : i.commandClass = .caller) :
    admission c cmd = .run i := by
  simp [admission, hdec, hform, hclass]

end

/-! ## Issuing the command at `pc` -/

section
variable {s : State} {k : Nat} {cmd : Command} {run : Instr → State → Host.Outcome State Fault Refusal}
  (hfetch : s.fetch k = some cmd)
include hfetch

theorem issue_of_run {i : Instr} (ha : admission s.cfg cmd = .run i) :
    issue k run s = run i { s with active := k } := by
  simp [issue, hfetch, ha]

theorem issue_of_reservedOpcode (ha : admission s.cfg cmd = .reservedOpcode) :
    issue k run s = .next (s.refuse (.caller k) (.reservedOpcode k (s.caller k).pc)) := by
  simp [issue, hfetch, ha]

theorem issue_of_malformedCommand (ha : admission s.cfg cmd = .malformedCommand) :
    issue k run s = .next (s.refuse (.caller k) (.malformedCommand k (s.caller k).pc)) := by
  simp [issue, hfetch, ha]

theorem issue_of_notIssuable (ha : admission s.cfg cmd = .notIssuable) :
    issue k run s = .next (s.refuse (.caller k) (.notIssuable k (s.caller k).pc)) := by
  simp [issue, hfetch, ha]

end

/-! ## The step of a choice that is enabled -/

section
variable {s : State} {cs : List Choice} (hwf : s.cfg.wf = true) (hshape : s.shape = true)
include hwf hshape

theorem step_of_enabled {c : Choice} (hc : s.schedule = c :: cs) (he : { s with schedule := cs }.enabled c = true) :
    step s = takeChoice c { s with schedule := cs } := by
  rw [step_of_schedule hwf hshape hc, act_of_enabled he]

/-- A caller that is ready issues the command at its `pc`, to run it whole or to take its first atomic step (R110). -/
theorem step_of_callerReady {k : Nat} {cmd : Command} (hready : s.callerReady k = true)
    (hfetch : s.fetch k = some cmd) :
    (s.schedule = .command k :: cs → step s = issue k exec { s with schedule := cs })
    ∧ (s.schedule = .start k :: cs → step s = issue k startInstr { s with schedule := cs }) := by
  have he : (s.callerReady k && (s.fetch k).isSome) = true := by rw [hready, hfetch]; rfl
  exact ⟨fun hc => step_of_enabled hwf hshape hc he, fun hc => step_of_enabled hwf hshape hc he⟩

end

theorem runTrace_of_command {s : State} {w : Word} {i : Instr} (hw : s.trace = some w) (hdec : decode w = .command i)
    (hclass : i.commandClass ≠ .caller) : runTrace s = exec i { s with trace := none } := by
  simp [runTrace, hw, hdec, hclass]

/-! ## The statements -/

/-- Settles O5: the command at `pc` is admitted, and issuing it is running it. -/
theorem stepRunsFetchedCommand : Obligations.StepRunsFetchedCommand := by
  intro s k cs cmd i hwf hshape hsched hready hfetch hdec hform hclass
  rw [(step_of_callerReady hwf hshape hready hfetch).1 hsched]
  exact issue_of_run (s := { s with schedule := cs }) hfetch (admission_of_caller hdec hform hclass)

/-- Settles O6: each enabled choice is taken, and its effect is its command's. -/
theorem stepRunsAgentCommand : Obligations.StepRunsAgentCommand := by
  intro s cs hwf hshape
  refine ⟨fun hsched he => ?rxIrq, fun hsched he => ?txIrq, fun hsched he => ?poll,
    fun w i hsched hw hdec hclass he => ?trace⟩
  case rxIrq | txIrq | poll => exact step_of_enabled hwf hshape hsched he
  case trace =>
    rw [step_of_enabled hwf hshape hsched he]
    exact runTrace_of_command (s := { s with schedule := cs }) hw hdec hclass

/-- Settles O7: whether the command is to run whole or to take its first atomic step, it is issued, and admission
refuses it first. -/
theorem stepRefusesBadCommand : Obligations.StepRefusesBadCommand := by
  intro s k cs cmd hwf hshape hsched hready hfetch
  obtain ⟨run, hstep⟩ : ∃ run, step s = issue k run { s with schedule := cs } := by
    obtain ⟨hcommand, hstart⟩ := step_of_callerReady (cs := cs) hwf hshape hready hfetch
    obtain hsched | hsched := hsched
    · exact ⟨exec, hcommand hsched⟩
    · exact ⟨startInstr, hstart hsched⟩
  rw [hstep]
  refine ⟨fun hdec => ?reserved, fun hdec => ?malformed,
    fun i hdec => ⟨fun hform => ?operand, fun hform hclass => ?notIssuable⟩⟩
  case reserved => exact issue_of_reservedOpcode hfetch (admission_of_reservedOpcode hdec)
  case malformed => exact issue_of_malformedCommand hfetch (admission_of_malformedCommand hdec)
  case operand => exact issue_of_malformedCommand hfetch (admission_of_illFormed hdec hform)
  case notIssuable => exact issue_of_notIssuable hfetch (admission_of_notIssuable hdec hform hclass)

end Sys2Proof.Machine
end

section
/-! PROOFS. `RING_INIT` that makes no ring: the rollback of its allocations, the ring that exists and the wrong capacity
(R131, R136). -/

namespace Sys2Proof.Machine

/-! ## An answer that makes no buffer -/

/-- The answer `x` to a request for a buffer is a failure, or overlaps a buffer at one of the addresses `taken` (R72,
R131; log 8). -/
def answerFails (c : Config) (taken : List Nat) (x : Option Nat) : Prop :=
  x = none ∨ ∃ a, x = some a ∧ answersApart c taken [a] = false

theorem allocateBuffer_of_answerFails {s : State} {taken : List Nat} {x : Option Nat} {ds : List (Option Nat)}
    (hd : s.draws.alloc = x :: ds) (hx : answerFails s.cfg (s.bufAddrs ++ taken) x) :
    s.allocateBuffer taken = (none, { s with draws := { s.draws with alloc := ds } }) := by
  obtain rfl | ⟨a, rfl, hover⟩ := hx
  · exact allocate_of_failure hd
  · exact allocate_of_overlap hd (by simpa only [answersApart, Bool.and_true] using hover)

/-- Of answers that come one after the other, the last is the first to fail. -/
theorem answerFails_of_append {c : Config} {taken as : List Nat} {x : Option Nat}
    (hap : answersApart c taken as = true)
    (hx : x = none ∨ ∃ a, x = some a ∧ answersApart c taken (as ++ [a]) = false) :
    answerFails c (taken ++ as.map (answered c)) x := by
  refine hx.imp_right fun ⟨a, ha, hover⟩ => ⟨a, ha, ?_⟩
  rw [← Bool.not_eq_true] at hover ⊢
  exact fun h => hover (answersApart_append.mpr ⟨hap, h⟩)

/-! ## The buffer loop -/

/-- A loop whose first `k` allocations succeed goes on from where they leave it. -/
theorem allocBuffers_add {k m : Nat} {acc acc' : List Buffer} {s s' : State}
    (h : allocBuffers k acc s = (some acc', s')) : allocBuffers (k + m) acc s = allocBuffers m acc' s' := by
  induction k generalizing acc s with
  | zero =>
    cases h
    rw [Nat.zero_add]
  | succ k ih =>
    rw [Nat.add_right_comm]
    simp only [allocBuffers] at h ⊢
    split at h
    · cases h
    · next halloc => simpa only [halloc] using ih h

/-- The loop stops at the first answer that fails, and frees the buffers made before it (R131). -/
theorem allocBuffers_of_answerFails {s : State} {n : Nat} {addrs : List Nat} {x : Option Nat}
    {rest : List (Option Nat)} (hlen : addrs.length < n) (hd : s.draws.alloc = addrs.map some ++ x :: rest)
    (hap : answersApart s.cfg s.bufAddrs addrs = true)
    (hx : answerFails s.cfg (s.bufAddrs ++ addrs.map (answered s.cfg)) x) :
    allocBuffers n [] s
      = (none, (s.afterAllocs rest addrs.length).freeBuffers (newBuffers s.cfg s.nextHandle addrs)) := by
  obtain ⟨m, rfl⟩ : ∃ m, n = addrs.length + (m + 1) := ⟨n - addrs.length - 1, by omega⟩
  have hmade := allocBuffers_of_draws (acc := []) hd (by rwa [List.map_nil, List.append_nil])
  rw [← newBuffers_devAddr s.cfg s.nextHandle] at hx
  have hfail := allocateBuffer_of_answerFails (s := s.afterAllocs (x :: rest) addrs.length) rfl hx
  rw [allocBuffers_add hmade, List.nil_append, allocBuffers, hfail]
  rfl

/-! ## The rollback -/

/-- The state after `n` allocations that have all been freed again; the answers `rest` come after (R131; log 6). -/
def State.afterRollback (s : State) (rest : List (Option Nat)) (n : Nat) : State :=
  { s with
    draws := { s.draws with alloc := rest }
    nextHandle := s.nextHandle + n }

theorem filter_notMem_range' {l : List Nat} {h : Nat} (hl : ∀ x ∈ l, x < h) (n : Nat) :
    (l ++ List.range' h n).filter (fun x => decide (x ∉ List.range' h n)) = l := by
  have hold : l.filter (fun x => decide (x ∉ List.range' h n)) = l := by
    refine List.filter_eq_self.mpr fun x hx => ?_
    have := hl x hx
    simp only [List.mem_range'_1, decide_eq_true_eq]
    omega
  have hnew : (List.range' h n).filter (fun x => decide (x ∉ List.range' h n)) = [] :=
    List.filter_eq_nil_iff.mpr fun x hx => by simp [hx]
  rw [List.filter_append, hold, hnew, List.append_nil]

/-- Freeing the buffers and then the backing memory frees what was allocated, and nothing else (R131). -/
theorem free_afterAllocs {s : State} (hfresh : ∀ h ∈ s.allocated, h < s.nextHandle) (rest : List (Option Nat))
    (addrs : List Nat) :
    ((s.afterAllocs rest (addrs.length + 1)).freeBuffers (newBuffers s.cfg (s.nextHandle + 1) addrs)).freeHandle
      s.nextHandle = s.afterRollback rest (addrs.length + 1) := by
  have hlive := filter_notMem_range' hfresh (addrs.length + 1)
  rw [freeBuffers_eq, newBuffers_handle]
  simp only [State.freeHandle, State.afterAllocs, State.afterRollback, List.filter_filter, ← Bool.decide_and]
  simp only [List.range'_succ, List.mem_cons, not_or] at hlive ⊢
  rw [hlive]

/-! ## `initialize` -/

section
variable {a : Agent} {ch : Channel} {n : Nat} {s : State}

/-- A channel that has a ring gets no other one (R136). -/
theorem ringInitialize_of_ring (hr : (s.ring ch).isSome = true) :
    ringInitialize a ch n s = .fault (.ringExists ch) := by
  rw [ringInitialize, if_pos hr]

variable {rest : List (Option Nat)} (hr : s.ring ch = none) (hl : s.holdsLock a = false)
include hr hl

/-- The backing memory is not allocated. -/
theorem ringInitialize_of_noBacking (hd : s.draws.alloc = none :: rest) :
    ringInitialize a ch n s = .allocationError (s.afterRollback rest 0) := by
  have hback : s.allocateBacking = (none, s.afterRollback rest 0) := allocate_of_failure hd
  simp only [ringInitialize, hr, hl, hback, Option.isSome_none, Bool.false_eq_true, if_false]

/-- The backing memory and the buffers at `addrs` are allocated, the next buffer is not. -/
theorem ringInitialize_of_answerFails {b : Nat} {addrs : List Nat} {x : Option Nat}
    (hfresh : ∀ h ∈ s.allocated, h < s.nextHandle) (hlen : addrs.length < n)
    (hap : answersApart s.cfg s.bufAddrs addrs = true) (hd : s.draws.alloc = some b :: (addrs.map some ++ x :: rest))
    (hx : answerFails s.cfg (s.bufAddrs ++ addrs.map (answered s.cfg)) x) :
    ringInitialize a ch n s = .allocationError (s.afterRollback rest (addrs.length + 1)) := by
  have hback : s.allocateBacking
      = (some (s.nextHandle, answered s.cfg b), s.afterAllocs (addrs.map some ++ x :: rest) 1) :=
    allocate_afterAllocs hd rfl
  have hbufs := allocBuffers_of_answerFails (s := s.afterAllocs (addrs.map some ++ x :: rest) 1) hlen rfl hap hx
  rw [afterAllocs_afterAllocs, Nat.add_comm 1] at hbufs
  simp only [ringInitialize, hr, hl, hback, hbufs, Option.isSome_none, Bool.false_eq_true, if_false]
  exact congrArg InitResult.allocationError (free_afterAllocs hfresh rest addrs)

end

/-! ## The statement -/

section
variable {ch : Channel} {n : Imm} {s : State}

theorem exec_ringInit_of_capacity_ne (hn : n.toNat ≠ s.cfg.cap ch) :
    exec (.ringInit ch n) s = .next (s.refuse .trace .illFormedConfig) := by
  change execRingInit ch n s = _
  rw [execRingInit, if_neg hn]

variable (hn : n.toNat = s.cfg.cap ch)
include hn

theorem exec_ringInit_fault {f : FaultReason} (h : ringInitialize .trace ch (s.cfg.cap ch) s = .fault f) :
    exec (.ringInit ch n) s = .next (s.raiseFault .trace f) := by
  change execRingInit ch n s = _
  rw [execRingInit, if_pos hn, hn, h]

theorem exec_ringInit_allocationError {t : State}
    (h : ringInitialize .trace ch (s.cfg.cap ch) s = .allocationError t) :
    exec (.ringInit ch n) s = .next { t with ret := .word (respWord .allocationError 0) } := by
  change execRingInit ch n s = _
  rw [execRingInit, if_pos hn, hn, h]

end

/-- Settles O16: the answer that fails is the one to the request for the backing memory, or one to a request for a
buffer. -/
theorem ringInitFails : Obligations.RingInitFails := by
  intro s ch n
  refine ⟨fun got x rest hn hr hl hfresh hlen hap hd hx => ?_,
    fun hn hr => exec_ringInit_fault hn (ringInitialize_of_ring hr), exec_ringInit_of_capacity_ne⟩
  cases got with
  | nil =>
    obtain rfl | ⟨hne, -⟩ := hx
    · exact exec_ringInit_allocationError hn (ringInitialize_of_noBacking hr hl hd)
    · exact absurd rfl hne
  | cons b addrs =>
    have hfail := answerFails_of_append hap (hx.imp_right And.right)
    exact exec_ringInit_allocationError hn (ringInitialize_of_answerFails hr hl hfresh.2 hlen hap hd hfail)

end Sys2Proof.Machine
end

section
/-! PROOFS. The words of a command (R102) and `RING_NEXT` (R139). -/

namespace Sys2Proof.Machine

/-- An opcode of the map is what stands in the word's top byte (R102). -/
theorem spelledAs_of_encode {i : Instr} {op : BitVec 8} {c : BitVec 1} {imm : Imm} {k : CommandClass}
    (h : encode i = assemble op c imm) (hk : i.commandClass = k) : spelledAs i op.toNat k := by
  refine ⟨?_, hk⟩
  have htop := opField_toNat (encode i)
  rw [BitVec.toNat_ushiftRight, Nat.shiftRight_eq_div_pow] at htop
  rw [← htop, h, opField_assemble]

/-- Settles O18: the last index is the one whose successor is `N_ch`, where `next` wraps. -/
theorem ringNextWraps : Obligations.RingNextWraps := by
  intro s ch i hwf
  refine ⟨spelledAs_of_encode (op := 0x03#8) rfl rfl, fun _ => rfl, fun hi => ?_⟩
  have hcap := (Config.facts hwf).cap_ge_two ch
  have hlast : i.toNat + 1 = s.cfg.cap ch ↔ i.toNat = s.cfg.cap ch - 1 := by omega
  change execRingNext ch i s = _
  simp only [execRingNext, next_eq_ite hi, hlast]

end Sys2Proof.Machine
end

section
/-! PROOFS. The receive interrupt handler run as one operation (R166, R317; log 4). -/

namespace Sys2Proof.Machine

section
variable {s t : State}

/-- Atomic steps of the receive handler. -/
abbrev RxIrqRuns : Nat → State → State → Prop := Runs (fun u => u.irqCanAdvance .rx) (irqStep .rx)

theorem rxIrq_step {op : RxIrqOp} (hs : s.isStopped .irqRx = false) (hop : op ≠ .idle)
    (ht : rxIrqStep (s.setRxIrqOp op) = t) : RxIrqRuns 1 (s.setRxIrqOp op) t := by
  refine .single ?_ ht
  have hstop : (s.setRxIrqOp op).isStopped .irqRx = false := hs
  have hidle : (s.setRxIrqOp op).irqIdle .rx = false := decide_eq_false hop
  simp only [State.irqCanAdvance, irqAgent, hidle, hstop, Bool.not_false, Bool.and_self]

theorem RxIrqRuns.runIrq {n : Nat} (h : RxIrqRuns n s t) (ht : t.irqRx.op = .idle) (hn : n ≤ 40) :
    runIrq .rx s = t := by
  refine Runs.ends h ?_ (hn.trans (forty_le_opFuel s.cfg))
  have hidle : t.irqIdle .rx = true := decide_eq_true ht
  simp only [State.irqCanAdvance, hidle, Bool.not_true, Bool.false_and]

/-- The handler's first step goes on by the pending bits (R166). -/
theorem rxIrqStep_readStatus : rxIrqStep (s.setRxIrqOp .readStatus)
    = s.setRxIrqOp (if s.engRx.iocPend || s.engRx.dlyPend then .ack else .notHandled) := by
  change (if s.engRx.iocPend || s.engRx.dlyPend then _ else _) = _
  split <;> rfl

/-- With a pending bit set the handler acknowledges, disables and schedules (R166). -/
theorem rxIrq_handles (hs : s.isStopped .irqRx = false) (hp : (s.engRx.iocPend || s.engRx.dlyPend) = true) :
    runIrq .rx (s.irqEntry .rx) = State.irqReturn { portIrqDisable .rx (portIrqAck .rx s) with
      rxMode := .polling, rxSched := true } .rx .ok 0 := by
  have h1 : RxIrqRuns 1 (s.irqEntry .rx) (s.setRxIrqOp .ack) :=
    rxIrq_step hs (by decide) (by rw [rxIrqStep_readStatus, if_pos hp])
  have h2 : RxIrqRuns 1 (s.setRxIrqOp .ack) ((portIrqAck .rx s).setRxIrqOp .disable) :=
    rxIrq_step hs (by decide) rfl
  have h3 : RxIrqRuns 1 ((portIrqAck .rx s).setRxIrqOp .disable)
      ((portIrqDisable .rx (portIrqAck .rx s)).setRxIrqOp .schedule) :=
    rxIrq_step hs (by decide) rfl
  have h4 : RxIrqRuns 1 ((portIrqDisable .rx (portIrqAck .rx s)).setRxIrqOp .schedule)
      (State.irqReturn { portIrqDisable .rx (portIrqAck .rx s) with rxMode := .polling, rxSched := true } .rx .ok 0) :=
    rxIrq_step hs (by decide) rfl
  exact RxIrqRuns.runIrq (((h1.trans h2).trans h3).trans h4) rfl (by decide)

/-- With no pending bit set it returns at once (R166). -/
theorem rxIrq_notHandled (hs : s.isStopped .irqRx = false) (hp : (s.engRx.iocPend || s.engRx.dlyPend) = false) :
    runIrq .rx (s.irqEntry .rx) = s.irqReturn .rx .notHandled 0 := by
  have h1 : RxIrqRuns 1 (s.irqEntry .rx) (s.setRxIrqOp .notHandled) :=
    rxIrq_step hs (by decide) (by rw [rxIrqStep_readStatus, if_neg (by simp [hp])])
  have h2 : RxIrqRuns 1 (s.setRxIrqOp .notHandled) (s.irqReturn .rx .notHandled 0) := rxIrq_step hs (by decide) rfl
  exact RxIrqRuns.runIrq (h1.trans h2) rfl (by decide)

end

/-- Settles O30: the handler's first step reads the pending bits, and each way on is a fixed run of its steps. -/
theorem rxIrqSchedulesPoll : Obligations.RxIrqSchedulesPoll := by
  intro s hs
  refine ⟨fun hp => congrArg Host.Outcome.next ?handles, fun hioc hdly => congrArg Host.Outcome.next ?notHandled⟩
  case handles => exact rxIrq_handles hs (by simpa using hp)
  case notHandled => exact rxIrq_notHandled hs (by simp [hioc, hdly])

end Sys2Proof.Machine
end

section
/-! PROOFS. The drain run as one operation (R161 to R164; log 4), by either agent that runs it: a caller, and the poll
(R167). -/

namespace Sys2Proof.Machine

/-! ## The ring a drain leaves -/

section
variable {r : Ring} {n size j : Nat} {d : Desc}

theorem rearmed_getElem? (r : Ring) (size w i : Nat) : (r.rearmed size w).desc[i]?
    = (r.desc[i]?).map fun d => if dist r.cap r.curr i < w then armRx size d else d := by
  simp [Ring.rearmed, armRx, clearedStatus]

theorem rearmed_zero (h : RingBounds n r) : r.rearmed size 0 = r := by
  have hcap := h.cap
  have hdesc : (r.rearmed size 0).desc = r.desc := List.ext_getElem? fun i => by simp [rearmed_getElem?]
  have hcurr : (r.curr + 0) % r.cap = r.curr := Nat.mod_eq_of_lt (hcap.symm ▸ h.curr)
  have htail : (r.tail + 0) % r.cap = r.tail := Nat.mod_eq_of_lt (hcap.symm ▸ h.tail)
  calc r.rearmed size 0
    _ = { r with curr := (r.curr + 0) % r.cap, tail := (r.tail + 0) % r.cap, desc := (r.rearmed size 0).desc } := rfl
    _ = r := by rw [hdesc, hcurr, htail]

/-- What stands at `curr` after `j` re-armings: the descriptor `j` places on, untouched, or on a whole turn the first
one, re-armed (R142). -/
theorem rearmed_atCurr (h : RingBounds n r) (hj : j ≤ n) (hd : r.desc[r.slot j]? = some d) :
    (r.rearmed size j).desc[(r.rearmed size j).curr]? = some (if j = n then armRx size d else d) := by
  have hcap := h.cap
  subst hcap
  have hdist : dist r.cap r.curr (r.slot j) = if j = r.cap then 0 else j := by
    split
    · rename_i hj; rw [Ring.slot, hj, Nat.add_mod_right, Nat.mod_eq_of_lt h.curr, dist_self h.curr]
    · exact dist_slot h.curr (by omega)
  have hcurr := h.curr
  change (r.rearmed size j).desc[r.slot j]? = _
  rw [rearmed_getElem?, hd, hdist, Option.map_some]
  split
  · rw [if_pos (by omega)]
  · rw [if_neg (Nat.lt_irrefl j)]

/-- One more descriptor re-armed, and both cursors on by one: what an iteration of the loop writes (R162). -/
theorem rearmed_succ (h : RingBounds n r) (hj : j < n) (hd : r.desc[r.slot j]? = some d) :
    r.rearmed size (j + 1) = { (r.rearmed size j).setDesc (r.rearmed size j).curr (armRx size d) with
      curr := next r.cap (r.rearmed size j).curr, tail := next r.cap (r.rearmed size j).tail } := by
  have hcap := h.cap
  subst hcap
  have hdesc : (r.rearmed size (j + 1)).desc = (r.rearmed size j).desc.set (r.slot j) (armRx size d) := by
    refine List.ext_getElem? fun i => ?_
    by_cases hi : r.slot j = i
    · subst hi
      obtain ⟨hlt, -⟩ := List.getElem?_eq_some_iff.mp hd
      have hdist : dist r.cap r.curr (r.slot j) = j := dist_slot h.curr hj
      rw [rearmed_getElem?, hd, Option.map_some, hdist, if_pos (Nat.lt_succ_self j),
        List.getElem?_set_self (by simpa [Ring.rearmed] using hlt)]
    · rw [List.getElem?_set_ne hi, rearmed_getElem?, rearmed_getElem?]
      by_cases hlt : i < r.cap
      · have hne : dist r.cap r.curr i ≠ j := fun he => hi (he ▸ slot_dist h.curr hlt)
        have hiff : dist r.cap r.curr i < j + 1 ↔ dist r.cap r.curr i < j := by omega
        simp only [hiff]
      · rw [List.getElem?_eq_none (show r.desc.length ≤ i by rw [h.length]; omega)]
        rfl
  calc r.rearmed size (j + 1)
    _ = { r with
          curr := (r.curr + (j + 1)) % r.cap
          tail := (r.tail + (j + 1)) % r.cap
          desc := (r.rearmed size (j + 1)).desc } := rfl
    _ = _ := by rw [hdesc, ← next_add_mod, ← next_add_mod]; rfl

/-- Where the loop has nothing more to deliver, the descriptor at `curr` is not complete (R161): on a whole turn it is
one the loop re-armed. -/
theorem rearmed_notComplete (h : RingBounds n r) (hj : j ≤ n) (hstop : j = n ∨ ¬ r.completeAt j) :
    ∃ d, (r.rearmed size j).desc[(r.rearmed size j).curr]? = some d ∧ d.st.cmplt = false := by
  have hslot : r.slot j < r.desc.length := by
    rw [h.length, ← h.cap]
    exact Nat.mod_lt _ (by have := h.cap; have := h.curr; omega)
  have hd := List.getElem?_eq_getElem hslot
  refine ⟨_, rearmed_atCurr h hj hd, ?_⟩
  split
  case isTrue => rfl
  case isFalse hne =>
    refine Bool.eq_false_iff.mpr fun hc => ?_
    exact hstop.resolve_left hne ⟨_, hd, hc⟩

end

/-! ## What a drain writes -/

/-- The part of the state a drain writes. -/
structure RxPart where
  chan : Chan
  eng : Engine
  sink : List (List Byte × Nat)

def State.rxPart (s : State) : RxPart where
  chan := s.chanRx
  eng := s.engRx
  sink := s.sinkLog

/-- `s` with its receive part written. -/
def State.withRx (s : State) (x : RxPart) : State :=
  { s with chanRx := x.chan, engRx := x.eng, sinkLog := x.sink }

/-- The frames delivered, as many descriptors re-armed, the lock as `l` says (R161 to R163). -/
def RxPart.drained (x : RxPart) (size : Nat) (r : Ring) (frames : List (List Byte)) (l : Lock) : RxPart where
  chan := { x.chan with ring := some (r.rearmed size frames.length), lock := l }
  eng := x.eng
  sink := x.sink ++ frames.map fun f => (f, f.length)

/-- The tail register written (R164). -/
def RxPart.tailAt (x : RxPart) (i : Nat) : RxPart := { x with eng := { x.eng with hwTail := i, tailValid := true } }

/-- A step of a drain of `b` by `a` goes from `pos` to `q` and writes `y` for `x`, wherever its agent's position is
kept. -/
def DrainMove (a : Agent) (b : Nat) (s : State) (pos : DrainPos) (x : RxPart) (q : DrainPos) (y : RxPart) : Prop :=
  ∀ t : State, t.cfg = s.cfg → t.life = s.life → drainStep a b pos (t.withRx x) = .goto q (t.withRx y)

section
variable {a : Agent} {b : Nat} {s : State} {r : Ring} {frames : List (List Byte)} {l : Lock} {x : RxPart}

theorem drainMove_acquire (hfree : x.chan.lock = .free) :
    DrainMove a b s .acquire x .checkLife { x with chan := { x.chan with lock := .held a } } :=
  fun _ _ _ => acquireLock_free hfree

theorem drainMove_checkLife (hlife : s.life = .running) : DrainMove a b s .checkLife x (.loop 0) x :=
  fun _ _ ht => if_pos (ht.trans hlife)

/-- An iteration of the loop that delivers a frame (R162). -/
theorem drainOne_of_frame {d : Desc} {f : List Byte} (hown : d.own ≠ .posted) (hlen : d.st.len ≤ s.cfg.bufSize)
    (hread : d.buf.bytes.readFrom d.st.len 0 = some f) :
    drainOne r d s = .ok ((s.deliver f f.length).setRing .rx (some { r.setDesc r.curr (armRx s.cfg.bufSize d) with
      curr := next r.cap r.curr, tail := next r.cap r.tail })) := by
  simp only [drainOne, softwareMay, if_neg hown, memRead_ok.mpr ⟨hlen, hread⟩, Memory.readFrom_length hread]

theorem drained_append (f : List Byte) (size : Nat) : x.drained size r (frames ++ [f]) l =
    { x.drained size r frames l with
      chan := { x.chan with ring := some (r.rearmed size (frames.length + 1)), lock := l }
      sink := (x.drained size r frames l).sink ++ [(f, f.length)] } := by
  simp [RxPart.drained]

theorem drainMove_delivers {f : List Byte} (hr : RingBounds (s.cfg.cap .rx) r) (hb : frames.length < b)
    (hcap : frames.length < s.cfg.cap .rx) (hf : r.frameAt s.cfg.bufSize frames.length f) :
    DrainMove a b s (.loop frames.length) (x.drained s.cfg.bufSize r frames l)
      (.loop (frames.length + 1)) (x.drained s.cfg.bufSize r (frames ++ [f]) l) := by
  intro t hcfg _
  obtain ⟨d, hd, hcmplt, hown, hlen, hread⟩ := hf
  have hatCurr := rearmed_atCurr (size := s.cfg.bufSize) hr hcap.le hd
  rw [if_neg hcap.ne] at hatCurr
  have hring : (t.withRx (x.drained s.cfg.bufSize r frames l)).ring .rx
      = some (r.rearmed s.cfg.bufSize frames.length) := rfl
  rw [drained_append, rearmed_succ hr hcap hd, ← hcfg]
  rw [← hcfg] at hring hatCurr hlen
  simp only [drainStep, drainLoop, if_neg (Nat.not_le.mpr hb), hring, hatCurr, hcmplt, if_true,
    drainOne_of_frame (s := t.withRx _) hown hlen hread, orFault]
  rfl

/-- The loop ends at its budget, or at a descriptor that is not complete (R161). -/
theorem drainMove_ends (hr : RingBounds (s.cfg.cap .rx) r) (hcap : frames.length ≤ s.cfg.cap .rx)
    (hstop : b ≤ frames.length ∨ frames.length = s.cfg.cap .rx ∨ ¬ r.completeAt frames.length) :
    DrainMove a b s (.loop frames.length) (x.drained s.cfg.bufSize r frames l)
      (.writeTail frames.length) (x.drained s.cfg.bufSize r frames l) := by
  intro t _ _
  by_cases hb : b ≤ frames.length
  · exact if_pos hb
  · obtain ⟨d, hd, hc⟩ := rearmed_notComplete (size := s.cfg.bufSize) hr hcap (hstop.resolve_left hb)
    have hring : (t.withRx (x.drained s.cfg.bufSize r frames l)).ring .rx
        = some (r.rearmed s.cfg.bufSize frames.length) := rfl
    simp only [drainStep, drainLoop, if_neg hb, hring, hd, hc, Bool.false_eq_true, if_false]

theorem drainMove_writeTail (hc : ConfigFacts s.cfg) {q : Ring} (hq : x.chan.ring = some q)
    (htail : q.tail < s.cfg.cap .rx) (w : Nat) :
    DrainMove a b s (.writeTail w) x (.finish w) (x.tailAt q.tail) := by
  intro t hcfg _
  have hring : (t.withRx x).ring .rx = some q := hq
  rw [← hcfg] at hc htail
  simp only [drainStep, drainWriteTail, hring,
    show portSetTaildesc .rx (addrOf (t.withRx x).cfg .rx q.tail) (t.withRx x) = _ from
      portSetTaildesc_index (s := t.withRx x) hc htail, orFault]
  rfl

end

/-! ## The drain, by whichever agent -/

/-- The agent `a`, its position in a drain of `b` written by `put`, takes each step of that drain from `s` on. -/
structure StepsDrain (a : Agent) (b : Nat) (s : State) (enabled : State → Bool) (stp : State → State)
    (put : DrainPos → State → State) : Prop where
  move : ∀ {pos q : DrainPos} {x y : RxPart}, (pos = .acquire → x.chan.lock = .free) → DrainMove a b s pos x q y →
    Runs enabled stp 1 (put pos (s.withRx x)) (put q (s.withRx y))

/-- What `RX_DRAIN` and `RX_POLL` find: the lock free, the device running, and `frames` in the descriptors from `curr`
on, up to where the loop of a drain of `b` stops (R161, R162). -/
structure Drainable (s : State) (b : Nat) (r : Ring) (frames : List (List Byte)) : Prop where
  config : ConfigFacts s.cfg
  bounds : RingBounds (s.cfg.cap .rx) r
  life : s.life = .running
  free : s.chanRx.lock = .free
  ring : s.chanRx.ring = some r
  budget : frames.length ≤ b
  length : frames.length ≤ s.cfg.cap .rx
  complete : ∀ j f, frames[j]? = some f → r.frameAt s.cfg.bufSize j f
  stop : b ≤ frames.length ∨ frames.length = s.cfg.cap .rx ∨ ¬ r.completeAt frames.length

/-- The receive part as a drain leaves it, its lock as `l` says (R161 to R164). -/
def State.drainedPart (s : State) (r : Ring) (frames : List (List Byte)) (l : Lock) : RxPart :=
  (s.rxPart.drained s.cfg.bufSize r frames l).tailAt ((r.tail + frames.length) % r.cap)

section
variable {a : Agent} {b : Nat} {s : State} {enabled : State → Bool} {stp : State → State}
variable {put : DrainPos → State → State} {r : Ring} {l : Lock} {frames : List (List Byte)} {x : RxPart}

/-- The loop delivers its frames one by one (R161, R162). -/
theorem StepsDrain.loop (h : StepsDrain a b s enabled stp put) (hr : RingBounds (s.cfg.cap .rx) r)
    (hb : frames.length ≤ b) (hcap : frames.length ≤ s.cfg.cap .rx)
    (hframes : ∀ j f, frames[j]? = some f → r.frameAt s.cfg.bufSize j f) :
    Runs enabled stp frames.length (put (.loop 0) (s.withRx (x.drained s.cfg.bufSize r [] l)))
      (put (.loop frames.length) (s.withRx (x.drained s.cfg.bufSize r frames l))) := by
  induction frames using List.reverseRecOn with
  | nil => exact fun m => by rw [List.length_nil, Nat.zero_add]
  | append_singleton fs f ih =>
    rw [List.length_append, List.length_singleton] at hb hcap ⊢
    have hfs : ∀ j g, fs[j]? = some g → r.frameAt s.cfg.bufSize j g := fun j g hg =>
      hframes j g (by rw [List.getElem?_append_left (List.getElem?_eq_some_iff.mp hg).1, hg])
    have hf : r.frameAt s.cfg.bufSize fs.length f := hframes fs.length f (by simp)
    exact (ih (by omega) (by omega) hfs).trans
      (h.move (fun hpos => by cases hpos) (drainMove_delivers hr (by omega) (by omega) hf))

/-- From its acquire to its last step a drain delivers the frames it finds and writes the tail register (R161 to
R164). -/
theorem StepsDrain.delivers (h : StepsDrain a b s enabled stp put) (hd : Drainable s b r frames) :
    Runs enabled stp (frames.length + 4) (put .acquire s)
      (put (.finish frames.length) (s.withRx (s.drainedPart r frames (.held a)))) := by
  have hcap := hd.bounds.cap
  have hpos : 0 < s.cfg.cap .rx := by have := hd.config.cap_ge_two .rx; omega
  let locked : RxPart := { s.rxPart with chan := { s.rxPart.chan with lock := .held a } }
  let drained : RxPart := s.rxPart.drained s.cfg.bufSize r frames (.held a)
  have hlocked : locked = s.rxPart.drained s.cfg.bufSize r [] (.held a) := by
    simp only [RxPart.drained, List.length_nil, rearmed_zero hd.bounds, ← hd.ring, List.map_nil, List.append_nil]
    rfl
  have h1 : Runs enabled stp 1 (put .acquire s) (put .checkLife (s.withRx locked)) :=
    h.move (x := s.rxPart) (fun _ => hd.free) (drainMove_acquire hd.free)
  have h2 : Runs enabled stp 1 (put .checkLife (s.withRx locked)) (put (.loop 0) (s.withRx locked)) :=
    h.move (fun hpos => by cases hpos) (drainMove_checkLife hd.life)
  have h3 : Runs enabled stp frames.length (put (.loop 0) (s.withRx locked))
      (put (.loop frames.length) (s.withRx drained)) := by
    rw [hlocked]
    exact h.loop hd.bounds hd.budget hd.length hd.complete
  have h4 : Runs enabled stp 1 (put (.loop frames.length) (s.withRx drained))
      (put (.writeTail frames.length) (s.withRx drained)) :=
    h.move (fun hpos => by cases hpos) (drainMove_ends hd.bounds hd.length hd.stop)
  have h5 : Runs enabled stp 1 (put (.writeTail frames.length) (s.withRx drained))
      (put (.finish frames.length) (s.withRx (s.drainedPart r frames (.held a)))) :=
    h.move (fun hpos => by cases hpos)
      (drainMove_writeTail (q := r.rearmed s.cfg.bufSize frames.length) hd.config rfl
        (by rw [← hcap]; exact Nat.mod_lt _ (by omega)) frames.length)
  have hrun := (((h1.trans h2).trans h3).trans h4).trans h5
  rwa [show 1 + 1 + frames.length + 1 + 1 = frames.length + 4 by omega] at hrun

/-- A drain has the fuel for every descriptor of the ring, and for the steps before and after its loop. -/
theorem Drainable.fuel (hd : Drainable s b r frames) : frames.length + 40 ≤ opFuel s.cfg := by
  have hlen : frames.length ≤ s.cfg.nRx := hd.length
  unfold opFuel
  omega

/-- Its last step gives the lock back as it was found. -/
theorem Drainable.release (hd : Drainable s b r frames) :
    (s.withRx (s.drainedPart r frames (.held a))).release .rx = s.withRx (s.drainedPart r frames s.chanRx.lock) := by
  rw [hd.free]
  rfl

/-- The premises of `RxDrainDelivers` and `RxPollDrains`, for the budget `b` of either. -/
theorem Drainable.of_frames (hwf : s.cfg.wf = true) (hshape : s.shape = true) (hlife : s.life = .running)
    (hfree : s.chanRx.lock = .free) (hring : s.chanRx.ring = some r) (hbudget : frames.length ≤ b)
    (hcap : frames.length ≤ r.cap) (hframes : ∀ j f, frames[j]? = some f → r.frameAt s.cfg.bufSize j f)
    (hstop : frames.length = b ∨ frames.length = r.cap ∨ ¬ r.completeAt frames.length) :
    Drainable s b r frames := by
  have hbounds : RingBounds (s.cfg.cap .rx) r := WellShaped.ringBounds ⟨hwf, hshape⟩ hring
  rw [hbounds.cap] at hcap hstop
  exact ⟨Config.facts hwf, hbounds, hlife, hfree, hring, hbudget, hcap, hframes, hstop.imp_left Eq.ge⟩

end

/-! ## The drain of a caller -/

theorem stepsDrain_caller {s : State} {k b : Nat} (hs : s.callerLives k) :
    StepsDrain (.caller k) b s (fun u => u.callerCanAdvance k) (callerStep k)
      fun pos u => u.setOp k (.drain b pos) := by
  refine ⟨fun {pos q x y} hfree hmove => ?_⟩
  refine (stepsBy_drain k b).goto (s := s.withRx x) (t := s.withRx y) hs (fun ch hch => ?_)
    (hmove (s.setOp k (.drain b pos)) rfl rfl)
  cases pos <;> cases hch
  exact hfree rfl

theorem runCaller_drain {s : State} {k b : Nat} {r : Ring} {frames : List (List Byte)} (hs : s.callerLives k)
    (hd : Drainable s b r frames) : runCaller k (startDrain k b s)
      = (s.withRx (s.drainedPart r frames s.chanRx.lock)).respond k .ok frames.length := by
  have hrun := (stepsDrain_caller (b := b) hs).delivers hd
  have hdone := (stepsBy_drain k b).done (s := s.withRx (s.drainedPart r frames (.held (.caller k))))
    (pos := .finish frames.length) (t := s.withRx (s.drainedPart r frames s.chanRx.lock)) hs (fun _ hch => by cases hch)
    (by rw [← hd.release]; rfl)
  exact (hrun.trans hdone).ends (callerCanAdvance_respond (s := s.withRx _) hs.1 _ _)
    ((show _ ≤ frames.length + 40 by omega).trans hd.fuel)

/-- Settles O28: after the drain's last step nothing is written but what it delivered, and the response. -/
theorem rxDrainDelivers : Obligations.RxDrainDelivers := by
  rintro s budget r _ frames hwf hshape hready hlife hfree hring hbudget hcap rfl hframes hstop
  exact congrArg Host.Outcome.next (runCaller_drain (callerLives_of_ready hready)
    (.of_frames hwf hshape hlife hfree hring hbudget hcap hframes hstop))

/-! ## The drain of the poll -/

section
variable {s t : State} {r : Ring} {frames : List (List Byte)}

/-- Steps of the poll. -/
abbrev PollRuns : Nat → State → State → Prop := Runs State.pollCanAdvance pollStep

theorem stepsDrain_poll (hs : s.isStopped .defer = false) :
    StepsDrain .defer s.cfg.budget s State.pollCanAdvance pollStep fun pos u => u.setPollOp (.drain pos) := by
  refine ⟨fun {pos q x y} hfree hmove => ?_⟩
  refine .single (pollCanAdvance_setPollOp (s := s.withRx x) hs hfree) ?_
  have hstep : drainStep .defer s.cfg.budget pos ((s.withRx x).setPollOp (.drain pos))
      = .goto q ((s.withRx y).setPollOp (.drain pos)) := hmove (s.setPollOp (.drain pos)) rfl rfl
  rw [pollStep_drain (pos := pos) rfl]
  exact congrArg settlePoll hstep

/-- Away from its acquire the poll takes its next step (R167). -/
theorem poll_step {op : PollOp} (hs : s.isStopped .defer = false) (hidle : op ≠ .idle) (hop : op ≠ .drain .acquire)
    (ht : pollStep (s.setPollOp op) = t) : PollRuns 1 (s.setPollOp op) t := by
  refine .single ?_ ht
  have hstop : (s.setPollOp op).isStopped .defer = false := hs
  have hdefer : (s.setPollOp op).defer.op = op := rfl
  simp [State.pollCanAdvance, hstop, hdefer, hidle, hop]

/-- The state the poll leaves when its drain, the lock released, has left `s`: with the budget used up `s` itself, else
the poll is no longer scheduled and receive interrupts are back (R167). -/
def State.polled (s : State) (w : Nat) : State :=
  if w = s.cfg.budget then s else portIrqEnable .rx { s with rxSched := false, rxMode := .interrupting }

theorem pollAfterDrain_of_budget {w : Nat} (hw : w = s.cfg.budget) : pollAfterDrain .ok w s = s.pollRespond .ok w :=
  (if_neg (by decide)).trans (if_pos hw)

theorem pollAfterDrain_of_ne_budget {w : Nat} (hw : w ≠ s.cfg.budget) : pollAfterDrain .ok w s
    = State.setPollOp { s with rxSched := false, rxMode := .interrupting } (.enable w) :=
  (if_neg (by decide)).trans (if_neg hw)

/-- From its drain's last step on the poll returns at once, or enables receive interrupts first (R167). -/
theorem poll_afterDrain (hs : s.isStopped .defer = false) (w : Nat) :
    ∃ n ≤ 3, PollRuns n (s.setPollOp (.drain (.finish w))) (((s.release .rx).polled w).pollRespond .ok w) := by
  by_cases hw : w = (s.release .rx).cfg.budget
  · rw [State.polled, if_pos hw]
    refine ⟨1, by decide, poll_step hs (by simp) (by simp) ?_⟩
    exact pollAfterDrain_of_budget (s := (s.release .rx).setPollOp (.drain (.finish w))) hw
  · rw [State.polled, if_neg hw]
    let u : State := { s.release .rx with rxSched := false, rxMode := .interrupting }
    have h1 : PollRuns 1 (s.setPollOp (.drain (.finish w))) (u.setPollOp (.enable w)) :=
      poll_step hs (by simp) (by simp)
        (pollAfterDrain_of_ne_budget (s := (s.release .rx).setPollOp (.drain (.finish w))) hw)
    have h2 : PollRuns 1 (u.setPollOp (.enable w)) ((portIrqEnable .rx u).setPollOp (.ret w)) :=
      poll_step hs (by simp) (by simp) rfl
    have h3 : PollRuns 1 ((portIrqEnable .rx u).setPollOp (.ret w)) ((portIrqEnable .rx u).pollRespond .ok w) :=
      poll_step hs (by simp) (by simp) rfl
    exact ⟨3, le_rfl, (h1.trans h2).trans h3⟩

theorem runPoll_drain (hs : s.isStopped .defer = false) (hd : Drainable s s.cfg.budget r frames) :
    runPoll (startPoll s)
      = ((s.withRx (s.drainedPart r frames s.chanRx.lock)).polled frames.length).pollRespond .ok frames.length := by
  have hrun := (stepsDrain_poll hs).delivers hd
  obtain ⟨n, hn, hafter⟩ := poll_afterDrain (s := s.withRx (s.drainedPart r frames (.held .defer))) hs frames.length
  rw [hd.release] at hafter
  exact (hrun.trans hafter).ends rfl ((show _ ≤ frames.length + 40 by omega).trans hd.fuel)

/-- A response `OK` is its value, as a word (R106). -/
theorem respWord_ok {v : Nat} (hv : v < 2 ^ 24) : respWord .ok v = BitVec.ofNat 32 v := by
  refine BitVec.eq_of_toNat_eq ?_
  rw [respWord_toNat, Nat.mod_eq_of_lt hv, BitVec.toNat_ofNat, Nat.mod_eq_of_lt (by omega)]
  simp [codeBits]

end

/-- Settles O31: after the drain the poll goes one of two ways, by whether its budget is used up. -/
theorem rxPollDrains : Obligations.RxPollDrains := by
  rintro s r _ frames hwf hshape hs hlife hfree hring hbudget hcap rfl hframes hstop
  have hd : Drainable s s.cfg.budget r frames :=
    .of_frames hwf hshape hlife hfree hring hbudget hcap hframes hstop
  have hword : frames.length < 2 ^ 24 := by have := hd.config.budget_lt; omega
  refine congrArg Host.Outcome.next ((runPoll_drain hs hd).trans ?_)
  rw [State.polled, State.pollRespond, respWord_ok hword]
  by_cases hw : frames.length = s.cfg.budget
  · simp only [if_pos hw]
    rw [if_pos (show frames.length = (s.withRx _).cfg.budget from hw)]
    rfl
  · simp only [if_neg hw]
    rw [if_neg (show ¬ frames.length = (s.withRx _).cfg.budget from hw)]
    rfl

end Sys2Proof.Machine
end

section
/-! PROOFS. `TX_SEND` run as one operation (R191 to R197; log 4), and the transmit interrupt handler (R198). -/

namespace Sys2Proof.Machine

/-! ## The ring a reclaim leaves -/

section
variable {r : Ring} {n m j : Nat} {d : Desc}

theorem reclaimed_getElem? (r : Ring) (m i : Nat) : (r.reclaimed m).desc[i]?
    = (r.desc[i]?).map fun d => if dist r.cap r.curr i < m then { d with own := .free } else d := by
  simp [Ring.reclaimed]

theorem reclaimed_zero (h : RingBounds n r) : r.reclaimed 0 = r := by
  have hdesc : (r.reclaimed 0).desc = r.desc := List.ext_getElem? fun i => by simp [reclaimed_getElem?]
  have hcurr : (r.curr + 0) % r.cap = r.curr := Nat.mod_eq_of_lt (h.cap.symm ▸ h.curr)
  calc r.reclaimed 0
    _ = { r with curr := (r.curr + 0) % r.cap, desc := (r.reclaimed 0).desc } := rfl
    _ = r := by rw [hdesc, hcurr]

/-- The walk has not yet touched the descriptor it stands at (R192). -/
theorem reclaimed_atCurr (h : RingBounds n r) (hj : j < r.cap) :
    (r.reclaimed j).desc[(r.reclaimed j).curr]? = r.desc[r.slot j]? := by
  have hdist : dist r.cap r.curr (r.slot j) = j := dist_slot (h.cap.symm ▸ h.curr) hj
  change (r.reclaimed j).desc[r.slot j]? = _
  simp [reclaimed_getElem?, hdist]

/-- One more descriptor freed, and `curr` on by one: what an iteration of the walk writes (R192). -/
theorem reclaimed_succ (h : RingBounds n r) (hj : j < r.cap) (hd : r.desc[r.slot j]? = some d) :
    r.reclaimed (j + 1) = { (r.reclaimed j).setDesc (r.reclaimed j).curr { d with own := .free } with
      curr := next r.cap (r.reclaimed j).curr } := by
  have hcurr : r.curr < r.cap := h.cap.symm ▸ h.curr
  have hdesc : (r.reclaimed (j + 1)).desc = (r.reclaimed j).desc.set (r.slot j) { d with own := .free } := by
    refine List.ext_getElem? fun i => ?_
    rcases eq_or_ne (r.slot j) i with rfl | hi
    · obtain ⟨hlt, -⟩ := List.getElem?_eq_some_iff.mp hd
      have hdist : dist r.cap r.curr (r.slot j) = j := dist_slot hcurr hj
      rw [List.getElem?_set_self (by simpa [Ring.reclaimed] using hlt)]
      simp [reclaimed_getElem?, hd, hdist]
    · rw [List.getElem?_set_ne hi, reclaimed_getElem?, reclaimed_getElem?]
      cases hx : r.desc[i]? with
      | none => rfl
      | some x =>
        have hne : dist r.cap r.curr i ≠ j := fun he => hi (he ▸ slot_dist hcurr (h.index_lt hx))
        simp only [show dist r.cap r.curr i < j + 1 ↔ dist r.cap r.curr i < j by omega]
  calc r.reclaimed (j + 1)
    _ = { r with curr := (r.curr + (j + 1)) % r.cap, desc := (r.reclaimed (j + 1)).desc } := rfl
    _ = _ := by rw [hdesc, ← next_add_mod]; rfl

/-- A walk that freed a descriptor has come nearer to `tail`, so it leaves no full ring (R199). -/
theorem reclaims_eq_zero_of_full (h : RingBounds n r) (hm : m < r.cap) (hrec : r.reclaims m)
    (hfull : next r.cap r.tail = r.slot m) (hused : r.curr ≠ r.tail) : m = 0 := by
  obtain ⟨hfreed, -⟩ := hrec
  have htail : r.tail < r.cap := h.cap.symm ▸ h.tail
  have hpos : 0 < r.cap := by omega
  cases m with
  | zero => rfl
  | succ j =>
    have hlast : r.slot j = r.tail := by
      refine slot_inj (a := 1) (n := r.cap) (Nat.mod_lt _ hpos) htail ?_
      rw [Nat.add_comm 1, Nat.add_comm 1]
      exact (next_add_mod r.cap r.curr j).trans hfull.symm
    cases j with
    | zero => exact absurd ((Nat.mod_eq_of_lt (h.cap.symm ▸ h.curr)).symm.trans hlast) hused
    | succ i =>
      obtain ⟨-, hne⟩ := hfreed i (by omega)
      exact absurd hlast hne

/-- What the posting step of a send writes (R194 to R196). -/
theorem posted_eq_postedRing {bytes : List Byte} (h : bytes.length = n) : r.posted d bytes = postedRing r d n bytes := by
  subst h
  rfl

end

/-! ## Each step -/

section
variable {s : State} {a : Agent} {len : Nat} {payload : List Byte} {r : Ring} {d : Desc}

/-- An iteration of the walk that frees a descriptor (R192). -/
theorem sendReclaim_frees (hr : s.ring .tx = some r) (hd : r.desc[r.curr]? = some d) (hc : d.st.cmplt = true)
    (ht : next r.cap r.curr ≠ r.tail) : sendReclaim a s = .goto .reclaim
      (s.setRing .tx (some { r.setDesc r.curr { d with own := .free } with curr := next r.cap r.curr })) := by
  simp [sendReclaim, hr, hd, reclaimOne, hc, ht]

/-- The walk ends at a descriptor that is not complete, and one short of `tail` (R192). -/
theorem sendReclaim_ends (hr : s.ring .tx = some r) (hd : r.desc[r.curr]? = some d)
    (hstop : d.st.cmplt = true → next r.cap r.curr = r.tail) : sendReclaim a s = .goto .post s := by
  have hnone : reclaimOne r d = none := if_neg (by simpa using hstop)
  simp only [sendReclaim, hr, hd, hnone]

theorem sendPost_of_full (hr : s.ring .tx = some r) (hfull : next r.cap r.tail = r.curr) :
    sendPost a len payload s = .done .ringFull 0 (s.release .tx) := by
  simp only [sendPost, hr, if_pos hfull]

/-- The descriptor at `tail` armed, filled and posted (R194, R195). -/
theorem sendPost_of_slot (hr : s.ring .tx = some r) (hfull : next r.cap r.tail ≠ r.curr)
    (hd : r.desc[r.tail]? = some d) (hown : d.own ≠ .posted) (hfits : len ≤ s.cfg.bufSize)
    (hlen : len ≤ payload.length) : sendPost a len payload s = .goto (.writeTail r.tail)
      (s.setRing .tx (some (r.posted d (payload.take len)))) := by
  have htake : (payload.take len).length = len := List.length_take_of_le hlen
  have hpost : postDesc s.cfg.bufSize r.tail len payload d = .ok { armTx len d with
      own := .posted, buf := { d.buf with bytes := d.buf.bytes.writeFrom 0 (payload.take len) } } := by
    simp only [postDesc, softwareMay, if_neg hown, memWrite_of_le (htake.trans_le hfits)]
  simp only [sendPost, hr, if_neg hfull, hd, hpost, posted_eq_postedRing htake]
  rfl

/-- The tail register names the descriptor just posted (R196, R260). -/
theorem sendStep_writeTail (hc : ConfigFacts s.cfg) {i : Nat} (hi : i < s.cfg.cap .tx) :
    sendStep a len payload (.writeTail i) s
      = .goto .finish (s.setEng .tx { s.eng .tx with hwTail := i, tailValid := true }) := by
  simp only [sendStep, portSetTaildesc_index hc hi, orFault]

end

/-! ## The send of a caller -/

section
variable {s t : State} {k len m : Nat} {payload : List Byte} {r : Ring} {d : Desc}

theorem acquiring_send {pos : SendPos} (hpos : pos ≠ .acquire) : acquiring (.send len payload pos) = none := by
  cases pos with
  | acquire => exact absurd rfl hpos
  | checkLife | reclaim | post | writeTail _ | finish => rfl

/-- A step of a send that goes on, its lock taken. -/
theorem send_goto {pos q : SendPos} (hs : s.callerLives k) (hpos : pos ≠ .acquire)
    (h : sendStep (.caller k) len payload pos (s.setOp k (.send len payload pos))
      = .goto q (t.setOp k (.send len payload pos))) :
    CallerRuns k 1 (s.setOp k (.send len payload pos)) (t.setOp k (.send len payload q)) :=
  (stepsBy_send k len payload).goto hs (fun _ hch => by rw [acquiring_send hpos] at hch; cases hch) h

theorem send_done {pos : SendPos} {c : Code} {v : Nat} (hs : s.callerLives k) (hpos : pos ≠ .acquire)
    (h : sendStep (.caller k) len payload pos (s.setOp k (.send len payload pos))
      = .done c v (t.setOp k (.send len payload pos))) :
    CallerRuns k 1 (s.setOp k (.send len payload pos)) (t.respond k c v) :=
  (stepsBy_send k len payload).done hs (fun _ hch => by rw [acquiring_send hpos] at hch; cases hch) h

/-- What a `TX_SEND` that comes to its admission finds: the lock free, the device running, and `m` descriptors to
reclaim (R191, R192). -/
structure Sendable (s : State) (k : Nat) (r : Ring) (m : Nat) : Prop where
  config : ConfigFacts s.cfg
  bounds : RingBounds (s.cfg.cap .tx) r
  lives : s.callerLives k
  life : s.life = .running
  free : s.chanTx.lock = .free
  ring : s.chanTx.ring = some r
  lt : m < r.cap
  reclaims : r.reclaims m

/-- `s` with its transmit ring written, the lock as `l` says. -/
def State.withTxRing (s : State) (r : Ring) (l : Lock) : State :=
  { s with chanTx := { s.chanTx with ring := some r, lock := l } }

/-- The walk frees its descriptors one by one (R192). -/
theorem Sendable.walk (h : Sendable s k r m) (l : Lock) {j : Nat} (hj : j ≤ m) :
    CallerRuns k j ((s.withTxRing r l).setOp k (.send len payload .reclaim))
      ((s.withTxRing (r.reclaimed j) l).setOp k (.send len payload .reclaim)) := by
  induction j with
  | zero =>
    rw [reclaimed_zero h.bounds]
    exact fun fuel => by rw [Nat.zero_add]
  | succ j ih =>
    have hcap := h.lt
    obtain ⟨hfreed, -⟩ := h.reclaims
    obtain ⟨⟨d, hd, hc⟩, hne⟩ := hfreed j hj
    refine (ih (Nat.le_of_succ_le hj)).trans (send_goto (s := s.withTxRing _ l) h.lives (by decide) ?_)
    rw [reclaimed_succ h.bounds (by omega) hd]
    exact sendReclaim_frees (s := (s.withTxRing (r.reclaimed j) l).setOp k _) rfl
      ((reclaimed_atCurr h.bounds (by omega)).trans hd) hc ((next_add_mod r.cap r.curr j).trans_ne hne)

/-- The walk stops after `m` descriptors (R192). -/
theorem Sendable.walkEnds (h : Sendable s k r m) (l : Lock) :
    CallerRuns k 1 ((s.withTxRing (r.reclaimed m) l).setOp k (.send len payload .reclaim))
      ((s.withTxRing (r.reclaimed m) l).setOp k (.send len payload .post)) := by
  obtain ⟨-, hend⟩ := h.reclaims
  have hslot : r.slot m < r.desc.length := by
    rw [h.bounds.length, ← h.bounds.cap]
    exact Nat.mod_lt _ (Nat.zero_lt_of_lt h.lt)
  have hd := List.getElem?_eq_getElem hslot
  refine send_goto (s := s.withTxRing _ l) h.lives (by decide) ?_
  exact sendReclaim_ends (s := (s.withTxRing (r.reclaimed m) l).setOp k _) rfl
    ((reclaimed_atCurr h.bounds h.lt).trans hd) fun hc =>
      (next_add_mod r.cap r.curr m).trans (hend ⟨_, hd, hc⟩)

/-- From its acquire on a send comes to its admission with the lock held and `m` descriptors freed (R191, R192). -/
theorem Sendable.reachesAdmission (h : Sendable s k r m) : CallerRuns k (m + 3) (s.setOp k (.send len payload .acquire))
    ((s.withTxRing (r.reclaimed m) (.held (.caller k))).setOp k (.send len payload .post)) := by
  let locked := s.setLock .tx (.held (.caller k))
  have hlocked : locked = s.withTxRing r (.held (.caller k)) := by
    rw [State.withTxRing, ← h.ring]
    rfl
  have h1 : CallerRuns k 1 (s.setOp k (.send len payload .acquire)) (locked.setOp k (.send len payload .checkLife)) :=
    (stepsBy_send k len payload).goto h.lives (by rintro _ ⟨⟩; exact h.free)
      (acquireLock_free (ch := .tx) (s := s.setOp k _) h.free)
  have h2 : CallerRuns k 1 (locked.setOp k (.send len payload .checkLife))
      (locked.setOp k (.send len payload .reclaim)) :=
    send_goto (s := locked) h.lives (by decide) (if_pos h.life)
  rw [hlocked] at h1 h2
  have hrun := ((h1.trans h2).trans (h.walk _ le_rfl)).trans (h.walkEnds _)
  rwa [show 1 + 1 + m + 1 = m + 3 by omega] at hrun

/-- Giving the lock back leaves the channel as it was found but for its ring. -/
theorem Sendable.withTxRing_release (h : Sendable s k r m) (q : Ring) (l : Lock) :
    (s.withTxRing q l).release .tx = { s with chanTx := { s.chanTx with ring := some q } } := by
  change { s with chanTx := { s.chanTx with ring := some q, lock := .free } } = _
  rw [← h.free]

/-- A `TX_SEND` of a legal length is the run of its send, which the fuel is enough for. -/
theorem Sendable.exec_of_runs (h : Sendable s s.active r m) {len : Imm} {n : Nat} {c : Code} {v : Nat}
    (hlen : len.toNat ≤ s.cfg.maxFrame) (hcallers : t.callers = s.callers) (hn : n ≤ 37)
    (hrun : CallerRuns s.active n ((s.withTxRing (r.reclaimed m) (.held (.caller s.active))).setOp s.active
      (.send len.toNat (s.payload s.active) .post)) (t.respond s.active c v)) :
    exec (.txSend len) s = .next (t.respond s.active c v) := by
  have hfuel : m + 3 + n ≤ opFuel s.cfg := by
    have hm : m < s.cfg.nTx := h.lt.trans_eq h.bounds.cap
    unfold opFuel
    omega
  have hstart : startSend s.active len.toNat s = s.setOp s.active (.send len.toNat (s.payload s.active) .acquire) :=
    if_neg (Nat.not_lt.mpr hlen)
  obtain ⟨hk, -⟩ := h.lives
  refine congrArg Host.Outcome.next ?_
  rw [hstart]
  exact (h.reachesAdmission.trans hrun).ends (callerCanAdvance_respond (hcallers ▸ hk) c v) hfuel

/-- The premises that `TxSendQueues` and `TxSendRingFull` share. -/
theorem Sendable.of_ready (hwf : s.cfg.wf = true) (hshape : s.shape = true) (hready : s.callerReady k = true)
    (hlife : s.life = .running) (hfree : s.chanTx.lock = .free) (hring : s.chanTx.ring = some r) (hm : m < r.cap)
    (hrec : r.reclaims m) : Sendable s k r m :=
  ⟨Config.facts hwf, WellShaped.ringBounds ⟨hwf, hshape⟩ hring, callerLives_of_ready hready, hlife, hfree, hring, hm,
    hrec⟩

/-- On a full ring the send returns at its admission (R193). -/
theorem Sendable.ringFull (h : Sendable s k r m) (hfull : next r.cap r.tail = (r.reclaimed m).curr) :
    CallerRuns k 1 ((s.withTxRing (r.reclaimed m) (.held (.caller k))).setOp k (.send len payload .post))
      (State.respond { s with chanTx := { s.chanTx with ring := some (r.reclaimed m) } } k .ringFull 0) := by
  rw [← h.withTxRing_release _ (.held (.caller k))]
  exact send_done (s := s.withTxRing _ _) h.lives (by decide)
    (sendPost_of_full (s := (s.withTxRing (r.reclaimed m) (.held (.caller k))).setOp k _) rfl hfull)

/-- With a slot free the send posts its frame, writes the tail register and returns (R194 to R197). -/
theorem Sendable.queues (h : Sendable s k r m) (hfits : len ≤ s.cfg.maxFrame) (hlen : len ≤ payload.length)
    (hslot : next r.cap r.tail ≠ (r.reclaimed m).curr) (hd : (r.reclaimed m).desc[r.tail]? = some d)
    (hown : d.own ≠ .posted) :
    CallerRuns k 3 ((s.withTxRing (r.reclaimed m) (.held (.caller k))).setOp k (.send len payload .post))
      (State.respond { s with
        chanTx := { s.chanTx with ring := some ((r.reclaimed m).posted d (payload.take len)) }
        engTx := { s.engTx with hwTail := r.tail, tailValid := true } } k .ok len) := by
  let u1 := s.withTxRing (r.reclaimed m) (.held (.caller k))
  let u2 := s.withTxRing ((r.reclaimed m).posted d (payload.take len)) (.held (.caller k))
  let u3 := u2.setEng .tx { s.engTx with hwTail := r.tail, tailValid := true }
  have h1 : CallerRuns k 1 (u1.setOp k (.send len payload .post)) (u2.setOp k (.send len payload (.writeTail r.tail))) :=
    send_goto (s := u1) h.lives (by decide) (sendPost_of_slot (s := u1.setOp k _) (r := r.reclaimed m) rfl hslot hd hown
      (hfits.trans h.config.maxFrame_le) hlen)
  have h2 : CallerRuns k 1 (u2.setOp k (.send len payload (.writeTail r.tail)))
      (u3.setOp k (.send len payload .finish)) :=
    send_goto (s := u2) h.lives (by simp) (sendStep_writeTail (s := u2.setOp k _) h.config h.bounds.tail)
  have h3 : CallerRuns k 1 (u3.setOp k (.send len payload .finish)) ((u3.release .tx).respond k .ok len) :=
    send_done (s := u3) h.lives (by decide) rfl
  have hend : u3.release .tx = { s with
      chanTx := { s.chanTx with ring := some ((r.reclaimed m).posted d (payload.take len)) }
      engTx := { s.engTx with hwTail := r.tail, tailValid := true } } :=
    congrArg (State.setEng · .tx { s.engTx with hwTail := r.tail, tailValid := true })
      (h.withTxRing_release _ (.held (.caller k)))
  exact hend ▸ (h1.trans h2).trans h3

end

/-- Settles O33: the reclaim, and then a slot free at the admission. -/
theorem txSendQueues : Obligations.TxSendQueues := by
  intro s len r m d hwf hshape hready hlife hfree hring hmax hlen hm hrec hslot hd hown
  have h := Sendable.of_ready hwf hshape hready hlife hfree hring hm hrec
  exact h.exec_of_runs hmax rfl (by decide) (h.queues hmax hlen hslot hd hown)

/-- Settles O34: the reclaim, and then the ring full at the admission. -/
theorem txSendRingFull : Obligations.TxSendRingFull := by
  intro s len r m hwf hshape hready hlife hfree hring hmax hm hrec hfull
  have h := Sendable.of_ready hwf hshape hready hlife hfree hring hm hrec
  exact ⟨h.exec_of_runs hmax rfl (by decide) (h.ringFull hfull), reclaims_eq_zero_of_full h.bounds hm hrec hfull⟩

/-! ## The transmit interrupt handler -/

/-- A step of the transmit handler, away from its end (R198). -/
theorem txIrq_step {s t : State} {op : TxIrqOp} (hs : s.isStopped .irqTx = false) (hop : op ≠ .idle)
    (ht : txIrqStep (s.setTxIrqOp op) = t) :
    Runs (fun u => u.irqCanAdvance .tx) (irqStep .tx) 1 (s.setTxIrqOp op) t := by
  refine .single ?_ ht
  have hstop : (s.setTxIrqOp op).isStopped .irqTx = false := hs
  have hidle : (s.setTxIrqOp op).irqIdle .tx = false := decide_eq_false hop
  simp only [State.irqCanAdvance, irqAgent, hidle, hstop, Bool.not_false, Bool.and_self]

/-- Settles O36: the handler acknowledges and returns, each in a step of its own. -/
theorem txIrqAcknowledges : Obligations.TxIrqAcknowledges := by
  intro s hs
  have h1 := txIrq_step (op := .ack) (t := (portIrqAck .tx s).setTxIrqOp .ret) hs (by decide) rfl
  have h2 := txIrq_step (s := portIrqAck .tx s) (op := .ret) (t := (portIrqAck .tx s).irqReturn .tx .ok 0) hs
    (by decide) rfl
  exact congrArg Host.Outcome.next ((h1.trans h2).ends rfl ((by decide : 1 + 1 ≤ 40).trans (forty_le_opFuel _)))

end Sys2Proof.Machine
end

section
/-! PROOFS. A lifecycle command that is refused (R230), and the `DEV_BRINGUP` that meets an engine still running (R259,
R359). -/

namespace Sys2Proof.Machine

/-! ## An operation that ends without an answer -/

section
variable {s t : State} {k : Nat}

theorem callerCanAdvance_of_stopped (h : s.isStopped (.caller k) = true) : s.callerCanAdvance k = false :=
  enabled_of_stopped (c := .advance k) (by simp) h

/-- A step with which an operation is stopped inside (R10, R318). -/
theorem StepsBy.stop {π : Type} {f : π → CallerOp} {stepOf : π → State → Progress π} {pos : π} (hf : StepsBy k f stepOf)
    (hs : s.callerLives k) (hfree : ∀ ch, acquiring (f pos) = some ch → (s.chan ch).lock = .free)
    (h : stepOf pos (s.setOp k (f pos)) = .stop t) : CallerRuns k 1 (s.setOp k (f pos)) t := by
  refine .single (callerCanAdvance_setOp hs (hf.busy pos) hfree) ?_
  rw [hf.step_setOp hs.1, h]
  rfl

/-- A refused caller takes no step (R319). -/
theorem runCaller_refuse (s : State) (k : Nat) (m : RefusalMark) :
    runCaller k (s.refuse (.caller k) m) = s.refuse (.caller k) m :=
  runWhile_of_disabled (callerCanAdvance_of_stopped (decide_eq_true (mem_addNew _ _))) _

theorem startBringup_of_notAdmitted (h : s.lcBusy = true ∨ s.life ≠ .uninitialized) :
    startBringup k s = s.refuse (.caller k) (.lifecycleState k (s.caller k).pc) :=
  if_pos (by simpa using h)

theorem startShutdown_of_notAdmitted (h : s.lcBusy = true ∨ s.life ≠ .running) :
    startShutdown k s = s.refuse (.caller k) (.lifecycleState k (s.caller k).pc) :=
  if_pos (by simpa using h)

theorem startBringup_of_admitted (hbusy : s.lcBusy = false) (hlife : s.life = .uninitialized) :
    startBringup k s = State.setOp { s with lcBusy := true } k (.bringup .initTx) :=
  if_neg (by simp [hbusy, hlife])

end

/-- Settles O41: line 1 of either command refuses, and a refused caller takes no further step. -/
theorem lifecycleRefused : Obligations.LifecycleRefused := by
  intro s _
  refine ⟨fun h => congrArg Host.Outcome.next ?bringup, fun h => congrArg Host.Outcome.next ?shutdown⟩
  case bringup =>
    rw [startBringup_of_notAdmitted h, runCaller_refuse]
    rfl
  case shutdown =>
    rw [startShutdown_of_notAdmitted h, runCaller_refuse]
    rfl

/-! ## The retry while an engine runs -/

section
variable {s : State} {k : Nat}

/-- Both handlers registered, before any register is written (R222 lines 4 to 6). -/
def State.registered (s : State) : State :=
  { s with
    life := .ready
    chanTx := { s.chanTx with irqToken := true }
    chanRx := { s.chanRx with irqToken := true } }

theorem bringup_registersHandlers (hs : s.callerLives k) :
    CallerRuns k 3 (s.setOp k (.bringup .ready)) (s.registered.setOp k (.bringup .curTx)) := by
  let u1 : State := { s with life := .ready }
  let u2 := u1.setToken .tx true
  have h1 : CallerRuns k 1 (s.setOp k (.bringup .ready)) (u1.setOp k (.bringup .tokenTx)) := bringup_goto hs rfl
  have h2 : CallerRuns k 1 (u1.setOp k (.bringup .tokenTx)) (u2.setOp k (.bringup .tokenRx)) := bringup_goto hs rfl
  have h3 : CallerRuns k 1 (u2.setOp k (.bringup .tokenRx)) (s.registered.setOp k (.bringup .curTx)) :=
    bringup_goto hs rfl
  exact (h1.trans h2).trans h3

/-- A current-descriptor write on an engine that has not halted is a fault (R259). -/
theorem bringupSetCur_of_running {a : Agent} {ch : Channel} {r : Ring} (hr : s.ring ch = some r)
    (hh : (s.eng ch).halted = false) (q : BringupPos) :
    bringupSetCur a ch q s = .stop (s.raiseFault a (.curDescWhileRunning ch)) := by
  simp [bringupSetCur, hr, portSetCurdesc, hh, orFault]

/-- The position at which a bring-up writes the current-descriptor register of an engine (R222 lines 7 and 8). -/
def curPos : Channel → BringupPos
  | .tx => .curTx
  | .rx => .curRx

/-- The position after the current-descriptor register of an engine is written (R222 lines 7 and 8). -/
def afterCur : Channel → BringupPos
  | .tx => .curRx
  | .rx => .enable .tx

theorem bringupStep_curPos (a : Agent) (ch : Channel) (s : State) :
    bringupStep a (curPos ch) s = bringupSetCur a ch (afterCur ch) s := by
  cases ch <;> rfl

theorem bringup_faultsAtRunning {ch : Channel} {r : Ring} (hs : s.callerLives k) (hr : s.ring ch = some r)
    (hh : (s.eng ch).halted = false) : CallerRuns k 1 (s.setOp k (.bringup (curPos ch)))
      ((s.setOp k (.bringup (curPos ch))).raiseFault (.caller k) (.curDescWhileRunning ch)) := by
  refine (stepsBy_bringup k).stop hs (fun _ hc => by cases hc) ?_
  rw [bringupStep_curPos]
  exact bringupSetCur_of_running (s := s.setOp k _) hr hh _

theorem bringup_programsHalted {ch : Channel} {r : Ring} (hs : s.callerLives k) (hc : ConfigFacts s.cfg)
    (hr : s.ring ch = some r) (hcurr : r.curr = 0) (hh : (s.eng ch).halted = true) :
    CallerRuns k 1 (s.setOp k (.bringup (curPos ch)))
      ((s.setEng ch { s.eng ch with hwCur := 0, tailValid := false }).setOp k (.bringup (afterCur ch))) := by
  have hcap : r.curr < s.cfg.cap ch := by have := hc.cap_ge_two ch; omega
  refine bringup_goto hs ?_
  rw [bringupStep_curPos, bringupSetCur_of_halted (s := s.setOp k _) hc hr hcap hh, hcurr]
  cases ch <;> rfl

/-- A bring-up that faults leaves its caller stopped where it stands (R318). -/
theorem exec_devBringup_of_fault {n : Nat} {t : State} {f : FaultReason} (hbusy : s.lcBusy = false)
    (hlife : s.life = .uninitialized)
    (h : CallerRuns s.active n (State.setOp { s with lcBusy := true } s.active (.bringup .initTx))
      (t.raiseFault (.caller s.active) f)) (hn : n ≤ 40) :
    exec .devBringup s = .next (t.raiseFault (.caller s.active) f) := by
  refine congrArg Host.Outcome.next ?_
  rw [startBringup_of_admitted hbusy hlife,
    h.runCaller (callerCanAdvance_of_stopped (isStopped_raiseFault t (.caller s.active) f)) hn]

end

/-- Settles O40: the rings are made and the handlers registered, and the first engine that has not halted is met at the
write of its current-descriptor register. -/
theorem bringupRetryFaults : Obligations.BringupRetryFaults := by
  intro s aTx aRx bTx bRx allocs hwf _ hready hbusy hlife hTx hRx hl hrunning hlenTx hlenRx hap hd
  have hs := callerLives_of_ready hready
  have hc := Config.facts hwf
  have h1 := bringup_makesRings (s := { s with lcBusy := true }) (k := s.active) hs hTx hRx hl hlenTx hlenRx hap hd
  let u := State.withRings { s with lcBusy := true } aTx aRx allocs
  have h2 := bringup_registersHandlers (s := u) (k := s.active) hs
  cases hhTx : s.engTx.halted with
  | false =>
    have h3 := bringup_faultsAtRunning (s := u.registered) (k := s.active) (ch := .tx) hs rfl hhTx
    exact exec_devBringup_of_fault hbusy hlife ((h1.trans h2).trans h3) (by decide)
  | true =>
    have hhRx : s.engRx.halted = false := hrunning.resolve_left (by simp [hhTx])
    have h3 := bringup_programsHalted (s := u.registered) (k := s.active) (ch := .tx) hs hc rfl rfl hhTx
    have h4 := bringup_faultsAtRunning
      (s := u.registered.setEng .tx { s.engTx with hwCur := 0, tailValid := false }) (k := s.active) (ch := .rx)
      hs rfl hhRx
    exact exec_devBringup_of_fault hbusy hlife (((h1.trans h2).trans h3).trans h4) (by decide)

end Sys2Proof.Machine
end

section
/-! PROOFS. `DEV_BRINGUP` that does not get its allocations (R131, R222, R224). -/

namespace Sys2Proof.Machine

section
variable {s t : State} {a : Agent} {k : Nat}

/-- To the making of a ring, with buffers at the addresses `taken` live, `got` are answers it takes, the first one for
its backing memory, and `x` is one it does not: a failure, or an address for a buffer that overlaps a live one or an
earlier one (R72, R131; log 8). -/
structure FailsAfter (c : Config) (taken got : List Nat) (x : Option Nat) : Prop where
  apart : answersApart c taken got.tail = true
  fails : x = none ∨ got ≠ [] ∧ ∃ a, x = some a ∧ answersApart c taken (got.tail ++ [a]) = false

/-- Buffers made before, at the addresses `as`, count as live. -/
theorem FailsAfter.of_append {c : Config} {as got : List Nat} {x : Option Nat}
    (hap : answersApart c [] (as ++ got.tail) = true)
    (hx : x = none ∨ got ≠ [] ∧ ∃ a, x = some a ∧ answersApart c [] (as ++ got.tail ++ [a]) = false) :
    FailsAfter c (as.map (answered c)) got x := by
  obtain ⟨hapAs, hapGot⟩ := answersApart_append.mp hap
  refine ⟨hapGot, hx.imp_right fun ⟨hne, a, ha, hover⟩ => ⟨hne, a, ha, ?_⟩⟩
  rw [← Bool.not_eq_true] at hover ⊢
  rw [List.append_assoc] at hover
  exact fun h => hover (answersApart_append.mpr ⟨hapAs, h⟩)

/-- The ring is not made, and what was allocated for it is freed (R131). -/
theorem ringInitialize_of_failsAfter {ch : Channel} {n : Nat} {got : List Nat} {x : Option Nat}
    {rest : List (Option Nat)} (hr : s.ring ch = none) (hl : s.holdsLock a = false)
    (hfresh : ∀ h ∈ s.allocated, h < s.nextHandle) (hlen : got.length ≤ n)
    (hd : s.draws.alloc = got.map some ++ x :: rest) (hx : FailsAfter s.cfg s.bufAddrs got x) :
    ringInitialize a ch n s = .allocationError (s.afterRollback rest got.length) := by
  obtain ⟨hap, hx⟩ := hx
  cases got with
  | nil =>
    obtain rfl | ⟨hne, -⟩ := hx
    · exact ringInitialize_of_noBacking hr hl hd
    · exact absurd rfl hne
  | cons b addrs =>
    exact ringInitialize_of_answerFails hr hl hfresh hlen hap hd (answerFails_of_append hap (hx.imp_right And.right))

/-- The channel's ring gone with all its handles (R137). -/
def State.tornDown (s : State) (ch : Channel) : State :=
  State.setRing { s with allocated := s.allocated.filter fun x => decide (x ∉ s.ringHandles ch) } ch none

/-- Writing the ring a channel has changes nothing. -/
theorem setRing_self {ch : Channel} {r : Option Ring} (hr : s.ring ch = r) : s.setRing ch r = s := by
  subst hr
  cases ch <;> rfl

/-- Once its engine has halted a ring is torn down; where there is none, nothing happens (R137, R138). -/
theorem teardownRing_of_halted {ch : Channel} (hh : (s.eng ch).halted = true) :
    teardownRing ch s = .ok (s.tornDown ch) := by
  cases hr : s.ring ch with
  | none =>
    have hhandles : s.ringHandles ch = [] := by simp only [State.ringHandles, hr]
    have hsame : s.tornDown ch = s := by
      simp only [State.tornDown, hhandles, List.not_mem_nil, not_false_eq_true, decide_true, List.filter_true]
      exact setRing_self hr
    rw [teardownRing_of_none hr, hsame]
  | some r =>
    have hhandles : s.ringHandles ch = r.handles := by simp only [State.ringHandles, hr]
    rw [teardownRing_of_free hr (.inl hh), State.tornDown, hhandles]

/-- No transmit ring: the bring-up ends at its first step (R222 line 2). -/
theorem bringup_failsAtTx (hs : s.callerLives k)
    (h : ringInitialize (.caller k) .tx s.cfg.nTx (s.setOp k (.bringup .initTx))
      = .allocationError (t.setOp k (.bringup .initTx))) :
    CallerRuns k 1 (s.setOp k (.bringup .initTx)) (State.respond { t with lcBusy := false } k .allocationError 0) := by
  refine bringup_done hs ?_
  simp only [bringupStep, setOp_cfg, h]
  rfl

/-- No receive ring: the transmit ring is torn down (R222 line 3, R224). -/
theorem bringup_failsAtRx (hs : s.callerLives k) (hh : t.engTx.halted = true)
    (h : ringInitialize (.caller k) .rx s.cfg.nRx (s.setOp k (.bringup .initRx))
      = .allocationError (t.setOp k (.bringup .initRx))) :
    CallerRuns k 1 (s.setOp k (.bringup .initRx))
      (State.respond { t.tornDown .tx with lcBusy := false } k .allocationError 0) := by
  refine bringup_done hs ?_
  have htd := teardownRing_of_halted (s := t.setOp k (.bringup .initRx)) (ch := .tx) hh
  simp only [bringupStep, bringupInitRx, setOp_cfg, h, htd]
  rfl

/-- The transmit ring made, the receive ring not yet (R222 line 2). -/
def State.withTxMade (s : State) (aTx : List Nat) (allocs : List (Option Nat)) : State :=
  (s.afterAllocs allocs (s.cfg.nTx + 1)).setRing .tx (some (initRing s.cfg .tx s.nextHandle aTx))

theorem bringup_makesTxRing {b : Nat} {aTx : List Nat} {allocs : List (Option Nat)} (hs : s.callerLives k)
    (hTx : s.chanTx.ring = none) (hl : s.holdsLock (.caller k) = false) (hlen : aTx.length = s.cfg.nTx)
    (hap : answersApart s.cfg s.bufAddrs aTx = true) (hd : s.draws.alloc = some b :: (aTx.map some ++ allocs)) :
    CallerRuns k 1 (s.setOp k (.bringup .initTx)) ((s.withTxMade aTx allocs).setOp k (.bringup .initRx)) :=
  bringup_goto hs (bringupStep_initTx
    (ringInitialize_of_draws (s := s.setOp k (.bringup .initTx)) (ch := .tx) hTx hl hlen hap hd))

end

section
variable {s : State} {k : Nat} {x : Option Nat} {rest : List (Option Nat)}

/-- What a bring-up finds whose rings can be made, but for the environment's answers, and torn down again (R222,
R224). -/
structure BringupFresh (s : State) (k : Nat) : Prop where
  lives : s.callerLives k
  noTx : s.chanTx.ring = none
  noRx : s.chanRx.ring = none
  noLock : s.holdsLock (.caller k) = false
  halted : s.engTx.halted = true
  fresh : ∀ h ∈ s.allocated, h < s.nextHandle

theorem BringupFresh.bufAddrs (h : BringupFresh s k) : s.bufAddrs = [] := by
  simp [State.bufAddrs, h.noTx, h.noRx, ringAddrs]

theorem BringupFresh.withTxMade_bufAddrs (h : BringupFresh s k) (aTx : List Nat) (allocs : List (Option Nat)) :
    (s.withTxMade aTx allocs).bufAddrs = aTx.map (answered s.cfg) := by
  change ringAddrs (some (initRing s.cfg .tx s.nextHandle aTx)) ++ ringAddrs s.chanRx.ring = _
  rw [initRing_addrs, h.noRx, ringAddrs, List.append_nil]

theorem BringupFresh.withTxMade_fresh (h : BringupFresh s k) (aTx : List Nat) (allocs : List (Option Nat)) :
    ∀ y ∈ (s.withTxMade aTx allocs).allocated, y < (s.withTxMade aTx allocs).nextHandle := by
  change ∀ y ∈ s.allocated ++ List.range' s.nextHandle (s.cfg.nTx + 1), y < s.nextHandle + (s.cfg.nTx + 1)
  intro y hy
  obtain hy | hy := List.mem_append.mp hy
  · have := h.fresh y hy
    omega
  · exact (List.mem_range'_1.mp hy).2

/-- The transmit ring torn down again, nothing is left of it (R224). -/
theorem BringupFresh.withTxMade_tornDown (h : BringupFresh s k) {aTx : List Nat} (hlen : aTx.length = s.cfg.nTx)
    (allocs : List (Option Nat)) (n : Nat) :
    ((s.withTxMade aTx allocs).afterRollback rest n).tornDown .tx = s.afterRollback rest (s.cfg.nTx + 1 + n) := by
  have hhandles : ((s.withTxMade aTx allocs).afterRollback rest n).ringHandles .tx
      = List.range' s.nextHandle (s.cfg.nTx + 1) := by
    rw [← hlen, ← initRing_handles s.cfg .tx]
    rfl
  have hlive := filter_notMem_range' h.fresh (s.cfg.nTx + 1)
  have hchan : { s.chanTx with ring := none } = s.chanTx := by rw [← h.noTx]
  rw [State.tornDown, hhandles]
  calc
    _ = { s.afterRollback rest (s.cfg.nTx + 1 + n) with
          chanTx := { s.chanTx with ring := none }
          allocated := (s.allocated ++ List.range' s.nextHandle (s.cfg.nTx + 1)).filter fun x =>
            decide (x ∉ List.range' s.nextHandle (s.cfg.nTx + 1))
          nextHandle := s.nextHandle + (s.cfg.nTx + 1) + n } := rfl
    _ = _ := by
      rw [hchan, hlive, Nat.add_assoc s.nextHandle]
      rfl

/-- The answer that fails comes before the transmit ring is made. -/
theorem BringupFresh.failsAtTx (h : BringupFresh s k) {got : List Nat} (hlen : got.length ≤ s.cfg.nTx)
    (hd : s.draws.alloc = got.map some ++ x :: rest) (hx : FailsAfter s.cfg [] got x) :
    CallerRuns k 1 (s.setOp k (.bringup .initTx))
      (State.respond { s.afterRollback rest got.length with lcBusy := false } k .allocationError 0) := by
  rw [← h.bufAddrs] at hx
  exact bringup_failsAtTx (t := s.afterRollback rest got.length) h.lives
    (ringInitialize_of_failsAfter (s := s.setOp k (.bringup .initTx)) h.noTx h.noLock h.fresh hlen hd hx)

/-- The answer that fails comes after the transmit ring is made. -/
theorem BringupFresh.failsAtRx (h : BringupFresh s k) {b : Nat} {aTx got : List Nat} (hlenTx : aTx.length = s.cfg.nTx)
    (hlen : got.length ≤ s.cfg.nRx) (hap : answersApart s.cfg [] aTx = true)
    (hd : s.draws.alloc = some b :: (aTx.map some ++ (got.map some ++ x :: rest)))
    (hx : FailsAfter s.cfg (aTx.map (answered s.cfg)) got x) :
    CallerRuns k 2 (s.setOp k (.bringup .initTx)) (State.respond
      { s.afterRollback rest (s.cfg.nTx + 1 + got.length) with lcBusy := false } k .allocationError 0) := by
  let u := s.withTxMade aTx (got.map some ++ x :: rest)
  rw [← h.withTxMade_bufAddrs aTx (got.map some ++ x :: rest)] at hx
  have h1 := bringup_makesTxRing h.lives h.noTx h.noLock hlenTx (h.bufAddrs.symm ▸ hap) hd
  have h2 := bringup_failsAtRx (s := u) (t := u.afterRollback rest got.length) (k := k) h.lives h.halted
    (ringInitialize_of_failsAfter (s := u.setOp k (.bringup .initRx)) h.noRx h.noLock
      (h.withTxMade_fresh aTx (got.map some ++ x :: rest)) hlen rfl hx)
  rw [h.withTxMade_tornDown hlenTx] at h2
  exact h1.trans h2

end

/-- Of answers that reach beyond the transmit ring's, the two that are not for buffers are the first of either ring
(R130, R222). -/
theorem bufferAnswers_append {c : Config} {aTx : List Nat} (h : aTx.length = c.nTx) (b : Nat) (got : List Nat) :
    bufferAnswers c (b :: (aTx ++ got)) = aTx ++ got.tail := by
  rw [bufferAnswers, List.eraseIdx_cons_succ, List.tail_cons, ← h, List.eraseIdx_append_of_length_le le_rfl,
    Nat.sub_self, List.eraseIdx_zero]

theorem exists_answers_of_lt {n : Nat} {got : List Nat} (h : n < got.length) :
    ∃ b aTx got', got = b :: (aTx ++ got') ∧ aTx.length = n := by
  obtain ⟨b, as, rfl⟩ := List.exists_cons_of_length_pos (Nat.zero_lt_of_lt h)
  exact ⟨b, as.take n, as.drop n, by rw [List.take_append_drop], List.length_take_of_le (Nat.le_of_lt_succ h)⟩

/-- Answers that do not reach beyond the transmit ring's. -/
theorem bufferAnswers_of_le {c : Config} {got : List Nat} (h : got.length ≤ c.nTx + 1) :
    bufferAnswers c got = got.tail := by
  rw [bufferAnswers, List.eraseIdx_of_length_le h]

/-- Settles O38: the answer that fails is one of those for the transmit ring or one of those for the receive ring, in
whose case the transmit ring is torn down again. -/
theorem bringupAllocationError : Obligations.BringupAllocationError := by
  intro s got x rest _ _ hready hbusy hlife hTx hRx hl hh hfresh hlen hap hd hx
  have hf : BringupFresh { s with lcBusy := true } s.active :=
    ⟨callerLives_of_ready hready, hTx, hRx, hl, hh, hfresh.2⟩
  by_cases htx : got.length ≤ s.cfg.nTx
  · rw [bufferAnswers_of_le (Nat.le_succ_of_le htx)] at hap hx
    have hfail : FailsAfter s.cfg [] got x :=
      ⟨hap, hx.imp_right fun ⟨hne, _, hover⟩ => ⟨List.ne_nil_of_length_pos (Nat.pos_of_ne_zero hne), hover⟩⟩
    rw [exec_devBringup_of_runs hready hbusy hlife (hf.failsAtTx htx hd hfail) rfl (by decide), hbusy]
    rfl
  · obtain ⟨b, aTx, got', rfl, hlenTx⟩ := exists_answers_of_lt (Nat.lt_of_not_le htx)
    rw [bufferAnswers_append hlenTx] at hap hx
    have hlength : (b :: (aTx ++ got')).length = s.cfg.nTx + 1 + got'.length := by
      rw [List.length_cons, List.length_append, hlenTx, Nat.add_right_comm]
    rw [hlength] at hlen hx
    have hlenRx : got'.length ≤ s.cfg.nRx := by omega
    have hd' : s.draws.alloc = some b :: (aTx.map some ++ (got'.map some ++ x :: rest)) := by
      rw [hd, List.map_cons, List.map_append, List.cons_append, List.append_assoc]
    have hfail : FailsAfter s.cfg (aTx.map (answered s.cfg)) got' x :=
      .of_append hap (hx.imp_right fun ⟨_, hne, hover⟩ => ⟨fun hnil => hne (by rw [hnil]; rfl), hover⟩)
    have hrun := hf.failsAtRx hlenTx hlenRx (answersApart_append.mp hap).1 hd' hfail
    rw [exec_devBringup_of_runs hready hbusy hlife hrun rfl (by decide), hlength, hbusy]
    rfl

end Sys2Proof.Machine
end

section
/-! PROOFS. `DEV_SHUTDOWN` run as one operation (R227, R228; log 4). -/

namespace Sys2Proof.Machine

theorem stepsBy_shutdown (k : Nat) : StepsBy k .shutdown (shutdownStep (.caller k)) where
  busy _ := by simp
  step s pos h := by simp only [callerStep, h]
  callers s pos := shutdownStep_callers _ pos s

section
variable {s t : State} {k : Nat} {ch : Channel}

/-- A run that comes to an answer is the whole operation, if the fuel is enough for it. -/
theorem runCaller_of_runs_respond {n : Nat} {c : Code} {v : Nat} (h : CallerRuns k n s (t.respond k c v))
    (hk : k < t.callers.length) (hn : n ≤ opFuel s.cfg) : runCaller k s = t.respond k c v :=
  Runs.ends h (callerCanAdvance_respond hk c v) hn

/-! ## Each step -/

theorem acquiring_shutdown {pos : ShutdownPos} (hpos : ∀ ch, pos ≠ .lock ch) : acquiring (.shutdown pos) = none := by
  cases pos with
  | lock ch => exact absurd rfl (hpos ch)
  | unlock _ | disable _ | stop _ | quiesce _ _ _ | tokens _ _ | teardown _ _ | finish => rfl

/-- A step of a shutdown that goes on, away from its acquires. -/
theorem shutdown_goto {pos q : ShutdownPos} (hs : s.callerLives k) (hpos : ∀ ch, pos ≠ .lock ch)
    (h : shutdownStep (.caller k) pos (s.setOp k (.shutdown pos)) = .goto q (t.setOp k (.shutdown pos))) :
    CallerRuns k 1 (s.setOp k (.shutdown pos)) (t.setOp k (.shutdown q)) :=
  (stepsBy_shutdown k).goto hs (fun _ hc => by rw [acquiring_shutdown hpos] at hc; cases hc) h

theorem shutdown_finishes (hs : s.callerLives k) :
    CallerRuns k 1 (s.setOp k (.shutdown .finish)) (State.respond { s with lcBusy := false } k .ok 0) :=
  (stepsBy_shutdown k).done hs (fun _ hc => by cases hc) rfl

/-! ## The locks -/

/-- The position after a lock is given back (R227 line 2). -/
def afterUnlock : Channel → ShutdownPos
  | .tx => .lock .rx
  | .rx => .disable .tx

/-- A free lock is taken and given back (R227 line 2). -/
theorem shutdown_passesLock (hs : s.callerLives k) (hfree : (s.chan ch).lock = .free) :
    CallerRuns k 2 (s.setOp k (.shutdown (.lock ch))) (s.setOp k (.shutdown (afterUnlock ch))) := by
  let u := s.setLock ch (.held (.caller k))
  have hu : u.callerLives k := by cases ch <;> exact hs
  have h1 : CallerRuns k 1 (s.setOp k (.shutdown (.lock ch))) (u.setOp k (.shutdown (.unlock ch))) := by
    refine (stepsBy_shutdown k).goto hs (by rintro _ ⟨⟩; exact hfree) ?_
    refine (acquireLock_free (s := s.setOp k _) hfree).trans ?_
    cases ch <;> rfl
  have h2 : CallerRuns k 1 (u.setOp k (.shutdown (.unlock ch)))
      ((u.release ch).setOp k (.shutdown (afterUnlock ch))) := by
    cases ch <;> exact shutdown_goto hu (by simp) rfl
  rw [State.release, setLock_release_of_free hfree] at h2
  exact h1.trans h2

/-! ## The engines -/

/-- The position after an engine is told to stop (R227 line 3). -/
def afterStop (c : Config) : Channel → ShutdownPos
  | .tx => .disable .rx
  | .rx => .quiesce .tx c.quiescePolls false

theorem shutdown_stopsEngine (hs : s.callerLives k) (ch : Channel) :
    CallerRuns k 2 (s.setOp k (.shutdown (.disable ch)))
      ((s.engineStopped ch).setOp k (.shutdown (afterStop s.cfg ch))) := by
  have h1 : CallerRuns k 1 (s.setOp k (.shutdown (.disable ch)))
      ((portIrqDisable ch s).setOp k (.shutdown (.stop ch))) :=
    shutdown_goto hs (by simp) (by cases ch <;> rfl)
  have h2 : CallerRuns k 1 ((portIrqDisable ch s).setOp k (.shutdown (.stop ch)))
      ((s.engineStopped ch).setOp k (.shutdown (afterStop s.cfg ch))) := by
    cases ch <;> exact shutdown_goto hs (by simp) rfl
  exact h1.trans h2

/-- The last status read of a poll (R228). -/
theorem quiesceStep_ends {polls : Nat} (h : (s.eng ch).halted = true ∨ polls ≤ 1) (hTx : Bool) :
    quiesceStep ch polls hTx s = .goto (afterQuiesce s.cfg ch hTx (s.eng ch).halted) s := by
  cases hh : (s.eng ch).halted with
  | true => simp [quiesceStep, portReadStatus, hh]
  | false =>
    have hpolls : polls ≤ 1 := h.resolve_left (by simp [hh])
    simp [quiesceStep, portReadStatus, hh, hpolls]

theorem quiesceStep_reads {polls : Nat} (hh : (s.eng ch).halted = false) (hpolls : 1 < polls) (hTx : Bool) :
    quiesceStep ch polls hTx s = .goto (.quiesce ch (polls - 1) hTx) s := by
  simp [quiesceStep, portReadStatus, hh, Nat.not_le.mpr hpolls]

/-- The polling of an engine that nothing changes meanwhile answers whether it has halted (R228; log 4). -/
theorem shutdown_quiesces (hs : s.callerLives k) (ch : Channel) (polls : Nat) (hTx : Bool) :
    ∃ n ≤ polls + 1, CallerRuns k n (s.setOp k (.shutdown (.quiesce ch polls hTx)))
      (s.setOp k (.shutdown (afterQuiesce s.cfg ch hTx (s.eng ch).halted))) := by
  induction polls with
  | zero => exact ⟨1, le_rfl, shutdown_goto hs (by simp) (quiesceStep_ends (s := s.setOp k _) (.inr (by decide)) hTx)⟩
  | succ polls ih =>
    by_cases hend : (s.eng ch).halted = true ∨ polls + 1 ≤ 1
    · exact ⟨1, by omega, shutdown_goto hs (by simp) (quiesceStep_ends (s := s.setOp k _) hend hTx)⟩
    · rw [not_or, Bool.not_eq_true, Nat.not_le] at hend
      obtain ⟨hh, hpolls⟩ := hend
      obtain ⟨n, hn, hrun⟩ := ih
      have hread : CallerRuns k 1 (s.setOp k (.shutdown (.quiesce ch (polls + 1) hTx)))
          (s.setOp k (.shutdown (.quiesce ch polls hTx))) :=
        shutdown_goto hs (by simp) (quiesceStep_reads (s := s.setOp k _) hh hpolls hTx)
      exact ⟨1 + n, by omega, hread.trans hrun⟩

/-! ## The rings -/

/-- The ring of a channel freed and logged `freed` if `h`, else kept and logged `leaked` (R227, R228). -/
def State.ringClosed (s : State) (ch : Channel) (h : Bool) : State :=
  State.setRing { s with
    allocated := s.allocated.filter fun x => decide ¬ (h = true ∧ x ∈ s.ringHandles ch)
    tdLog := s.tdLog ++ [if h = true then .freed ch else .leaked ch] } ch (if h = true then none else s.ring ch)

theorem shutdownFree_of_halted {h : Bool} (hh : h = true → (s.eng ch).halted = true) :
    shutdownFree ch h s = .ok (s.ringClosed ch h) := by
  cases h with
  | true =>
    simp only [shutdownFree, teardownRing_of_halted (hh rfl), if_true, State.ringClosed, true_and]
    cases ch <;> rfl
  | false =>
    simp only [shutdownFree, State.ringClosed, Bool.false_eq_true, if_false, false_and, not_false_eq_true, decide_true,
      List.filter_true]
    exact congrArg Except.ok (setRing_self (by cases ch <;> rfl)).symm

theorem shutdownTeardown_of_halted {a : Agent} {hTx hRx : Bool} (hhTx : hTx = true → s.engTx.halted = true)
    (hhRx : hRx = true → s.engRx.halted = true) :
    shutdownTeardown a hTx hRx s = .goto .finish ((s.ringClosed .tx hTx).ringClosed .rx hRx) := by
  have h1 := shutdownFree_of_halted (s := s) (ch := .tx) hhTx
  have h2 := shutdownFree_of_halted (s := s.ringClosed .tx hTx) (ch := .rx) hhRx
  simp only [shutdownTeardown, h1, h2, orFault]

/-- `s` with both handlers unregistered and the rings of the engines that have halted freed (R227). -/
def State.closed (s : State) : State :=
  (((s.setToken .tx false).setToken .rx false).ringClosed .tx s.engTx.halted).ringClosed .rx s.engRx.halted

/-- A handle is freed with the one ring or with the other (R227). -/
theorem filter_closed (p q : Nat → Prop) [DecidablePred p] [DecidablePred q] (l : List Nat) :
    (l.filter fun h => decide ¬ p h).filter (fun h => decide ¬ q h) = l.filter fun h => decide (¬ p h ∧ ¬ q h) := by
  simp only [List.filter_filter, Bool.decide_and, Bool.and_comm]

theorem closed_eq (s : State) : s.closed = { s with
    chanTx := { s.chanTx with ring := if s.engTx.halted = true then none else s.chanTx.ring, irqToken := false }
    chanRx := { s.chanRx with ring := if s.engRx.halted = true then none else s.chanRx.ring, irqToken := false }
    allocated := s.allocated.filter fun h => decide (
      ¬ (s.engTx.halted = true ∧ h ∈ s.ringHandles .tx) ∧ ¬ (s.engRx.halted = true ∧ h ∈ s.ringHandles .rx))
    tdLog := s.tdLog ++ [if s.engTx.halted = true then .freed .tx else .leaked .tx,
      if s.engRx.halted = true then .freed .rx else .leaked .rx] } := by
  have hlive := filter_closed (fun h => s.engTx.halted = true ∧ h ∈ s.ringHandles .tx)
    (fun h => s.engRx.halted = true ∧ h ∈ s.ringHandles .rx) s.allocated
  rw [← hlive, List.append_cons]
  rfl

theorem shutdown_closes (hs : s.callerLives k) :
    CallerRuns k 2 (s.setOp k (.shutdown (.tokens s.engTx.halted s.engRx.halted)))
      (s.closed.setOp k (.shutdown .finish)) := by
  let u := (s.setToken .tx false).setToken .rx false
  have h1 : CallerRuns k 1 (s.setOp k (.shutdown (.tokens s.engTx.halted s.engRx.halted)))
      (u.setOp k (.shutdown (.teardown s.engTx.halted s.engRx.halted))) := shutdown_goto hs (by simp) rfl
  have h2 : CallerRuns k 1 (u.setOp k (.shutdown (.teardown s.engTx.halted s.engRx.halted)))
      (s.closed.setOp k (.shutdown .finish)) :=
    shutdown_goto hs (by simp) (shutdownTeardown_of_halted (s := u.setOp k _) id id)
  exact h1.trans h2

/-! ## The whole operation -/

/-- With both locks free a shutdown comes to its end, the reads of `Quiesce` counted (R227, R228). -/
theorem shutdown_runs (hs : s.callerLives k) (hTx : s.chanTx.lock = .free) (hRx : s.chanRx.lock = .free) :
    ∃ n ≤ 2 * s.cfg.quiescePolls + 13, CallerRuns k n (s.setOp k (.shutdown (.lock .tx))) (State.respond
      { ((s.engineStopped .tx).engineStopped .rx).closed with lcBusy := false } k .ok 0) := by
  let u := (s.engineStopped .tx).engineStopped .rx
  have hlocks := (shutdown_passesLock (ch := .tx) hs hTx).trans (shutdown_passesLock (ch := .rx) hs hRx)
  have hstops := (shutdown_stopsEngine hs .tx).trans (shutdown_stopsEngine (s := s.engineStopped .tx) (k := k) hs .rx)
  obtain ⟨n, hn, hpollTx⟩ := shutdown_quiesces (s := u) (k := k) hs .tx s.cfg.quiescePolls false
  obtain ⟨m, hm, hpollRx⟩ := shutdown_quiesces (s := u) (k := k) hs .rx s.cfg.quiescePolls s.engTx.halted
  have hcloses := shutdown_closes (s := u) (k := k) hs
  have hfinish := shutdown_finishes (s := u.closed) (k := k) hs
  exact ⟨_, by omega, ((((hlocks.trans hstops).trans hpollTx).trans hpollRx).trans hcloses).trans hfinish⟩

theorem startShutdown_of_admitted (hbusy : s.lcBusy = false) (hlife : s.life = .running) :
    startShutdown k s = State.setOp { s with lcBusy := true, life := .stopped } k (.shutdown (.lock .tx)) :=
  if_neg (by simp [hbusy, hlife])

end

/-- Settles O42: the engines do not change while they are polled, so the ring of each that had halted is freed. -/
theorem shutdownFreesHalted : Obligations.ShutdownFreesHalted := by
  intro s hready hbusy hlife hTx hRx
  have hs := callerLives_of_ready hready
  let u : State := { s with lcBusy := true, life := .stopped }
  obtain ⟨n, hn, hrun⟩ := shutdown_runs (s := u) (k := s.active) hs hTx hRx
  have hfuel : n ≤ opFuel s.cfg := by
    have : n ≤ 2 * s.cfg.quiescePolls + 13 := hn
    unfold opFuel
    omega
  refine congrArg Host.Outcome.next ?_
  rw [closed_eq] at hrun
  rw [startShutdown_of_admitted hbusy hlife, runCaller_of_runs_respond hrun hs.1 hfuel, hbusy]
  rfl

end Sys2Proof.Machine
end

section
/-! PROOFS. The control port (R250 to R261), each operation run alone (log 11): what it writes, and when it faults. -/

namespace Sys2Proof.Machine

/-! ## The operations, case by case -/

section
variable {s : State} {ch : Channel}

/-- `start()` on an engine that runs or has failed draws nothing (R253). -/
theorem portStart_of_not_startable (h : (s.eng ch).halted = false ∨ (s.eng ch).errHalt = true) :
    portStart ch s = s.setEng ch { s.eng ch with runStop := true } := by
  rcases h with hh | he
  · simp [portStart, hh]
  · simp [portStart, he]

/-- An operand that names no descriptor is a fault of a halted engine (R250). -/
theorem portSetCurdesc_none (hh : (s.eng ch).halted = true) :
    portSetCurdesc ch none s = .error (.badDescriptorAddress ch none) := by
  simp [portSetCurdesc, addrOperand, hh]

/-- On a running engine the operand is not looked at (R259). -/
theorem portSetCurdesc_of_running (hh : (s.eng ch).halted = false) (addr : Option Nat) :
    portSetCurdesc ch addr s = .error (.curDescWhileRunning ch) := by
  simp [portSetCurdesc, hh]

theorem portCfgCoalesce_of_ne_zero {d th : Nat} (h : th ≠ 0) :
    portCfgCoalesce ch d th s = .ok (s.setEng ch { s.eng ch with coalDelay := d, coalThresh := th }) := if_neg h

theorem portCfgCoalesce_of_eq_zero {d th : Nat} (h : th = 0) :
    portCfgCoalesce ch d th s = .error (.badThreshold ch) := if_pos h

/-- The line is computed from the engine's fields as they are after the write (R315). -/
theorem line_setEng (s : State) (ch : Channel) (e : Engine) :
    (s.setEng ch e).line ch = (e.irqEn && (e.iocPend || e.dlyPend)) := by
  rw [State.line, eng_setEng_same]

/-! ## The operations run alone -/

theorem exec_portSetCurdesc {i : Imm} {r : Except FaultReason State}
    (h : portSetCurdesc ch (addrOf s.cfg ch i.toNat) s = r) :
    exec (.portSetCurdesc ch i) s = .next (portAlone s r) :=
  congrArg (fun r => Host.Outcome.next (portAlone s r)) h

theorem exec_portCfgCoalesce {d : BitVec 15} {th : BitVec 8} {r : Except FaultReason State}
    (h : portCfgCoalesce ch d.toNat th.toNat s = r) :
    exec (.portCfgCoalesce ch d th) s = .next (portAlone s r) :=
  congrArg (fun r => Host.Outcome.next (portAlone s r)) h

end

/-! ## The statements -/

/-- Settles O25: a running engine faults before the operand is read; a halted one goes by what the operand names. -/
theorem portSetCurdesc_holds : Obligations.PortSetCurdesc := by
  intro s ch i hwf
  have hc := Config.facts hwf
  refine ⟨fun hh hi => ?written, fun hh hi => ?outside, fun hh => ?running⟩
  case written => exact exec_portSetCurdesc (portSetCurdesc_index hc hi hh)
  case outside =>
    refine exec_portSetCurdesc (r := .error _) ?_
    rw [addrOf_none hc hi]
    exact portSetCurdesc_none hh
  case running => exact exec_portSetCurdesc (portSetCurdesc_of_running hh _)

/-- Settles O21: a read writes `ret` only, from the fields of the engine. -/
theorem portReads : Obligations.PortReads := fun _ _ => ⟨rfl, rfl⟩

/-- Settles O22: by whether the engine is one that draws. -/
theorem portStartDraws : Obligations.PortStartDraws := by
  intro s ch
  refine ⟨fun h => ?_, fun b rest hh he hd => ?_⟩
  · exact congrArg Host.Outcome.next (portStart_of_not_startable h)
  · exact congrArg Host.Outcome.next (portStart_of_draw hh he hd)

/-- Settles O23: each is one write of the engine, from whose fields the line follows. -/
theorem portControlWrites : Obligations.PortControlWrites := by
  intro s ch
  refine ⟨spelledAs_of_encode (op := 0x43#8) rfl rfl, spelledAs_of_encode (op := 0x45#8) rfl rfl,
    spelledAs_of_encode (op := 0x46#8) rfl rfl, spelledAs_of_encode (op := 0x47#8) rfl rfl,
    rfl, rfl, rfl, rfl, ?enabled, ?disabled, ?acknowledged⟩
  case enabled => simp [portIrqEnable, line_setEng]
  case disabled => simp [portIrqDisable, line_setEng]
  case acknowledged => simp [portIrqAck, line_setEng]

/-- Settles O24: the values are those of `engineReset` (R352). -/
theorem portResetValues : Obligations.PortResetValues := fun _ _ =>
  ⟨spelledAs_of_encode (op := 0x44#8) rfl rfl, rfl⟩

/-- Settles O27: by whether the threshold is 0. -/
theorem portCfgCoalesce_holds : Obligations.PortCfgCoalesce := by
  intro s ch d t
  refine ⟨fun ht => ?written, fun ht => ?zero⟩
  case written =>
    have hne : t.toNat ≠ 0 := fun h => ht (BitVec.eq_of_toNat_eq h)
    exact exec_portCfgCoalesce (portCfgCoalesce_of_ne_zero hne)
  case zero => exact exec_portCfgCoalesce (portCfgCoalesce_of_eq_zero (congrArg BitVec.toNat ht))

end Sys2Proof.Machine
end

section
/-! PROOFS. The steps of the device engines (R280 to R290): the check, the completions, delay expiry, halt and fail, and
what they touch. -/

namespace Sys2Proof.Machine

/-! ## Which choices are an engine's, and when they are enabled -/

theorem engineAgent_injective : Function.Injective engineAgent
  | .tx, .tx, _ | .rx, .rx, _ => rfl

theorem irqAgent_ne_engineAgent (ch ch' : Channel) : irqAgent ch ≠ engineAgent ch' := by
  cases ch <;> cases ch' <;> nofun

/-- The steps of an engine: its completion, delay expiry, halt and fail (R280). -/
theorem choiceAgent_eq_engineAgent {c : Choice} {ch : Channel} (h : choiceAgent c = engineAgent ch) :
    (c = .txComplete ∧ ch = .tx) ∨ (c = .rxComplete ∧ ch = .rx) ∨ c = .delay ch ∨ c = .halt ch ∨ c = .fail ch := by
  cases c with
  | txComplete => exact .inl ⟨rfl, engineAgent_injective (a₂ := .tx) h.symm⟩
  | rxComplete => exact .inr (.inl ⟨rfl, engineAgent_injective (a₂ := .rx) h.symm⟩)
  | delay ch' => rw [engineAgent_injective h]; simp
  | halt ch' => rw [engineAgent_injective h]; simp
  | fail ch' => rw [engineAgent_injective h]; simp
  | handle ch' | enter ch' | advanceIrq ch' => exact absurd h (irqAgent_ne_engineAgent ch' ch)
  | command | start | advance | poll | startPoll | advancePoll | trace => cases ch <;> cases h

/-- Every step of an engine needs it to run (R280). -/
theorem enabled_of_not_engRunning {s : State} {c : Choice} {ch : Channel} (hc : choiceAgent c = engineAgent ch)
    (h : s.engRunning ch = false) : s.enabled c = false := by
  obtain ⟨rfl, rfl⟩ | ⟨rfl, rfl⟩ | rfl | rfl | rfl := choiceAgent_eq_engineAgent hc
  · simp [State.enabled, State.completeEnabled, h]
  · simp [State.enabled, State.completeEnabled, h]
  · simp [State.enabled, State.delayEnabled, h]
  · simp [State.enabled, State.haltEnabled, h]
  · simp [State.enabled, State.failEnabled, h]

section
variable {s : State} {ch : Channel}

theorem engRunning_of_halted (h : (s.eng ch).halted = true) : s.engRunning ch = false := by
  simp [State.engRunning, h]

theorem engRunning_iff (hs : s.isStopped (engineAgent ch) = false) :
    s.engRunning ch = true ↔ (s.eng ch).halted = false := by
  simp [State.engRunning, hs]

theorem delayEnabled_iff (hs : s.isStopped (engineAgent ch) = false) : s.delayEnabled ch = true ↔
    (s.eng ch).halted = false ∧ (s.eng ch).coalDelay ≠ 0 ∧ 0 < (s.eng ch).coalCount := by
  simp only [State.delayEnabled, Bool.and_eq_true, engRunning_iff hs, decide_eq_true_eq, and_assoc]

theorem haltEnabled_iff (hs : s.isStopped (engineAgent ch) = false) : s.haltEnabled ch = true ↔
    (s.eng ch).halted = false ∧ (s.eng ch).runStop = false := by
  simp only [State.haltEnabled, Bool.and_eq_true, engRunning_iff hs, Bool.not_eq_true']

theorem failEnabled_iff (hs : s.isStopped (engineAgent ch) = false) : s.failEnabled ch = true ↔
    (s.eng ch).halted = false ∧ s.cfg.deviceMayFail = true := by
  simp only [State.failEnabled, Bool.and_eq_true, engRunning_iff hs]

theorem act_of_enabled_iff {t : State} {c : Choice} {p : Prop} [Decidable p] (he : s.enabled c = true ↔ p)
    (ht : takeChoice c s = .next t) : act c s = .next (if p then t else s) := by
  split
  · next hp => rw [act_of_enabled (he.mpr hp), ht]
  · next hp => exact act_of_disabled (Bool.eq_false_iff.mpr (mt he.mp hp))

/-! ## The check -/

/-- No ring, or a descriptor that is not `POSTED` (R288). -/
theorem engineCheck_of_notPosted (h : s.ring ch = none ∨
    ∃ r d, s.ring ch = some r ∧ r.desc[(s.eng ch).hwCur]? = some d ∧ d.own ≠ .posted) :
    engineCheck ch s = .error (.descriptorNotPosted ch (s.eng ch).hwCur) := by
  obtain hr | ⟨r, d, hr, hd, hown⟩ := h
  · simp only [engineCheck, hr]
  · simp only [engineCheck, hr, hd, if_pos hown]

variable {r : Ring} {d : Desc}

theorem engineCheck_of_zeroLength (hr : s.ring .tx = some r) (hd : r.desc[(s.eng .tx).hwCur]? = some d)
    (hown : d.own = .posted) (hlen : d.ctrl.len = 0) :
    engineCheck .tx s = .error (.zeroLengthTx (s.eng .tx).hwCur) := by
  simp only [engineCheck, hr, hd, if_neg (not_not_intro hown), hlen, and_self, if_true]

theorem engineCheck_of_posted (hr : s.ring ch = some r) (hd : r.desc[(s.eng ch).hwCur]? = some d)
    (hown : d.own = .posted) (hlen : ch = .tx → d.ctrl.len ≠ 0) : engineCheck ch s = .ok (r, d) := by
  have hnz : ¬ (ch = .tx ∧ d.ctrl.len = 0) := fun ⟨hch, hz⟩ => hlen hch hz
  simp only [engineCheck, hr, hd, if_neg (not_not_intro hown), if_neg hnz]

end

section
variable {s : State} {f : FaultReason}

theorem txCompleteStep_of_checkFails (h : engineCheck .tx s = .error f) : txCompleteStep s = s.raiseFault .engTx f := by
  simp only [txCompleteStep, h]

theorem rxCompleteStep_of_checkFails (h : engineCheck .rx s = .error f) : rxCompleteStep s = s.raiseFault .engRx f := by
  simp only [rxCompleteStep, h]

end

/-! ## The draws of a completion -/

section
variable {s : State}

/-- A device that may not fail draws no error bits (R283). -/
theorem drawErrBits_of_mayNotFail (h : s.cfg.deviceMayFail = false) : s.drawErrBits = (0, s) := by
  simp [State.drawErrBits, h]

theorem drawErrBits_of_draw {e : Nat} {es : List Nat} (h : s.cfg.deviceMayFail = true)
    (hd : s.draws.errBits = e :: es) :
    s.drawErrBits = (e % 2 ^ s.cfg.errW, { s with draws := { s.draws with errBits := es } }) := by
  simp [State.drawErrBits, h, hd]

theorem drawTxLen_of_draw {n : Nat} {ns : List Nat} (hd : s.draws.txLen = n :: ns) (m : Nat) :
    s.drawTxLen m = (min n m, { s with draws := { s.draws with txLen := ns } }) := by
  simp [State.drawTxLen, hd]

theorem drawFrame_of_draw {f : List Byte} {fs : List (List Byte)} {m : Nat} (hd : s.draws.frame = f :: fs)
    (hf : f.length ≤ m) : s.drawFrame m = (f, { s with draws := { s.draws with frame := fs } }) := by
  simp [State.drawFrame, hd, List.take_of_length_le hf]

end

/-! ## The completions -/

/-- The position advances; the count starts again, and the interrupt is pending, once it reaches the threshold (R281,
R282, R284). -/
theorem advanceEngine_eq (n : Nat) (e : Engine) :
    advanceEngine n e = { e with
      hwCur := (e.hwCur + 1) % n
      iocPend := e.iocPend || decide (e.coalThresh ≤ e.coalCount + 1)
      coalCount := if e.coalThresh ≤ e.coalCount + 1 then 0 else e.coalCount + 1 } := by
  by_cases h : e.coalThresh ≤ e.coalCount + 1 <;> simp [advanceEngine, coalesce, next, h]

theorem writeCompletion_eq (ch : Channel) (r : Ring) (d : Desc) (st : Status) (s : State) :
    writeCompletion ch r d st s = (s.setRing ch (some { r with
      desc := r.desc.set (s.eng ch).hwCur { d with own := .completed, st := st } })).setEng ch { s.eng ch with
        hwCur := ((s.eng ch).hwCur + 1) % s.cfg.cap ch
        iocPend := (s.eng ch).iocPend || decide ((s.eng ch).coalThresh ≤ (s.eng ch).coalCount + 1)
        coalCount :=
          if (s.eng ch).coalThresh ≤ (s.eng ch).coalCount + 1 then 0 else (s.eng ch).coalCount + 1 } := by
  rw [writeCompletion, advanceEngine_eq]
  rfl

section
variable {s u : State} {r : Ring} {d : Desc} {e : Nat}

section
variable {frame : List Byte} (hcheck : engineCheck .tx s = .ok (r, d)) (hsize : d.ctrl.len ≤ s.cfg.bufSize)
  (hframe : d.buf.bytes.readFrom d.ctrl.len 0 = some frame) (hbits : s.drawErrBits = (e, u))
include hcheck hsize hframe hbits

/-- Without an error the frame goes on the wire (R281). -/
theorem txCompleteStep_of_noError (he : e = 0) :
    txCompleteStep s = writeCompletion .tx r d { cmplt := true, err := 0, len := d.ctrl.len }
      { u with wireLog := u.wireLog ++ [frame] } := by
  simp only [txCompleteStep, hcheck, memRead_ok.mpr ⟨hsize, hframe⟩, hbits, finishTx, if_pos he]

/-- With error bits nothing goes on the wire, and the status length is a draw (R281; log 8). -/
theorem txCompleteStep_of_errBits {n : Nat} {v : State} (he : e ≠ 0) (hlen : u.drawTxLen d.ctrl.len = (n, v)) :
    txCompleteStep s = writeCompletion .tx r d { cmplt := true, err := e, len := n } v := by
  simp only [txCompleteStep, hcheck, memRead_ok.mpr ⟨hsize, hframe⟩, hbits, finishTx, if_neg he, hlen]

end

/-- A frame that fits the buffer is written into it (R282). -/
theorem rxCompleteStep_of_fits {f : List Byte} {t : State} (hcheck : engineCheck .rx s = .ok (r, d))
    (hframe : s.drawFrame d.ctrl.len = (f, t)) (hbits : t.drawErrBits = (e, u)) (hf : f.length ≤ u.cfg.bufSize) :
    rxCompleteStep s = writeCompletion .rx r { d with buf := { d.buf with bytes := d.buf.bytes.writeFrom 0 f } }
      { cmplt := true, err := e, len := f.length } u := by
  simp only [rxCompleteStep, hcheck, hframe, hbits, finishRx, memWrite_of_le hf]

end

/-! ## What an engine step touches -/

/-- There is a ring exactly when there was one, and it differs from it at slot `i` at most. -/
def SameButSlot (i : Nat) (o o' : Option Ring) : Prop :=
  (o = none ∧ o' = none) ∨ ∃ r r', o = some r ∧ o' = some r' ∧ r'.cap = r.cap ∧ r'.curr = r.curr ∧ r'.tail = r.tail
    ∧ r'.backing = r.backing ∧ ∀ j, j ≠ i → r'.desc[j]? = r.desc[j]?

theorem SameButSlot.same (i : Nat) (o : Option Ring) : SameButSlot i o o := by
  cases o with
  | none => exact .inl ⟨rfl, rfl⟩
  | some r => exact .inr ⟨r, r, rfl, rfl, rfl, rfl, rfl, rfl, fun _ _ => rfl⟩

theorem SameButSlot.setDesc (i : Nat) (r : Ring) (d : Desc) : SameButSlot i (some r) (some (r.setDesc i d)) :=
  .inr ⟨r, r.setDesc i d, rfl, rfl, rfl, rfl, rfl, rfl, fun _ hj => List.getElem?_set_ne hj.symm⟩

/-- What a step of a channel's engine can do to the state: draws, then a fault of the engine or the completion of the
descriptor at `hwCur`; or a write of the engine alone (R280, R290). -/
inductive EngineEffect (ch : Channel) (s : State) : State → Prop where
  | engine (e : Engine) : EngineEffect ch s (s.setEng ch e)
  | fault (u : State) (f : FaultReason) (hu : DrawFrame s u) : EngineEffect ch s (u.raiseFault (engineAgent ch) f)
  | complete (u : State) (r : Ring) (d : Desc) (st : Status) (hu : DrawFrame s u) (hr : s.ring ch = some r) :
      EngineEffect ch s (writeCompletion ch r d st u)

theorem setEng_eng_self (s : State) (ch : Channel) : s.setEng ch (s.eng ch) = s := by
  cases ch <;> rfl

theorem EngineEffect.same (ch : Channel) (s : State) : EngineEffect ch s s := by
  have h := EngineEffect.engine (ch := ch) (s := s) (s.eng ch)
  rwa [setEng_eng_self] at h

theorem txCompleteStep_effect (s : State) : EngineEffect .tx s (txCompleteStep s) := by
  obtain ⟨f, h⟩ | ⟨r, d, st, u, hr, -, -, -, hu, h⟩ := txCompleteStep_cases s
  · rw [h]; exact .fault s f rfl
  · rw [h]; exact .complete u r d st hu hr

theorem rxCompleteStep_effect (s : State) : EngineEffect .rx s (rxCompleteStep s) := by
  obtain ⟨f, h⟩ | ⟨f, u, hu, h⟩ | ⟨r, d, st, bytes, u, hr, -, -, -, -, hu, h⟩ := rxCompleteStep_cases s
  · rw [h]; exact .fault s f rfl
  · rw [h]; exact .fault u f hu
  · rw [h]; exact .complete u r _ st hu hr

section
variable {s t : State} {c : Choice} {ch : Channel}

theorem takeChoice_engineEffect (hc : choiceAgent c = engineAgent ch) (h : takeChoice c s = .next t) :
    EngineEffect ch s t := by
  obtain ⟨rfl, rfl⟩ | ⟨rfl, rfl⟩ | rfl | rfl | rfl := choiceAgent_eq_engineAgent hc <;> cases h
  · exact txCompleteStep_effect s
  · exact rxCompleteStep_effect s
  · exact .engine _
  · exact .engine _
  · exact .engine _

theorem act_engineEffect (hc : choiceAgent c = engineAgent ch) (h : act c s = .next t) : EngineEffect ch s t := by
  cases he : s.enabled c with
  | true => rw [act_of_enabled he] at h; exact takeChoice_engineEffect hc h
  | false => rw [act_of_disabled he] at h; cases h; exact .same ch s

/-- Beside its own ring and engine an engine step writes the wire log, the marks of a fault and the draws at most. -/
theorem EngineEffect.frame (h : EngineEffect ch s t) : ∃ r e, t = { State.setEng (s.setRing ch r) ch e with
    wireLog := t.wireLog, faults := t.faults, stopped := t.stopped, draws := t.draws, drawn := t.drawn } := by
  cases h with
  | engine e => exact ⟨s.ring ch, e, by cases ch <;> rfl⟩
  | fault u f hu => exact ⟨s.ring ch, s.eng ch, by rw [hu]; cases ch <;> rfl⟩
  | complete u r d st hu hr =>
    refine ⟨some (r.setDesc (u.eng ch).hwCur { d with own := .completed, st := st }),
      advanceEngine (u.cfg.cap ch) (u.eng ch), ?_⟩
    rw [hu]
    cases ch <;> rfl

/-- Of a ring an engine step writes the descriptor at `hwCur` only. -/
theorem EngineEffect.ring (h : EngineEffect ch s t) : SameButSlot (s.eng ch).hwCur (s.ring ch) (t.ring ch) := by
  cases h with
  | engine e => rw [setEng_ring]; exact .same _ _
  | fault u f hu => exact hu.ring ch ▸ .same _ _
  | complete u r d st hu hr =>
    rw [writeCompletion_ring, if_pos rfl, hr, hu.eng]
    exact .setDesc _ r _

/-! The wire log is the transmit engine's. -/

theorem drawFrame_wireLog (m : Nat) (s : State) : (s.drawFrame m).2.wireLog = s.wireLog := by
  unfold State.drawFrame; split <;> rfl

theorem drawErrBits_wireLog (s : State) : s.drawErrBits.2.wireLog = s.wireLog := by
  unfold State.drawErrBits
  split
  · split <;> rfl
  · rfl

theorem finishRx_wireLog (r : Ring) (d : Desc) (f : List Byte) (e : Nat) (s : State) :
    (finishRx r d f e s).wireLog = s.wireLog := by
  unfold finishRx; split <;> rfl

theorem rxCompleteStep_wireLog (s : State) : (rxCompleteStep s).wireLog = s.wireLog := by
  unfold rxCompleteStep
  split
  · rfl
  · rw [finishRx_wireLog, drawErrBits_wireLog, drawFrame_wireLog]

theorem act_rx_wireLog (hc : choiceAgent c = engineAgent .rx) (h : act c s = .next t) : t.wireLog = s.wireLog := by
  cases he : s.enabled c with
  | false => rw [act_of_disabled he] at h; cases h; rfl
  | true =>
    rw [act_of_enabled he] at h
    obtain ⟨-, hch⟩ | ⟨rfl, -⟩ | rfl | rfl | rfl := choiceAgent_eq_engineAgent hc
    · cases hch
    · cases h; exact rxCompleteStep_wireLog s
    all_goals cases h; rfl

end

/-! ## The statements -/

/-- Settles O43: the check passes and the frame is read; the error bits decide whether it goes on the wire. -/
theorem txCompletion : Obligations.TxCompletion := by
  intro s cs r d frame hwf hshape hsched he hr hd hown hne hsize hframe after
  have hstep : step s = .next (txCompleteStep { s with schedule := cs }) := step_of_enabled hwf hshape hsched he
  have hcheck : engineCheck .tx { s with schedule := cs } = .ok (r, d) :=
    engineCheck_of_posted hr hd hown fun _ => hne
  refine ⟨fun hmay => ?mayNotFail, fun e es hmay hbits hz => ?noError,
    fun e es n ns hmay hbits hlen hnz => ?errBits⟩
  case mayNotFail =>
    rw [hstep, txCompleteStep_of_noError hcheck hsize hframe (drawErrBits_of_mayNotFail hmay) rfl, writeCompletion_eq]
    rfl
  case noError =>
    rw [hstep, txCompleteStep_of_noError hcheck hsize hframe (drawErrBits_of_draw hmay hbits) hz, writeCompletion_eq]
    rfl
  case errBits =>
    have hdraw := drawTxLen_of_draw (s := { s with schedule := cs, draws := { s.draws with errBits := es } }) hlen
      d.ctrl.len
    rw [hstep, txCompleteStep_of_errBits hcheck hsize hframe (drawErrBits_of_draw hmay hbits) hnz hdraw,
      writeCompletion_eq]
    rfl

/-- Settles O44: the check passes and the frame fits the buffer, with or without a draw of error bits. -/
theorem rxCompletion : Obligations.RxCompletion := by
  intro s cs r d f fs hwf hshape hsched he hdraw hr hd hown hfit hsize after
  have hstep : step s = .next (rxCompleteStep { s with schedule := cs }) := step_of_enabled hwf hshape hsched he
  have hcheck : engineCheck .rx { s with schedule := cs } = .ok (r, d) :=
    engineCheck_of_posted hr hd hown nofun
  have hframe := drawFrame_of_draw (s := { s with schedule := cs }) hdraw hfit
  have hbuf : f.length ≤ s.cfg.bufSize := hfit.trans hsize
  refine ⟨fun hmay => ?mayNotFail, fun e es hmay hbits => ?mayFail⟩
  case mayNotFail =>
    rw [hstep, rxCompleteStep_of_fits hcheck hframe (drawErrBits_of_mayNotFail hmay) hbuf, writeCompletion_eq]
    rfl
  case mayFail =>
    rw [hstep, rxCompleteStep_of_fits hcheck hframe (drawErrBits_of_draw hmay hbits) hbuf, writeCompletion_eq]
    rfl

/-- Settles O45: each clause is one way the check fails. -/
theorem engineChecks : Obligations.EngineChecks := by
  intro s cs hwf hshape
  have notPosted {ch : Channel} := engineCheck_of_notPosted (s := { s with schedule := cs }) (ch := ch)
  have zeroLength {r d} := engineCheck_of_zeroLength (s := { s with schedule := cs }) (r := r) (d := d)
  refine ⟨fun hsched he => ?tx, fun hsched he hbad => ?rx⟩
  case tx =>
    have hstep : step s = .next (txCompleteStep { s with schedule := cs }) := step_of_enabled hwf hshape hsched he
    refine ⟨fun hbad => ?notPosted, fun r d hr hd hown hlen => ?zeroLength⟩
    case notPosted => exact hstep.trans (congrArg _ (txCompleteStep_of_checkFails (notPosted hbad)))
    case zeroLength => exact hstep.trans (congrArg _ (txCompleteStep_of_checkFails (zeroLength hr hd hown hlen)))
  case rx =>
    have hstep : step s = .next (rxCompleteStep { s with schedule := cs }) := step_of_enabled hwf hshape hsched he
    exact hstep.trans (congrArg _ (rxCompleteStep_of_checkFails (notPosted hbad)))

/-- Settles O50: from what an engine step can do, and the receive engine's writing nothing on the wire. -/
theorem engineFrame : Obligations.EngineFrame := by
  intro s t c ch hc h
  have heffect := act_engineEffect hc h
  refine ⟨heffect.frame, fun hch => ?_, heffect.ring⟩
  subst hch
  exact act_rx_wireLog hc h

/-- Settles O46: an engine that is not stopped takes each step exactly when R280 enables it. -/
theorem engineTimerHaltFail : Obligations.EngineTimerHaltFail := by
  intro s ch cs hwf hshape hs
  refine ⟨fun hsched => ?delay, fun hsched => ?halt, fun hsched => ?fail⟩ <;> rw [step_of_schedule hwf hshape hsched]
  case delay => exact act_of_enabled_iff (delayEnabled_iff (s := { s with schedule := cs }) hs) rfl
  case halt => exact act_of_enabled_iff (haltEnabled_iff (s := { s with schedule := cs }) hs) rfl
  case fail => exact act_of_enabled_iff (failEnabled_iff (s := { s with schedule := cs }) hs) rfl

/-- Settles O47: no choice of the engine is enabled, so the step only uses up its choice (log 3). -/
theorem haltedEngineTakesNoStep : Obligations.HaltedEngineTakesNoStep := by
  intro s ch c cs hwf hshape hh hsched hc
  rw [step_of_schedule hwf hshape hsched]
  exact act_of_disabled (enabled_of_not_engRunning hc (engRunning_of_halted (s := { s with schedule := cs }) hh))

end Sys2Proof.Machine
end

section
/-! PROOFS. Interrupt entry (R315, R316), and what a handler may touch and how long it runs (R321, R322). -/

namespace Sys2Proof.Machine

/-! ## Interrupt entry -/

section
variable {s : State} {ch : Channel}

theorem line_iff : s.line ch = true ↔
    (s.eng ch).irqEn = true ∧ ((s.eng ch).iocPend = true ∨ (s.eng ch).dlyPend = true) := by
  simp only [State.line, Bool.and_eq_true, Bool.or_eq_true]

theorem entryEnabled_iff (hs : s.isStopped (irqAgent ch) = false) : s.entryEnabled ch = true ↔
    (s.eng ch).irqEn = true ∧ ((s.eng ch).iocPend = true ∨ (s.eng ch).dlyPend = true)
      ∧ (s.chan ch).irqToken = true ∧ s.irqIdle ch = true := by
  simp only [State.entryEnabled, Bool.and_eq_true, line_iff, hs, Bool.not_false, and_true, and_assoc]

end

/-- Settles O48: entry is enabled on just the conditions of R316, and takes the agent to the start of its handler. -/
theorem interruptEntry : Obligations.InterruptEntry := by
  intro s ch cs hwf hshape hs hsched
  rw [step_of_schedule hwf hshape hsched]
  refine act_of_enabled_iff (entryEnabled_iff (s := { s with schedule := cs }) hs) ?_
  cases ch <;> rfl

/-! ## What a step of a handler touches -/

theorem irqStep_tx_frame (s : State) :
    ∃ e, irqStep .tx s = { s with engTx := e, irqTx := (irqStep .tx s).irqTx } := by
  simp only [irqStep, txIrqStep]
  cases s.irqTx.op with
  | idle | ret => exact ⟨s.engTx, rfl⟩
  | ack => exact ⟨(portIrqAck .tx s).engTx, rfl⟩

theorem irqStep_rx_frame (s : State) : ∃ e, irqStep .rx s = { s with
    engRx := e
    rxMode := (irqStep .rx s).rxMode
    rxSched := (irqStep .rx s).rxSched
    irqRx := (irqStep .rx s).irqRx } := by
  simp only [irqStep, rxIrqStep]
  cases s.irqRx.op with
  | idle | notHandled | schedule => exact ⟨s.engRx, rfl⟩
  | readStatus => dsimp only; split <;> exact ⟨s.engRx, rfl⟩
  | ack => exact ⟨(portIrqAck .rx s).engRx, rfl⟩
  | disable => exact ⟨(portIrqDisable .rx s).engRx, rfl⟩

/-! ## How long a handler runs -/

/-- The steps the transmit handler still has before it, from a position (R198). -/
def TxIrqOp.stepsLeft : TxIrqOp → Nat
  | .idle => 0
  | .ret => 1
  | .ack => 2

/-- The most steps the receive handler still has before it, from a position (R166). -/
def RxIrqOp.stepsLeft : RxIrqOp → Nat
  | .idle => 0
  | .notHandled | .schedule => 1
  | .disable => 2
  | .ack => 3
  | .readStatus => 4

/-- The most steps the handler of a channel still has before it. -/
def State.irqStepsLeft (s : State) : Channel → Nat
  | .tx => s.irqTx.op.stepsLeft
  | .rx => s.irqRx.op.stepsLeft

theorem TxIrqOp.stepsLeft_eq_zero {op : TxIrqOp} : op.stepsLeft = 0 ↔ op = .idle := by
  cases op <;> decide

theorem RxIrqOp.stepsLeft_eq_zero {op : RxIrqOp} : op.stepsLeft = 0 ↔ op = .idle := by
  cases op <;> decide

theorem TxIrqOp.stepsLeft_le (op : TxIrqOp) : op.stepsLeft ≤ 2 := by
  cases op <;> decide

theorem RxIrqOp.stepsLeft_le (op : RxIrqOp) : op.stepsLeft ≤ 4 := by
  cases op <;> decide

/-- An interrupt agent is idle exactly at the end of its handler. -/
theorem irqIdle_iff_stepsLeft {s : State} {ch : Channel} : s.irqIdle ch = true ↔ s.irqStepsLeft ch = 0 := by
  cases ch with
  | tx => exact decide_eq_true_iff.trans TxIrqOp.stepsLeft_eq_zero.symm
  | rx => exact decide_eq_true_iff.trans RxIrqOp.stepsLeft_eq_zero.symm

theorem irqStepsLeft_le_four (s : State) (ch : Channel) : s.irqStepsLeft ch ≤ 4 := by
  cases ch with
  | tx => exact (TxIrqOp.stepsLeft_le _).trans (by decide)
  | rx => exact RxIrqOp.stepsLeft_le _

/-- Every step of a handler brings it nearer to its end. -/
theorem irqStepsLeft_irqStep (ch : Channel) (s : State) :
    (irqStep ch s).irqStepsLeft ch ≤ s.irqStepsLeft ch - 1 := by
  cases ch with
  | tx =>
    simp only [irqStep, txIrqStep, State.irqStepsLeft]
    cases h : s.irqTx.op with
    | idle => simp only [h, TxIrqOp.stepsLeft, Nat.zero_le]
    | ack | ret => exact le_rfl
  | rx =>
    simp only [irqStep, rxIrqStep, State.irqStepsLeft]
    cases h : s.irqRx.op with
    | idle => simp only [h, RxIrqOp.stepsLeft, Nat.zero_le]
    | readStatus =>
      dsimp only
      split
      · exact le_rfl
      · exact (by decide : RxIrqOp.notHandled.stepsLeft ≤ RxIrqOp.readStatus.stepsLeft - 1)
    | notHandled | ack | disable | schedule => exact le_rfl

theorem irqStepsLeft_iterate (ch : Channel) (n : Nat) (s : State) :
    ((irqStep ch)^[n] s).irqStepsLeft ch ≤ s.irqStepsLeft ch - n := by
  induction n with
  | zero => exact le_rfl
  | succ n ih =>
    rw [Function.iterate_succ_apply']
    have hstep := irqStepsLeft_irqStep ch ((irqStep ch)^[n] s)
    omega

theorem irqIdle_iterate_four (ch : Channel) (s : State) : ((irqStep ch)^[4] s).irqIdle ch = true := by
  have hleft := irqStepsLeft_iterate ch 4 s
  have hfour := irqStepsLeft_le_four s ch
  exact irqIdle_iff_stepsLeft.mpr (by omega)

/-- Settles O49: each step writes what its port operations and its return write, and at most four are left. -/
theorem handlerFrame : Obligations.HandlerFrame := fun s =>
  ⟨irqStep_tx_frame s, irqStep_rx_frame s, fun ch => irqIdle_iterate_four ch s⟩

end Sys2Proof.Machine
end

section
/-! PROOFS. Which agents have a step to take: the values at reset (R350 to R353), what is enabled there, and what is
enabled at the end of a run (R366). -/

namespace Sys2Proof.Machine

/-! ## The steps of a caller -/

section
variable {s : State} {c : Choice} {k : Nat}

/-- The steps of a caller: its next command, whole or begun, and the next step of its operation in flight (R110). -/
theorem choiceAgent_eq_caller (hc : choiceAgent c = .caller k) : c = .command k ∨ c = .start k ∨ c = .advance k := by
  cases c with
  | command j | start j | advance j => cases hc; simp
  | handle ch | enter ch | advanceIrq ch | delay ch | halt ch | fail ch => cases ch <;> cases hc
  | poll | startPoll | advancePoll | txComplete | rxComplete | trace => cases hc

theorem callerLives_of_canAdvance (h : s.callerCanAdvance k = true) : s.callerLives k := by
  simp only [State.callerCanAdvance, Bool.and_eq_true, decide_eq_true_eq, Bool.not_eq_true'] at h
  obtain ⟨⟨⟨hk, -⟩, hstop⟩, -⟩ := h
  exact ⟨hk, hstop⟩

/-- Only a caller that exists and has not been stopped has a step. -/
theorem callerLives_of_enabled (hc : choiceAgent c = .caller k) (he : s.enabled c = true) : s.callerLives k := by
  obtain rfl | rfl | rfl := choiceAgent_eq_caller hc
  · exact callerLives_of_ready (Bool.and_eq_true_iff.mp he).1
  · exact callerLives_of_ready (Bool.and_eq_true_iff.mp he).1
  · exact callerLives_of_canAdvance he

/-- A caller with no operation in flight can only issue the command at its `pc` (R110). -/
theorem command_or_start_of_idle (hop : (s.caller k).op = .idle) (hc : choiceAgent c = .caller k)
    (he : s.enabled c = true) : (c = .command k ∨ c = .start k) ∧ (s.fetch k).isSome = true := by
  obtain rfl | rfl | rfl := choiceAgent_eq_caller hc
  · exact ⟨.inl rfl, (Bool.and_eq_true_iff.mp he).2⟩
  · exact ⟨.inr rfl, (Bool.and_eq_true_iff.mp he).2⟩
  · simp [State.enabled, State.callerCanAdvance, hop] at he

theorem fetch_of_pc_eq_length (hpc : (s.caller k).pc = (s.caller k).stream.length) : s.fetch k = none :=
  List.getElem?_eq_none hpc.ge

theorem callerSettled_iff : s.callerSettled k = true ↔ s.isStopped (.caller k) = true
    ∨ ((s.caller k).pc = (s.caller k).stream.length ∧ (s.caller k).op = .idle) := by
  simp only [State.callerSettled, Bool.or_eq_true, Bool.and_eq_true, decide_eq_true_eq]

/-- A settled caller has no step: it has stopped, or it has no command left to issue (R366). -/
theorem enabled_of_callerSettled (h : s.callerSettled k = true) (hc : choiceAgent c = .caller k) :
    s.enabled c = false := by
  obtain hstop | ⟨hpc, hop⟩ := callerSettled_iff.mp h
  · exact enabled_of_stopped (by rintro rfl; cases hc) (hc ▸ hstop)
  · refine Bool.eq_false_iff.mpr fun he => ?_
    obtain ⟨-, hfetch⟩ := command_or_start_of_idle hop hc he
    rw [fetch_of_pc_eq_length hpc] at hfetch
    cases hfetch

end

/-! ## The interrupt agents, `DEFER` and the trace slot -/

/-- No handler and no poll is in flight, and none may begin. -/
structure State.ServicesIdle (s : State) : Prop where
  irqIdle : ∀ ch, s.irqIdle ch = true
  noEntry : ∀ ch, s.entryEnabled ch = false
  deferIdle : s.defer.op = .idle
  notScheduled : s.rxSched = false

/-- With the trace slot empty too, what is enabled is a step of a caller or of an engine. -/
theorem State.ServicesIdle.agent {s : State} {c : Choice} (h : s.ServicesIdle) (htrace : s.trace = none)
    (he : s.enabled c = true) : (∃ k, choiceAgent c = .caller k) ∨ ∃ ch, choiceAgent c = engineAgent ch := by
  cases c with
  | command k | start k | advance k => exact .inl ⟨k, rfl⟩
  | txComplete => exact .inr ⟨.tx, rfl⟩
  | rxComplete => exact .inr ⟨.rx, rfl⟩
  | delay ch | halt ch | fail ch => exact .inr ⟨ch, rfl⟩
  | handle ch | enter ch => simp [State.enabled, h.noEntry] at he
  | advanceIrq ch => simp [State.enabled, State.irqCanAdvance, h.irqIdle] at he
  | poll | startPoll => simp [State.enabled, State.pollEnabled, h.notScheduled] at he
  | advancePoll => simp [State.enabled, State.pollCanAdvance, h.deferIdle] at he
  | trace => simp [State.enabled, State.traceEnabled, htrace] at he

/-! ## The end of a run -/

/-- The clauses of R366, those of an engine for either channel. -/
structure State.SettledFacts (s : State) : Prop extends s.ServicesIdle where
  callers : ∀ k < s.callers.length, s.callerSettled k = true
  noTxComplete : s.completeEnabled .tx = false
  noDelay : ∀ ch, s.delayEnabled ch = false
  noHalt : ∀ ch, s.haltEnabled ch = false

theorem State.settledFacts {s : State} (h : s.settled = true) : s.SettledFacts := by
  simp only [State.settled, Bool.and_eq_true, List.all_eq_true, List.mem_range, Bool.not_eq_true',
    decide_eq_true_eq] at h
  obtain ⟨⟨⟨⟨⟨⟨⟨⟨⟨⟨⟨callers, irqTx⟩, entryTx⟩, irqRx⟩, entryRx⟩, deferIdle⟩, notScheduled⟩, noTxComplete⟩, delayTx⟩,
    delayRx⟩, haltTx⟩, haltRx⟩ := h
  exact ⟨⟨Channel.rec irqTx irqRx, Channel.rec entryTx entryRx, deferIdle, notScheduled⟩, callers, noTxComplete,
    Channel.rec delayTx delayRx, Channel.rec haltTx haltRx⟩

/-- An engine of a settled state waits on the environment (R366). -/
theorem State.SettledFacts.engine {s : State} {c : Choice} {ch : Channel} (h : s.SettledFacts)
    (hc : choiceAgent c = engineAgent ch) (he : s.enabled c = true) : c = .rxComplete ∨ c = .fail ch := by
  obtain ⟨rfl, -⟩ | ⟨rfl, -⟩ | rfl | rfl | rfl := choiceAgent_eq_engineAgent hc
  · exact absurd he (Bool.eq_false_iff.mp h.noTxComplete)
  · exact .inl rfl
  · exact absurd he (Bool.eq_false_iff.mp (h.noDelay ch))
  · exact absurd he (Bool.eq_false_iff.mp (h.noHalt ch))
  · exact .inr rfl

/-- Settles O60: only callers and engines could step; the callers are settled, the engines wait on the environment. -/
theorem settledWaitsOnEnvironment : Obligations.SettledWaitsOnEnvironment := by
  intro s c hsettled htrace he
  have hfacts := s.settledFacts hsettled
  obtain ⟨k, hc⟩ | ⟨ch, hc⟩ := hfacts.toServicesIdle.agent htrace he
  · obtain ⟨hk, -⟩ := callerLives_of_enabled hc he
    exact absurd he (Bool.eq_false_iff.mp (enabled_of_callerSettled (hfacts.callers k hk) hc))
  · obtain rfl | rfl := hfacts.engine hc he
    · exact .inl rfl
    · cases ch with
      | tx => exact .inr (.inl rfl)
      | rx => exact .inr (.inr rfl)

/-! ## Reset -/

section
variable (c : Config) (streams : List (List Command)) (sch : List Choice) (dr : Draws)

@[simp] theorem resetWith_chan (ch : Channel) : (State.resetWith c streams sch dr).chan ch = chanReset := by
  cases ch <;> rfl

@[simp] theorem resetWith_eng (ch : Channel) : (State.resetWith c streams sch dr).eng ch = engineReset c := by
  cases ch <;> rfl

theorem resetWith_streams : (State.resetWith c streams sch dr).callers.map Caller.stream
    = (List.range c.numCallers).map fun k => streams.getD k [] :=
  List.map_map

theorem resetWith_servicesIdle : (State.resetWith c streams sch dr).ServicesIdle where
  irqIdle ch := by cases ch <;> rfl
  noEntry ch := by simp [State.entryEnabled, State.line, engineReset]
  deferIdle := rfl
  notScheduled := rfl

/-- The engines have no step at reset: they are halted (R280, R353). -/
theorem resetWith_engRunning (ch : Channel) : (State.resetWith c streams sch dr).engRunning ch = false :=
  engRunning_of_halted (by rw [resetWith_eng]; rfl)

end

/-- Settles O12: each part of the reset state is the one its table names. -/
theorem resetValues : Obligations.ResetValues := by
  intro c streams sch dr
  refine ⟨rfl, rfl, rfl, rfl, fun ch => ?channels, rfl, rfl, fun ch => ?engines,
    resetWith_callers_length c streams sch dr, fun x hx => ?callers, rfl, rfl, rfl, rfl, rfl, rfl, rfl, rfl, rfl, rfl,
    resetWith_streams c streams sch dr⟩
  case channels => simp [chanReset]
  case engines => simp [engineReset]
  case callers =>
    obtain ⟨stream, rfl⟩ := resetWith_callers c streams sch dr hx
    exact ⟨rfl, rfl, rfl, rfl⟩

/-- Settles O14: only callers and engines could step; the engines are halted, the callers idle. -/
theorem resetEnablesOnlyCallers : Obligations.ResetEnablesOnlyCallers := by
  intro c streams sch dr choice he
  obtain ⟨k, hc⟩ | ⟨ch, hc⟩ := (resetWith_servicesIdle c streams sch dr).agent rfl he
  · obtain ⟨hk, -⟩ := callerLives_of_enabled hc he
    rw [resetWith_callers_length] at hk
    exact ⟨k, hk, (command_or_start_of_idle (resetWith_op c streams sch dr k) hc he).1⟩
  · have hhalted := enabled_of_not_engRunning hc (resetWith_engRunning c streams sch dr ch)
    exact absurd he (Bool.eq_false_iff.mp hhalted)

end Sys2Proof.Machine
end
